-- ==== Sys2Proof/Word.lean ====
section
/-! DEFINITION. The words of the machine: the 48-bit word (spec rule R8, bit 1 the high-order bit, R9) and the word
with its six check bits reduced to the attribute `parity_err` of rule R84. -/
namespace Sys2Proof

/-- The 48 information bits of a word (R8). Manual bit `k` is bit `48 - k` of the value (R9, decision D1). -/
abbrev Word := BitVec 48

/-- A 12-bit address group or command code (R130). Manual bit `k` is bit `12 - k`. -/
abbrev Group := BitVec 12

/-- A main memory word with its parity attribute: bit `k` of `perr` (manual numbering, frame 1 first) is set when
the parity bit of frame `k` is wrong (R84). -/
structure MWord where
  bits : Word
  perr : BitVec 6
deriving DecidableEq, Repr, Inhabited

/-- A word with good parity: what every ordinary store of the processor writes (R84). -/
abbrev MWord.good (w : Word) : MWord := ⟨w, 0#6⟩

/-- A tape, card, line or frame record: a sequence of words with their parity attributes (R445). -/
abbrev Record := List MWord

end Sys2Proof
end

