-- ==== Sys2Proof/Syntax.lean ====
section
/-! DEFINITION. The instructions: one constructor per row of spec/opcode_table.json. Every bit of the 48-bit word
that is not part of the operation code is kept, the ones the manual calls irrelevant too (they "may be used for storing
information", R440, R470, R480, R490, and the whole word is stored by an unprogrammed transfer, R602). -/
namespace Sys2Proof

/-- General unmasked, inherent mask and scientific layout (R133, R135, R138): the bisequence bit `cc{1}`, the memory
designators `cc{4..6}` and the three address groups. -/
structure Gen where
  seq : Bool
  dA : Bool
  dB : Bool
  dC : Bool
  a : Group
  b : Group
  c : Group
deriving DecidableEq, Repr

/-- Masked general ("field") layout (R134): the bisequence bit and the 5-bit partial mask address `cc{2..6}`. -/
structure Fld where
  seq : Bool
  mask : BitVec 5
  a : Group
  b : Group
  c : Group
deriving DecidableEq, Repr

/-- Peripheral layout (R136): channel `cc{1..3}` and device `cc{4..6}`. -/
structure Per where
  ch : BitVec 3
  dev : BitVec 3
  a : Group
  b : Group
  c : Group
deriving DecidableEq, Repr

/-- Print layout (R137): `cc{2..3}` and the B designator `cc{5}` are irrelevant; the B group is a literal. -/
structure Prt where
  seq : Bool
  irr2 : Bool
  irr3 : Bool
  dA : Bool
  irr5 : Bool
  dC : Bool
  a : Group
  b : Group
  c : Group
deriving DecidableEq, Repr

/-- Control program layout (R140): `cc{4}` is irrelevant and `cc{5}` says whether a hunt follows. -/
structure Mpc where
  seq : Bool
  irr4 : Bool
  hunt : Bool
  dC : Bool
  a : Group
  b : Group
  c : Group
deriving DecidableEq, Repr

/-- Proceed layout (R140, R480): `cc{1}`, `cc{5}`, `cc{6}` are irrelevant, `cc{4}` must be zero to be defined. -/
structure Prc where
  irr1 : Bool
  bit4 : Bool
  irr5 : Bool
  irr6 : Bool
  a : Group
  b : Group
  c : Group
deriving DecidableEq, Repr

/-- Simulator layout (R139): `cc{2..9}`; `cc{1}` is in the constructor and `cc{10..12}` is 111. -/
structure Sim where
  addr : BitVec 8
  a : Group
  b : Group
  c : Group
deriving DecidableEq, Repr

/-- The instruction list (R150), one constructor per row of the opcode table; `…M` is the masked form. -/
inductive Instr where
  | ba (f : Gen)
  | da (f : Gen)
  | wa (f : Gen)
  | bs (f : Gen)
  | ds (f : Gen)
  | wd (f : Gen)
  | na (f : Gen)
  | nn (f : Gen)
  | la (f : Gen)
  | ln (f : Gen)
  | tx (f : Gen)
  | ts (f : Gen)
  | ha (f : Gen)
  | sm (f : Gen)
  | cp (f : Gen)
  | bm (f : Gen)
  | dm (f : Gen)
  | bt (f : Gen)
  | dt (f : Gen)
  | mt (f : Gen)
  | tn (f : Gen)
  | cc (f : Gen)
  | it (f : Gen)
  | eba (f : Gen)
  | ebs (f : Gen)
  | rt (f : Gen)
  | mpc (f : Mpc)
  | pr (f : Prc)
  | sws (f : Gen)
  | sps (f : Gen)
  | swe (f : Gen)
  | spe (f : Gen)
  | ssl (f : Gen)
  | ss (f : Gen)
  | ex (f : Gen)
  | fba (f : Gen)
  | fda (f : Gen)
  | fbs (f : Gen)
  | fds (f : Gen)
  | fbd (f : Gen)
  | fdd (f : Gen)
  | fbau (f : Gen)
  | fdau (f : Gen)
  | fbsu (f : Gen)
  | fdsu (f : Gen)
  | fbm (f : Gen)
  | fdm (f : Gen)
  | uld (f : Gen)
  | fbae (f : Gen)
  | fbse (f : Gen)
  | bd (f : Gen)
  | dd (f : Gen)
  | ffn (f : Gen)
  | fcon (f : Gen)
  | fln (f : Gen)
  | fnn (f : Gen)
  | baM (f : Fld)
  | daM (f : Fld)
  | waM (f : Fld)
  | bsM (f : Fld)
  | dsM (f : Fld)
  | wdM (f : Fld)
  | naM (f : Fld)
  | nnM (f : Fld)
  | laM (f : Fld)
  | lnM (f : Fld)
  | txM (f : Fld)
  | tsM (f : Fld)
  | haM (f : Fld)
  | smM (f : Fld)
  | cpM (f : Fld)
  | rf (f : Per)
  | rb (f : Per)
  | wf (f : Per)
  | rw (f : Per)
  | pra (f : Prt)
  | prd (f : Prt)
  | pro (f : Prt)
  | sDir (f : Sim)
  | sIdx (f : Sim)
deriving DecidableEq, Repr

end Sys2Proof
end

