-- ==== Sys2Proof/WellFormed.lean ====
section
/-! DEFINITION. Which terms of `Instr` are instructions of the machine. Every field of every layout has exactly the width
of its place in the word, so the only checks are those of the three names of the one print operation (R137, R150):
the mode bits `B{5..6}` say which of them a print word is. -/
namespace Sys2Proof

/-- The print mode `B{5..6}` of the literal B group (R137). -/
def printMode (b : Group) : BitVec 2 := b.extractLsb' 6 2

/-- PRA is the print word with mode 10 (R461), PRD with mode 11 (R462), PRO with mode 01 (R463). Mode 00 is "not
defined" (R137) but legal where the mode is irrelevant (R468); such a word is given to PRO (log 13). -/
def WellFormed : Instr → Bool
  | .pra f => printMode f.b == 0b10#2
  | .prd f => printMode f.b == 0b11#2
  | .pro f => printMode f.b == 0b01#2 || printMode f.b == 0b00#2
  | _ => true

end Sys2Proof
end

