-- ==== Sys2Proof/Decode.lean ====
section
/-! DEFINITION. The decoder (decode order of rule R132 over the operation code map OPMAP, whose default is rule R146, log 12) and the encoder, and
the bit-field and serialisation helpers they use. -/
namespace Sys2Proof

/-- `w{i..j}`: bits `i` to `j` in the manual's numbering, bit 1 the high-order bit (R9). -/
def fld {n : Nat} (w : BitVec n) (i j : Nat) : BitVec (j + 1 - i) := w.extractLsb' (n - j) (j + 1 - i)

/-- `w{i}`: bit `i` in the manual's numbering (R9). -/
def bitAt {n : Nat} (w : BitVec n) (i : Nat) : Bool := w.getLsbD (n - i)

/-- Why a word is no instruction: an unassigned command code (R147). -/
inductive DecodeError where
  | unassigned
deriving DecidableEq, Repr

/-- The fields of the general layout (R133). -/
def genOf (w : Word) : Gen :=
  ⟨bitAt w 1, bitAt w 4, bitAt w 5, bitAt w 6, fld w 13 24, fld w 25 36, fld w 37 48⟩

/-- The fields of the masked layout (R134). -/
def fldOf (w : Word) : Fld := ⟨bitAt w 1, fld w 2 6, fld w 13 24, fld w 25 36, fld w 37 48⟩

/-- The fields of the peripheral layout (R136). -/
def perOf (w : Word) : Per := ⟨fld w 1 3, fld w 4 6, fld w 13 24, fld w 25 36, fld w 37 48⟩

/-- The fields of the print layout (R137). -/
def prtOf (w : Word) : Prt :=
  ⟨bitAt w 1, bitAt w 2, bitAt w 3, bitAt w 4, bitAt w 5, bitAt w 6, fld w 13 24, fld w 25 36, fld w 37 48⟩

/-- The fields of the control program layout (R140). -/
def mpcOf (w : Word) : Mpc :=
  ⟨bitAt w 1, bitAt w 4, bitAt w 5, bitAt w 6, fld w 13 24, fld w 25 36, fld w 37 48⟩

/-- The fields of the proceed layout (R140). -/
def prcOf (w : Word) : Prc :=
  ⟨bitAt w 1, bitAt w 4, bitAt w 5, bitAt w 6, fld w 13 24, fld w 25 36, fld w 37 48⟩

/-- The fields of the simulator layout (R139). -/
def simOf (w : Word) : Sim := ⟨fld w 2 9, fld w 13 24, fld w 25 36, fld w 37 48⟩

/-! ### The operation code map (R7, R146) -/

/-- The operations of table `SIX` of R146: the masked general instructions, the peripheral instructions and print. -/
inductive SixOp where
  | ba | da | wa | bs | ds | wd | na | nn | la | ln
  | tx | ts | ha | sm | cp | rf | rb | wf | rw | print
deriving DecidableEq, Repr

/-- The operations of table `EIGHT` of R146. -/
inductive EightOp where
  | ba | da | wa | bs | ds | wd | na | nn | la | ln | tx | ts
  | ha | sm | cp | bm | dm | bt | dt | mt | tn | cc | it | eba
  | ebs | rt | mpc | pr | sws | sps | swe | spe | ssl | ss | ex | fba
  | fda | fbs | fds | fbd | fdd | fbau | fdau | fbsu | fdsu | fbm | fdm | uld
  | fbae | fbse | bd | dd | ffn | fcon | fln | fnn
deriving DecidableEq, Repr

/-- The operations of table `SIX`. -/
def SixOp.all : List SixOp :=
  [.ba, .da, .wa, .bs, .ds, .wd, .na, .nn, .la, .ln, .tx, .ts,
   .ha, .sm, .cp, .rf, .rb, .wf, .rw, .print]

/-- The operations of table `EIGHT`. -/
def EightOp.all : List EightOp :=
  [.ba, .da, .wa, .bs, .ds, .wd, .na, .nn, .la, .ln, .tx, .ts, .ha, .sm,
   .cp, .bm, .dm, .bt, .dt, .mt, .tn, .cc, .it, .eba, .ebs, .rt, .mpc, .pr,
   .sws, .sps, .swe, .spe, .ssl, .ss, .ex, .fba, .fda, .fbs, .fds, .fbd, .fdd, .fbau,
   .fdau, .fbsu, .fdsu, .fbm, .fdm, .uld, .fbae, .fbse, .bd, .dd, .ffn, .fcon, .fln, .fnn]

/-- `OPMAP` (R7): the codes of the two tables; a code of `SIX` is bits 7-12 of the command code, one of `EIGHT` bits 2-3 followed by
bits 7-12. -/
structure OpMap where
  six : List (BitVec 6 × SixOp)
  eight : List (BitVec 8 × EightOp)
deriving DecidableEq, Repr

/-- The operation of table `SIX` with a code. -/
def OpMap.sixOp (m : OpMap) (c : BitVec 6) : Option SixOp := (m.six.find? fun p => p.1 == c).map (·.2)

/-- The operation of table `EIGHT` with a code. -/
def OpMap.eightOp (m : OpMap) (c : BitVec 8) : Option EightOp := (m.eight.find? fun p => p.1 == c).map (·.2)

/-- The code of an operation of table `SIX`. -/
def OpMap.sixCode (m : OpMap) (o : SixOp) : BitVec 6 := ((m.six.find? fun p => p.2 == o).map (·.1)).getD 0

/-- The code of an operation of table `EIGHT`. -/
def OpMap.eightCode (m : OpMap) (o : EightOp) : BitVec 8 := ((m.eight.find? fun p => p.2 == o).map (·.1)).getD 0

/-- A map that gives every operation one code and no code two meanings: the invariants that R132 and R146 state of the tables. -/
def OpMap.wf (m : OpMap) : Bool :=
  (SixOp.all.all fun o => m.six.any fun p => p.2 == o) &&
  (EightOp.all.all fun o => m.eight.any fun p => p.2 == o) &&
  (m.six.all fun p => m.six.all fun q => (p.1 == q.1) == (p.2 == q.2)) &&
  (m.eight.all fun p => m.eight.all fun q => (p.1 == q.1) == (p.2 == q.2)) &&
  (m.six.all fun p => fld p.1 4 6 != 0b111#3) &&
  (m.eight.all fun p => fld p.1 6 8 != 0b111#3) &&
  (m.eight.all fun p => m.six.all fun q => fld p.1 3 8 != q.1)

/-- The default of table `SIX` (R146). -/
def OpMap.defaultSix : List (BitVec 6 × SixOp) :=
  [(0b101001#6, .ba), (0b100001#6, .da), (0b101101#6, .wa), (0b111001#6, .bs), (0b110001#6, .ds),
   (0b111101#6, .wd), (0b100100#6, .na), (0b101100#6, .nn), (0b110100#6, .la), (0b111100#6, .ln),
   (0b100011#6, .tx), (0b110011#6, .ts), (0b101000#6, .ha), (0b111110#6, .sm), (0b110101#6, .cp),
   (0b110010#6, .rf), (0b111010#6, .rb), (0b101010#6, .wf), (0b101110#6, .rw), (0b110110#6, .print)]

/-- The default of table `EIGHT` (R146), the rows with bits 2-3 = 00. -/
def OpMap.default00 : List (BitVec 8 × EightOp) :=
  [(0b00011011#8, .bm), (0b00010011#8, .dm), (0b00010000#8, .mt), (0b00100000#8, .tn), (0b00000000#8, .pr),
   (0b00000110#8, .ss), (0b00001110#8, .ex), (0b00001101#8, .uld), (0b00000001#8, .fbae), (0b00010001#8, .fbse),
   (0b00000101#8, .bd), (0b00001001#8, .dd), (0b00011001#8, .ffn), (0b00011101#8, .fcon)]

/-- The default of table `EIGHT` (R146), the rows with bits 2-3 = 01. -/
def OpMap.default01 : List (BitVec 8 × EightOp) :=
  [(0b01011000#8, .cc), (0b01010000#8, .it), (0b01000001#8, .fba), (0b01010001#8, .fda), (0b01001101#8, .fbs),
   (0b01001001#8, .fds), (0b01011001#8, .fbd), (0b01000101#8, .fdd)]

/-- The default of table `EIGHT` (R146), the rows with bits 2-3 = 10. -/
def OpMap.default10 : List (BitVec 8 × EightOp) :=
  [(0b10001001#8, .ba), (0b10000001#8, .da), (0b10001101#8, .wa), (0b10011001#8, .bs), (0b10010001#8, .ds),
   (0b10011101#8, .wd), (0b10000100#8, .na), (0b10001100#8, .nn), (0b10010100#8, .la), (0b10011100#8, .ln),
   (0b10000011#8, .tx), (0b10010011#8, .ts), (0b10001000#8, .ha), (0b10011110#8, .sm), (0b10010101#8, .cp),
   (0b10011011#8, .bt), (0b10001011#8, .dt), (0b10000000#8, .rt), (0b10000101#8, .mpc), (0b10000110#8, .sws),
   (0b10000010#8, .sps), (0b10001110#8, .swe), (0b10001010#8, .spe), (0b10010010#8, .ssl), (0b10010000#8, .fln),
   (0b10011000#8, .fnn)]

/-- The default of table `EIGHT` (R146), the rows with bits 2-3 = 11. -/
def OpMap.default11 : List (BitVec 8 × EightOp) :=
  [(0b11001011#8, .eba), (0b11011011#8, .ebs), (0b11010001#8, .fbau), (0b11001001#8, .fdau), (0b11011001#8, .fbsu),
   (0b11001101#8, .fdsu), (0b11000101#8, .fbm), (0b11010101#8, .fdm)]

/-- The default operation code map (R146, D30; log 12). -/
def OpMap.default : OpMap := ⟨defaultSix, default00 ++ default01 ++ default10 ++ default11⟩

/-! ### Decoding (R132) -/

/-- The print operation, whose mode bits name it PRA, PRD or PRO (R137, R461 to R463); mode 00 goes to PRO (log 13). -/
def decodePrint (w : Word) : Instr :=
  match (printMode (fld w 25 36)).toNat with
  | 0b10 => .pra (prtOf w)
  | 0b11 => .prd (prtOf w)
  | _ => .pro (prtOf w)

/-- The instruction of an operation of table `SIX`, by its layout (R134, R136, R137). -/
def SixOp.read (o : SixOp) (w : Word) : Instr :=
  match o with
  | .ba => .baM (fldOf w)
  | .da => .daM (fldOf w)
  | .wa => .waM (fldOf w)
  | .bs => .bsM (fldOf w)
  | .ds => .dsM (fldOf w)
  | .wd => .wdM (fldOf w)
  | .na => .naM (fldOf w)
  | .nn => .nnM (fldOf w)
  | .la => .laM (fldOf w)
  | .ln => .lnM (fldOf w)
  | .tx => .txM (fldOf w)
  | .ts => .tsM (fldOf w)
  | .ha => .haM (fldOf w)
  | .sm => .smM (fldOf w)
  | .cp => .cpM (fldOf w)
  | .rf => .rf (perOf w)
  | .rb => .rb (perOf w)
  | .wf => .wf (perOf w)
  | .rw => .rw (perOf w)
  | .print => decodePrint w

/-- The instruction of an operation of table `EIGHT`, by its layout (R133, R135, R138, R140). -/
def EightOp.read (o : EightOp) (w : Word) : Instr :=
  match o with
  | .ba => .ba (genOf w)
  | .da => .da (genOf w)
  | .wa => .wa (genOf w)
  | .bs => .bs (genOf w)
  | .ds => .ds (genOf w)
  | .wd => .wd (genOf w)
  | .na => .na (genOf w)
  | .nn => .nn (genOf w)
  | .la => .la (genOf w)
  | .ln => .ln (genOf w)
  | .tx => .tx (genOf w)
  | .ts => .ts (genOf w)
  | .ha => .ha (genOf w)
  | .sm => .sm (genOf w)
  | .cp => .cp (genOf w)
  | .bm => .bm (genOf w)
  | .dm => .dm (genOf w)
  | .bt => .bt (genOf w)
  | .dt => .dt (genOf w)
  | .mt => .mt (genOf w)
  | .tn => .tn (genOf w)
  | .cc => .cc (genOf w)
  | .it => .it (genOf w)
  | .eba => .eba (genOf w)
  | .ebs => .ebs (genOf w)
  | .rt => .rt (genOf w)
  | .mpc => .mpc (mpcOf w)
  | .pr => .pr (prcOf w)
  | .sws => .sws (genOf w)
  | .sps => .sps (genOf w)
  | .swe => .swe (genOf w)
  | .spe => .spe (genOf w)
  | .ssl => .ssl (genOf w)
  | .ss => .ss (genOf w)
  | .ex => .ex (genOf w)
  | .fba => .fba (genOf w)
  | .fda => .fda (genOf w)
  | .fbs => .fbs (genOf w)
  | .fds => .fds (genOf w)
  | .fbd => .fbd (genOf w)
  | .fdd => .fdd (genOf w)
  | .fbau => .fbau (genOf w)
  | .fdau => .fdau (genOf w)
  | .fbsu => .fbsu (genOf w)
  | .fdsu => .fdsu (genOf w)
  | .fbm => .fbm (genOf w)
  | .fdm => .fdm (genOf w)
  | .uld => .uld (genOf w)
  | .fbae => .fbae (genOf w)
  | .fbse => .fbse (genOf w)
  | .bd => .bd (genOf w)
  | .dd => .dd (genOf w)
  | .ffn => .ffn (genOf w)
  | .fcon => .fcon (genOf w)
  | .fln => .fln (genOf w)
  | .fnn => .fnn (genOf w)

/-- The code of a word in table `EIGHT`: bits 2-3 and 7-12. -/
def eightBits (w : Word) : BitVec 8 := BitVec.ofNat 8 ((fld w 2 3).toNat * 64 + (fld w 7 12).toNat)

/-- The decode order of R132: simulator, `SIX`, `EIGHT`, else unassigned (R147). -/
def decode (m : OpMap) (w : Word) : Except DecodeError Instr :=
  if fld w 10 12 = 0b111#3 then
    .ok (if bitAt w 1 then .sIdx (simOf w) else .sDir (simOf w))
  else
    match m.sixOp (fld w 7 12) with
    | some o => .ok (o.read w)
    | none =>
      match m.eightOp (eightBits w) with
      | some o => .ok (o.read w)
      | none => .error .unassigned

/-! ### Encoding -/

/-- A command code followed by the three address groups (R130). -/
def encodeWord (cc : Nat) (a b c : Group) : Word :=
  BitVec.ofNat 48 (cc * 2 ^ 36 + a.toNat * 2 ^ 24 + b.toNat * 2 ^ 12 + c.toNat)

/-- The command code of the general layout: operation code bits 2-3 `hi` and bits 7-12 `op` (R133). -/
def genCode (hi op : Nat) (f : Gen) : Nat :=
  f.seq.toNat * 2 ^ 11 + hi * 2 ^ 9 + f.dA.toNat * 2 ^ 8 + f.dB.toNat * 2 ^ 7 + f.dC.toNat * 2 ^ 6 + op

/-- The general layout (R133). -/
def encodeGen (hi op : Nat) (f : Gen) : Word := encodeWord (genCode hi op f) f.a f.b f.c

/-- The masked layout with operation code `op` (R134). -/
def encodeFld (op : Nat) (f : Fld) : Word :=
  encodeWord (f.seq.toNat * 2 ^ 11 + f.mask.toNat * 2 ^ 6 + op) f.a f.b f.c

/-- The peripheral layout with operation code `op` (R136). -/
def encodePer (op : Nat) (f : Per) : Word := encodeWord (f.ch.toNat * 2 ^ 9 + f.dev.toNat * 2 ^ 6 + op) f.a f.b f.c

/-- The print layout (R137) with operation code `op`; the mode bits that name the operation stand in the B group. -/
def encodePrt (op : Nat) (f : Prt) : Word :=
  encodeWord (f.seq.toNat * 2 ^ 11 + f.irr2.toNat * 2 ^ 10 + f.irr3.toNat * 2 ^ 9 + f.dA.toNat * 2 ^ 8 +
    f.irr5.toNat * 2 ^ 7 + f.dC.toNat * 2 ^ 6 + op) f.a f.b f.c

/-- The simulator layout with `cc{1}` = `indexed` (R139). -/
def encodeSim (indexed : Bool) (f : Sim) : Word :=
  encodeWord (indexed.toNat * 2 ^ 11 + f.addr.toNat * 2 ^ 3 + 0b111) f.a f.b f.c

/-- An operation of table `EIGHT` in the general layout. -/
def OpMap.general (m : OpMap) (o : EightOp) (f : Gen) : Word :=
  encodeGen ((m.eightCode o).toNat / 64) ((m.eightCode o).toNat % 64) f

/-- An operation of table `SIX` in the masked layout. -/
def OpMap.field (m : OpMap) (o : SixOp) (f : Fld) : Word := encodeFld (m.sixCode o).toNat f

/-- An operation of table `SIX` in the peripheral layout. -/
def OpMap.peripheral (m : OpMap) (o : SixOp) (f : Per) : Word := encodePer (m.sixCode o).toNat f

/-- The one word of each instruction (R130, R133 to R140, R146). -/
def encode (m : OpMap) : Instr → Word
  | .ba f => m.general .ba f
  | .da f => m.general .da f
  | .wa f => m.general .wa f
  | .bs f => m.general .bs f
  | .ds f => m.general .ds f
  | .wd f => m.general .wd f
  | .na f => m.general .na f
  | .nn f => m.general .nn f
  | .la f => m.general .la f
  | .ln f => m.general .ln f
  | .tx f => m.general .tx f
  | .ts f => m.general .ts f
  | .ha f => m.general .ha f
  | .sm f => m.general .sm f
  | .cp f => m.general .cp f
  | .bm f => m.general .bm f
  | .dm f => m.general .dm f
  | .bt f => m.general .bt f
  | .dt f => m.general .dt f
  | .mt f => m.general .mt f
  | .tn f => m.general .tn f
  | .cc f => m.general .cc f
  | .it f => m.general .it f
  | .eba f => m.general .eba f
  | .ebs f => m.general .ebs f
  | .rt f => m.general .rt f
  | .mpc f => m.general .mpc ⟨f.seq, f.irr4, f.hunt, f.dC, f.a, f.b, f.c⟩
  | .pr f => m.general .pr ⟨f.irr1, f.bit4, f.irr5, f.irr6, f.a, f.b, f.c⟩
  | .sws f => m.general .sws f
  | .sps f => m.general .sps f
  | .swe f => m.general .swe f
  | .spe f => m.general .spe f
  | .ssl f => m.general .ssl f
  | .ss f => m.general .ss f
  | .ex f => m.general .ex f
  | .fba f => m.general .fba f
  | .fda f => m.general .fda f
  | .fbs f => m.general .fbs f
  | .fds f => m.general .fds f
  | .fbd f => m.general .fbd f
  | .fdd f => m.general .fdd f
  | .fbau f => m.general .fbau f
  | .fdau f => m.general .fdau f
  | .fbsu f => m.general .fbsu f
  | .fdsu f => m.general .fdsu f
  | .fbm f => m.general .fbm f
  | .fdm f => m.general .fdm f
  | .uld f => m.general .uld f
  | .fbae f => m.general .fbae f
  | .fbse f => m.general .fbse f
  | .bd f => m.general .bd f
  | .dd f => m.general .dd f
  | .ffn f => m.general .ffn f
  | .fcon f => m.general .fcon f
  | .fln f => m.general .fln f
  | .fnn f => m.general .fnn f
  | .baM f => m.field .ba f
  | .daM f => m.field .da f
  | .waM f => m.field .wa f
  | .bsM f => m.field .bs f
  | .dsM f => m.field .ds f
  | .wdM f => m.field .wd f
  | .naM f => m.field .na f
  | .nnM f => m.field .nn f
  | .laM f => m.field .la f
  | .lnM f => m.field .ln f
  | .txM f => m.field .tx f
  | .tsM f => m.field .ts f
  | .haM f => m.field .ha f
  | .smM f => m.field .sm f
  | .cpM f => m.field .cp f
  | .rf f => m.peripheral .rf f
  | .rb f => m.peripheral .rb f
  | .wf f => m.peripheral .wf f
  | .rw f => m.peripheral .rw f
  | .pra f => encodePrt (m.sixCode .print).toNat f
  | .prd f => encodePrt (m.sixCode .print).toNat f
  | .pro f => encodePrt (m.sixCode .print).toNat f
  | .sDir f => encodeSim false f
  | .sIdx f => encodeSim true f

/-- The six bytes of a word, most significant first (decision D1). -/
def wordBytes (w : Word) : List (BitVec 8) :=
  [fld w 1 8, fld w 9 16, fld w 17 24, fld w 25 32, fld w 33 40, fld w 41 48]

/-- The word whose six bytes, most significant first, are the given ones; a missing byte is zero. -/
def wordOfBytes (l : List (BitVec 8)) : Word :=
  BitVec.ofNat 48 ((l.getD 0 0#8).toNat * 2 ^ 40 + (l.getD 1 0#8).toNat * 2 ^ 32 + (l.getD 2 0#8).toNat * 2 ^ 24 +
    (l.getD 3 0#8).toNat * 2 ^ 16 + (l.getD 4 0#8).toNat * 2 ^ 8 + (l.getD 5 0#8).toNat)

/-- The instruction at the head of a list of bytes, with the rest of the list: every instruction is one word of six
bytes (R130, D1). -/
def decodeBytes (m : OpMap) (l : List (BitVec 8)) : Except DecodeError (Instr × List (BitVec 8)) :=
  match decode m (wordOfBytes l) with
  | .ok i => .ok (i, l.drop 6)
  | .error e => .error e

/-- What the decoder, with the default operation code map, reads from the `nbits` bits `w` (bit 0 the least significant bit of the one word, R130). -/
def decodeTableWord (nbits w : Nat) : Option Instr :=
  match decodeBytes OpMap.default (wordBytes (BitVec.ofNat 48 (w % 2 ^ nbits))) with
  | .ok (i, _) => some i
  | .error _ => none

end Sys2Proof
end

