-- ==== Sys2Proof/Config.lean ====
section
/-! DEFINITION. What an installation fixes (spec rule R7), and the free values: opaque constants of which nothing can be
proved, one value per count taken from `State.free` (log 15). -/
namespace Sys2Proof

/-- The legal memory sizes (R7, R80). -/
inductive MemSize where
  | w8192 | w16384 | w24576 | w32768 | w49152 | w65536
deriving DecidableEq, Repr

/-- `MEMWORDS` (R7). -/
def MemSize.words : MemSize → Nat
  | .w8192 => 8192
  | .w16384 => 16384
  | .w24576 => 24576
  | .w32768 => 32768
  | .w49152 => 49152
  | .w65536 => 65536

/-- The two directions of a channel (R8): eight input and eight output channels. -/
inductive Dir where
  | input | output
deriving DecidableEq, Repr

/-- The kinds of device of section 2 of 46_peripheral.md (R445 to R456): `printer` is a standard-speed printer, `fastPrinter` a
high-speed one (R450); `other` is the equipment R456 names without giving its words. -/
inductive DevKind where
  | tape | cardReader | cardPunch | printer | fastPrinter | paperReader | paperPunch | other
deriving DecidableEq, Repr

/-- One control connected to a channel, with the kind of each device number installed on it (R401: `CHANNELS`, whose lookup form is
`DEVMAP`). -/
structure Attach where
  dir : Dir
  ch : BitVec 3
  devs : List (BitVec 3 × DevKind)
deriving DecidableEq, Repr

/-- The installation's parameters (R7). `EXTENDED` follows from the memory size. `multiples` are the devices of each multiple terminal
unit control (R458), by direction, channel and number. -/
structure Config where
  mem : MemSize
  fpu : Bool
  barricade : Bool
  slave : Bool
  channels : List Attach
  multiples : List (List (Dir × BitVec 3 × BitVec 3))
  tcOrder : List (Dir × BitVec 3)
  opmap : OpMap
  illegalOp : BitVec 5
deriving DecidableEq, Repr

/-- `EXTENDED` is true exactly when `MEMWORDS > 32768` (R80). -/
def Config.extended (c : Config) : Bool := decide (32768 < c.mem.words)

/-- The standard traffic control order: output channels 1..7, 0, then input channels 1..7, 0 (R100). -/
def Config.standardOrder : List (Dir × BitVec 3) :=
  [(.output, 1), (.output, 2), (.output, 3), (.output, 4), (.output, 5), (.output, 6), (.output, 7), (.output, 0),
   (.input, 1), (.input, 2), (.input, 3), (.input, 4), (.input, 5), (.input, 6), (.input, 7), (.input, 0)]

/-- Eight tape units on one control (R445). -/
def Config.eightTapes : List (BitVec 3 × DevKind) :=
  [(0, .tape), (1, .tape), (2, .tape), (3, .tape), (4, .tape), (5, .tape), (6, .tape), (7, .tape)]

/-- The installation of `State.reset`: every option of R2, the largest memory, the default operation codes, tape controls on channels
0, 1 and 2, card equipment on channel 3, a printer on output channel 4 and paper tape equipment on channel 5. DESIGN CHOICE, unsafe where a statement
rests on it (log 6). -/
def Config.standard : Config where
  mem := .w65536
  fpu := true
  barricade := true
  slave := true
  channels :=
    [⟨.input, 0, eightTapes⟩, ⟨.output, 0, eightTapes⟩, ⟨.input, 1, eightTapes⟩, ⟨.output, 1, eightTapes⟩,
     ⟨.input, 2, eightTapes⟩, ⟨.output, 2, eightTapes⟩, ⟨.input, 3, [(0, .cardReader)]⟩, ⟨.output, 3, [(0, .cardPunch)]⟩,
     ⟨.output, 4, [(0, .printer)]⟩, ⟨.input, 5, [(0, .paperReader)]⟩, ⟨.output, 5, [(0, .paperPunch)]⟩]
  multiples := []
  tcOrder := standardOrder
  opmap := OpMap.default
  illegalOp := 0b00110#5

/-- A free word (log 15). -/
opaque Config.freeWord : Nat → Word

/-- A free truth value (log 15). -/
opaque Config.freeBool : Nat → Bool

/-- A free record: what a tape delivers where its contents are not specified (R445, log 38). -/
opaque Config.freeRecord : Nat → Record

/-- Free tape contents, after a violation of the active-A requirement of R402 (log 38). -/
opaque Config.freeTape : Nat → List Record

end Sys2Proof
end

