-- ==== Sys2Proof/Machine/State.lean ====
section
/-! DEFINITION. The state of the machine as plain data (10_state.md rules R20 to R52), the reasons a step can stop, and
the state after reset (70_reset_and_hazards.md rule R682). -/
namespace Sys2Proof.Machine

/-- The two sequencing counters of a group (R31). -/
inductive Ctr where
  | sc | csc
deriving DecidableEq, Repr

/-- The check attribute of a special register (R22 `parity_ok`, R205, R215): `good`; `bad`, a control error when the
contents are used as an address. The others are of counters, whose contents an explicit use finds good: `ended`, a sequencing counter that
would go beyond the stopper (R33; log 16), control error 00011 when it next selects; `crossed`, a counter stepped past the barricade
boundary (R662; log 17), and `lost`, one given an address outside 15 bits (log 33), control error 00001 when next used implicitly as an
address. -/
inductive RegTag where
  | good | bad | ended | crossed | lost
deriving DecidableEq, Repr

/-- Whether the implicit use of a register as an address is the critical control error 00011 (R33, R205). -/
def RegTag.fatal : RegTag → Bool
  | .bad => true
  | .ended => true
  | _ => false

/-- Whether the implicit use of a counter as an address is control error 00001 (R92, R662). -/
def RegTag.astray : RegTag → Bool
  | .crossed => true
  | .lost => true
  | _ => false

/-- A special register: the array bit (R27; false when not `EXTENDED`), the sign and 15 address bits (R22), the check attribute. -/
structure SReg where
  arr : Bool
  bits : BitVec 16
  tag : RegTag
deriving DecidableEq, Repr

/-- The three types of word the add instructions leave in the accumulator (R221). -/
inductive AcKind where
  | binary | decimal | unsigned
deriving DecidableEq, Repr

/-- `ac_state` (R221): `held`, a word of one type waits in the accumulator; `delivered`, the word there has been stored; `spent`, a word was
delivered and nothing in the accumulator is defined any more (R43, R350): a word of these two states cannot be delivered again. `printable` is
undefined to the add instructions, but a rule leaves a word in the accumulator, which a print may take (R293, R311, R379, R460; log 23). -/
inductive AcState where
  | undefined
  | printable
  | delivered
  | spent
  | held (k : AcKind)
deriving DecidableEq, Repr

/-- Why a group in demand gets no processor cycles (R48, R631): not at all, until a channel or device completes (R408), or until
the demand bit of group `t` is off (R472). -/
inductive Stall where
  | running
  | io
  | demand (t : BitVec 3)
deriving DecidableEq, Repr

/-- A limited control error waiting to turn its group off (R666): with `late`, one more instruction of the group is performed
before the next one is converted to a proceed instruction (class d). -/
structure Limited where
  code : BitVec 5
  group : BitVec 3
  late : Bool
deriving DecidableEq, Repr

/-- The position of a card reader's mode switch (R447). -/
inductive CardMode where
  | full | standard | transcribe
deriving DecidableEq, Repr

/-- What a typewriter types (R464) or a printer prints (R450): character codes, not glyphs (N63). `group` stands for the group indicator and
the spaces that separate it, whose number is not given; `any` is a symbol that is not specified (R450, R466). -/
inductive Sym where
  | group (g : BitVec 3)
  | space
  | char (c : BitVec 6)
  | hex (d : BitVec 4)
  | oct (d : BitVec 3)
  | cr
  | any (c : BitVec 6)
deriving DecidableEq, Repr

/-- A line a printer has printed (R450): where the form stood on the carriage tape, and the symbols from the leftmost position on. -/
structure PrintLine where
  place : Nat
  syms : List Sym
deriving DecidableEq, Repr

/-- The last operation given to a tape unit, as far as R402 asks for it. -/
inductive LastOp where
  | none | rewind | read | write
deriving DecidableEq, Repr

/-- A peripheral device (R49, R420, R424, R440, R445 to R452): `before` holds the records behind the head, nearest first (for an output
device, what it has produced), `after` the records ahead, `segment` how many records of a tape form its continuous initial segment (R445), `punching`
the word whose frame a paper tape punch is about to punch (R452); `eot` is the index of the first end-of-tape record; `locked` is set where the
operator has to act before the device can be used again, after a rewind with `lockOnRewind` or at the end of a file or run; `out` is a
unit out of service (R401, R422, R458); `errNext` is the error of the card just punched, stored with the next one (R432); `mode` is the
mode switch of a card reader (R447) and `odd` the frame parity a paper tape reader checks (R452); `carriage` is the carriage tape of a
printer, the twelve channels of each line, `place` the line at which the form stands and `lines` what has been printed, last
first (R450). -/
structure Device where
  busy : Bool
  readErr : Bool
  writeErr : Bool
  errNext : Bool
  switch : BitVec 3
  locked : Bool
  lockOnRewind : Bool
  out : Bool
  before : List Record
  after : List Record
  eot : Option Nat
  protect : Bool
  last : LastOp
  segment : Nat
  punching : Option MWord
  mode : CardMode
  odd : Option Bool
  carriage : List (BitVec 12)
  place : Nat
  lines : List PrintLine
deriving DecidableEq, Repr

/-- An idle device with nothing on it (R682). Where the operator's switches stand, that a tape is not protected, and the blank carriage tape are the
model's choice (log 62). -/
def Device.idle : Device where
  busy := false
  readErr := false
  writeErr := false
  errNext := false
  switch := 0
  locked := false
  lockOnRewind := false
  out := false
  before := []
  after := []
  eot := none
  protect := false
  last := .none
  segment := 0
  punching := none
  mode := .full
  odd := none
  carriage := []
  place := 0
  lines := []

/-- A transfer in progress on a channel (R410, R411): `todo` are the words still to come from an input device, `sent` the words
already sent to an output device, last first, `count` the words left of a fixed count (none: until the end-of-record word),
`first` whether the next word is the first of the record, `err` whether an error has been sensed. -/
structure Xfer where
  dev : BitVec 3
  kind : DevKind
  backward : Bool
  distributed : Bool
  first : Bool
  todo : List MWord
  sent : List MWord
  count : Option Nat
  err : Bool
deriving DecidableEq, Repr

/-- The word being typed (R464, R466): on which typewriter (true: the slave), and the symbols left. -/
structure Typing where
  slave : Bool
  left : List Sym
deriving DecidableEq, Repr

/-- What the console may do at a hunt point (R640), and the choice of the counter a group starts with (R681). -/
inductive ConsoleAct where
  | writeMem (a : Nat) (w : Word)
  | typeMem (a : Nat)
  | writeReg (g : BitVec 3) (i : BitVec 5) (arr : Bool) (v : BitVec 16)
  | typeReg (g : BitVec 3) (i : BitVec 5)
  | on (g : BitVec 3)
  | off (g : BitVec 3)
  | source (g : BitVec 3) (seq : Bool)
  | fixedStart (g : BitVec 3) (key : BitVec 4) (arr : Bool) (start : BitVec 15)
  | typeBarricade
deriving DecidableEq, Repr

/-- What comes from outside the processor (log 10): nothing; traffic control demands; the end of a device's motion; an error a device finds
in its own work; a word lost to an overrun (R102); a character cycle of the typewriter; a console command; and the operator's actions on
a device. -/
inductive Event where
  | quiet
  | demands (l : List (Dir × BitVec 3))
  | deviceDone (d : Dir) (ch dev : BitVec 3)
  | deviceError (d : Dir) (ch dev : BitVec 3)
  | overrun (d : Dir) (ch : BitVec 3)
  | typeChar
  | console (a : ConsoleAct)
  | setSwitch (d : Dir) (ch dev : BitVec 3) (p : BitVec 3)
  | mount (d : Dir) (ch dev : BitVec 3) (before after : List Record) (eot : Option Nat) (protect : Bool)
  | adjust (d : Dir) (ch dev : BitVec 3) (mode : CardMode) (odd : Option Bool) (carriage : List (BitVec 12))
  | unlock (d : Dir) (ch dev : BitVec 3)
  | service (d : Dir) (ch dev : BitVec 3) (out : Bool)
deriving DecidableEq, Repr

/-- Main memory as bytes at their addresses in one canonical form (log 8). -/
abbrev Memory := List Host.Cell

/-- The machine (10_state.md). The fields are listed, with rule and reset value, in INVENTORY.md. -/
structure State where
  cfg : Config
  mem : Memory
  regs : Vector SReg 256
  ac : Word
  acSign : Bool
  acState : AcState
  lop : Word
  lopHeld : Bool
  heldMask : Option Word
  mr : Word
  pcr : Word
  flac : Word
  flop : Word
  flopHeld : Bool
  fpuGroup : Option (BitVec 3)
  flacOvf : Bool
  flacUnf : Bool
  flopOvf : Bool
  flopUnf : Bool
  flacFixed : Bool
  fpCheckPending : Bool
  stalls : Vector Stall 8
  stallOrder : List (BitVec 3)
  firstOn : Option (BitVec 3)
  scan : Option (BitVec 3)
  consoleQ : List ConsoleAct
  consoleServed : Bool
  consoleOut : List Word
  byUtr : Bool
  sel : Ctr
  ctl : SReg
  utEntry : Option Nat
  limited : Option Limited
  halted : Bool
  bar : BitVec 24
  barParity : Bool
  devs : Vector Device 128
  xfers : Vector (Option Xfer) 16
  demands : Vector Bool 16
  typing : Option Typing
  typeSpoiled : Bool
  mtfConsole : Option (BitVec 3)
  mtfSlave : Option (BitVec 3)
  typedConsole : List Sym
  typedSlave : List Sym
  env : List Event
  free : Nat
deriving DecidableEq, Repr

/-- Reasons the model stops where the machine would not. -/
inductive Fault where
  /-- An orthocount or a record or item transfer has taken more words than any run of it that ends (R333, R495): raised by CC, RT,
  IT. Safe: the machine would loop for ever (log 28). -/
  | endlessTransfer
deriving DecidableEq, Repr

/-- Reasons an instruction has no meaning. All are safe: each is a configuration whose behaviour the spec calls unspecified
and for which it gives no effect (the rows marked `refuse` of 93_implementation_defined.md). -/
inductive Refusal where
  /-- An instruction the model gives no meaning; raised by `exec` only. Safe. -/
  | notModelled (mnemonic : String)
  /-- An address group 7777 with its designator 1 (U1, R220); raised by every instruction with designators. Safe. -/
  | inactiveWithDesignator
  /-- An inactive address the instruction's rule does not describe (U2, U25, U27, U29, U31, U33, U52, U70). Safe. -/
  | inactiveAddress
  /-- A shift with B inactive (U32, R370). Safe. -/
  | shiftInactiveB
  /-- A shift with B designator 1 (U7, R135). Safe. -/
  | shiftDesignatorB
  /-- PR with command code bit 4 one (U9, R480). Safe. -/
  | proceedBit4
  /-- Print with `B{1}` one in an active B group (U10, R460). Safe. -/
  | printBit1
  /-- Print with A a direct special register or indirect address and a non-zero increment (U17, R460). Safe. -/
  | printIncrement
  /-- Print mode 00 outside the barricade forms (U45, R460). Safe. -/
  | printMode
  /-- A typewriter number that names no typewriter of the system (U46, R460), or the slave's where none is installed (log 36). Safe. -/
  | typewriterNumber
  /-- DA or DS with a special register as C (U15, R251, R254). Safe. -/
  | decimalToRegister
  /-- RT, IT or CC with a special register as A or C (U16, R333, R330, R495). Safe. -/
  | groupRegister
  /-- CC with C an indirect address with a non-zero increment (U16, R495). Safe. -/
  | orthocountIncrement
  /-- MPC with C a special register or an indexed indirect address (U18, R470). Safe. -/
  | controlAddress
  /-- MPC with a function code above 1000, or 1000 with no one target or a caller in group 0 or 2 (U49, U50, R470, R472). Safe. -/
  | controlFunction
  /-- A peripheral operation the device cannot perform (U40, R401). Safe. -/
  | deviceCannot
  /-- A simulator instruction selected by an unprogrammed transfer (U57, R604). Safe. -/
  | simulatorFromTable
  /-- ULD with B active (U63, R557). Safe. -/
  | unloadActiveB
  /-- FFN with A and B inactive (U64, R556). Safe. -/
  | normalizeBothInactive
  /-- FCON with A inactive, or with a type number other than 1 and 4 (U65, R558). Safe. -/
  | conversionType
deriving DecidableEq, Repr

/-- The contents given to special registers at reset: 16 zero bits, good (R682 leaves the value to the installation; log 2). -/
def SReg.zero : SReg := ⟨false, 0#16, .good⟩

/-- The machine after reset (R682): PCR zero, nothing in demand, devices idle, the barricade disabled, the first scan from group
0 (D10); registers and memory the rule calls arbitrary are zero (logs 1, 2, 3), the installation is `Config.standard` (log 6). -/
def State.reset : State where
  cfg := Config.standard
  mem := []
  regs := Vector.replicate 256 SReg.zero
  ac := 0#48
  acSign := false
  acState := .undefined
  lop := 0#48
  lopHeld := false
  heldMask := none
  mr := 0#48
  pcr := 0#48
  flac := 0#48
  flop := 0#48
  flopHeld := false
  fpuGroup := none
  flacOvf := false
  flacUnf := false
  flopOvf := false
  flopUnf := false
  flacFixed := false
  fpCheckPending := false
  stalls := Vector.replicate 8 .running
  stallOrder := []
  firstOn := none
  scan := some 0
  consoleQ := []
  consoleServed := false
  consoleOut := []
  byUtr := false
  sel := .sc
  ctl := SReg.zero
  utEntry := none
  limited := none
  halted := false
  bar := 0x00F800#24
  barParity := false
  devs := Vector.replicate 128 Device.idle
  xfers := Vector.replicate 16 none
  demands := Vector.replicate 16 false
  typing := none
  typeSpoiled := false
  mtfConsole := none
  mtfSlave := none
  typedConsole := []
  typedSlave := []
  env := []
  free := 0

end Sys2Proof.Machine
end

