-- ==== Sys2Proof/Machine/Base.lean ====
section
/-! DEFINITION. What every other file of the machine rests on: bit fields, main memory as bytes, the special registers and the program
control register, the address space and the barricade, the places of devices and channels, control errors as states, and the processor's
operations with the stepping of registers. -/
namespace Sys2Proof.Machine

/-! ### Bit fields in the manual's numbering (R9) -/

/-- `w` with bit `i` set to `b`. -/
def setBitAt {n : Nat} (w : BitVec n) (i : Nat) (b : Bool) : BitVec n :=
  if b then w ||| (1#n <<< (n - i)) else w &&& ~~~(1#n <<< (n - i))

/-- `w` with bits `i` to `j` replaced by `v`. -/
def setFld {n : Nat} (w : BitVec n) (i j : Nat) (v : BitVec (j + 1 - i)) : BitVec n :=
  (w &&& ~~~(((BitVec.allOnes (j + 1 - i)).setWidth n) <<< (n - j))) ||| (v.setWidth n <<< (n - j))

/-! ### Special words (R88) -/

/-- The end-of-record word. -/
def eorWord : Word := 0xAA00EEEEDDDD#48

/-- The end-of-item symbol, the high-order 32 bits of the end-of-record word. -/
def eoiSymbol : BitVec 32 := 0xAA00EEEE#32

/-- `is_eor`. -/
def isEor (w : Word) : Bool := w == eorWord

/-- `is_eoi`: an end-of-record word satisfies it too. -/
def isEoi (w : Word) : Bool := fld w 1 32 == eoiSymbol

/-! ### Main memory as bytes (R82, D1; log 8) -/

/-- What a byte that nothing has written reads as (log 1). -/
def unlistedByte : BitVec 8 := 0#8

/-- The byte at an address. -/
def Memory.byte : Memory → Nat → BitVec 8
  | [], _ => unlistedByte
  | (k, b) :: t, a => if k = a then b else Memory.byte t a

/-- Memory with one byte written, in canonical form. -/
def Memory.setByte : Memory → Nat → BitVec 8 → Memory
  | [], a, b => if b = unlistedByte then [] else [(a, b)]
  | (k, c) :: t, a, b =>
    if a < k then (if b = unlistedByte then (k, c) :: t else (a, b) :: (k, c) :: t)
    else if a = k then (if b = unlistedByte then t else (a, b) :: t)
    else (k, c) :: Memory.setByte t a b

/-- Every address of the list lies above `lo`, addresses rise strictly, and no entry reads as an unlisted byte does. -/
def Memory.wfAbove : Nat → Memory → Bool
  | _, [] => true
  | lo, (k, b) :: t => decide (lo ≤ k) && decide (b ≠ unlistedByte) && Memory.wfAbove (k + 1) t

/-- The canonical form: addresses strictly rising, no entry equal to what an unlisted address reads as. -/
def Memory.wf (m : Memory) : Bool := Memory.wfAbove 0 m

/-- The word at word address `a`: bytes `8a` to `8a + 5`, the most significant first (D1), and its frame parity errors in byte
`8a + 6` (R84; log 8). -/
def Memory.word (m : Memory) (a : Nat) : MWord :=
  ⟨wordOfBytes [m.byte (8 * a), m.byte (8 * a + 1), m.byte (8 * a + 2), m.byte (8 * a + 3), m.byte (8 * a + 4),
    m.byte (8 * a + 5)], (m.byte (8 * a + 6)).setWidth 6⟩

/-- Memory with one word written: one whole word, never less (R82). -/
def Memory.setWord (m : Memory) (a : Nat) (v : MWord) : Memory :=
  ((((((m.setByte (8 * a) (fld v.bits 1 8)).setByte (8 * a + 1) (fld v.bits 9 16)).setByte (8 * a + 2)
    (fld v.bits 17 24)).setByte (8 * a + 3) (fld v.bits 25 32)).setByte (8 * a + 4) (fld v.bits 33 40)).setByte
    (8 * a + 5) (fld v.bits 41 48)).setByte (8 * a + 6) (v.perr.setWidth 8)

/-- An address no system has: it stands for a main memory address that does not exist (R92). -/
def nowhere : Nat := 65536

/-- The typewriter buffer, location 00021 octal (R90, R466). -/
def typewriterBuffer : Nat := 17

/-- Whether a location is the typewriter buffer while a word is being typed: what it then holds is not specified (R466, U47). -/
def State.reserved (s : State) (a : Nat) : Bool := a == typewriterBuffer && s.typing.isSome

/-- A free word with free parity errors: the next two free values. -/
def State.freeMWord (s : State) : MWord := ⟨Config.freeWord s.free, (Config.freeWord (s.free + 1)).setWidth 6⟩

/-- The store of one word, with no check. A store into the typewriter buffer is noticed, and leaves a free value there while a word is
being typed (R466, U47). -/
def State.putWord (s : State) (a : Nat) (v : MWord) : State :=
  { s with
    mem := s.mem.setWord a (if s.reserved a then s.freeMWord else v), typeSpoiled := s.typeSpoiled || a == typewriterBuffer,
    free := if s.reserved a then s.free + 2 else s.free }

/-- Whether a word's parity fails (R610). -/
def MWord.bad (w : MWord) : Bool := w.perr != 0#6

/-! ### Special registers (R22 to R28) -/

/-- The sign: true is plus. -/
def SReg.sign (r : SReg) : Bool := bitAt r.bits 1

/-- `sraddr`: the 15 address bits (R25). -/
def SReg.addr (r : SReg) : Nat := (fld r.bits 2 16).toNat

/-- The full main memory address the register holds (R27). -/
def SReg.full (r : SReg) : Nat := (if r.arr then 32768 else 0) + r.addr

/-- A good register with the given array bit, sign and 15-bit address. -/
def SReg.mk' (arr sign : Bool) (addr : Nat) : SReg :=
  ⟨arr, BitVec.ofNat 16 (sign.toNat * 32768 + addr % 32768), .good⟩

/-- The register with the same sign and array bit and another address. -/
def SReg.withAddr (r : SReg) (addr : Nat) : SReg := SReg.mk' r.arr r.sign addr

/-- `sr_to_word` (R28): the 16 bits in word bits 33 to 48, zeros before them. -/
def srToWord (r : SReg) : Word := r.bits.setWidth 48

/-- The place of register `i` of group `g` in control memory (R22). -/
def regIx (g : BitVec 3) (i : BitVec 5) : Fin 256 := ⟨g.toNat * 32 + i.toNat, by omega⟩

/-- `SR[g][i]`. -/
def State.reg (s : State) (g : BitVec 3) (i : BitVec 5) : SReg := s.regs[(regIx g i).val]'(regIx g i).isLt

/-- `SR[g][i] <- r`. -/
def State.setReg (s : State) (g : BitVec 3) (i : BitVec 5) (r : SReg) : State :=
  { s with regs := s.regs.set (regIx g i).val r (regIx g i).isLt }

/-- The subaddresses of R23 that have an implicit use. -/
def au1 : BitVec 5 := 0#5
/-- AU2 (R23). -/
def au2 : BitVec 5 := 1#5
/-- UTR (R23). -/
def utrIx : BitVec 5 := 6#5
/-- MXR (R23). -/
def mxrIx : BitVec 5 := 7#5
/-- RAC (R23, R42). -/
def racIx : BitVec 5 := 28#5
/-- DRAC (R23, R42). -/
def dracIx : BitVec 5 := 29#5
/-- WAC (R23, R42). -/
def wacIx : BitVec 5 := 30#5
/-- DWAC (R23, R42). -/
def dwacIx : BitVec 5 := 31#5

/-- SC or CSC (R23). -/
def Ctr.ix : Ctr → BitVec 5
  | .sc => 2#5
  | .csc => 3#5

/-- SH or CSH, the history register of a sequencing counter (R38). -/
def Ctr.hist : Ctr → BitVec 5
  | .sc => 4#5
  | .csc => 5#5

/-- The counter a bisequence bit names (R34). -/
def ctrOf (seq : Bool) : Ctr := if seq then .csc else .sc

/-! ### The program control register (R45) -/

/-- The control group indicator, `CUR` (R48). -/
def State.cur (s : State) : BitVec 3 := fld s.pcr 18 20

/-- The demand bit of group `g`. -/
def State.inDemand (s : State) (g : BitVec 3) : Bool := bitAt s.pcr (29 + g.toNat)

/-- The bisequence bit of group `g`: true is CSC. -/
def State.bis (s : State) (g : BitVec 3) : Bool := bitAt s.pcr (21 + g.toNat)

/-- The interlock bit of a channel: bits 9 to 16 for input, 41 to 48 for output, channel 0 first. -/
def interlockBit (d : Dir) (ch : BitVec 3) : Nat :=
  match d with
  | .input => 9 + ch.toNat
  | .output => 41 + ch.toNat

/-- One bit of the PCR written. -/
def State.setPcrBit (s : State) (i : Nat) (b : Bool) : State := { s with pcr := setBitAt s.pcr i b }

/-- The control group indicator written (R630). -/
def State.setCur (s : State) (g : BitVec 3) : State := { s with pcr := setFld s.pcr 18 20 g }

/-- The control error bits written (R620). -/
def State.setErrorCode (s : State) (code : BitVec 5) : State := { s with pcr := setFld s.pcr 4 8 code }

/-- The peripheral fixed-start bits written (R424). -/
def State.setFixedStart (s : State) (v : BitVec 3) : State := { s with pcr := setFld s.pcr 1 3 v }

/-- A demand bit written: a group turned off is no longer one of the stalled programs (R631). -/
def State.setDemandBit (s : State) (g : BitVec 3) (b : Bool) : State :=
  { s.setPcrBit (29 + g.toNat) b with stallOrder := if b then s.stallOrder else s.stallOrder.filter (· != g) }

/-- A bisequence bit written. -/
def State.setBis (s : State) (g : BitVec 3) (b : Bool) : State := s.setPcrBit (21 + g.toNat) b

/-! ### The address space and the barricade (R80, R91, R660, R662) -/

/-- Whether a main memory address exists (R92). -/
def State.exists? (s : State) (a : Nat) : Bool := decide (a < s.cfg.mem.words)

/-- The stopper subaddress of an array: the highest address of the system, or of each array when `EXTENDED` (R91). -/
def State.stopper (s : State) (arr : Bool) : Nat :=
  if s.cfg.extended then (if arr then s.cfg.mem.words - 1 - 32768 else 32767) else s.cfg.mem.words - 1

/-- The boundary address `BND` of the barricade, the low-order 11 bits ones (R660). -/
def State.boundary (s : State) : Nat := (fld s.bar 9 13).toNat * 2048 + 2047

/-- Whether `a` is the boundary location acting as a stopper (R662). -/
def State.atBoundary (s : State) (a : Nat) : Bool := s.cfg.barricade && (s.boundary == a)

/-- Whether the program of group `g` is restricted to the bounded area (R660). -/
def State.restricted (s : State) (g : BitVec 3) : Bool := s.cfg.barricade && bitAt s.bar (17 + g.toNat)

/-- Whether the executing program may not alter the memory location `a` (R660). -/
def State.barsMem (s : State) (a : Nat) : Bool := s.restricted s.cur && decide (s.boundary < a)

/-- Whether the executing program may not alter register `i` of group `h`: a register of a protected group, but for the read-write
counters (R660). -/
def State.barsReg (s : State) (h : BitVec 3) (i : BitVec 5) : Bool :=
  s.restricted s.cur && !s.restricted h && decide (i.toNat < 28)

/-- Whether a counter stands at a stopper or at the boundary, which its next step cannot pass (R91, R333, R662). -/
def State.atStopper (s : State) (r : SReg) : Bool := decide (r.addr = s.stopper r.arr) || s.atBoundary r.full

/-! ### Devices and channels (R49) -/

/-- The number of a direction. -/
def dirNat : Dir → Nat
  | .input => 0
  | .output => 1

/-- The lookup `DEVMAP` restricted to controls: is a control connected at a channel (R401)? -/
def Config.connected (c : Config) (d : Dir) (ch : BitVec 3) : Bool :=
  c.channels.any fun t => t.dir == d && t.ch == ch

/-- The lookup `DEVMAP` (R401). -/
def Config.kind (c : Config) (d : Dir) (ch dev : BitVec 3) : Option DevKind :=
  match c.channels.find? fun t => t.dir == d && t.ch == ch with
  | some t => (t.devs.find? fun p => p.1 == dev).map (·.2)
  | none => none

/-- The place of a device. A tape unit is one device on both sides of its control (R103, R445): the input side holds it. -/
def devIx (k : Option DevKind) (d : Dir) (ch dev : BitVec 3) : Fin 128 :=
  ⟨(match k, d with | some .tape, _ => 0 | _, .input => 0 | _, .output => 1) * 64 + ch.toNat * 8 + dev.toNat, by
    split <;> omega⟩

/-- The device at a place. -/
def State.dev (s : State) (d : Dir) (ch dev : BitVec 3) : Device :=
  s.devs[(devIx (Config.kind s.cfg d ch dev) d ch dev).val]'(devIx (Config.kind s.cfg d ch dev) d ch dev).isLt

/-- The device at a place replaced. -/
def State.setDev (s : State) (d : Dir) (ch dev : BitVec 3) (v : Device) : State :=
  let ix := devIx (Config.kind s.cfg d ch dev) d ch dev
  { s with devs := s.devs.set ix.val v ix.isLt }

/-- The place of a channel. -/
def chIx (d : Dir) (ch : BitVec 3) : Fin 16 := ⟨dirNat d * 8 + ch.toNat, by cases d <;> simp [dirNat] <;> omega⟩

/-- The transfer in progress on a channel. -/
def State.xfer (s : State) (d : Dir) (ch : BitVec 3) : Option Xfer := s.xfers[(chIx d ch).val]'(chIx d ch).isLt

/-- The transfer in progress on a channel replaced. -/
def State.setXfer (s : State) (d : Dir) (ch : BitVec 3) (x : Option Xfer) : State :=
  { s with xfers := s.xfers.set (chIx d ch).val x (chIx d ch).isLt }

/-- Whether a channel demands a memory cycle (R100). -/
def State.demands? (s : State) (d : Dir) (ch : BitVec 3) : Bool := s.demands[(chIx d ch).val]'(chIx d ch).isLt

/-- The demand of a channel set. -/
def State.setDemand (s : State) (d : Dir) (ch : BitVec 3) (b : Bool) : State :=
  { s with demands := s.demands.set (chIx d ch).val b (chIx d ch).isLt }

/-- Every program stalled for a channel or device is reactivated (R408); the one stalled first, of those in demand, is remembered
for the next hunt (R630, R631; log 59). -/
def State.release (s : State) : State :=
  { s with
    stalls := s.stalls.map fun x => match x with | .io => .running | y => y
    stallOrder := []
    firstOn := (s.firstOn.filter s.inDemand).or (s.stallOrder.find? s.inDemand) }

/-- Whether every word of a record taken alternately from its end sums to 48 ones, and no word is bad: the orthotronic and parity
check of a tape record (R446). The two sums start from zero. -/
def orthoOk : List MWord → Word → Word → Bool
  | [], x, y => x == BitVec.allOnes 48 && y == BitVec.allOnes 48
  | w :: t, x, y => (w.perr == 0#6) && orthoOk t y (x ^^^ w.bits)

/-- The check of a whole tape record, whose last word is the end-of-record word (R446). -/
def recordOk (r : Record) : Bool := orthoOk r.dropLast 0#48 0#48 && r.all fun w => w.perr == 0#6

/-- What a tape has once a record has been written: it takes the record at the head, which ends the continuous initial segment, and loses what
follows, unless it is protected, when it moves only and the error is stored (R432, R445). That it then moves over one recorded record, or not at all
where none lies ahead, is the model's choice (log 67). -/
def Device.recorded (v : Device) (x : Xfer) (r : Record) : Device :=
  if v.protect then
    { v with writeErr := true, before := (v.after.take 1) ++ v.before, after := v.after.drop 1 }
  else { v with writeErr := v.writeErr || x.err || !recordOk r, before := r :: v.before, after := [],
                segment := v.before.length + 1 }

/-- At a control error stop, a tape being written ends its record as if the end-of-record word had been supplied; every other
transfer is dropped (R621). -/
def State.closeChannel (s : State) (d : Dir) (ch : BitVec 3) : State :=
  match s.xfer d ch with
  | none => s
  | some x =>
    let s' := (s.setXfer d ch none).setDemand d ch false
    if d = .output ∧ x.kind = .tape then
      s'.setDev d ch x.dev ((s'.dev d ch x.dev).recorded x (x.sent.reverse ++ [MWord.good eorWord]))
    else s'

/-- The control error stop (R621): the code is displayed, the processor and all buffer cycles stop. -/
def State.halt (s : State) (code : BitVec 5) : State :=
  [0, 1, 2, 3, 4, 5, 6, 7].foldl (fun t ch => (t.closeChannel .input ch).closeChannel .output ch)
    { s.setErrorCode code with halted := true }

/-! ### Control errors and their limited form (R620 to R623, R666) -/

/-- The low-order exponent indicators reset, as the start of any instruction but ULD does (R528). -/
def State.begun (s : State) : State := { s with flopOvf := false, flopUnf := false }

/-- The arithmetic registers as they are, but with an instruction between a store into one and its retrieval (R221, R223, U3,
U48; log 25). -/
def State.intervened (s : State) : State :=
  { s with acState := .undefined, lopHeld := false, heldMask := none }

/-- `ac_state` across a hunt (R43, R221): what was held is lost, what was delivered stays so. -/
def AcState.dropped (a : AcState) : AcState :=
  match a with
  | .held _ => .undefined
  | .printable => .undefined
  | .delivered => .spent
  | a => a

/-- The arithmetic and floating registers across a hunt or a console action: nothing in them may be retrieved any more (R43, R223, R524,
R686, U60). -/
def State.dropHeld (s : State) : State :=
  { s with acState := s.acState.dropped, lopHeld := false, heldMask := none, flopHeld := false }

/-- Turning off the program responsible for a limited control error (R666): a proceed instruction, a hunt following. -/
def State.turnOff (s : State) (g : BitVec 3) (code : BitVec 5) : State :=
  { (s.begun.intervened.dropHeld.setDemandBit g false).setErrorCode code with
    bar := setFld s.bar 1 3 g, limited := none, utEntry := none, scan := some (g + 1) }

/-- A limited control error of class (b): the instruction is completed, and the next one of the group is to be converted to a proceed
instruction (R666). The first error of an instruction is the one displayed; one of an instruction performed after a late
error replaces that one's code (log 20). -/
def State.flag (s : State) (code : BitVec 5) : State :=
  match s.limited with
  | some ⟨_, _, false⟩ => s
  | _ => { s with limited := some ⟨code, s.cur, false⟩ }

/-- How an operation ends other than by an answer. -/
inductive Stop where
  | error (limited : Bool) (code : BitVec 5) (s : State)
  | done (s : State)
  | refuse (r : Refusal)
  | fault (f : Fault)
deriving DecidableEq, Repr

/-- An operation of the processor: it changes the state and answers, or stops. -/
abbrev Op (α : Type) := StateT State (Except Stop) α

/-- The instruction has no meaning. -/
def refuse {α : Type} (r : Refusal) : Op α := fun _ => .error (.refuse r)

/-- The model stops. -/
def fail {α : Type} (f : Fault) : Op α := fun _ => .error (.fault f)

/-- `raise ControlError(code)` for a critical error: it stops the machine (R621, R623). -/
def critical {α : Type} (code : BitVec 5) : Op α := fun s => .error (.error false code s)

/-- `raise ControlError(code)` for an error found before the instruction has any effect: with the barricade the program is turned
off at once and the instruction is not performed (R666 class (a), D55; log 21), without it the machine stops. -/
def offError {α : Type} (code : BitVec 5) : Op α := fun s => .error (.error true code s)

/-- The instruction ends here, as it stands. -/
def finishNow {α : Type} : Op α := fun s => .error (.done s)

/-- `raise ControlError(code)` for an error found while the instruction is performed: with the barricade the instruction is completed
without illegal alteration (R666 class (b); log 20), without it the machine stops (R621). -/
def softError (code : BitVec 5) : Op Unit := fun s =>
  if s.cfg.barricade then .ok ((), s.flag code) else .error (.error false code s)

/-! ### Free values (log 15) -/

/-- A free word. -/
def fresh : Op Word := fun s => .ok (Config.freeWord s.free, { s with free := s.free + 1 })

/-- A free truth value. -/
def freshBool : Op Bool := fun s => .ok (Config.freeBool s.free, { s with free := s.free + 1 })

/-- A free word with free parity errors. -/
def freshMWord : Op MWord := do
  let w ← fresh
  let p ← fresh
  pure ⟨w, p.setWidth 6⟩

/-- A state change as an operation. -/
def update (f : State → State) : Op Unit := fun s => .ok ((), f s)

/-! ### Stepping registers (R24, R25, R215) -/

/-- A special register whose step left the 15-bit range: unspecified except the sign, with bad parity (R215 case 1). -/
def spoiled (r : SReg) : Op SReg := do
  let f ← fresh
  pure ⟨r.arr, BitVec.ofNat 16 (r.sign.toNat * 32768 + f.toNat % 32768), .bad⟩

/-- The 15-bit addition or subtraction of a step (R25, R215 cases 1 and 2): a register written is good (R205). -/
def stepBy (r : SReg) (k : Nat) : Op SReg :=
  if r.sign then
    if r.addr + k < 32768 then pure (r.withAddr (r.addr + k)) else spoiled r
  else
    if k ≤ r.addr then pure (r.withAddr (r.addr - k)) else spoiled r

/-- A programmed increment (R26, R190 to R194): the stopper and the boundary are neither incremented nor decremented (R91, R662). That a mark of
a counter (`crossed`, `lost`) does not outlast one is the model's choice (log 17). -/
def stepProgrammed (r : SReg) (k : Nat) : Op SReg := do
  let s ← get
  if k = 0 ∨ r.addr = s.stopper r.arr ∨ s.atBoundary r.full = true then pure r else stepBy r k

/-- The automatic step of a counter (R24): the stopper and the boundary are neither incremented nor decremented (R91, R215), but that a
counter stepped up from the boundary is marked, and a mark stays (R662, logs 17, 33). A sequencing counter that would be stepped up from the
stopper is marked, so that its next implicit use is the control error of R33 (log 16). -/
def stepCounter (seq : Bool) (r : SReg) : Op SReg := do
  let s ← get
  if r.addr = s.stopper r.arr then
    if seq && r.sign && r.tag == .good then pure { r with tag := .ended } else pure r
  else if s.atBoundary r.full then
    if r.sign then pure { r.withAddr (r.addr + 1) with tag := .crossed } else pure r
  else do
    let r' ← stepBy r 1
    pure (if r.tag.astray = true ∧ r'.tag = .good then { r' with tag := r.tag } else r')

/-- `SR[h][i] <- sr_step(SR[h][i], inc)` for a programmed increment; a register the executing program may not alter is not
incremented (R664). -/
def stepRegister (h : BitVec 3) (i : BitVec 5) (inc : BitVec 5) : Op Unit := do
  let s ← get
  if s.barsReg h i then pure ()
  else do
    let r ← stepProgrammed (s.reg h i) inc.toNat
    update (·.setReg h i r)

end Sys2Proof.Machine
end

