-- ==== Sys2Proof/Machine/Devices.lean ====
section
/-! DEFINITION. What runs beside the processor: buffer cycles, the end of a transfer and what the devices make of their words
(46_peripheral.md rules R406 to R458, 60_exceptions.md rule R668), the typewriter mechanism (R466), the environment's events (log 10), and
traffic control (R100), which serves the channels between any two memory cycles of the processor (R105, R106). -/
namespace Sys2Proof.Machine

/-- The automatic step of a counter, outside any instruction. -/
def State.stepBuffer (s : State) (h : BitVec 3) (i : BitVec 5) : State :=
  match stepCounter false (s.reg h i) s with
  | .ok (r, s') => s'.setReg h i r
  | .error _ => s

/-- A device changed. -/
def State.modifyDev (s : State) (d : Dir) (ch dev : BitVec 3) (f : Device → Device) : State :=
  s.setDev d ch dev (f (s.dev d ch dev))

/-- A read or write error stored in the device while it transfers (R420). A card punch stores the error of a card only after one more
(R432): its transfer carries it. -/
def Device.storeError (k : DevKind) (d : Dir) (v : Device) : Device :=
  match d with
  | .input => { v with readErr := true }
  | .output => if k = .cardPunch then v else { v with writeErr := true }

/-! ### What the output devices make of their words (R448, R450, R452) -/

/-- Whether a control word says that a file is completed, or a run (R448, R450). -/
def endsFile (w : Word) : Bool := bitAt w 13 && bitAt w 14

/-- The codes outside a printer's set: the starred ones of its column of Table I (R94, U44). -/
def outsideSet (k : DevKind) : List Nat :=
  if k = .fastPrinter then [0o16, 0o37, 0o56, 0o57, 0o60, 0o76, 0o77]
  else [0o12, 0o16, 0o17, 0o32, 0o35, 0o36, 0o37, 0o52, 0o55, 0o56, 0o57, 0o60, 0o72, 0o75, 0o76, 0o77]

/-- The eight characters of a word, the high-order one first (R450). -/
def characters (w : Word) : List (BitVec 6) := (List.range 8).map fun k => w.extractLsb' (42 - 6 * k) 6

/-- The symbols a printer prints for its characters; those outside its set are free (R450, U44). -/
def printedSyms (k : DevKind) : Nat → List (BitVec 6) → List Sym
  | _, [] => []
  | n, c :: t => (if c.toNat ∈ outsideSet k then .any ((Config.freeWord n).setWidth 6) else .char c) :: printedSyms k (n + 1) t

/-- The next line of the carriage tape with a punch in one of the channels (R450); a free one where there is no such punch. -/
def nextPunch (tape : List (BitVec 12)) (channels : BitVec 12) (place free : Nat) : Nat :=
  (((List.range tape.length).map fun k => (place + 1 + k) % tape.length).find? fun i =>
    tape.getD i 0#12 &&& channels != 0#12).getD free

/-- The channel of the carriage tape that marks the head of the form, and the one that marks its end (R450). -/
def headChannel : BitVec 12 := 0o0400#12
/-- Channel 3. -/
def endChannel : BitVec 12 := 0o1000#12

/-- Where a line is printed and where the form stands afterwards (R450; log 54). An advance goes to the next punch, also where the form stands at
one. Standard printer: bits 19 to 30 of the control word name the
channels to advance to, before or after the line as a free truth value says. High-speed printer: bit 1 goes to the head of form, bit 6
inspects channel 3, whose punch may do the same, and bits 7 to 12 advance lines after the line. -/
def formMotion (k : DevKind) (v : Device) (w : Word) (n : Nat) : Nat × Nat :=
  if k = .fastPrinter then
    let p := if bitAt w 1 then nextPunch v.carriage headChannel v.place (Config.freeWord n).toNat else v.place
    let q := if bitAt w 6 && (v.carriage.getD p 0#12 &&& endChannel != 0#12) && Config.freeBool n
      then nextPunch v.carriage headChannel p (Config.freeWord (n + 1)).toNat else p
    (q, if v.carriage = [] then q + (fld w 7 12).toNat else (q + (fld w 7 12).toNat) % v.carriage.length)
  else
    let p := if fld w 19 30 = 0#12 then v.place else nextPunch v.carriage (fld w 19 30) v.place (Config.freeWord n).toNat
    (if Config.freeBool n then p else v.place, p)

/-- A line printed from a control word and fifteen information words (R450). -/
def Device.printed (v : Device) (k : DevKind) (r : Record) (n : Nat) : Device :=
  let w := (r.headD (MWord.good 0#48)).bits
  let m := formMotion k v w n
  { v with
    before := r :: v.before, locked := v.locked || endsFile w, place := m.2,
    lines := ⟨m.1, printedSyms k (n + 2) ((r.drop 1).flatMap fun x => characters x.bits)⟩ :: v.lines }

/-- The low-order eight bits of a word: a frame of paper tape (R452). -/
def frameOf (w : MWord) : MWord := ⟨w.bits &&& 0xFF#48, w.perr⟩

/-- What an output device has once a record is finished: a tape takes the record (R432, R445), a printer prints a line (R450), a card
punch punches a card and stores the error of the card before (R432, R448), a paper tape punch has a frame to punch, or none and the write
error where one has been sensed (R420, R452). -/
def Device.finish (v : Device) (x : Xfer) (r : Record) (n : Nat) : Device :=
  match x.kind with
  | .tape => v.recorded x r
  | .printer => { v with writeErr := v.writeErr || x.err }.printed .printer r n
  | .fastPrinter => { v with writeErr := v.writeErr || x.err }.printed .fastPrinter r n
  | .cardPunch =>
    { v with
      writeErr := v.writeErr || v.errNext, errNext := x.err, before := r :: v.before,
      locked := v.locked || endsFile (r.headD (MWord.good 0#48)).bits }
  | .paperPunch =>
    if x.err then { v with writeErr := true } else { v with punching := r.head? }
  | _ => { v with writeErr := v.writeErr || x.err, before := r :: v.before }

/-! ### The end of a transfer -/

/-- The end of a transfer (R412): the interlock bit is cleared and every program stalled for a channel or device is reactivated. The
device stays busy until its mechanism stops. -/
def State.endTransfer (s : State) (d : Dir) (ch : BitVec 3) : State :=
  (((s.setXfer d ch none).setDemand d ch false).setPcrBit (interlockBit d ch) false).release

/-- The end of an output operation: the device has its record. -/
def State.endOutput (s : State) (ch : BitVec 3) (x : Xfer) (r : Record) : State :=
  ({ s with free := s.free + 122 }.modifyDev .output ch x.dev fun v => v.finish x r s.free).endTransfer .output ch

/-- A buffer counter that cannot be used (R410, R622, R662, R668): bad parity is critical; an address that does not exist, or lies
beyond the boundary stopper, ends the operation as an errored one with the barricade, displaying type 32 (C9), or type 01 for the boundary
(R662), and stops the machine without it. What the words already sent leave on a tape is not stated (log 38). -/
def State.counterFails (s : State) (d : Dir) (ch : BitVec 3) (x : Xfer) (r : SReg) : Option State :=
  if r.tag.fatal then some (s.halt 0b00011#5)
  else if r.tag.astray = true ∨ s.exists? r.full = false then
    if s.cfg.barricade then
      let s' := (s.setErrorCode (if r.tag = .crossed then 0b00001#5 else 0b11010#5)).modifyDev d ch x.dev (Device.storeError x.kind d)
      some (if d = .input then s'.endTransfer d ch else s'.endOutput ch { x with err := true } x.sent.reverse)
    else some (s.halt 0b00001#5)
  else none

/-- The read-write counter a table word loads (R42, R410): sign bit 33 and, when `EXTENDED`, array bit 32 of the word (log 32). -/
def State.tableReg (s : State) (w : Word) : SReg := ⟨s.cfg.extended && bitAt w 32, fld w 33 48, .good⟩

/-- The subaddress of RAC or WAC. -/
def bufferIx : Dir → BitVec 5
  | .input => racIx
  | .output => wacIx

/-- The subaddress of DRAC or DWAC. -/
def tableIx : Dir → BitVec 5
  | .input => dracIx
  | .output => dwacIx

/-- The second cycle of a distributed transfer (R102, R410, R411): the counter is replaced from the table. A table word with bad parity
stores the error, and on input no more words are transmitted (R420, R610 case 6): that RAC then keeps its contents and DRAC is not stepped is the
model's choice (log 38). -/
def State.tableCycle (s : State) (d : Dir) (ch : BitVec 3) (x : Xfer) : State :=
  let r := s.reg ch (tableIx d)
  match s.counterFails d ch x r with
  | some s' => s'
  | none =>
    let t := s.mem.word r.full
    let s1 := if MWord.bad t then
      (s.modifyDev d ch x.dev (Device.storeError x.kind d)).setXfer d ch (some { x with err := true }) else s
    if MWord.bad t && decide (d = .input) then s1
    else (s1.setReg ch (bufferIx d) (s1.tableReg t.bits)).stepBuffer ch (tableIx d)

/-- One word of an input transfer stored (R410). -/
def State.storeInput (s : State) (ch : BitVec 3) (x : Xfer) (w : MWord) : State :=
  let s1 := (s.putWord (s.reg ch racIx).full w).stepBuffer ch racIx
  if x.distributed && isEoi w.bits && !(x.backward && x.first) then s1.tableCycle .input ch x else s1

/-- A word taken from an input device: bad parity stores the read error (R420), and takes a free truth value where the transfer is
distributed. -/
def State.takeWord (s : State) (ch : BitVec 3) (x : Xfer) (w : MWord) (rest : List MWord) : State :=
  let s1 := s.setXfer .input ch (some { x with todo := rest, first := false, err := x.err || MWord.bad w })
  if MWord.bad w then
    { s1.modifyDev .input ch x.dev (Device.storeError x.kind .input) with free := if x.distributed then s.free + 1 else s.free }
  else s1

/-- Whether the word goes to memory: a distributed transfer transmits no more words once an error has been sensed; whether the word in
which it was sensed is still stored is a free truth value (R420, log 38). -/
def Xfer.transmits (x : Xfer) (w : MWord) (free : Bool) : Bool := !x.distributed || (!x.err && (!MWord.bad w || !free))

/-- A word that reached memory through RAC (R410). -/
def State.deliverInput (s : State) (ch : BitVec 3) (x : Xfer) (w : MWord) : State :=
  match s.counterFails .input ch x (s.reg ch racIx) with
  | some s' => s'
  | none => s.storeInput ch x w

/-- The end of an input transfer once its last word has been taken (R412). -/
def State.concludeInput (s : State) (ch : BitVec 3) : State :=
  match s.xfer .input ch with
  | some y => if y.todo.isEmpty then s.endTransfer .input ch else s.setXfer .input ch (some { y with first := false })
  | none => s

/-- An input buffer cycle (R410, R420). -/
def State.inputCycle (s : State) (ch : BitVec 3) (x : Xfer) : State :=
  match x.todo with
  | [] => s.endTransfer .input ch
  | w :: rest =>
    let s1 := s.takeWord ch x w rest
    (if x.transmits w (Config.freeBool s.free) then
        s1.deliverInput ch { x with todo := rest, err := x.err || MWord.bad w } w
      else s1).concludeInput ch

/-- The fixed count of a card punch, from bits 16 and 17 of its control word (R448): the illegal combinations enter either mode
(U44; log 39). -/
def punchCount (w : Word) (either : Bool) : Nat :=
  match bitAt w 16, bitAt w 17 with
  | false, false => 11
  | true, true => 21
  | _, _ => if either then 21 else 11

/-- How many words an output operation takes, known when the first word is sent (R432): none for a tape, nor for the equipment whose words
are not given (R456). -/
def outputCount (k : DevKind) (w : Word) (either : Bool) : Option Nat :=
  match k with
  | .printer => some 16
  | .fastPrinter => some 16
  | .cardPunch => some (punchCount w either)
  | .paperPunch => some 1
  | _ => none

/-- The words left after one more has been sent. -/
def countAfter (x : Xfer) (w : Word) (either : Bool) : Option Nat :=
  (if x.first then outputCount x.kind w either else x.count).map (· - 1)

/-- Whether an output operation ends with a word (R432): with the end-of-record word on a tape, at a fixed count elsewhere; the equipment of
R456 may also have had enough at any word (log 38). -/
def Xfer.ends (y : Xfer) (w : Word) (enough : Bool) : Bool :=
  (decide (y.kind = .tape ∨ y.kind = .other) && isEor w) || (decide (y.kind = .other) && enough) || y.count == some 0

/-- The end of an output operation, once the word it ends with has been sent (R432). -/
def State.concludeOutput (s : State) (ch : BitVec 3) (w : Word) (enough : Bool) : State :=
  match s.xfer .output ch with
  | none => s
  | some y =>
    if y.ends w enough then s.endOutput ch y y.sent.reverse else s

/-- The second cycle of a distributed output, after the end-of-item word (R411). -/
def State.itemSent (s : State) (ch : BitVec 3) (x : Xfer) (w : Word) : State :=
  if x.distributed && isEoi w && !isEor w then s.tableCycle .output ch x else s

/-- One word sent: a word with bad parity stores the write error (R420). -/
def State.sendWord (s : State) (ch : BitVec 3) (x : Xfer) (w : MWord) : State :=
  let s1 := { s.stepBuffer ch wacIx with free := s.free + 2 }
  let s2 := if MWord.bad w then s1.modifyDev .output ch x.dev (Device.storeError x.kind .output) else s1
  let x' := { x with
    first := false, sent := w :: x.sent, count := countAfter x w.bits (Config.freeBool s.free), err := x.err || MWord.bad w }
  ((s2.setXfer .output ch (some x')).itemSent ch x' w.bits).concludeOutput ch w.bits (Config.freeBool (s.free + 1))

/-- An output buffer cycle (R411). -/
def State.outputCycle (s : State) (ch : BitVec 3) (x : Xfer) : State :=
  match s.counterFails .output ch x (s.reg ch wacIx) with
  | some s' => s'
  | none => s.sendWord ch x (s.mem.word (s.reg ch wacIx).full)

/-- The buffer cycle of a channel (R410, R411): it uses up the channel's demand. -/
def State.bufferCycle (s : State) (d : Dir) (ch : BitVec 3) : State :=
  let s1 := s.setDemand d ch false
  match s.xfer d ch with
  | none => s1
  | some x =>
    match d with
    | .input => s1.inputCycle ch x
    | .output => s1.outputCycle ch x

/-- An overrun (R102, R420): an input word is lost, or an output word is not served in time; the error is stored. -/
def State.overrun (s : State) (d : Dir) (ch : BitVec 3) : State :=
  match s.xfer d ch with
  | none => s
  | some x =>
    let s1 := s.modifyDev d ch x.dev (Device.storeError x.kind d)
    match d with
    | .input =>
      if x.todo.length ≤ 1 then s1.endTransfer .input ch
      else s1.setXfer .input ch (some { x with todo := x.todo.drop 1, first := false, err := true })
    | .output => s1.setXfer .output ch (some { x with err := true })

/-- Whether a transfer with the device is in progress on the channel. -/
def State.transferring (s : State) (d : Dir) (ch dev : BitVec 3) : Bool :=
  match s.xfer d ch with
  | some x => x.dev == dev
  | none => false

/-- A device whose mechanism has stopped: a rewind with interlock leaves it locked, and a paper tape punch has punched its frame (R452). That the
frame of a word whose bit 40 signals the end of the run is punched all the same, and the punch then stopped until the operator acts, is the
model's choice (log 64). -/
def Device.stopped (v : Device) : Device :=
  { v with
    busy := false, locked := v.locked || v.lockOnRewind || v.punching.any fun w => bitAt w.bits 40, lockOnRewind := false,
    before := (v.punching.map fun w => [frameOf w]).toList ++ v.before, punching := none }

/-- The mechanism of a device stops (R406, R408, R412): the device is no longer busy, a rewind with interlock leaves it locked, and
stalled programs are reactivated. It cannot stop while its words are still moving, which a tape does on either side. -/
def State.deviceDone (s : State) (d : Dir) (ch dev : BitVec 3) : State :=
  if (s.transferring .input ch dev && (decide (d = .input) || Config.kind s.cfg d ch dev == some .tape)) ||
      (s.transferring .output ch dev && (decide (d = .output) || Config.kind s.cfg d ch dev == some .tape)) then s
  else
    (s.modifyDev d ch dev Device.stopped).release

/-- The error of a device still in motion after its transfer: a card punch stores it after one more card (R432), and a paper tape punch does not
punch the frame (R420). -/
def Device.failed (k : Option DevKind) (d : Dir) (v : Device) : Device :=
  match k with
  | some .cardPunch => { v with errNext := true }
  | some .paperPunch => { v with writeErr := true, punching := none }
  | _ => v.storeError .other d

/-- An error a device in motion finds in its own work, by the double-punch, blank-column or echo check (R448, R450), in reading a frame, or in the
word to be punched (R452). A card reader shows its own in the control word, and stores none (R447). -/
def State.deviceError (s : State) (d : Dir) (ch dev : BitVec 3) : State :=
  if Config.kind s.cfg d ch dev = some .cardReader then s
  else if s.transferring d ch dev then
    match s.xfer d ch with
    | none => s
    | some x => (s.modifyDev d ch dev (Device.storeError x.kind d)).setXfer d ch (some { x with err := true })
  else if (s.dev d ch dev).busy then
    s.modifyDev d ch dev (Device.failed (Config.kind s.cfg d ch dev) d)
  else s

/-- The operator's PROGRAM switch (R424): tape units have none. -/
def State.setSwitch (s : State) (d : Dir) (ch dev p : BitVec 3) : State :=
  if Config.kind s.cfg d ch dev = some .tape then s else s.modifyDev d ch dev fun v => { v with switch := p }

/-- The operator loads a device that is not in motion (R445, R447, R452; log 38). -/
def State.mount (s : State) (d : Dir) (ch dev : BitVec 3) (before after : List Record) (eot : Option Nat) (protect : Bool) :
    State :=
  if (s.dev d ch dev).busy then s
  else
    (s.modifyDev d ch dev fun v =>
      { v with before := before, after := after, eot := eot, protect := protect, last := .none,
               segment := before.length + after.length }).release

/-- The operator sets the mode switch of a card reader (R447), the parity a paper tape reader checks (R452) or the carriage tape of a
printer (R450), on a device that is not in motion. -/
def State.adjust (s : State) (d : Dir) (ch dev : BitVec 3) (mode : CardMode) (odd : Option Bool) (carriage : List (BitVec 12)) :
    State :=
  if (s.dev d ch dev).busy then s
  else s.modifyDev d ch dev fun v => { v with mode := mode, odd := odd, carriage := carriage, place := 0 }

/-- The operator removes the interlock of a rewound tape, or restarts a device stopped at the end of a file or run (R440, R448, R450,
R452). -/
def State.unlock (s : State) (d : Dir) (ch dev : BitVec 3) : State :=
  (s.modifyDev d ch dev fun v => { v with locked := false }).release

/-- The devices that share a multiple terminal unit control with a device, in order, the device among them (R458). -/
def Config.multiple (c : Config) (d : Dir) (ch dev : BitVec 3) : List (Dir × BitVec 3 × BitVec 3) :=
  (c.multiples.find? fun l => l.any (· == (d, ch, dev))).getD []

/-- The operator takes a device out of service or returns it (R401, R422); on a multiple terminal unit control this is the switch that
selects one device and makes the others unavailable (R458). -/
def State.service (s : State) (d : Dir) (ch dev : BitVec 3) (out : Bool) : State :=
  if out then s.modifyDev d ch dev fun v => { v with out := true }
  else
    let s' := (Config.multiple s.cfg d ch dev).foldl (fun t p => t.modifyDev p.1 p.2.1 p.2.2 fun v => { v with out := true }) s
    (s'.modifyDev d ch dev fun v => { v with out := false }).release

/-- Whether the multiple terminal unit control of a device keeps it from being used (R458): another device is selected, the first one in
service, or the single buffer is still at work for another. -/
def State.multipleBusy (s : State) (d : Dir) (ch dev : BitVec 3) : Bool :=
  (((Config.multiple s.cfg d ch dev).takeWhile (· != (d, ch, dev))).any fun p => !(s.dev p.1 p.2.1 p.2.2).out) ||
    (Config.multiple s.cfg d ch dev).any fun p => p != (d, ch, dev) && s.transferring p.1 p.2.1 p.2.2

/-! ### The typewriter (R466) -/

/-- A symbol typed. -/
def State.typeOut (s : State) (slave : Bool) (x : Sym) : State :=
  if slave then { s with typedSlave := s.typedSlave ++ [x] } else { s with typedConsole := s.typedConsole ++ [x] }

/-- The symbols left when a program has stored into the buffer word: all free (R466, U47). That there are as many of them as without the store is the
model's choice (log 36). -/
def spoiledSyms (n : Nat) : List Sym → List Sym
  | [] => []
  | _ :: t => .any ((Config.freeWord n).setWidth 6) :: spoiledSyms (n + 1) t

/-- The next of the symbols left typed; what each leaves in the buffer word is a free value (U47), and the end of the word reactivates
stalled programs. -/
def State.typeNext (s : State) (slave : Bool) (left : List Sym) : State :=
  match left with
  | [] => { s with typing := none }.release
  | x :: rest =>
    let t := { (s.typeOut slave x).putWord typewriterBuffer s.freeMWord with typeSpoiled := false, free := s.free + 2 }
    if rest = [] then { t with typing := none }.release else { t with typing := some ⟨slave, rest⟩ }

/-- A character cycle of the typewriter (R466): a symbol is typed and the buffer word shifted; the arithmetic registers are preserved
(D43). -/
def State.typeChar (s : State) : State :=
  match s.typing with
  | none => s
  | some t =>
    if s.typeSpoiled = false then s.typeNext t.slave t.left
    else { s with free := s.free + t.left.length }.typeNext t.slave (spoiledSyms s.free t.left)

/-! ### The environment (log 10) -/

/-- One event of the environment. -/
def State.applyEvent (s : State) (e : Event) : State :=
  match e with
  | .quiet => s
  | .demands l => l.foldl (fun t p => if (t.xfer p.1 p.2).isSome then t.setDemand p.1 p.2 true else t) s
  | .deviceDone d ch dev => s.deviceDone d ch dev
  | .deviceError d ch dev => s.deviceError d ch dev
  | .overrun d ch => s.overrun d ch
  | .typeChar => s.typeChar
  | .console a => { s with consoleQ := s.consoleQ ++ [a] }
  | .setSwitch d ch dev p => s.setSwitch d ch dev p
  | .mount d ch dev before after eot protect => s.mount d ch dev before after eot protect
  | .adjust d ch dev mode odd carriage => s.adjust d ch dev mode odd carriage
  | .unlock d ch dev => s.unlock d ch dev
  | .service d ch dev out => s.service d ch dev out

/-- The event of this memory cycle. -/
def State.environment (s : State) : State :=
  match s.env with
  | [] => s
  | e :: t => { s with env := t }.applyEvent e

/-! ### Traffic control (R100) -/

/-- The channel that is granted the cycle: the first in the order of the stages that shows a demand. -/
def State.grant (s : State) : Option (Dir × BitVec 3) :=
  s.cfg.tcOrder.find? fun p => s.demands? p.1 p.2

/-- The event of a memory cycle inside an instruction: a character cycle of the typewriter, and what comes after it, waits for the end of the
instruction (R466). -/
def State.within (s : State) : State :=
  match s.env with
  | .typeChar :: _ => s
  | _ => s.environment

/-- Memory cycles as traffic control grants them (R100), one event of the environment before each scan, until the processor has one; or the
machine is stopped in one. -/
def State.serve : Nat → State → State
  | 0, s => s
  | n + 1, s =>
    if s.halted then s
    else
      match s.within.grant with
      | some p => State.serve n (s.within.bufferCycle p.1 p.2)
      | none => s.within

/-- The same until every event has happened and no channel demands a cycle. -/
def State.replay : Nat → State → State
  | 0, s => s
  | n + 1, s =>
    if s.halted || (s.env.isEmpty && s.grant.isNone) then s
    else
      match s.environment.grant with
      | some p => State.replay n (s.environment.bufferCycle p.1 p.2)
      | none => State.replay n s.environment

/-- More scans than the events and the demands of the sixteen channels can take. -/
def State.scans (s : State) : Nat := s.env.length + 17

/-- What traffic control does before a memory cycle of an instruction (R105, R106; log 9): nothing where no event falls there. -/
def tick : Op Unit := fun s =>
  if s.env = [] then .ok ((), s)
  else if (s.serve s.scans).halted then .error (.done (s.serve s.scans))
  else .ok ((), s.serve s.scans)

end Sys2Proof.Machine
end

