-- ==== Sys2Proof/Machine/Ops.lean ====
section
/-! DEFINITION. The named operations over memory, registers and the program control register; addressing-independent
parts of taking an unprogrammed transfer, a control error and a stall. -/
namespace Sys2Proof.Machine

/-! ### Main memory access: one memory cycle of the processor each (R105) -/

/-- `MemRead(a, 1)`; an address that does not exist is control error 00001 (R92), and with the barricade the word is a free value
(log 20). -/
def memRead (a : Nat) : Op MWord := do
  tick
  let s ← get
  if s.exists? a then pure (s.mem.word a)
  else do
    softError 0b00001#5
    let w ← fresh
    pure (MWord.good w)

/-- `MemWrite(a, 1, v)`: control error 00001 where the address does not exist (R92); a barricade violation suppresses the write and
is control error 10000 (R660). That existence is tested first, and 00001 alone shown where both fail, is the model's choice (log 20). -/
def memWrite (a : Nat) (v : MWord) : Op Unit := do
  tick
  let s ← get
  if !s.exists? a then softError 0b00001#5
  else if s.barsMem a then softError 0b10000#5
  else update (·.putWord a v)

/-- A store into a special register, checked by the barricade (R660). -/
def writeReg (h : BitVec 3) (i : BitVec 5) (r : SReg) : Op Unit := do
  let s ← get
  if s.barsReg h i then softError 0b10000#5 else update (·.setReg h i r)

/-! ### Parity of special registers (R205) -/

/-- A register used explicitly as a main memory address: false, and control error 00001, when its parity is bad (D21). -/
def checkExplicit (r : SReg) : Op Bool :=
  if r.tag = .bad then do
    softError 0b00001#5
    pure false
  else pure true

/-- A register used implicitly as a main memory address: control error 00011 when its parity is bad (D21); false, and control error
00001, when the counter was stepped past the boundary (R662) or names no location (R92). -/
def checkImplicit (r : SReg) : Op Bool :=
  if r.tag.fatal then critical 0b00011#5
  else if r.tag.astray then do
    softError 0b00001#5
    pure false
  else pure true

/-- Whether a counter can be used for the next word of a run (R333, R495): good (R205), not past the boundary (R662), at an address that
exists (R92). Where it cannot, a control error has been raised. -/
def runCounter (r : SReg) : Op Bool := do
  let ok ← checkImplicit r
  let s ← get
  if !ok then pure false
  else if s.exists? r.full then pure true
  else do
    softError 0b00001#5
    pure false

/-! ### Entering and leaving an instruction -/

/-- The start of any instruction but ULD (R528). -/
def begin : Op Unit := update State.begun

/-- The accumulator left a free value, from which nothing may be retrieved (R43, R221, R223; log 23). -/
def State.noAc (s : State) : State :=
  { s with ac := Config.freeWord s.free, acState := .undefined, lopHeld := false, heldMask := none, free := s.free + 1 }

/-- An instruction that leaves nothing defined in the accumulator. -/
def noAc : Op Unit := update State.noAc

/-- An instruction that leaves the arithmetic registers as they are. -/
def intervene : Op Unit := update State.intervened

/-- The scan a hunt after the present instruction starts from, if one follows (R632): none after a limited control error (R666). What the
arithmetic and floating registers hold does not survive a hunt (R43, R686). -/
def State.hunted (s : State) (hunt : Bool) : State :=
  let h := hunt && s.limited.isNone
  { s with
    acState := if h then s.acState.dropped else s.acState, lopHeld := !h && s.lopHeld, heldMask := if h then none else s.heldMask,
    flopHeld := !h && s.flopHeld, scan := if h then some (s.cur + 1) else none }

/-- The end of an instruction of the executing group: the bisequence bit follows `seq` (R34), and a hunt follows as said (R632). -/
def State.ended (s : State) (seq hunt : Bool) : State := (s.setPcrBit (21 + s.cur.toNat) seq).hunted hunt

/-- The end of an instruction that names the source of the next one. -/
def endInstr (seq hunt : Bool) : Op Unit := update fun s => s.ended seq hunt

/-- The end of an instruction that does not name the source of the next one: proceed and peripheral (R34). -/
def endSame (hunt : Bool) : Op Unit := update fun s => s.hunted hunt

/-- The address of the table entry, `U + n` or `U - n` by the sign of the UTR (R602). -/
def utTarget (u : SReg) (n : Nat) : Nat :=
  if u.sign then (if u.addr + n < 32768 then u.full + n else nowhere)
  else (if n ≤ u.addr then u.full - n else nowhere)

/-- TAKING AN UNPROGRAMMED TRANSFER (R601, R602): the word of the causing instruction `i` is stored in U or U + 1, by the counter that selected
it, and the next instruction is the table entry U ± n, which the next step selects through the UTR. No counter, history register or
bisequence bit changes, and no hunt follows (R632 d). An odd U is control error 10010 (D22): with the barricade, that nothing is then stored, that
the program stops as if no transfer had been caused and that the bisequence bit stays ignored is the model's choice (log 66). -/
def unprogrammedTransfer (n0 : Nat) (i : Instr) : Op Unit := do
  let s ← get
  let u := s.reg s.cur utrIx
  let _ ← checkImplicit u
  if u.addr % 2 = 1 then do
    softError 0b10010#5
    update fun s => { s with scan := none }
  else do
    let c := if s.sel = .csc then 1 else 0
    memWrite (u.full + c) (MWord.good (encode s.cfg.opmap i))
    update fun s => { s with utEntry := some (utTarget u (n0 + c)), scan := none }

/-- The table offsets of R601. -/
def utParity : Nat := 2
/-- Beginning or end of tape. -/
def utTapeEnd : Nat := 4
/-- Read or write error and peripheral fixed start. -/
def utDeviceError : Nat := 6
/-- Addition or subtraction overflow. -/
def utOverflow : Nat := 8
/-- Division overcapacity. -/
def utDivide : Nat := 10
/-- Exponential underflow. -/
def utUnderflow : Nat := 12
/-- Exponential overflow. -/
def utExpOverflow : Nat := 14

/-- The end of a general instruction: a parity failure or an overflow makes an unprogrammed transfer, the parity failure first (D52),
which ignores the bisequence bit (R603); otherwise the ordinary end. -/
def conclude (i : Instr) (seq hunt bad ovf : Bool) : Op Unit :=
  if bad then unprogrammedTransfer utParity i
  else if ovf then unprogrammedTransfer utOverflow i
  else endInstr seq hunt

/-- The selecting counter set back to where it was before it selected a stalled instruction. An instruction selected through the UTR is
not retried and leaves the group's counters unspecified (R604 (6), U56). -/
def State.backed (s : State) (f g : Word) : State :=
  if s.byUtr then
    (s.setReg s.cur (Ctr.ix .sc) ⟨s.cfg.extended && bitAt f 32, fld f 33 48, .good⟩).setReg s.cur (Ctr.ix .csc)
      ⟨s.cfg.extended && bitAt g 32, fld g 33 48, .good⟩
  else s.setReg s.cur s.sel.ix s.ctl

/-- The executing group gets no cycles until what it waits for, and a hunt follows (R631); the order in which programs stalled for a
channel or device is kept (R48). That a group about to be turned off, for a late error or one in
the address of a print, is turned off instead is the model's choice (logs 22, 36). -/
def State.waits (s : State) (why : Stall) : State :=
  match s.limited with
  | some l => s.turnOff l.group l.code
  | none =>
    { s.dropHeld with
      stalls := s.stalls.set s.cur.toNat why s.cur.isLt
      stallOrder := if why = Stall.io then s.stallOrder.filter (· != s.cur) ++ [s.cur] else s.stallOrder
      scan := some (s.cur + 1) }

/-- A STALL (R408, R631): the instruction has no effect and will be selected again. -/
def stall (why : Stall) : Op Unit := do
  let f ← fresh
  let g ← fresh
  update fun s => (s.backed f g).waits why

/-! ### Sequence changes (R36) -/

/-- The history register of `nxt` and the bisequence bit, as a sequence change leaves them (R36). -/
def State.historied (s : State) (nxt : Ctr) : State :=
  (s.setReg s.cur nxt.hist { s.reg s.cur s.sel.ix with tag := .good }).setPcrBit (21 + s.cur.toNat) (decide (nxt = .csc))

/-- The implicit sequence change (R36): the selecting counter into the history register of `nxt`, the new value into `nxt`, the bisequence
bit; no hunt follows (R632 b). -/
def State.jumped (s : State) (nxt : Ctr) (new : SReg) : State :=
  { (s.historied nxt).setReg s.cur nxt.ix new with scan := none }

/-- The implicit sequence change. -/
def jump (nxt : Ctr) (new : SReg) : Op Unit := update fun s => s.jumped nxt new

/-- What a parity failure leaves of a sequence change (R323): history register and bisequence bit, not the counter. -/
def jumpSuppressed (nxt : Ctr) : Op Unit := update fun s => s.historied nxt

/-! ### From an operation to an outcome -/

/-- The state in which an instruction that is not performed after all found the machine (D55), but for what happened outside the processor
meanwhile: the events of the environment that fell between its memory cycles, `t` being the state they led to. -/
def State.undone (s t : State) : State :=
  if t.env.length = s.env.length then { s with free := t.free }
  else
    let u : State := { s with env := s.env.take (s.env.length - t.env.length), free := t.free }
    { u.replay u.scans with env := t.env }

/-- A limited control error that ends an instruction before it is performed (R666 class (a), D55; log 21): the first error found is the one
displayed. -/
def State.caught (s t : State) (code : BitVec 5) : State :=
  (s.undone t).turnOff s.cur (match t.limited with
    | some ⟨c, _, false⟩ => c
    | _ => code)

/-- What an operation makes of a step: the one place where a control error becomes a state (R621, R666). -/
def perform (m : Op Unit) (s : State) : Host.Outcome State Fault Refusal :=
  match m s with
  | .ok (_, s') => .next s'
  | .error (.done s') => .next s'
  | .error (.error lim code s') => if lim && s.cfg.barricade then .next (s.caught s' code) else .next (s'.halt code)
  | .error (.refuse r) => .refused r
  | .error (.fault f) => .fault f

end Sys2Proof.Machine
end

