-- ==== Sys2Proof/Machine/Operands.lean ====
section
/-! DEFINITION. Every operand form (40_addressing.md rules R180 to R237): the six address types and the inactive address,
masks, the sequence change through C, and the addresses of the group transfers. -/
namespace Sys2Proof.Machine

/-- The inactive address group, octal 7777 (R220). -/
def inactiveGroup : Group := 0xFFF#12

/-- Whether an address group with its designator is inactive: 7777 with designator 1 is unspecified (R220, U1). -/
def isInactive (x : Group) (d : Bool) : Op Bool :=
  if x = inactiveGroup then (if d then refuse .inactiveWithDesignator else pure true) else pure false

/-- What an address group names (R200). -/
inductive Loc where
  | inactive
  | mem (a : Nat)
  | reg (h : BitVec 3) (i : BitVec 5) (inc : BitVec 5)
deriving DecidableEq, Repr

/-- The address of a direct memory location address: the array bit and bank of the controlling counter and 11 bits (R183, R199). -/
def State.direct (s : State) (x : Group) : SReg :=
  SReg.mk' s.ctl.arr true ((fld s.ctl.bits 2 5).toNat * 2048 + (fld x 2 12).toNat)

/-- An index register with the augmenter added or subtracted, as its sign says (R184, D35), and whether the result stays within 15
bits. -/
def augment (xr : SReg) (aug : Nat) : SReg × Bool :=
  if xr.sign then (xr.withAddr (xr.addr + aug), decide (xr.addr + aug < 32768))
  else (xr.withAddr (xr.addr + 32768 - aug), decide (aug ≤ xr.addr))

/-- The index register an indexed address group names. -/
def indexReg (x : Group) : BitVec 5 := BitVec.ofNat 5 (8 + (fld x 2 4).toNat)

/-- An indexed address (R184): the augmented register, whether its parity was good, and whether the sum stays within 15 bits. -/
def index (x : Group) : Op (SReg × Bool × Bool) := do
  let s ← get
  let xr := s.reg s.cur (indexReg x)
  let good ← checkExplicit xr
  let v := augment xr (fld x 5 12).toNat
  pure (v.1, good, v.2)

/-- Whether an address group is a direct or indexed special register address (R182): the tabular bit is zero, and the index register can be
used (R205). -/
def State.namesRegister (s : State) (x : Group) (d : Bool) : Bool :=
  d && x != inactiveGroup &&
    (if bitAt x 1 then
      (s.reg s.cur (indexReg x)).tag != .bad && !bitAt (augment (s.reg s.cur (indexReg x)) (fld x 5 12).toNat).1.bits 11
    else !bitAt x 7)

/-- The location named by a special register with its increment and tabular bit (R190 to R193): tabular bit 1 makes it indirect, and the
register is stepped after use whether the location is an operand or a result (R194 (c)). With the barricade, that a register of bad parity names
no location and is stepped all the same is the model's choice (log 65). -/
def registerLoc (h : BitVec 3) (i inc : BitVec 5) (tab : Bool) : Op Loc := do
  if tab then
    let s ← get
    let r := s.reg h i
    let good ← checkExplicit r
    stepRegister h i inc
    pure (.mem (if good then r.full else nowhere))
  else pure (.reg h i inc)

/-- `locate` (R182, R200). With the barricade, that an index register of bad parity gives no location, and no register to read, write or step, is
the model's choice (log 65). -/
def locate (x : Group) (d : Bool) : Op Loc := do
  if ← isInactive x d then pure .inactive
  else
    let s ← get
    match d, bitAt x 1 with
    | false, false => pure (.mem (s.direct x).full)
    | false, true => do
      let (v, good, inRange) ← index x
      pure (.mem (if good && inRange then v.full else nowhere))
    | true, false => registerLoc s.cur (fld x 8 12) (fld x 2 6) (bitAt x 7)
    | true, true => do
      let (v, good, _) ← index x
      if good then registerLoc (fld v.bits 3 5) (fld v.bits 12 16) (fld v.bits 6 10) (bitAt v.bits 11)
      else pure (.mem nowhere)

/-- The contents of a location as an operand source; a special register is stepped after use (R190, R191). -/
def fetch (l : Loc) : Op MWord :=
  match l with
  | .inactive => refuse .inactiveAddress
  | .mem a => memRead a
  | .reg h i inc => do
    let s ← get
    stepRegister h i inc
    pure (MWord.good (srToWord (s.reg h i)))

/-- The present contents of a result location (R230, R371): nothing is stepped. -/
def peek (l : Loc) : Op MWord :=
  match l with
  | .inactive => refuse .inactiveAddress
  | .mem a => memRead a
  | .reg h i _ => do
    let s ← get
    pure (MWord.good (srToWord (s.reg h i)))

/-- What a word stored into a special register becomes (`word_to_sr`, R28): its low-order 16 bits, and when `EXTENDED` the array bit of
the controlling counter. A word with bad parity leaves a register with bad parity, whose bits are free values (R321, U12). -/
def State.toSr (s : State) (v : MWord) : SReg :=
  if MWord.bad v then ⟨s.cfg.extended && s.ctl.arr, (Config.freeWord s.free).setWidth 16, .bad⟩
  else ⟨s.cfg.extended && s.ctl.arr, fld v.bits 33 48, .good⟩

/-- A result stored; a special register addressed as a result is never stepped (R190, R194 (b)). -/
def store (l : Loc) (v : MWord) : Op Unit :=
  match l with
  | .inactive => refuse .inactiveAddress
  | .mem a => memWrite a v
  | .reg h i _ => do
    let s ← get
    update fun s => { s with free := if MWord.bad v then s.free + 1 else s.free }
    writeReg h i (s.toSr v)

/-- `read` (R200). -/
def readOperand (x : Group) (d : Bool) : Op MWord := do
  let l ← locate x d
  fetch l

/-- `write` (R200). -/
def writeResult (x : Group) (d : Bool) (v : MWord) : Op Unit := do
  let l ← locate x d
  store l v

/-! ### Extended binary add and subtract (R275) -/

/-- The word EBA and EBS make of a special register: sign in bit 25, array bit in bit 33, address in 34 to 48. -/
def srToExt (r : SReg) : Word := BitVec.ofNat 48 (r.sign.toNat * 2 ^ 23 + r.arr.toNat * 2 ^ 15 + r.addr)

/-- The special register EBA and EBS store from a word. -/
def extToSr (w : Word) : SReg := SReg.mk' (bitAt w 33) (bitAt w 25) (fld w 34 48).toNat

/-- `read` for EBA and EBS. -/
def readExtended (x : Group) (d : Bool) : Op MWord := do
  let l ← locate x d
  match l with
  | .reg h i inc => do
    let s ← get
    stepRegister h i inc
    pure (MWord.good (srToExt (s.reg h i)))
  | l => fetch l

/-- `write` for EBA and EBS. -/
def writeExtended (x : Group) (d : Bool) (v : MWord) : Op Unit := do
  let l ← locate x d
  match l with
  | .reg h i _ => writeReg h i (extToSr v.bits)
  | l => store l v

/-- A direct or indexed main memory address as a positive counter (R490, R495): a sum outside 15 bits or an index register with bad
parity names no location. -/
def plainAddress (x : Group) : Op SReg := do
  let s ← get
  if bitAt x 1 then
    let v ← index x
    pure { SReg.mk' v.1.arr true v.1.addr with tag := if v.2.1 && v.2.2 then .good else .lost }
  else pure (s.direct x)

/-- The location `k` words above a counter's (R490, R495): none beyond 15 bits or where the counter names none. -/
def SReg.above (r : SReg) (k : Nat) : Nat :=
  if r.tag = .good ∧ r.addr + k < 32768 then r.full + k else nowhere

/-! ### Masks (R40, R230) -/

/-- The main memory address of a mask: array bit and bank from MXR, then the given 11 bits (R40). -/
def maskAddress (mxr : SReg) (low : Nat) : Nat :=
  (if mxr.arr then 32768 else 0) + (fld mxr.bits 2 5).toNat * 2048 + low

/-- `field_mask_addr` (R40). -/
def fieldMaskAddress (mxr : SReg) (m : BitVec 5) : Nat :=
  maskAddress mxr ((fld mxr.bits 11 16).toNat * 32 + m.toNat)

/-- `shift_mask_addr` (R40). -/
def shiftMaskAddress (mxr : SReg) (b : Group) : Nat :=
  maskAddress mxr ((fld mxr.bits 6 10).toNat * 64 + (fld b 7 12).toNat)

/-- The mask fetched into the mask register (R224). -/
def loadMask (addr : SReg → Nat) : Op MWord := do
  let s ← get
  let r := s.reg s.cur mxrIx
  let good ← checkImplicit r
  let m ← memRead (if good then addr r else nowhere)
  update fun s => { s with mr := m.bits }
  pure m

/-- `protected(w, m, c)` (R230). -/
def protect (w m c : Word) : Word := (w &&& m) ||| (c &&& ~~~m)

/-- Location 00000 after a masked result has gone to a special register: unspecified (R231, U13; log 46). -/
def State.zeroSpoiled (s : State) (l : Loc) : State :=
  match l with
  | .reg _ _ _ =>
    { s.putWord 0 s.freeMWord with free := s.free + 2 }
  | _ => s

/-- Location 00000 left unspecified, in a memory cycle of its own. -/
def spoilZero (l : Loc) : Op Unit :=
  match l with
  | .reg _ _ _ => do
    tick
    update fun s => s.zeroSpoiled l
  | _ => pure ()

/-! ### The forms of an instruction -/

/-- The parts of a general instruction, masked or unmasked (R133, R134): a masked one has no designators. -/
structure Form where
  seq : Bool
  mask : Option (BitVec 5)
  a : Group
  dA : Bool
  b : Group
  dB : Bool
  c : Group
  dC : Bool
deriving DecidableEq, Repr

/-- The unmasked form. -/
def genForm (f : Gen) : Form := ⟨f.seq, none, f.a, f.dA, f.b, f.dB, f.c, f.dC⟩

/-- The masked form: the designators are implied zero (R141). -/
def fldForm (f : Fld) : Form := ⟨f.seq, some f.mask, f.a, false, f.b, false, f.c, false⟩

/-- Whether no address group of 7777 has its designator one (R141, R220). -/
def Form.designated (f : Form) : Bool :=
  !(f.dA && f.a == inactiveGroup) && !(f.dB && f.b == inactiveGroup) && !(f.dC && f.c == inactiveGroup)

/-- An address group of 7777 with its designator one is unspecified in every instruction that has the designator (R141, U1). -/
def checkDesignators (f : Form) : Op Unit := if f.designated then pure () else refuse .inactiveWithDesignator

/-- The start of an instruction with designators but ULD. -/
def beginForm (f : Form) : Op Unit := do
  begin
  checkDesignators f

/-- The field mask of a masked instruction (R40, R224); none for an unmasked one. -/
def maskOf (k : Option (BitVec 5)) : Op (Option MWord) :=
  match k with
  | none => pure none
  | some k => do
    let m ← loadMask fun r => fieldMaskAddress r k
    pure (some m)

/-- An operand under the mask (R243). -/
def gate (m : Option MWord) (w : Word) : Word :=
  match m with
  | none => w
  | some m => w &&& m.bits

/-- Whether the mask word's parity fails: an ordinary operand failure (R230). -/
def maskBad (m : Option MWord) : Bool :=
  match m with
  | none => false
  | some m => MWord.bad m

/-- A result delivered, protected where there is a mask (R230): whether the old contents of a protected location had bad parity. -/
def deliver (m : Option MWord) (l : Loc) (w : Word) : Op Bool :=
  match m with
  | none => do
    store l (MWord.good w)
    pure false
  | some m => do
    let old ← peek l
    store l (MWord.good (protect w m.bits old.bits))
    pure (MWord.bad old)

/-- An instruction whose rule does not describe an inactive address there. -/
def needActive (x : Group) (d : Bool) : Op Unit := do
  if ← isInactive x d then refuse .inactiveAddress else pure ()

/-! ### Sequence change through C (R322) -/

/-- Whether register `i` of group `h` is the counter `nxt` of the executing group. -/
def State.isCounter (s : State) (h : BitVec 3) (i : BitVec 5) (nxt : Ctr) : Bool := h == s.cur && i == nxt.ix

/-- A special register read as the new contents of the counter `nxt`: stepped after use unless it is that counter (R194 (d), R322). The
counter is written, so that its parity is good (R205). -/
def counterFrom (h : BitVec 3) (i inc : BitVec 5) (nxt : Ctr) : Op SReg := do
  let s ← get
  let r := s.reg h i
  let _ ← checkExplicit r
  if s.isCounter h i nxt then pure () else stepRegister h i inc
  pure { r with tag := .good }

/-- An address as the new contents of a counter: one that leaves 15 bits names no location, which is control error 00001 when the counter
next selects (R184, R322; log 33). -/
def SReg.counted (r : SReg) (inRange : Bool) : SReg := { r with tag := if inRange then .good else .lost }

/-- The new contents of the counter `nxt` that C names (R322); none when C is inactive. The tabular bit is ignored, and a register is
read here, before any history register is written (D57), and stepped whatever the parity of the operands (log 55). With the barricade, an
index register of bad parity is used with the bits it has: the model's choice (log 33). -/
def sequenceTarget (x : Group) (d : Bool) (nxt : Ctr) : Op (Option SReg) := do
  if ← isInactive x d then pure none
  else
    let s ← get
    match d, bitAt x 1 with
    | false, false => pure (some (s.direct x))
    | false, true => do
      let (v, _, inRange) ← index x
      pure (some ((SReg.mk' v.arr true v.addr).counted inRange))
    | true, false => do
      let r ← counterFrom s.cur (fld x 8 12) (fld x 2 6) nxt
      pure (some r)
    | true, true => do
      let (v, _, _) ← index x
      let r ← counterFrom (fld v.bits 3 5) (fld v.bits 12 16) (fld v.bits 6 10) nxt
      pure (some r)

/-- The end of an instruction with a conditional or unconditional sequence change through C (R322, R350): `met` says whether C is used.
With a parity failure the history register and the bisequence bit change as if C were used, the counter does not, and the
unprogrammed transfer follows (R323, R353). That a C which names indirectly the very counter to be changed, which is then left as it is (R194 (d)),
writes the history register all the same is the model's choice (log 70). -/
def concludeJump (i : Instr) (seq : Bool) (c : Group) (d met bad : Bool) (huntIfNot : Bool) : Op Unit := do
  let inactive ← isInactive c d
  if inactive then
    if bad then do
      endInstr seq false
      unprogrammedTransfer utParity i
    else endInstr seq false
  else if met then do
    let t ← sequenceTarget c d (ctrOf seq)
    if bad then do
      jumpSuppressed (ctrOf seq)
      unprogrammedTransfer utParity i
    else do
      jump (ctrOf seq) (t.getD SReg.zero)
  else
    if bad then do
      endInstr seq false
      unprogrammedTransfer utParity i
    else endInstr seq huntIfNot

/-! ### Group transfers (R320) -/

/-- The initial contents of an arithmetic control counter, and whether it is a special register address (`au_init`, R320). None for
an inactive address. An index register of bad parity gives a counter that names no location (R205; log 33). With extended memory, that the array bit
of a counter loaded with a direct or indexed special register address is zero is the model's choice (log 69). -/
def auInit (x : Group) (d : Bool) : Op (Option (Bool × SReg)) := do
  if ← isInactive x d then pure none
  else
    let s ← get
    match d, bitAt x 1 with
    | false, false => pure (some (false, s.direct x))
    | false, true => do
      let (v, good, inRange) ← index x
      pure (some (false, { SReg.mk' v.arr true v.addr with tag := if good && inRange then .good else .lost }))
    | true, false =>
      if bitAt x 7 then do
        let r := s.reg s.cur (fld x 8 12)
        let good ← checkExplicit r
        stepRegister s.cur (fld x 8 12) (fld x 2 6)
        pure (some (false, { r with tag := if good then .good else .lost }))
      else pure (some (true, SReg.mk' false true (s.cur.toNat * 2048 + (fld x 2 12).toNat)))
    | true, true => do
      let (v, good, _) ← index x
      if !good then pure (some (false, { SReg.mk' v.arr true v.addr with tag := .lost }))
      else if bitAt v.bits 11 then do
        let r := s.reg (fld v.bits 3 5) (fld v.bits 12 16)
        let ok ← checkExplicit r
        stepRegister (fld v.bits 3 5) (fld v.bits 12 16) (fld v.bits 6 10)
        pure (some (false, { r with tag := if ok then .good else .lost }))
      else pure (some (true, SReg.mk' false true v.addr))

/-- An arithmetic control counter loaded with the contents of a counter (R41). -/
def loadAu (i : BitVec 5) (r : SReg) : Op Unit := update fun s => s.setReg s.cur i r

/-- The arithmetic control counter stepped after a word (`au_next`, R320). -/
def nextAu (i : BitVec 5) : Op Unit := do
  let s ← get
  let r ← stepCounter false (s.reg s.cur i)
  update fun s => s.setReg s.cur i r

/-- Whether the subaddress of an arithmetic control counter has overflowed into the tabular bit (R197): what a reference by it then gives is
unspecified (R320, U14; log 31). -/
def State.overflowed (s : State) (isReg : Bool) (i : BitVec 5) : Bool := isReg && bitAt (s.reg s.cur i).bits 11

/-- The word that a reference by an arithmetic control counter gives: a free one after an overflow. -/
def referred (wrapped : Bool) (w : MWord) : Op MWord := do
  if wrapped then
    let s ← get
    update fun s => { s with free := s.free + 2 }
    pure s.freeMWord
  else pure w

/-- The location an arithmetic control counter names (R320). A tabular bit set by an overflow of the subaddress makes an indirect
reference (R197, U14; log 31). -/
def auLoc (isReg : Bool) (i : BitVec 5) : Op Loc := do
  let s ← get
  let r := s.reg s.cur i
  let good ← checkImplicit r
  if !good then pure (.mem nowhere)
  else if isReg then registerLoc (fld r.bits 3 5) (fld r.bits 12 16) (fld r.bits 6 10) (bitAt r.bits 11)
  else pure (.mem r.full)

/-- `au_read` (R320). -/
def auRead (isReg : Bool) (i : BitVec 5) : Op MWord := do
  let s ← get
  let l ← auLoc isReg i
  let w ← fetch l
  referred (s.overflowed isReg i) w

/-- `au_write` (R320). -/
def auWrite (isReg : Bool) (i : BitVec 5) (w : MWord) : Op Unit := do
  let s ← get
  let l ← auLoc isReg i
  let v ← referred (s.overflowed isReg i) w
  store l v

end Sys2Proof.Machine
end

