-- ==== Sys2Proof/Machine/Flags.lean ====
section
/-! DEFINITION. The pure arithmetic of the fixed-point instructions: signs, overflow and comparison conditions (the machine has no
condition codes, R51), decimal digits, rotation. -/
namespace Sys2Proof.Machine

/-! ### Sign and magnitude (R241) -/

/-- `pos`: any of the four sign bits a one. -/
def posSign (w : Word) : Bool := fld w 1 4 != 0#4

/-- `mag`: the 44-bit magnitude. -/
def mag (w : Word) : Nat := (fld w 5 48).toNat

/-- A word with a standard four-bit sign and a magnitude taken modulo `2^44`. -/
def signedWord (pos : Bool) (m : Nat) : Word := BitVec.ofNat 48 ((if pos then 15 else 0) * 2 ^ 44 + m % 2 ^ 44)

/-- What an addition or subtraction leaves: the accumulator, the sign flip-flop, overflow. -/
structure Sum where
  ac : Word
  sign : Bool
  ovf : Bool
deriving DecidableEq, Repr

/-- The outcome of an addition or subtraction: defined; a control error of the digit rule; or a result that is unspecified, where it may
overflow if magnitudes were added (R245, U20, U21). -/
inductive Alu where
  | sum (r : Sum)
  | error
  | unspecified (added : Bool)
deriving DecidableEq, Repr

/-- The subtraction of magnitudes, bits 1 to 4 filled with zeros (R241, R242). -/
def subMagnitudes (sa : Bool) (ma mb : Nat) (diff : Nat) : Sum :=
  if mb ≤ ma then ⟨BitVec.ofNat 48 (diff % 2 ^ 44), sa, false⟩ else ⟨BitVec.ofNat 48 (diff % 2 ^ 44), !sa, false⟩

/-- Signed binary addition or subtraction (`signed` of R241 with `LIMIT = 2^44`). -/
def binarySum (sub : Bool) (a b : Word) : Alu :=
  let sa := posSign a
  let sb := posSign b ^^ sub
  if sa = sb then
    .sum ⟨signedWord true (mag a + mag b), sa, decide (2 ^ 44 ≤ mag a + mag b)⟩
  else .sum (subMagnitudes sa (mag a) (mag b) (if mag b ≤ mag a then mag a - mag b else mag b - mag a))

/-! ### Decimal digits (R245) -/

/-- The low `n` hexadecimal digits of a number, the lowest first. -/
def digits : Nat → Nat → List Nat
  | 0, _ => []
  | n + 1, m => m % 16 :: digits n (m / 16)

/-- The number whose hexadecimal digits, lowest first, are given. -/
def ofDigits : List Nat → Nat
  | [] => 0
  | d :: t => d + 16 * ofDigits t

/-- Whether each of the low `n` digits is a decimal digit. -/
def isDecimal : Nat → Nat → Bool
  | 0, _ => true
  | n + 1, m => decide (m % 16 ≤ 9) && isDecimal n (m / 16)

/-- The decimal value of the low `n` digits. -/
def decimalValue : Nat → Nat → Nat
  | 0, _ => 0
  | n + 1, m => m % 16 + 10 * decimalValue n (m / 16)

/-- A number as `n` decimal digits. -/
def toDecimal : Nat → Nat → Nat
  | 0, _ => 0
  | n + 1, v => v % 10 + 16 * toDecimal n (v / 10)

/-- The sum of digit lists. -/
inductive DigitSum where
  | sum (ds : List Nat) (carry : Nat)
  | error
  | unspecified
deriving DecidableEq, Repr

/-- The digit rule of decimal addition (table of R245): digit and carry, or none where the table has neither; `x` is the A digit. -/
def addDigit (x y c : Nat) : DigitSum :=
  let t := x + y + c
  if 10 ≤ x then .sum [t % 16] (t / 16)
  else if t < 10 then .sum [t] 0
  else if t ≤ 18 ∨ y < 10 then .sum [t - 10] 1
  else if t ≤ 20 then .error
  else .unspecified

/-- Decimal addition, low-order digit first (R245). -/
def addDigits : List Nat → List Nat → Nat → DigitSum
  | x :: xs, y :: ys, c =>
    match addDigit x y c with
    | .sum ds c1 =>
      match addDigits xs ys c1 with
      | .sum r c2 => .sum (ds ++ r) c2
      | e => e
    | e => e
  | _, _, c => .sum [] c

/-- Decimal magnitude addition of eleven digits. -/
def decimalAdd (ma mb : Nat) : DigitSum := addDigits (digits 11 ma) (digits 11 mb) 0

/-- Signed decimal addition or subtraction (`signed` of R241 with `LIMIT = 10^11` and the digit rule R245): overflow is the carry out
of the eleventh digit (R251); a magnitude subtraction with a digit above 9 is unspecified. -/
def decimalSum (sub : Bool) (a b : Word) : Alu :=
  let sa := posSign a
  let sb := posSign b ^^ sub
  if sa = sb then
    match decimalAdd (mag a) (mag b) with
    | .sum ds c => .sum ⟨signedWord true (ofDigits ds), sa, decide (0 < c)⟩
    | .error => .error
    | .unspecified => .unspecified true
  else if isDecimal 11 (mag a) && isDecimal 11 (mag b) then
    let va := decimalValue 11 (mag a)
    let vb := decimalValue 11 (mag b)
    .sum (subMagnitudes sa va vb (toDecimal 11 (if vb ≤ va then va - vb else vb - va)))
  else .unspecified false

/-- Word add: unsigned 48-bit addition, overflow from bit 1 (R252). The sign flip-flop is not referred to. -/
def wordSum (acSign : Bool) (a b : Word) : Alu :=
  .sum ⟨a + b, acSign, decide (2 ^ 48 ≤ a.toNat + b.toNat)⟩

/-- Word difference: the absolute difference, overflow when B is the greater (R255). -/
def wordDifference (acSign : Bool) (a b : Word) : Alu :=
  if b.toNat ≤ a.toNat then .sum ⟨a - b, acSign, false⟩ else .sum ⟨b - a, acSign, true⟩

/-! ### Comparison (R351, R352, R580) -/

/-- `val`: the algebraic value of a signed word; plus and minus zero are equal (R351). -/
def signedValue (w : Word) : Int := if posSign w then (mag w : Int) else -(mag w : Int)

/-- `alpha_ne` (R352). -/
def alphaNe (a b : Word) : Bool := a != b

/-- `alpha_le`: the unsigned order of the 48 bits (R352). -/
def alphaLe (a b : Word) : Bool := decide (a.toNat ≤ b.toNat)

/-- `num_ne` (R351). -/
def numNe (a b : Word) : Bool := signedValue a != signedValue b

/-- `num_le` (R351). -/
def numLe (a b : Word) : Bool := decide (signedValue a ≤ signedValue b)

/-- The normalized less than or equal comparison (R580): different signs compare by the sign alone, else by exponent and mantissa as one
number, reversed when both are negative. -/
def floatLe (a b : Word) : Bool :=
  match bitAt a 1, bitAt b 1 with
  | true, true => decide ((fld a 2 48).toNat ≤ (fld b 2 48).toNat)
  | false, false => decide ((fld b 2 48).toNat ≤ (fld a 2 48).toNat)
  | true, false => false
  | false, true => true

/-! ### Rotation (R370) -/

/-- `rotr48`: the whole word right end around. -/
def rotr48 (w : Word) (n : Nat) : Word := w.rotateRight (n % 48)

/-- `rotr44`: bits 5 to 48 right end around, the sign in place. -/
def rotr44 (w : Word) (n : Nat) : Word :=
  setFld w 5 48 ((fld w 5 48).rotateRight (n % 44))

/-! ### Frames (R501, D46) -/

/-- The word bits of frame `k` (1 to 6): the quoted masks of frames 1 and 2, continued with period 16 (D46). -/
def frameMask : Nat → Word
  | 1 => 0xCCCC00000000#48
  | 2 => 0x333300000000#48
  | 3 => 0x0000CCCC0000#48
  | 4 => 0x000033330000#48
  | 5 => 0x00000000CCCC#48
  | 6 => 0x000000003333#48
  | _ => 0#48

/-- Whether the mask covers frame `k`. -/
def coversFrame (m : Word) (k : Nat) : Bool := m &&& frameMask k == frameMask k

/-- Whether the mask is one or more complete frames (R501). -/
def isFrameMask (m : Word) : Bool :=
  m != 0#48 &&
    (([1, 2, 3, 4, 5, 6].filter (coversFrame m)).foldl (fun acc k => acc ||| frameMask k) 0#48 == m)

/-- Whether a covered frame has its parity in error (R501). -/
def badFrame (m : Word) (perr : BitVec 6) : Bool :=
  [1, 2, 3, 4, 5, 6].any fun k => coversFrame m k && bitAt perr k

/-! ### Orthocount (R495) -/

/-- One word taken into the pair of orthowords. -/
def orthoStep (o : Word × Word) (w : Word) : Word × Word := (o.2, o.1 ^^^ w)

end Sys2Proof.Machine
end

