-- ==== Sys2Proof/Machine/Arithmetic.lean ====
section
/-! DEFINITION. The arithmetic instructions (41_arithmetic.md): BA DA WA BS DS WD, masked and unmasked, BM DM BT DT EBA EBS. -/
namespace Sys2Proof.Machine

/-- How the add family combines: the type of its accumulator words, and the adder's operation given the sign flip-flop. -/
structure Adder where
  kind : AcKind
  combine : Bool → Word → Word → Alu

/-- BA (R250). -/
def adderBA : Adder := ⟨.binary, fun _ a b => binarySum false a b⟩
/-- BS (R253). -/
def adderBS : Adder := ⟨.binary, fun _ a b => binarySum true a b⟩
/-- DA (R251). -/
def adderDA : Adder := ⟨.decimal, fun _ a b => decimalSum false a b⟩
/-- DS (R254). -/
def adderDS : Adder := ⟨.decimal, fun _ a b => decimalSum true a b⟩
/-- WA (R252). -/
def adderWA : Adder := ⟨.unsigned, wordSum⟩
/-- WD (R255). -/
def adderWD : Adder := ⟨.unsigned, wordDifference⟩

/-- The word the accumulator delivers (`store_form`, R244). -/
def storeForm (k : AcKind) (r : Sum) : Word :=
  match k with
  | .unsigned => r.ac
  | _ => signedWord r.sign (mag r.ac)

/-- The accumulator retrieved by an inactive A (R221, R222, R223): a free value unless the word there was left by the instruction just before,
of the same type, and, for a masked retrieval, under the same mask. -/
def retrieve (k : AcKind) (m : Option MWord) : Op Sum := do
  let s ← get
  if s.acState = .held k ∧ (m = none ∨ s.heldMask = m.map (·.bits)) then pure ⟨s.ac, s.acSign, false⟩
  else do
    let f ← fresh
    let b ← freshBool
    pure ⟨f, if k = .unsigned then s.acSign else b, false⟩

/-- The sign flip-flop once A is in the accumulator: the unsigned instructions do not refer to it (R241, R244, R252). -/
def loadedSign (k : AcKind) (old : Bool) (a : Word) : Bool :=
  match k with
  | .unsigned => old
  | _ => posSign a

/-- An operand read, for EBA and EBS in their own form (R275): the word under the mask, and whether its parity fails. -/
def operand (ext : Bool) (m : Option MWord) (x : Group) (d : Bool) : Op (Word × Bool) := do
  let w ← if ext then readExtended x d else readOperand x d
  pure (gate m w.bits, MWord.bad w)

/-- The first operand of the add family: its value, the accumulator with it, and whether a parity fails. -/
def firstOperand (k : AcKind) (ext : Bool) (m : Option MWord) (x : Group) (d inactive : Bool) : Op (Word × Sum × Bool) := do
  if inactive then
    let r ← retrieve k m
    pure (storeForm k r, r, false)
  else
    let s ← get
    let w ← operand ext m x d
    pure (w.1, ⟨w.1, loadedSign k s.acSign w.1, false⟩, w.2)

/-- What the adder leaves: a digit rule error is control error 00100 (R245, D22); an unspecified result is a free value, sign and carry too. -/
def resolve (x : Alu) : Op Sum :=
  match x with
  | .sum r => pure r
  | .error => offError 0b00100#5
  | .unspecified added => do
    let f ← fresh
    let b ← freshBool
    let o ← freshBool
    pure ⟨f, b, added && o⟩

/-- The arithmetic registers after an addition: the accumulator and its sign, whether it is delivered (R221), `LOP` a free value after a
masked one (R243). -/
def State.summed (s : State) (k : AcKind) (m : Option MWord) (r : Sum) (delivered : Bool) : State :=
  { s with
    ac := r.ac, acSign := r.sign, acState := if delivered then .delivered else .held k,
    lop := if m.isSome then Config.freeWord s.free else s.lop, lopHeld := false,
    heldMask := if delivered then none else m.map (·.bits), free := if m.isSome then s.free + 1 else s.free }

/-- An addition leaving its result in the arithmetic registers. -/
def leave (k : AcKind) (m : Option MWord) (r : Sum) (delivered : Bool) : Op Unit := update fun s => s.summed k m r delivered

/-- The store of an addition's result; a decimal result for a special register is unspecified (R251, R254). -/
def deliverSum (k : AcKind) (ext : Bool) (m : Option MWord) (l : Loc) (w : Word) : Op Bool :=
  match l with
  | .reg h i inc =>
    if k = .decimal then refuse .decimalToRegister
    else if ext then do
      writeReg h i (extToSr w)
      pure false
    else deliver m (.reg h i inc) w
  | l => deliver m l w

/-- The add family (R240 to R244). -/
def addOp (i : Instr) (k : Adder) (ext : Bool) (f : Form) : Op Unit := do
  beginForm f
  let ia ← isInactive f.a f.dA
  let s ← get
  if ia ∧ (s.acState = .delivered ∨ s.acState = .spent) then offError 0b00100#5
  else
    let m ← maskOf f.mask
    let a ← firstOperand k.kind ext m f.a f.dA ia
    let ib ← isInactive f.b f.dB
    let r ← if ib then pure (a.2.1, false) else do
      let b ← operand ext m f.b f.dB
      let r ← resolve (k.combine a.2.1.sign a.1 b.1)
      pure (r, b.2)
    let ic ← isInactive f.c f.dC
    if ic then
      leave k.kind m r.1 false
      conclude i f.seq false (maskBad m || a.2.2 || r.2) r.1.ovf
    else
      leave k.kind m r.1 true
      let l ← locate f.c f.dC
      let badC ← deliverSum k.kind ext m l (storeForm k.kind r.1)
      conclude i f.seq true (maskBad m || a.2.2 || r.2 || badC) r.1.ovf

/-- EBA and EBS exist only with extended memory (R275, R276, R147). -/
def extendedOp (i : Instr) (k : Adder) (f : Gen) : Op Unit := do
  let s ← get
  if s.cfg.extended then addOp i k true (genForm f) else offError s.cfg.illegalOp

/-- A nonzero parity error pattern: which frames of a multiple are wrong is not stated (R262; log 45). -/
def badPattern (n : Nat) : BitVec 6 :=
  if (Config.freeWord n).setWidth 6 = 0#6 then 0x3F#6 else (Config.freeWord n).setWidth 6

/-- One word of the multiple table (R262, D24): it has bad parity. -/
def State.multiple (s : State) (word : Nat → Word) (k : Nat) : State :=
  { s.putWord k ⟨word k, badPattern s.free⟩ with free := s.free + 1 }

/-- The multiple table `M[0]` to `M[n - 1]` (R262). -/
def State.tabulated (s : State) (word : Nat → Word) : Nat → State
  | 0 => s
  | n + 1 => (s.tabulated word n).multiple word n

/-- The multiple table stored, a memory cycle for each word (R262). -/
def tabulate (word : Nat → Word) : Nat → Op Unit
  | 0 => pure ()
  | n + 1 => do
    tabulate word n
    tick
    update fun s => s.multiple word n

/-- The scratch memory and counter of a multiply: `size` multiples, then AU1, which is stepped over them (R262). -/
def State.scratched (s : State) (word : Nat → Word) (size : Nat) : State :=
  (s.tabulated word size).setReg s.cur au1 (SReg.mk' false true size)

/-- The multiples of a multiply, and the counter. -/
def scratch (word : Nat → Word) (size : Nat) : Op Unit := do
  tabulate word size
  update fun s => s.setReg s.cur au1 (SReg.mk' false true size)

/-- The arithmetic registers after a multiply (R260): the product in two words, the high-order one delivered (R221, R240), the mask
register destroyed. -/
def State.multiplied (s : State) (sign : Bool) (hi lo : Nat) : State :=
  { s with
    ac := signedWord sign hi, acSign := sign, acState := .delivered, lop := signedWord sign lo, lopHeld := true,
    heldMask := none, mr := Config.freeWord s.free, free := s.free + 1 }

/-- A multiply (R260, R261): `size` multiples `word k`, and the product `sign`, `hi`, `lo`. -/
def multiply (i : Instr) (f : Gen) (size : Nat) (a b : MWord) (word : Nat → Word) (sign : Bool) (hi lo : Nat) : Op Unit := do
  scratch word size
  let l ← locate f.c f.dC
  store l (MWord.good (signedWord sign hi))
  update fun s => s.multiplied sign hi lo
  conclude i f.seq false (MWord.bad a || MWord.bad b) false

/-- What both multiplies do first: the operands are read; a special register C is then control error 01110 (R260, D22), with nothing of the
instruction performed (D55). -/
def multiplyOperands (f : Gen) : Op (MWord × MWord) := do
  beginForm (genForm f)
  needActive f.a f.dA
  needActive f.b f.dB
  needActive f.c f.dC
  let a ← readOperand f.a f.dA
  let b ← readOperand f.b f.dB
  let s ← get
  if s.namesRegister f.c f.dC then offError 0b01110#5 else pure (a, b)

/-- Binary multiply (R260). -/
def multiplyBinary (i : Instr) (f : Gen) : Op Unit := do
  let p ← multiplyOperands f
  let q := mag p.1.bits * mag p.2.bits
  multiply i f 16 p.1 p.2 (fun k => BitVec.ofNat 48 (k * mag p.1.bits)) (posSign p.1.bits == posSign p.2.bits) (q / 2 ^ 44)
    (q % 2 ^ 44)

/-- A multiple of a decimal multiply (R262): twelve decimal digits; where A has hexadecimal digits, zero and A itself are as the rule says
and the others free values (log 47). -/
def decimalMultiple (a : Word) (free k : Nat) : Word :=
  if isDecimal 11 (mag a) then BitVec.ofNat 48 (toDecimal 12 (k * decimalValue 11 (mag a)))
  else if k = 0 then 0#48
  else if k = 1 then BitVec.ofNat 48 (mag a)
  else Config.freeWord (free + k)

/-- Decimal multiply (R261); hexadecimal digits make the product a free value, its sign too (U22, log 47). -/
def multiplyDecimal (i : Instr) (f : Gen) : Op Unit := do
  let p ← multiplyOperands f
  let s ← get
  if isDecimal 11 (mag p.1.bits) && isDecimal 11 (mag p.2.bits) then
    let q := decimalValue 11 (mag p.1.bits) * decimalValue 11 (mag p.2.bits)
    multiply i f 10 p.1 p.2 (decimalMultiple p.1.bits s.free) (posSign p.1.bits == posSign p.2.bits) (toDecimal 11 (q / 10 ^ 11))
      (toDecimal 11 (q % 10 ^ 11))
  else do
    update fun s => { s with free := s.free + 12 }
    multiply i f 10 p.1 p.2 (decimalMultiple p.1.bits (s.free + 2)) (Config.freeBool s.free) (mag (Config.freeWord s.free))
      (mag (Config.freeWord (s.free + 1)))

/-- The running total of an accumulation: its magnitude, its sign, and whether it has overflowed. -/
structure Total where
  value : Nat
  sign : Bool
  ovf : Bool
deriving DecidableEq, Repr

/-- One more word of an accumulation (R265, R266); an unspecified digit sum leaves the sign of the total free too (R245, U20). -/
def accumulateStep (dec : Bool) (t : Total) (w : Word) : Op Total :=
  if dec then
    match decimalAdd t.value (mag w) with
    | .sum ds c => pure { t with value := ofDigits ds, ovf := t.ovf || decide (0 < c) }
    | .error => offError 0b00100#5
    | .unspecified => do
      let f ← fresh
      let b ← freshBool
      let o ← freshBool
      pure ⟨mag f, b, t.ovf || o⟩
  else pure { t with value := (t.value + mag w) % 2 ^ 44, ovf := t.ovf || decide (2 ^ 44 ≤ t.value + mag w) }

/-- The repeated reading of A: the address group is evaluated again for every word (R265). The total, and whether a parity failed. -/
def accumulateRest (dec : Bool) (x : Group) (d : Bool) : Nat → Total → Bool → Op (Total × Bool)
  | 0, t, bad => pure (t, bad)
  | n + 1, t, bad => do
    let w ← readOperand x d
    let t' ← accumulateStep dec t w.bits
    accumulateRest dec x d n t' (bad || MWord.bad w)

/-- The arithmetic registers after an accumulation: the total delivered (R265). -/
def State.totalled (s : State) (sign : Bool) (total : Nat) : State :=
  { s with ac := signedWord true total, acSign := sign, acState := .delivered, lopHeld := false, heldMask := none }

/-- BT and DT (R265, R266); a hunt follows (R240), and the designator of B, but with 7777, is ignored (log 26). -/
def accumulate (i : Instr) (dec : Bool) (f : Gen) : Op Unit := do
  beginForm (genForm f)
  needActive f.a f.dA
  needActive f.c f.dC
  match (fld f.b 1 6).toNat with
  | 0 => do
    intervene
    endInstr f.seq true
  | n + 1 => do
    let a ← readOperand f.a f.dA
    let t ← accumulateRest dec f.a f.dA n ⟨mag a.bits, posSign a.bits, false⟩ (MWord.bad a)
    update fun s => s.totalled t.1.sign t.1.value
    let l ← locate f.c f.dC
    store l (MWord.good (signedWord t.1.sign t.1.value))
    conclude i f.seq true t.2 t.1.ovf

/-- BA (R250). -/
def execBa (f : Gen) (s : State) : Host.Outcome State Fault Refusal := perform (addOp (.ba f) adderBA false (genForm f)) s
/-- DA (R251). -/
def execDa (f : Gen) (s : State) : Host.Outcome State Fault Refusal := perform (addOp (.da f) adderDA false (genForm f)) s
/-- WA (R252). -/
def execWa (f : Gen) (s : State) : Host.Outcome State Fault Refusal := perform (addOp (.wa f) adderWA false (genForm f)) s
/-- BS (R253). -/
def execBs (f : Gen) (s : State) : Host.Outcome State Fault Refusal := perform (addOp (.bs f) adderBS false (genForm f)) s
/-- DS (R254). -/
def execDs (f : Gen) (s : State) : Host.Outcome State Fault Refusal := perform (addOp (.ds f) adderDS false (genForm f)) s
/-- WD (R255). -/
def execWd (f : Gen) (s : State) : Host.Outcome State Fault Refusal := perform (addOp (.wd f) adderWD false (genForm f)) s
/-- BA masked (R243, R250). -/
def execBaM (f : Fld) (s : State) : Host.Outcome State Fault Refusal := perform (addOp (.baM f) adderBA false (fldForm f)) s
/-- DA masked (R243, R251). -/
def execDaM (f : Fld) (s : State) : Host.Outcome State Fault Refusal := perform (addOp (.daM f) adderDA false (fldForm f)) s
/-- WA masked (R243, R252). -/
def execWaM (f : Fld) (s : State) : Host.Outcome State Fault Refusal := perform (addOp (.waM f) adderWA false (fldForm f)) s
/-- BS masked (R243, R253). -/
def execBsM (f : Fld) (s : State) : Host.Outcome State Fault Refusal := perform (addOp (.bsM f) adderBS false (fldForm f)) s
/-- DS masked (R243, R254). -/
def execDsM (f : Fld) (s : State) : Host.Outcome State Fault Refusal := perform (addOp (.dsM f) adderDS false (fldForm f)) s
/-- WD masked (R243, R255). -/
def execWdM (f : Fld) (s : State) : Host.Outcome State Fault Refusal := perform (addOp (.wdM f) adderWD false (fldForm f)) s
/-- EBA (R275). -/
def execEba (f : Gen) (s : State) : Host.Outcome State Fault Refusal := perform (extendedOp (.eba f) adderBA f) s
/-- EBS (R276). -/
def execEbs (f : Gen) (s : State) : Host.Outcome State Fault Refusal := perform (extendedOp (.ebs f) adderBS f) s
/-- BM (R260). -/
def execBm (f : Gen) (s : State) : Host.Outcome State Fault Refusal := perform (multiplyBinary (.bm f) f) s
/-- DM (R261). -/
def execDm (f : Gen) (s : State) : Host.Outcome State Fault Refusal := perform (multiplyDecimal (.dm f) f) s
/-- BT (R265). -/
def execBt (f : Gen) (s : State) : Host.Outcome State Fault Refusal := perform (accumulate (.bt f) false f) s
/-- DT (R266). -/
def execDt (f : Gen) (s : State) : Host.Outcome State Fault Refusal := perform (accumulate (.dt f) true f) s

end Sys2Proof.Machine
end

