-- ==== Sys2Proof/Machine/Decision.lean ====
section
/-! DEFINITION. The decision instructions (44_decision.md): NA NN LA LN. -/
namespace Sys2Proof.Machine

/-- The accumulator after a decision: invalid, and any attempt to deliver it is a control error (R350). -/
def State.decided (s : State) : State := { s.noAc with acState := .spent }

/-- A decision leaving the accumulator. -/
def leaveDelivered : Op Unit := update State.decided

/-- A decision instruction (R350, R353). -/
def decisionOp (i : Instr) (cond : Word → Word → Bool) (f : Form) : Op Unit := do
  beginForm f
  needActive f.a f.dA
  needActive f.b f.dB
  leaveDelivered
  let m ← maskOf f.mask
  let a ← readOperand f.a f.dA
  let b ← readOperand f.b f.dB
  concludeJump i f.seq f.c f.dC (cond (gate m a.bits) (gate m b.bits))
    (maskBad m || MWord.bad a || MWord.bad b) true

/-- NA (R355). -/
def execNa (f : Gen) (s : State) : Host.Outcome State Fault Refusal := perform (decisionOp (.na f) alphaNe (genForm f)) s
/-- NN (R356). -/
def execNn (f : Gen) (s : State) : Host.Outcome State Fault Refusal := perform (decisionOp (.nn f) numNe (genForm f)) s
/-- LA (R357). -/
def execLa (f : Gen) (s : State) : Host.Outcome State Fault Refusal := perform (decisionOp (.la f) alphaLe (genForm f)) s
/-- LN (R358). -/
def execLn (f : Gen) (s : State) : Host.Outcome State Fault Refusal := perform (decisionOp (.ln f) numLe (genForm f)) s
/-- NA masked (R350, R355). -/
def execNaM (f : Fld) (s : State) : Host.Outcome State Fault Refusal := perform (decisionOp (.naM f) alphaNe (fldForm f)) s
/-- NN masked (R350, R356). -/
def execNnM (f : Fld) (s : State) : Host.Outcome State Fault Refusal := perform (decisionOp (.nnM f) numNe (fldForm f)) s
/-- LA masked (R350, R357). -/
def execLaM (f : Fld) (s : State) : Host.Outcome State Fault Refusal := perform (decisionOp (.laM f) alphaLe (fldForm f)) s
/-- LN masked (R350, R358). -/
def execLnM (f : Fld) (s : State) : Host.Outcome State Fault Refusal := perform (decisionOp (.lnM f) numLe (fldForm f)) s

end Sys2Proof.Machine
end

