-- ==== Sys2Proof/Machine/Logical.lean ====
section
/-! DEFINITION. The logical instructions (42_logical.md): EX SS HA SM. -/
namespace Sys2Proof.Machine

/-- The arithmetic registers after a logical or shift instruction: nothing may be retrieved from the accumulator (R221), which a print may
still show (R293, R379, R460), the low-order product register as said (R293, R371). That the mask of EX, SS or a shift is not the `same mask` of R223,
so that a masked TS retrieves a free value, is the model's choice (log 24). -/
def State.logical (s : State) (ac lop : Word) (held : Bool) : State :=
  { s with ac := ac, acState := .printable, lop := lop, lopHeld := held, heldMask := none }

/-- A logical or shift instruction leaving its result in the arithmetic registers. -/
def leaveLogical (ac lop : Word) (held : Bool) : Op Unit := update fun s => s.logical ac lop held

/-- The arithmetic registers after HA or SM (R290, R291): the low-order product register a free value after a masked one (R243). -/
def State.combined (s : State) (m : Option MWord) (w : Word) : State :=
  { s.logical w (if m.isSome then Config.freeWord s.free else s.lop) false with free := if m.isSome then s.free + 1 else s.free }

/-- HA and SM (R290, R291): no inactive address; masked as the add family (R243), `LOP` then being a free value. -/
def logicalOp (i : Instr) (combine : Word → Word → Word) (f : Form) : Op Unit := do
  beginForm f
  needActive f.a f.dA
  needActive f.b f.dB
  needActive f.c f.dC
  let m ← maskOf f.mask
  let a ← readOperand f.a f.dA
  let b ← readOperand f.b f.dB
  let w := combine (gate m a.bits) (gate m b.bits)
  update fun s => s.combined m w
  let l ← locate f.c f.dC
  let badC ← deliver m l w
  conclude i f.seq true (maskBad m || MWord.bad a || MWord.bad b || badC) false

/-- The A operand of EX (R293): a free value where A is inactive (U28). -/
def extractSource (f : Gen) : Op MWord := do
  if ← isInactive f.a f.dA then do
    let w ← fresh
    pure (MWord.good w)
  else readOperand f.a f.dA

/-- The mask of EX (R224, R293): the mask register where B is inactive. -/
def extractMask (f : Gen) : Op MWord := do
  if ← isInactive f.b f.dB then do
    let s ← get
    pure (MWord.good s.mr)
  else readOperand f.b f.dB

/-- EX (R293): an inactive A is a free value (U28), an inactive B is the mask register, an inactive C stores nothing. -/
def extractOp (i : Instr) (f : Gen) : Op Unit := do
  beginForm (genForm f)
  let a ← extractSource f
  let m ← extractMask f
  update fun s => { s with mr := m.bits }
  leaveLogical a.bits (a.bits &&& m.bits) true
  let ic ← isInactive f.c f.dC
  if ic then conclude i f.seq false (MWord.bad a || MWord.bad m) false
  else
    let l ← locate f.c f.dC
    store l (MWord.good (a.bits &&& m.bits))
    spoilZero l
    conclude i f.seq true (MWord.bad a || MWord.bad m) false

/-- SS (R292): C is located once, read, merged and written. -/
def substituteOp (i : Instr) (f : Gen) : Op Unit := do
  beginForm (genForm f)
  needActive f.a f.dA
  needActive f.b f.dB
  needActive f.c f.dC
  let a ← readOperand f.a f.dA
  let m ← readOperand f.b f.dB
  update fun s => { s with mr := m.bits }
  let l ← locate f.c f.dC
  let old ← peek l
  leaveLogical a.bits (protect a.bits m.bits old.bits) true
  store l (MWord.good (protect a.bits m.bits old.bits))
  spoilZero l
  conclude i f.seq true (MWord.bad a || MWord.bad m || MWord.bad old) false

/-- EX (R293). -/
def execEx (f : Gen) (s : State) : Host.Outcome State Fault Refusal := perform (extractOp (.ex f) f) s
/-- SS (R292). -/
def execSs (f : Gen) (s : State) : Host.Outcome State Fault Refusal := perform (substituteOp (.ss f) f) s
/-- HA (R290). -/
def execHa (f : Gen) (s : State) : Host.Outcome State Fault Refusal :=
  perform (logicalOp (.ha f) (fun a b => a ^^^ b) (genForm f)) s
/-- SM (R291). -/
def execSm (f : Gen) (s : State) : Host.Outcome State Fault Refusal :=
  perform (logicalOp (.sm f) (fun a b => a ||| b) (genForm f)) s
/-- HA masked (R243, R290). -/
def execHaM (f : Fld) (s : State) : Host.Outcome State Fault Refusal :=
  perform (logicalOp (.haM f) (fun a b => a ^^^ b) (fldForm f)) s
/-- SM masked (R243, R291). -/
def execSmM (f : Fld) (s : State) : Host.Outcome State Fault Refusal :=
  perform (logicalOp (.smM f) (fun a b => a ||| b) (fldForm f)) s

end Sys2Proof.Machine
end

