-- ==== Sys2Proof/Machine/Misc.lean ====
section
/-! DEFINITION. The miscellaneous instructions (47_miscellaneous.md): PRA PRD PRO, MPC, PR, S, CC, CP. -/
namespace Sys2Proof.Machine

/-! ### Print (R460 to R468) -/

/-- `n` copies of a list of symbols by position, with a space after every `k` of them (R464). -/
def spaced (k : Nat) (sym : Nat → Sym) : Nat → List Sym
  | 0 => []
  | n + 1 => spaced k sym n ++ (if (n + 1) % k = 0 then [sym n, .space] else [sym n])

/-- The symbols of the data (R464): eight characters, twelve hexadecimal digits or sixteen octal digits. -/
def printData (mode : BitVec 2) (w : Word) : List Sym :=
  match mode.toNat with
  | 0b10 => (List.range 8).map fun k => .char (w.extractLsb' (42 - 6 * k) 6)
  | 0b11 => spaced 3 (fun k => .hex (w.extractLsb' (44 - 4 * k) 4)) 12
  | _ => spaced 4 (fun k => .oct (w.extractLsb' (45 - 3 * k) 3)) 16

/-- All a print instruction types (R464): the group indicator unless more was to follow, the data, the check characters of a word with
bad parity, the carriage return. That nothing is typed at the physical end of the carriage, whose place is not given (N63), is the model's
choice (log 36). -/
def printSymbols (g : BitVec 3) (more : Bool) (b : Group) (w : MWord) : List Sym :=
  (if more then [] else [.group g]) ++ printData (printMode b) w.bits ++
    (if MWord.bad w then [.space, .oct (fld w.perr 1 3), .oct (fld w.perr 4 6)] else []) ++
    (if bitAt b 4 && bitAt b 3 then [] else [.cr])

/-- The typewriter number `B{7..12}`. -/
def typewriterOf (b : Group) : Nat := (fld b 7 12).toNat

/-- Who has interlocked a typewriter by more-to-follow (R460): true is the slave. -/
def State.owner (s : State) (slave : Bool) : Option (BitVec 3) := if slave then s.mtfSlave else s.mtfConsole

/-- The interlock of a typewriter set. -/
def State.setOwner (s : State) (slave : Bool) (o : Option (BitVec 3)) : State :=
  if slave then { s with mtfSlave := o } else { s with mtfConsole := o }

/-- Whether a print must wait (R460, D44): a word is being typed, or the typewriter is another program's. -/
def State.typewriterBusy (s : State) (slave : Bool) : Bool :=
  s.typing.isSome || (match s.owner slave with
    | some g => g != s.cur
    | none => false)

/-- A word put into the typewriter buffer (R460, R466): what location 00021 holds until the word has been typed is a free value
(U47; log 36). -/
def State.startedTyping (s : State) (slave : Bool) (b : Group) (w : MWord) : State :=
  { (s.putWord typewriterBuffer s.freeMWord).setOwner slave (if bitAt b 4 then some s.cur else none) with
    typing := some ⟨slave, printSymbols s.cur (s.owner slave).isSome b w⟩, typeSpoiled := false, free := s.free + 2 }

/-- A word given to a typewriter, through its buffer word (R460). -/
def startTyping (slave : Bool) (b : Group) (w : MWord) : Op Unit := do
  tick
  update fun s => s.startedTyping slave b w

/-- The word printed, or loaded into the barricade register: an inactive A gives the accumulator, delivered or not (R460), a free value
where no rule defines its contents (R43, U48). -/
def printSource (f : Prt) (inactive : Bool) : Op MWord := do
  if inactive then
    let s ← get
    if s.acState = .undefined ∨ s.acState = .spent then do
      let w ← fresh
      pure (MWord.good w)
    else pure (MWord.good s.ac)
  else readOperand f.a f.dA

/-- The parity bit of the barricade register, generated as it is loaded (R50, R669), over its bits 33 to 48: an odd number of ones with the
bit (log 58). -/
def barParityBit (b : BitVec 24) : Bool := (List.range 16).foldl (fun p k => p ^^ b.getLsbD k) true

/-- The barricade register loaded (R468): bits 25 to 32 stay, the parity is generated anew. -/
def State.loadedBar (s : State) (w : Word) : State :=
  let b := setFld (setFld s.bar 9 13 (fld w 33 37)) 17 24 (fld w 41 48)
  { s with bar := b, barParity := barParityBit b }

/-- Loading the barricade register (R468). -/
def loadBarricade (w : Word) : Op Unit :=
  if fld w 38 40 ≠ 0#3 then critical 0b11000#5 else update fun s => s.loadedBar w

/-- The barricade register as a word (R468). -/
def barWord (b : BitVec 24) : Word := b.setWidth 48

/-- The barricade register access forms (R468). -/
def barricadeForm (s : State) (b : Group) : Bool :=
  s.cfg.barricade && (typewriterOf b == 4 || typewriterOf b == 8)

/-- Whether A is a direct special register or indirect address with an increment (R460). -/
def printIncremented (f : Prt) : Bool := f.dA && !bitAt f.a 1 && fld f.a 2 6 != 0#5

/-- A word read for a typewriter (R460, R464): none where the instruction has to wait for it, else it is typed. Its parity makes no transfer (R610
case 7). -/
def typeWord (slave : Bool) (b : Group) (w : MWord) : Op (Option Bool) := do
  let s ← get
  if s.typewriterBusy slave then pure none
  else do
    startTyping slave b w
    pure (some false)

/-- What a print with active B does before its sequence change: whether a word that is not printed had bad parity (R610), or none where the
typewriter is not free, A having been read first (R460). That typewriter 01 is refused like the undescribed numbers (U46) where no slave is
installed is the model's choice (log 36). -/
def printPart (f : Prt) (ia : Bool) : Op (Option Bool) := do
  let s ← get
  if bitAt f.b 1 then refuse .printBit1
  else if barricadeForm s f.b then
    if typewriterOf f.b = 4 then do
      let w ← printSource f ia
      loadBarricade w.bits
      pure (some (MWord.bad w))
    else do
      writeResult f.a f.dA (MWord.good (barWord s.bar))
      pure (some false)
  else if printMode f.b = 0#2 then refuse .printMode
  else if 1 < typewriterOf f.b ∨ (typewriterOf f.b = 1 ∧ s.cfg.slave = false) then refuse .typewriterNumber
  else do
    let w ← printSource f ia
    typeWord (decide (typewriterOf f.b = 1)) f.b w

/-- What a print with inactive B does before its sequence change (R460): A is read, if it is active; whether it had bad parity (R610). -/
def readPart (f : Prt) (ia : Bool) : Op (Option Bool) := do
  if ia then pure (some false)
  else
    let w ← readOperand f.a f.dA
    pure (some (MWord.bad w))

/-- The print operation in every mode (R460): never a hunt. A is read before the typewriter is found busy and the instruction stalls: that what
reading it has done to a special register then stays, and is done again by the retry, is read from the rule by inference (log 36). The parity of
a word that is printed makes no transfer (R610 case 7, R464); that of a word that is read and not printed does, and the sequence change it asked
for is then not made (R603, R610; log 36). -/
def printOp (i : Instr) (f : Prt) : Op Unit := do
  beginForm ⟨f.seq, none, f.a, f.dA, f.b, false, f.c, f.dC⟩
  let ia ← isInactive f.a f.dA
  if ia = false ∧ printIncremented f = true then refuse .printIncrement
  else do
    let p ← if f.b = inactiveGroup then readPart f ia else printPart f ia
    match p with
    | none => stall .io
    | some bad => do
      noAc
      if bad then unprogrammedTransfer utParity i else concludeJump i f.seq f.c f.dC true false false

/-! ### Control program (R470 to R474) -/

/-- Whether a group can be given the processor (R630): in demand and not stalled, a wait of R472 ending when the awaited demand is off. -/
def State.runnable (s : State) (g : BitVec 3) : Bool :=
  s.inDemand g &&
    (match s.stalls[g.toNat]'g.isLt with
     | .running => true
     | .io => false
     | .demand t => !s.inDemand t)

/-- The first runnable group from `g` on, cyclically (R630). -/
def State.scanFrom (s : State) (g : BitVec 3) : Option (BitVec 3) :=
  [0#3, 1#3, 2#3, 3#3, 4#3, 5#3, 6#3, 7#3].map (g + ·) |>.find? s.runnable

/-- The eight groups with the bits of the PCR named after them. -/
def State.forGroups (s : State) (f : BitVec 3 → State → State) : State :=
  [0#3, 1#3, 2#3, 3#3, 4#3, 5#3, 6#3, 7#3].foldl (fun t g => f g t) s

/-- `v(g) = B{5 + g}` (R470). -/
def controlBit (b : Group) (g : BitVec 3) : Bool := bitAt b (5 + g.toNat)

/-- The rows of Figure XII-2 (R470) for function codes 0000 to 0111. -/
def State.control (s : State) (b : Group) : State :=
  let v := controlBit b
  match (fld b 1 4).toNat with
  | 0 => s.setDemandBit s.cur false
  | 1 => s.forGroups fun g t => if v g then t else t.setDemandBit g false
  | 2 => s.forGroups fun g t => if v g then t.setDemandBit g true else t
  | 3 => s.forGroups fun g t => t.setDemandBit g (v g)
  | 4 => s
  | 5 => s.forGroups fun g t => if v g then t else (t.setDemandBit g true).setBis g false
  | 6 => s.forGroups fun g t => if v g then (t.setDemandBit g true).setBis g true else t
  | _ => s.forGroups fun g t => t.setBis g (v g)

/-- The program control register in the accumulator and the low-order product register (R470). -/
def State.pcrHeld (s : State) : State :=
  { s with ac := s.pcr, acState := .held .unsigned, lop := s.pcr, lopHeld := true, heldMask := none }

/-- The program control register delivered (R470): to C, or with an inactive C to the accumulator and the low-order product register,
from where it may be retrieved. -/
def deliverControl (f : Mpc) (ic : Bool) : Op Unit := do
  let s ← get
  if ic then update State.pcrHeld
  else do
    noAc
    writeResult f.c f.dC (MWord.good s.pcr)

/-- Whether C has one of the forms of a control program instruction (R470): direct, indexed, indirect or inactive. -/
def controlAddressOk (f : Mpc) : Bool := !f.dC || (!bitAt f.c 1 && bitAt f.c 7)

/-- The target group of function 1000 (R472). -/
def controlTarget (b : Group) : Option (BitVec 3) :=
  match bitAt b 5, bitAt b 7 with
  | true, false => some 0
  | false, true => some 2
  | _, _ => none

/-- The bits function 1000 writes (R472): group `t` in demand under SC; the caller, by its own bit of B, keeps its demand bit, its
bisequence bit being written, or is turned off. -/
def State.handing (s : State) (f : Mpc) (t : BitVec 3) : State :=
  let s1 := (s.setDemandBit t true).setBis t false
  if controlBit f.b s.cur then s1.setBis s.cur f.seq else s1.setDemandBit s.cur false

/-- Group `t` in control at once, unless a limited control error is due, when the caller is turned off first (R472, R666; log 22). What the arithmetic registers hold is not for
it (R43, R686). -/
def State.handed (s : State) (t : BitVec 3) : State :=
  if s.limited.isNone then { s.dropHeld.setCur t with scan := none } else { s with scan := none }

/-- Function 1000 (R472): control is handed to group `t` at once. -/
def handOver (f : Mpc) (ic : Bool) (t : BitVec 3) : Op Unit := do
  deliverControl f ic
  update fun s => (s.handing f t).handed t

/-- The bits the other functions write, and the hunt, whose successor is chosen from the demand bits as they were (R470, R474; log 44): the
register delivered by an inactive C can then no longer be retrieved (R43). -/
def State.controlled (s : State) (f : Mpc) : State :=
  let s1 := (s.control f.b).setBis s.cur f.seq
  if f.hunt && s.limited.isNone then { s1.dropHeld with scan := some ((s.scanFrom (s.cur + 1)).getD (s.cur + 1)) }
  else { s1 with scan := none }

/-- The other functions (R470, R474). -/
def controlFunctions (f : Mpc) (ic : Bool) : Op Unit := do
  deliverControl f ic
  update fun s => s.controlled f

/-- MPC (R470, R472). -/
def controlOp (f : Mpc) : Op Unit := do
  begin
  let ic ← isInactive f.c f.dC
  let s ← get
  if controlAddressOk f = false then refuse .controlAddress
  else if fld f.b 1 4 = 0b1000#4 then
    match controlTarget f.b with
    | none => refuse .controlFunction
    | some t =>
      if s.cur = 0#3 ∨ s.cur = 2#3 then refuse .controlFunction
      else if s.inDemand t then stall (.demand t)
      else handOver f ic t
  else if bitAt f.b 1 then refuse .controlFunction
  else controlFunctions f ic

/-! ### Proceed and simulator (R480, R490) -/

/-- PR (R480): no operation; no hunt where the C group is 7777. -/
def proceedOp (f : Prc) : Op Unit := do
  begin
  if f.bit4 then refuse .proceedBit4
  else do
    intervene
    endSame (f.c != inactiveGroup)

/-- The address group in the command code of a simulator instruction, its last three bits ones (R490). -/
def simGroup (indexed : Bool) (addr : BitVec 8) : Group := BitVec.ofNat 12 (indexed.toNat * 2048 + addr.toNat * 8 + 7)

/-- S (R490): the instruction stored, AU1 and AU2 loaded from A and C, the cosequence counter set; no hunt. What an index register that gives no
location leaves with the barricade is the model's choice (log 65). -/
def simulateOp (i : Instr) (indexed : Bool) (f : Sim) : Op Unit := do
  begin
  let s ← get
  if s.byUtr then refuse .simulatorFromTable
  else do
    noAc
    let t ← plainAddress (simGroup indexed f.addr)
    let a ← plainAddress f.a
    let c ← plainAddress f.c
    loadAu au1 a
    loadAu au2 c
    memWrite (t.above 0) (MWord.good (encode s.cfg.opmap i))
    jump .csc (SReg.mk' t.arr true (t.addr + 1))
    if t.addr + 1 < 32768 then pure ()
    else update fun s => s.setReg s.cur Ctr.csc.ix { s.reg s.cur Ctr.csc.ix with tag := .bad }

/-! ### Orthocount and parity (R495, R500) -/

/-- The counter reloaded for a distributed orthocount (R495): the table word AU2 names, AU2 then stepped. -/
def reloadCounter (regB : Bool) : Op Unit := do
  let t ← auRead regB au2
  let s ← get
  loadAu au1 (s.toSr (MWord.good t.bits))
  nextAu au2

/-- The orthocount loop (R495): the pair of orthowords once the end-of-record word is reached; none where the counter cannot advance or
cannot be used, a control error (log 28). Parity is ignored (R610 case 9). -/
def orthocount (table : Option Bool) : Nat → Word × Word → Op (Option (Word × Word))
  | 0, _ => fail .endlessTransfer
  | n + 1, o => do
    let s ← get
    let r := s.reg s.cur au1
    let ok ← runCounter r
    if !ok then pure none
    else do
      let w ← memRead r.full
      nextAu au1
      if isEor w.bits then pure (some o)
      else
        match table, isEoi w.bits with
        | some regB, true => do
          reloadCounter regB
          orthocount table n (orthoStep o w.bits)
        | _, _ =>
          if s.atStopper r then do
            softError 0b00001#5
            pure none
          else orthocount table n (orthoStep o w.bits)

/-- As many words as there are pairs of contents of the two counters, memory being unchanged meanwhile: an orthocount that takes more
never ends (log 28). -/
def orthoFuel : Nat := 17179869184

/-- The table of a distributed orthocount (R495): AU2 is loaded with the B address; whether it is a special register address. -/
def orthoTable (f : Gen) : Op (Option Bool) := do
  let b ← auInit f.b f.dB
  match b with
  | none => pure none
  | some b => do
    loadAu au2 { b.2 with bits := setBitAt b.2.bits 1 true }
    pure (some b.1)

/-- The arithmetic registers after an orthocount: the first orthoword in the accumulator, the second in the mask register (R495). -/
def State.counted (s : State) (o : Word × Word) : State :=
  { s with ac := o.1, mr := o.2, acState := .undefined, lopHeld := false, heldMask := none }

/-- What CC leaves once the record is counted (R495): the orthowords and an end-of-record word. Where C names no location, or `C + 2` leaves 15 bits,
AU2 takes the sum modulo `2^15` with the barricade: the model's choice (log 28). -/
def orthoResult (f : Gen) (c : SReg) (o : Word × Word) : Op Unit := do
  memWrite (c.above 0) (MWord.good o.1)
  memWrite (c.above 1) (MWord.good o.2)
  memWrite (c.above 2) (MWord.good eorWord)
  loadAu au2 (SReg.mk' c.arr true (c.addr + 2))
  update fun s => s.counted o
  endInstr f.seq true

/-- An address of CC as a positive counter (R495; log 48); a special register address is unspecified. -/
def orthoAddress (x : Group) (d : Bool) : Op SReg := do
  let a ← auInit x d
  match a with
  | none => refuse .inactiveAddress
  | some a => if a.1 then refuse .groupRegister else pure { a.2 with bits := setBitAt a.2.bits 1 true }

/-- CC (R495). With the barricade, what one that a control error ends leaves (no orthowords, AU2 and MR as they were, a free accumulator, no hunt) is
the model's choice (log 28). -/
def orthocountOp (f : Gen) : Op Unit := do
  beginForm (genForm f)
  if f.dC && !bitAt f.c 1 && bitAt f.c 7 && fld f.c 2 6 != 0#5 then refuse .orthocountIncrement
  else do
    let a ← orthoAddress f.a f.dA
    let c ← orthoAddress f.c f.dC
    memWrite (c.above 0) (MWord.good eorWord)
    loadAu au1 a
    let table ← orthoTable f
    let o ← orthocount table orthoFuel (BitVec.allOnes 48, BitVec.allOnes 48)
    match o with
    | some o => orthoResult f c o
    | none => do
      noAc
      endInstr f.seq false

/-- Whether CP finds bad parity (R500, R501), and the word it stores: with a mask that is not made of complete frames both are free
(U53). -/
def parityCheck (m : Option MWord) (w : MWord) : Op (Bool × Word) :=
  match m with
  | none => pure (MWord.bad w, w.bits)
  | some m =>
    if isFrameMask m.bits then pure (badFrame m.bits w.perr, w.bits)
    else do
      let b ← freshBool
      let v ← fresh
      pure (b, v)

/-- CP (R500): no unprogrammed transfer for the word checked, but a sequence change. A mask with bad parity is an ordinary operand failure
(R230; log 50), whose transfer ignores the bisequence bit (R603, C15). -/
def checkParityOp (i : Instr) (f : Form) : Op Unit := do
  beginForm f
  needActive f.a f.dA
  needActive f.b f.dB
  noAc
  let m ← maskOf f.mask
  let w ← readOperand f.a f.dA
  let p ← parityCheck m w
  writeResult f.b f.dB (MWord.good p.2)
  if maskBad m then unprogrammedTransfer utParity i else concludeJump i f.seq f.c f.dC p.1 false true

/-- PRA (R461). -/
def execPra (f : Prt) (s : State) : Host.Outcome State Fault Refusal := perform (printOp (.pra f) f) s
/-- PRD (R462). -/
def execPrd (f : Prt) (s : State) : Host.Outcome State Fault Refusal := perform (printOp (.prd f) f) s
/-- PRO (R463). -/
def execPro (f : Prt) (s : State) : Host.Outcome State Fault Refusal := perform (printOp (.pro f) f) s
/-- MPC (R470). -/
def execMpc (f : Mpc) (s : State) : Host.Outcome State Fault Refusal := perform (controlOp f) s
/-- PR (R480). -/
def execPr (f : Prc) (s : State) : Host.Outcome State Fault Refusal := perform (proceedOp f) s
/-- S with a direct address (R490). -/
def execSDir (f : Sim) (s : State) : Host.Outcome State Fault Refusal := perform (simulateOp (.sDir f) false f) s
/-- S with an indexed address (R490). -/
def execSIdx (f : Sim) (s : State) : Host.Outcome State Fault Refusal := perform (simulateOp (.sIdx f) true f) s
/-- CC (R495). -/
def execCc (f : Gen) (s : State) : Host.Outcome State Fault Refusal := perform (orthocountOp f) s
/-- CP (R500). -/
def execCp (f : Gen) (s : State) : Host.Outcome State Fault Refusal := perform (checkParityOp (.cp f) (genForm f)) s
/-- CP masked (R501). -/
def execCpM (f : Fld) (s : State) : Host.Outcome State Fault Refusal := perform (checkParityOp (.cpM f) (fldForm f)) s

end Sys2Proof.Machine
end

