-- ==== Sys2Proof/Machine/Peripheral.lean ====
section
/-! DEFINITION. The peripheral instructions (46_peripheral.md): RF RB WF RW. -/
namespace Sys2Proof.Machine

/-- The three transfers a peripheral instruction can ask for. -/
inductive Motion where
  | forward | backward | write
deriving DecidableEq, Repr

/-- The direction of the channel it uses (R401, R404). -/
def Motion.dir : Motion → Dir
  | .write => .output
  | _ => .input

/-- Which device can perform it (R401, R431, R445 to R456). -/
def canMove (k : DevKind) (m : Motion) : Bool :=
  match m with
  | .forward => decide (k = .tape ∨ k = .cardReader ∨ k = .paperReader ∨ k = .other)
  | .backward => decide (k = .tape)
  | .write => decide (k ≠ .cardReader ∧ k ≠ .paperReader)

/-- The flip-flop the operation tests: a read checks the previous read, a write the previous write (R420). -/
def Device.stored (v : Device) (d : Dir) : Bool :=
  match d with
  | .input => v.readErr
  | .output => v.writeErr

/-- The flip-flop reset. -/
def Device.clearError (v : Device) (d : Dir) : Device :=
  match d with
  | .input => { v with readErr := false }
  | .output => { v with writeErr := false }

/-- Whether the device itself is unavailable (R404 step 3, R422, R440, R458): in motion, locked, out of service, or a reader that
is to read and has nothing left. That a reader so at the end of its tape stalls no read with inactive A and no rewind is the model's choice
(log 38). What a multiple terminal unit control adds is `State.multipleBusy`. -/
def Device.unavailable (v : Device) (k : DevKind) (m : Motion) (active : Bool) : Bool :=
  v.busy || v.locked || v.out || (active && decide (m = .forward) && decide (k ≠ .tape) && v.after.isEmpty)

/-- The address of a read-write counter (R404 step 6, R430 to R432): positive, but for a backward read. A sum outside 15 bits names no
location. That with the barricade an index register of bad parity keeps the device from being started is the model's choice (log 65). -/
def bufferAddress (x : Group) (m : Motion) : Op (SReg × Bool) := do
  let s ← get
  if bitAt x 1 then
    let v ← index x
    pure ({ SReg.mk' v.1.arr (decide (m ≠ .backward)) v.1.addr with tag := if v.2.1 && v.2.2 then .good else .lost }, v.2.1)
  else
    let v := s.direct x
    pure (SReg.mk' v.arr (decide (m ≠ .backward)) v.addr, true)

/-- A read-write counter set, and its address checked (R660, R665): false, and control error 10000, where a restricted program names a
protected location. The counter is set in either case. -/
def setCounter (ch : BitVec 3) (i : BitVec 5) (x : Group) (m : Motion) : Op Bool := do
  let r ← bufferAddress x m
  update (·.setReg ch i r.1)
  let s ← get
  if s.barsMem r.1.full then do
    softError 0b10000#5
    pure false
  else pure r.2

/-- The read-write counters of a peripheral instruction with active A (R404 step 6); whether the device may start. -/
def setCounters (f : Per) (m : Motion) : Op Bool := do
  let okA ← setCounter f.ch (bufferIx m.dir) f.a m
  if f.b = inactiveGroup then pure okA
  else
    let okB ← setCounter f.ch (tableIx m.dir) f.b m
    pure (okA && okB)

/-- The end of a read or write: the sequence change of the selecting counter where C is active (R400, R404 step 8); never a hunt (R402). -/
def concludePeripheral (f : Per) : Op Unit := do
  let s ← get
  let t ← sequenceTarget f.c false s.sel
  match t with
  | none => endSame false
  | some r => jump s.sel r

/-- A record whose length lets the sign of the end or the beginning of tape come a record early or late (R422). -/
def oddLength (n : Nat) : Bool := decide (2048 < n) || decide (n < 7)

/-- How many words a write from address `a` takes through the end-of-record word, as memory stands, up to a bound. -/
def State.runLength (s : State) : Nat → Nat → Nat
  | 0, _ => 0
  | n + 1, a => if isEor (s.mem.word a).bits then 1 else 1 + s.runLength n (a + 1)

/-- Whether the record about to be written may have an odd length: it has, or its words are distributed. -/
def State.oddWrite (s : State) (f : Per) : Bool :=
  f.b != inactiveGroup || oddLength (s.runLength 2049 (s.reg f.ch wacIx).full)

/-- Whether a record near the first end-of-tape record `e`, of those on the tape or the one about to be written, has an odd length. -/
def Device.oddNear (v : Device) (m : Motion) (e : Nat) (odd : Bool) : Bool :=
  (((v.before.reverse ++ if m = .write then [] else v.after).drop (e - 1)).take 3).any (fun r => oddLength r.length) ||
    (decide (m = .write) && odd)

/-- Whether the operation meets the end of the tape, or its beginning (R422): records `eot` and beyond, or the first record of the tape
read backward. The record-length tolerances of the rule make it a free truth value near the end, and at the first two records
backward (log 56). A paper tape punch senses its end too. -/
def Device.atEnd (v : Device) (k : DevKind) (m : Motion) (odd free : Bool) : Bool :=
  match m with
  | .backward =>
    match v.before with
    | [] => true
    | [r] => if decide (2048 < r.length) || v.after.head?.any (fun q => decide (q.length < 7)) then free else true
    | [r, _] => decide (r.length < 7) && free
    | _ => false
  | _ =>
    match v.eot with
    | none => false
    | some e =>
      if k = .tape then
        if e = v.before.length ∨ e = v.before.length + 1 then
          if v.oddNear m e odd then free else decide (e ≤ v.before.length)
        else decide (e ≤ v.before.length)
      else decide (k = .paperPunch) && decide (e ≤ v.before.length)

/-! ### The words the readers deliver (R447, R452) -/

/-- The codes a card reader takes as illegal with its switch at STANDARD: the starred card codes of Table I (R94, R447). -/
def starredCards : List Nat := [0o12, 0o16, 0o17, 0o32, 0o35, 0o36, 0o52, 0o55, 0o56, 0o60, 0o72, 0o75, 0o76, 0o77]

/-- How many information words a card gives: ten, or twenty when transcribed (R447). -/
def cardSize (mode : CardMode) : Nat := if mode = .transcribe then 20 else 10

/-- The information words of a card. -/
def cardInfo (mode : CardMode) (r : Record) : List MWord :=
  (List.range (cardSize mode)).map fun k => r.getD k (MWord.good 0#48)

/-- The control word of a card read on-line: zeros, but for bits 15 and 16 (R447). What the reader sensed in bits 15 and 16 of a word after
the information words is the host's to say (log 57). -/
def cardControl (mode : CardMode) (r : Record) : MWord :=
  let sensed := fld (r.getD (cardSize mode) (MWord.good 0#48)).bits 15 16
  let starred := decide (mode = .standard) && (cardInfo mode r).any fun w => (characters w.bits).any fun c => decide (c.toNat ∈ starredCards)
  MWord.good (setFld 0#48 15 16 (if sensed = 0b10#2 then 0b10#2 else if sensed = 0b01#2 ∨ starred = true then 0b01#2 else 0b11#2))

/-- The words an input device delivers for a record: a card with its control word (R447), one frame of paper tape with zeros above
it (R452), or the record itself. -/
def delivered (k : DevKind) (v : Device) (r : Record) : Record :=
  match k with
  | .cardReader => cardInfo v.mode r ++ [cardControl v.mode r]
  | .paperReader => [frameOf (r.headD (MWord.good 0#48))]
  | _ => r

/-- Whether a frame of paper tape fails the parity check the reader is set to (R452). -/
def Device.frameBad (v : Device) (r : Record) : Bool :=
  match v.odd with
  | none => false
  | some odd => (List.range 8).foldl (fun p k => p ^^ (r.headD (MWord.good 0#48)).bits.getLsbD k) false != odd

/-- Whether reading a record that `n` records lie before stores an error at once: a tape record that fails its check (R446) or is the first beyond
the continuous initial segment (R445, U43), a frame that fails its parity (R452). -/
def Device.readBad (v : Device) (k : DevKind) (n : Nat) (r : Record) : Bool :=
  match k with
  | .tape => decide (n = v.segment) || !recordOk r
  | .paperReader => v.frameBad r
  | _ => false

/-- A transfer about to start. -/
def Xfer.start (f : Per) (k : DevKind) (m : Motion) (todo : List MWord) : Xfer where
  dev := f.dev
  kind := k
  backward := decide (m = .backward)
  distributed := f.b != inactiveGroup
  first := true
  todo := todo
  sent := []
  count := none
  err := false

/-- The device in motion, with what the record it moves over leaves (R445, R446): a bad record sets the read error flip-flop, which
nothing tests before the device stops. -/
def Device.moving (v : Device) (bad : Bool) (before after : List Record) (op : LastOp) : Device :=
  { v with busy := true, readErr := v.readErr || bad, before := before, after := after, last := op }

/-- The record a forward read finds; beyond the recorded tape, a free record (R445, U43; log 38). -/
def forwardRecord (v : Device) (k : DevKind) : Op (Record × Bool × List Record) :=
  match v.after with
  | r :: t => pure (r, v.readBad k v.before.length r, t)
  | [] => do
    let s ← get
    update fun s => { s with free := s.free + 1 }
    let r := Config.freeRecord s.free
    pure (r, v.readBad k v.before.length r, [])

/-- The device in motion, its channel interlocked, with the words to come (R406). -/
def State.started (s : State) (f : Per) (k : DevKind) (m : Motion) (v : Device) (todo : List MWord) : State :=
  ((s.setDev m.dir f.ch f.dev v).setXfer m.dir f.ch (some (Xfer.start f k m todo))).setPcrBit (interlockBit m.dir f.ch) true

/-- The device and channel started (R406, R430 to R432): the interlock is set, the device busy. A backward read at the beginning of
tape moves no words (R422); the first cycle of a write takes place here (R411). -/
def startDevice (f : Per) (k : DevKind) (m : Motion) : Op Unit := do
  let s ← get
  let v := s.dev m.dir f.ch f.dev
  match m with
  | .forward => do
    let r ← forwardRecord v k
    update fun s => s.started f k m (v.moving r.2.1 (r.1 :: v.before) r.2.2 .read) (delivered k v r.1)
  | .backward =>
    match v.before with
    | r :: t => update fun s => s.started f k m (v.moving (v.readBad k t.length r) t (r :: v.after) .read) r.reverse
    | [] => update fun s => s.started f k m (v.moving false [] v.after .read) []
  | .write => do
    update fun s => s.started f k m (v.moving false v.before v.after .write) []
    update fun s => s.bufferCycle .output f.ch
    let s ← get
    if s.halted then finishNow else pure ()

/-- The requirement on the first read or write after another kind of operation (R402, U42): its violation leaves the tape free. -/
def spoilTape (f : Per) (k : DevKind) (m : Motion) : Op Unit := do
  let s ← get
  let v := s.dev m.dir f.ch f.dev
  let wrong := match m with
    | .write => decide (v.last = .rewind ∨ v.last = .read)
    | _ => decide (v.last = .rewind ∨ v.last = .write)
  if k = .tape ∧ wrong = true then
    update fun s => ({ s with free := s.free + 3 }).setDev m.dir f.ch f.dev
      { v with before := Config.freeTape s.free, after := Config.freeTape (s.free + 1), segment := (Config.freeWord (s.free + 2)).toNat,
               last := match m with | .write => .write | _ => .read }
  else pure ()

/-- An unprogrammed transfer that shows a code in the fixed-start bits (R420, R424). -/
def deviceTransfer (i : Instr) (code : BitVec 3) (s' : State → State) : Op Unit := do
  update fun s => (s' s).setFixedStart code
  unprogrammedTransfer utDeviceError i

/-- What follows once the device is known to be available (R404 steps 6 to 8). The first cycle of a write is a memory cycle of the instruction, before
which other channels may have theirs (R100, R411). -/
def moveOp (i : Instr) (k : DevKind) (m : Motion) (f : Per) : Op Unit := do
  if f.a = inactiveGroup then do
    spoilTape f k m
    concludePeripheral f
  else
    let ok ← setCounters f m
    if ok then do
      if m = .write then tick else pure ()
      let s ← get
      let free ← freshBool
      startDevice f k m
      if (s.dev m.dir f.ch f.dev).atEnd k m (s.oddWrite f) free then unprogrammedTransfer utTapeEnd i else concludePeripheral f
    else concludePeripheral f

/-- RF, RB, WF (R404). A control that is not connected is control error 00101; with the barricade the counters are still set up
(R665, R666 class (c)). -/
def peripheralOp (i : Instr) (m : Motion) (f : Per) : Op Unit := do
  begin
  noAc
  update (·.setFixedStart 0)
  let s ← get
  let d := m.dir
  if Config.connected s.cfg d f.ch = false then do
    softError 0b00101#5
    let _ ← if f.a = inactiveGroup then pure true else setCounters f m
    concludePeripheral f
  else
    match Config.kind s.cfg d f.ch f.dev with
    | none => stall .io
    | some k =>
      let v := s.dev d f.ch f.dev
      if canMove k m = false then refuse .deviceCannot
      else if v.unavailable k m (f.a != inactiveGroup) || s.multipleBusy d f.ch f.dev || (bitAt s.pcr (interlockBit d f.ch) && f.a != inactiveGroup) then stall .io
      else if v.stored d then deviceTransfer i 1 fun s => s.setDev d f.ch f.dev (v.clearError d)
      else if v.switch ≠ 0 then deviceTransfer i v.switch fun s => s.setDev d f.ch f.dev { v with switch := 0 }
      else moveOp i k m f

/-- The side of the control a rewind addresses: immaterial for a tape (R440). For any other device, that the input side is looked at first, and that
the control is missing only where it is connected on neither side, is the model's choice (log 71). -/
def rewindDir (c : Config) (ch dev : BitVec 3) : Dir :=
  if (Config.kind c .input ch dev).isSome then .input
  else if (Config.kind c .output ch dev).isSome then .output
  else if Config.connected c .input ch then .input else .output

/-- A tape rewinding (R440): the error flip-flops are cleared; an active A locks it when rewound. That a tape already rewound goes through the same
is the model's choice (log 68). -/
def Device.rewind (v : Device) (lock : Bool) : Device :=
  { v with busy := true, readErr := false, writeErr := false, lockOnRewind := lock, last := .rewind,
           before := [], after := v.before.reverse ++ v.after }

/-- Paper tape wound onto either reel: which one is the operator's switch, a free truth value (R440; log 38). -/
def Device.wind (v : Device) (supply : Bool) : Device :=
  let all := v.before.reverse ++ v.after
  { v with busy := true, before := if supply then [] else all.reverse, after := if supply then all else [] }

/-- RW (R440): a hunt always follows. -/
def rewindOp (i : Instr) (f : Per) : Op Unit := do
  begin
  noAc
  update (·.setFixedStart 0)
  let s ← get
  let d := rewindDir s.cfg f.ch f.dev
  let v := s.dev d f.ch f.dev
  if Config.connected s.cfg d f.ch = false then do
    softError 0b00101#5
    endSame true
  else
    match Config.kind s.cfg d f.ch f.dev with
    | none => stall .io
    | some .tape =>
      if v.busy || v.locked || v.out then stall .io
      else do
        update fun s => s.setDev d f.ch f.dev (v.rewind (f.a != inactiveGroup))
        endSame true
    | some .paperReader =>
      if v.busy || v.locked || v.out then stall .io
      else if v.readErr then deviceTransfer i 1 fun s => s.setDev d f.ch f.dev (v.clearError .input)
      else if v.switch ≠ 0 then deviceTransfer i v.switch fun s => s.setDev d f.ch f.dev { v with switch := 0 }
      else do
        let b ← freshBool
        update fun s => s.setDev d f.ch f.dev (v.wind b)
        endSame true
    | some _ => refuse .deviceCannot

/-- RF (R430). -/
def execRf (f : Per) (s : State) : Host.Outcome State Fault Refusal := perform (peripheralOp (.rf f) .forward f) s
/-- RB (R431). -/
def execRb (f : Per) (s : State) : Host.Outcome State Fault Refusal := perform (peripheralOp (.rb f) .backward f) s
/-- WF (R432). -/
def execWf (f : Per) (s : State) : Host.Outcome State Fault Refusal := perform (peripheralOp (.wf f) .write f) s
/-- RW (R440). -/
def execRw (f : Per) (s : State) : Host.Outcome State Fault Refusal := perform (rewindOp (.rw f) f) s

end Sys2Proof.Machine
end

