-- ==== Sys2Proof/Machine/Float.lean ====
section
/-! DEFINITION. The pure arithmetic of the floating-point unit (48_scientific.md rules R521 to R534, R556, R558): everything is computed
on natural numbers and integers and narrowed at the end. -/
namespace Sys2Proof.Machine

/-- The radix of a floating-point instruction: 16, or 10 when decimal (R521). -/
def radix (dec : Bool) : Nat := if dec then 10 else 16

/-- The value of `n` digits (R521). -/
def digitsIn (dec : Bool) (n m : Nat) : Nat := if dec then decimalValue n m else m

/-- A value as `n` digits. -/
def digitsOut (dec : Bool) (n v : Nat) : Nat := if dec then toDecimal n v else v

/-- Whether the digits are digits of the radix (U69). -/
def digitsOk (dec : Bool) (n m : Nat) : Bool := !dec || isDecimal n m

/-- `fp(s, e mod 128, m)` (R521). -/
def fpWord (pos : Bool) (e : Int) (m : Nat) : Word :=
  BitVec.ofNat 48 (pos.toNat * 2 ^ 47 + (e % 128).toNat * 2 ^ 40 + m % 2 ^ 40)

/-- The normalized zero `NZ` (R521). -/
def normalZero : Word := 0x800000000000#48

/-- A number taken apart: sign, working exponent as an unbounded integer, mantissa as an integer (R521, R527). -/
structure Fp where
  pos : Bool
  e : Int
  m : Nat
deriving DecidableEq, Repr

/-- The mantissa field of a word, ten digits. -/
def mantissa (w : Word) : Nat := (fld w 9 48).toNat

/-- The exponent field of a word. -/
def exponent (w : Word) : Nat := (fld w 2 8).toNat

/-- A word with a given working exponent taken apart. -/
def fpOf (dec : Bool) (w : Word) (e : Int) : Fp := ⟨bitAt w 1, e, digitsIn dec 10 (mantissa w)⟩

/-- What an operation leaves: `FLAC` and `FLOP`, and the working exponents of both (R526 to R528). -/
structure FpOut where
  flac : Word
  flop : Word
  e : Int
  low : Int
deriving DecidableEq, Repr

/-- A zero result in normalized form, both parts (R522). -/
def FpOut.zero : FpOut := ⟨normalZero, normalZero, 0, 0⟩

/-- A zero operand normalized (R530 stage 1). -/
def Fp.zeroed (x : Fp) : Fp := if x.m = 0 then ⟨true, 0, 0⟩ else x

/-- Left shifts of a mantissa below `top` while the exponent exceeds `bound` (R530 stage 1). -/
def shiftUp (R top : Nat) (bound : Int) : Nat → Fp → Fp
  | 0, x => x
  | n + 1, x => if x.m = 0 ∨ top ≤ x.m ∨ x.e ≤ bound then x else shiftUp R top bound n ⟨x.pos, x.e - 1, x.m * R⟩

/-- Normalization of a non-zero result of `n` digits (R530 stage 4, R532). -/
def normalize (R : Nat) : Nat → Nat → Fp → Fp
  | _, 0, x => x
  | n, k + 1, x => if R ^ (n - 1) ≤ x.m then x else normalize R n k ⟨x.pos, x.e - 1, x.m * R⟩

/-- Stages 2 and 3 (R530): right justification by truncation, signed addition, mantissa overflow; the sign of a zero sum is plus. -/
def addMantissas (R n : Nat) (x y : Fp) : Fp :=
  let e := max x.e y.e
  let mx := x.m / R ^ (e - x.e).toNat
  let my := y.m / R ^ (e - y.e).toNat
  let v : Int := (if x.pos then (mx : Int) else -mx) + (if y.pos then (my : Int) else -my)
  let m := v.natAbs
  if R ^ n ≤ m then ⟨decide (0 ≤ v), e + 1, m / R⟩ else ⟨decide (0 ≤ v), e, m⟩

/-- Normalized addition (R530) of `n` digit mantissas. -/
def addNormalized (R n : Nat) (x y : Fp) : Fp :=
  let x0 := x.zeroed
  let y0 := y.zeroed
  let x1 := shiftUp R (R ^ (n - 1)) y0.e n x0
  let y1 := shiftUp R (R ^ (n - 1)) x0.e n y0
  let r := addMantissas R n x1 y1
  if r.m = 0 then ⟨true, 0, 0⟩ else normalize R n n r

/-- The sign of the B operand of a subtraction changed (R530, R542). -/
def Fp.negateIf (x : Fp) (sub : Bool) : Fp := ⟨x.pos ^^ sub, x.e, x.m⟩

/-- FBA, FBS, FDA, FDS (R530): single precision; `FLOP` is a free value, given. -/
def floatAdd (dec sub : Bool) (free : Word) (a b : Fp) : FpOut :=
  let r := addNormalized (radix dec) 10 a (b.negateIf sub)
  if r.m = 0 then ⟨normalZero, free, 0, 0⟩ else ⟨fpWord r.pos r.e (digitsOut dec 10 r.m), free, r.e, 0⟩

/-- FBAE, FBSE (R530): twenty-digit mantissas. -/
def floatAddExtended (sub : Bool) (a b : Fp) : FpOut :=
  let r := addNormalized 16 20 ⟨a.pos, a.e, a.m * 16 ^ 10⟩ (Fp.negateIf ⟨b.pos, b.e, b.m * 16 ^ 10⟩ sub)
  if r.m = 0 then .zero
  else ⟨fpWord r.pos r.e (r.m / 16 ^ 10), fpWord r.pos (r.e - 10) (r.m % 16 ^ 10), r.e, r.e - 10⟩

/-- FBAU, FBSU, FDAU, FDSU (R531): stages 2 and 3 only; the sign of a zero result is a free truth value, given (U66). -/
def floatAddPlain (dec sub : Bool) (free : Word) (zeroSign : Bool) (a b : Fp) : FpOut :=
  let r := addMantissas (radix dec) 10 a (b.negateIf sub)
  ⟨fpWord (if r.m = 0 then zeroSign else r.pos) r.e (digitsOut dec 10 r.m), free, r.e, 0⟩

/-- FBM, FDM (R532). -/
def floatMultiply (dec : Bool) (a b : Fp) : FpOut :=
  if a.m = 0 ∨ b.m = 0 then .zero
  else
    let R := radix dec
    let r := normalize R 20 20 ⟨a.pos == b.pos, a.e + b.e - 64, a.m * b.m⟩
    ⟨fpWord r.pos r.e (digitsOut dec 10 (r.m / R ^ 10)), fpWord r.pos (r.e - 10) (digitsOut dec 10 (r.m % R ^ 10)),
      r.e, r.e - 10⟩

/-- Whether a floating divisor is unnormalized or zero: its leading digit is zero (R533). -/
def badDivisor (a : Word) : Bool := decide (mantissa a < 16 ^ 9)

/-- FBD, FDD (R533): the quotient of `b` by a normalized `a`. -/
def floatDivide (dec : Bool) (a b : Fp) : FpOut :=
  let R := radix dec
  if b.m = 0 then .zero
  else
    let k : Nat := if b.m < a.m then 10 else 9
    let q := b.m * R ^ k / a.m
    let rem := b.m * R ^ k % a.m
    let e := b.e - a.e + 74 - k
    let low := b.e - k
    ⟨fpWord (a.pos == b.pos) e (digitsOut dec 10 q), fpWord b.pos low (digitsOut dec 10 rem), e, low⟩

/-- The magnitude of a fixed-point operand (R534). -/
def fixedIn (dec : Bool) (w : Word) : Nat := digitsIn dec 11 (mag w)

/-- `N` of R534. -/
def fixedScale (dec : Bool) : Nat := if dec then 10 ^ 11 else 2 ^ 44

/-- BD, DD (R534, D48): quotient and remainder; no exponent is involved, and `settle` is given 64, in range: the model's choice (log 43). -/
def fixedDivide (dec : Bool) (a b : Word) : FpOut :=
  let n := fixedIn dec b * fixedScale dec
  ⟨signedWord (posSign a == posSign b) (digitsOut dec 11 (n / fixedIn dec a)),
    signedWord (posSign b) (digitsOut dec 11 (n % fixedIn dec a)), 64, 64⟩

/-- The number of zero digits before the first non-zero one among the low `n` digits. -/
def leadingZeros : Nat → Nat → Nat
  | 0, _ => 0
  | n + 1, v => if 16 ^ n ≤ v then 0 else 1 + leadingZeros n v

/-- FFN (R556): the eleven-digit field `v` with sign `s` and tentative exponent `t`. -/
def floatNormalize (s : Bool) (t : Int) (v : Nat) : FpOut :=
  if v = 0 then .zero
  else if 16 ^ 10 ≤ v then
    ⟨fpWord s t (v / 16), fpWord s (t - 10) (v % 16 * 16 ^ 9), t, t - 10⟩
  else
    let k := leadingZeros 10 v
    let e := t - (k + 1)
    ⟨fpWord s e (v * 16 ^ k), fpWord s (e - 10) 0, e, e - 10⟩

/-- FCON type 1 (R558): fixed decimal to floating binary; the bits of `FLOP` before the remainder are free (U67). -/
def convertToBinary (free : Word) (b : Word) : FpOut :=
  let d := decimalValue 11 (mag b)
  ⟨fpWord (posSign b) 64 (d * 2 ^ 40 / 10 ^ 11),
    setFld free 5 48 (BitVec.ofNat 44 (toDecimal 11 (d * 2 ^ 40 % 10 ^ 11))), 64, 64⟩

/-- FCON type 4 (R558): floating binary to fixed decimal; `settle` is given the exponent 64 as for BD and DD (log 43). -/
def convertToDecimal (free : Word) (b : Word) : FpOut :=
  let m := mantissa b
  let sign : Nat := if m = 0 then 8 else if bitAt b 1 then 15 else 0
  ⟨BitVec.ofNat 48 (sign * 2 ^ 44 + toDecimal 11 (m * 10 ^ 11 / 2 ^ 40)),
    setFld free 9 48 (BitVec.ofNat 40 (m * 10 ^ 11 % 2 ^ 40)), 64, 64⟩

/-- A free result (U69): sign, exponent and mantissa are all free, and the exponent check is made of the free exponent. -/
def freeOut (pos : Bool) (x y z : Word) : FpOut :=
  let e : Int := (x.toNat % 512 : Nat) - 192
  ⟨fpWord pos e y.toNat, z, e, e - 10⟩

/-- The two exponent events. -/
inductive ExpEvent where
  | overflow | underflow
deriving DecidableEq, Repr

/-- `expo` (R526). -/
def expo (e : Int) : Option ExpEvent :=
  if 127 < e then some .overflow else if e < 0 then some .underflow else none

end Sys2Proof.Machine
end

