-- ==== Sys2Proof/Machine/Scientific.lean ====
section
/-! DEFINITION. The scientific instructions (48_scientific.md). -/
namespace Sys2Proof.Machine

/-- The working exponent of `FLAC`, eight bits wide while a stored indicator is set (R527). -/
def State.flacExponent (s : State) : Int :=
  (exponent s.flac : Int) + (if s.flacOvf then 128 else if s.flacUnf then -128 else 0)

/-- An operand of a scientific instruction (R523): its word, its working exponent, whether its parity fails, whether it is `FLAC`. -/
structure FpOperand where
  word : Word
  e : Int
  bad : Bool
  flac : Bool
deriving DecidableEq, Repr

/-- Whether another group has used the floating-point unit since the executing one did (R687, U71). -/
def State.foreign (s : State) : Bool :=
  match s.fpuGroup with
  | some g => g != s.cur
  | none => false

/-- The floating registers and indicators as a group finds them after another group has used the unit: free values (R687, U71). -/
def State.scrambled (s : State) : State :=
  { s with
    flac := Config.freeWord s.free, flop := Config.freeWord (s.free + 1), flacOvf := Config.freeBool s.free,
    flacUnf := !Config.freeBool s.free && Config.freeBool (s.free + 1), flopOvf := Config.freeBool (s.free + 2),
    flopUnf := Config.freeBool (s.free + 3), flacFixed := Config.freeBool (s.free + 4), fpuGroup := some s.cur, free := s.free + 5 }

/-- The state in which the executing group makes use of what the floating-point unit holds. -/
def State.claimed (s : State) : State := if s.foreign then s.scrambled else s

/-- The executing group makes use of what the floating-point unit holds. -/
def claim : Op Unit := update State.claimed

/-- `opnd` (R523): an inactive address stands for `FLAC`. -/
def floatOperand (x : Group) (d : Bool) : Op FpOperand := do
  if ← isInactive x d then
    claim
    let s ← get
    pure ⟨s.flac, s.flacExponent, false, true⟩
  else
    let w ← readOperand x d
    pure ⟨w.bits, exponent w.bits, MWord.bad w, false⟩

/-- The stored exponent condition (R527). -/
def State.pending (s : State) : Option ExpEvent :=
  if s.flacOvf then some .overflow else if s.flacUnf then some .underflow else none

/-- The exponent events after a result with working exponent `e` (R526, R527, D47): the stored indicators, and the transfer to make now.
A divide never stores a condition (R533). That a stored one falls due at any instruction that does not use `FLAC`, the divides FBD, FDD, BD and DD
too, is the model's choice (log 43). -/
def settle (pending : Option ExpEvent) (usesFlac stores divide : Bool) (e : Int) : Bool × Bool × Option ExpEvent :=
  if usesFlac && !stores && !divide then
    if 191 < e ∨ e < -64 then (false, false, expo e) else (decide (127 < e), decide (e < 0), none)
  else (false, false, (expo e).or (if usesFlac then none else pending))

/-- The end of a scientific instruction: parity failure first (D52), then the exponent transfer, else the ordinary end (R524). -/
def concludeFloat (i : Instr) (seq stores bad : Bool) (k : Option ExpEvent) : Op Unit :=
  if bad then unprogrammedTransfer utParity i
  else
    match k with
    | some .overflow => unprogrammedTransfer utExpOverflow i
    | some .underflow => unprogrammedTransfer utUnderflow i
    | none => endInstr seq stores

/-- The result in the floating registers with its indicators (R524 to R528): `FLOP` is a free value once C is active (U60, C25). -/
def State.floated (s : State) (fixed stores : Bool) (r : FpOut) (ovf unf : Bool) : State :=
  { s with
    flac := r.flac, flop := if stores then Config.freeWord s.free else r.flop, flacOvf := ovf, flacUnf := unf,
    flopOvf := decide (127 < r.low), flopUnf := decide (r.low < 0), flacFixed := fixed, flopHeld := !stores,
    fpuGroup := some s.cur, free := s.free + 1 }

/-- A result left in the floating registers. -/
def leaveFloat (fixed stores : Bool) (r : FpOut) (ovf unf : Bool) : Op Unit := update fun s => s.floated fixed stores r ovf unf

/-- The result of a scientific instruction delivered (R524). It refers to the stored exponent condition, which another group may have
left (U71). -/
def deliverFloat (i : Instr) (f : Gen) (usesFlac divide fixed bad : Bool) (r : FpOut) : Op Unit := do
  let ic ← isInactive f.c f.dC
  claim
  let s ← get
  let k := settle s.pending usesFlac (!ic) divide r.e
  leaveFloat fixed (!ic) r k.1 k.2.1
  noAc
  if ic then pure () else writeResult f.c f.dC (MWord.good r.flac)
  concludeFloat i f.seq (!ic) bad k.2.2

/-- Both floating registers free values (U61), and the form of `FLAC` with them: the model's choice (log 43). -/
def State.unfloated (s : State) : State :=
  { s with
    flac := Config.freeWord s.free, flop := Config.freeWord (s.free + 1), flacFixed := Config.freeBool s.free,
    flopHeld := false, fpuGroup := some s.cur, free := s.free + 2 }

/-- Division overcapacity (R533, R534): the instruction is not performed, `FLAC` and `FLOP` are free values (U61), the stored
exponent indicators as they were, or free after another group (U71, log 43); a parity failure goes first (D52). -/
def overcapacity (i : Instr) (bad : Bool) : Op Unit := do
  claim
  update State.unfloated
  noAc
  unprogrammedTransfer (if bad then utParity else utDivide) i

/-- The nineteen instructions of the option (R520, R148): without it their codes are unassigned. -/
def optionGate (f : Gen) (m : Op Unit) : Op Unit := do
  begin
  let s ← get
  if s.cfg.fpu then do
    checkDesignators (genForm f)
    m
  else offError s.cfg.illegalOp

/-- A free result for operands with digits above 9 (U69). -/
def freeResult : Op FpOut := do
  let b ← freshBool
  let x ← fresh
  let y ← fresh
  let z ← fresh
  pure (freeOut b x y z)

/-- Whether both mantissas consist of digits of the radix. -/
def operandsOk (dec : Bool) (a b : FpOperand) : Bool :=
  digitsOk dec 10 (mantissa a.word) && digitsOk dec 10 (mantissa b.word)

/-- An instruction whose result is a function of its two operands and of a free word and truth value (R530 to R532). -/
def floatOp (i : Instr) (dec : Bool) (compute : Word → Bool → Fp → Fp → FpOut) (f : Gen) : Op Unit := optionGate f do
  let a ← floatOperand f.a f.dA
  let b ← floatOperand f.b f.dB
  let r ← if operandsOk dec a b then do
      let w ← fresh
      let z ← freshBool
      pure (compute w z (fpOf dec a.word a.e) (fpOf dec b.word b.e))
    else freeResult
  deliverFloat i f (a.flac || b.flac) false false (a.bad || b.bad) r

/-- FBD and FDD (R533). -/
def floatDivideOp (i : Instr) (dec : Bool) (f : Gen) : Op Unit := optionGate f do
  let a ← floatOperand f.a f.dA
  let b ← floatOperand f.b f.dB
  if badDivisor a.word then overcapacity i (a.bad || b.bad)
  else if operandsOk dec a b then
    deliverFloat i f (a.flac || b.flac) true false (a.bad || b.bad) (floatDivide dec (fpOf dec a.word a.e) (fpOf dec b.word b.e))
  else do
    let r ← freeResult
    deliverFloat i f (a.flac || b.flac) true false (a.bad || b.bad) r

/-- BD and DD (R534): hexadecimal digits in a decimal operand leave the magnitudes of quotient and remainder free, and whether there is one, but
for a zero divisor (log 43). -/
def fixedDivideOp (i : Instr) (dec : Bool) (f : Gen) : Op Unit := optionGate f do
  let a ← floatOperand f.a f.dA
  let b ← floatOperand f.b f.dB
  if digitsOk dec 11 (mag a.word) && digitsOk dec 11 (mag b.word) then
    if fixedIn dec a.word ≤ fixedIn dec b.word then overcapacity i (a.bad || b.bad)
    else deliverFloat i f (a.flac || b.flac) true true (a.bad || b.bad) (fixedDivide dec a.word b.word)
  else do
    let tooBig ← freshBool
    if mag a.word = 0 ∨ tooBig = true then overcapacity i (a.bad || b.bad)
    else do
      let x ← fresh
      let y ← fresh
      deliverFloat i f (a.flac || b.flac) true true (a.bad || b.bad) ⟨signedWord (posSign a.word == posSign b.word) (mag x),
        signedWord (posSign b.word) (mag y), 64, 64⟩

/-- FFN (R556). -/
def normalizeOp (i : Instr) (f : Gen) : Op Unit := optionGate f do
  let a ← floatOperand f.a f.dA
  let b ← floatOperand f.b f.dB
  let s ← get
  if a.flac && b.flac then refuse .normalizeBothInactive
  else
    let floating := b.flac && !s.flacFixed
    deliverFloat i f (a.flac || b.flac) false false (a.bad || b.bad)
      (floatNormalize (if floating then bitAt b.word 1 else posSign b.word) a.e
        (if floating then mantissa b.word else mag b.word))

/-- The type of a conversion: the low-order 24 bits of A (R558). -/
def conversionType (a : Word) : Nat := (fld a 25 48).toNat

/-- The end of a conversion whose A operand fails its check, with the barricade (R529, R558, R666 class (d); log 22): the result is a free
value; the program is turned off at once, and 10111 displayed, if a hunt follows, else after one more instruction (logs 20, 22). No transfer is
made for a bad operand or for a stored exponent condition. -/
def conversionFails (f : Gen) (b : FpOperand) : Op Unit := do
  let x ← fresh
  let y ← fresh
  let z ← freshBool
  let ic ← isInactive f.c f.dC
  claim
  let s ← get
  let k := settle s.pending b.flac (!ic) false 64
  leaveFloat z (!ic) ⟨x, y, 64, 64⟩ k.1 k.2.1
  noAc
  if ic then do
    update fun s => { s with limited := some (s.limited.getD ⟨0b10111#5, s.cur, true⟩) }
    endInstr f.seq false
  else do
    writeResult f.c f.dC (MWord.good x)
    endInstr f.seq true
    fun s => .error (.done (s.turnOff s.cur 0b10111#5))

/-- FCON (R558): hexadecimal digits in a decimal operand leave the mantissa and the remainder free (U69). -/
def convertOp (i : Instr) (f : Gen) : Op Unit := optionGate f do
  if ← isInactive f.a f.dA then refuse .conversionType
  else
    let a ← floatOperand f.a f.dA
    let b ← floatOperand f.b f.dB
    let s ← get
    if a.word.toNat % 3 ≠ 1 then
      if s.cfg.barricade then conversionFails f b else critical 0b10111#5
    else if conversionType a.word = 1 then
      if isDecimal 11 (mag b.word) then do
        let w ← fresh
        deliverFloat i f b.flac false false (a.bad || b.bad) (convertToBinary w b.word)
      else do
        let x ← fresh
        let y ← fresh
        deliverFloat i f b.flac false false (a.bad || b.bad) ⟨fpWord (posSign b.word) 64 x.toNat, y, 64, 64⟩
    else if conversionType a.word = 4 then do
      let w ← fresh
      deliverFloat i f b.flac false true (a.bad || b.bad) (convertToDecimal w b.word)
    else refuse .conversionType

/-- The transfer a multiple unload makes (R557, U68): the indicators as they were when it started, underflow first. -/
def unloadEvent (s : State) : Option ExpEvent :=
  if s.flacUnf || s.flopUnf then some .underflow else if s.flacOvf || s.flopOvf then some .overflow else none

/-- The unit after ULD: the stored indicators are cleared (D47), and the group that used it last is the executing one. -/
def State.unloaded (s : State) : State := { s with flacOvf := false, flacUnf := false, fpuGroup := some s.cur }

/-- ULD (R557): `FLOP` is a free value where a hunt may have come between (U60). It does not reset the low-order indicators (R528). That the form of
`FLAC` is free with its contents after an inactive A and an active C is the model's choice (log 43). -/
def unloadOp (i : Instr) (f : Gen) : Op Unit := do
  let s ← get
  if s.cfg.fpu = false then offError s.cfg.illegalOp
  else do
    let ia ← isInactive f.a f.dA
    let ib ← isInactive f.b f.dB
    let ic ← isInactive f.c f.dC
    if ib = false then refuse .unloadActiveB
    else do
      claim
      let s ← get
      let low ← if s.flopHeld then pure s.flop else fresh
      noAc
      if ia then pure () else writeResult f.a f.dA (MWord.good s.flac)
      if ic then update fun s => { s with flac := low }
      else do
        writeResult f.c f.dC (MWord.good low)
        if ia then do
          let x ← fresh
          let z ← freshBool
          update fun s => { s with flac := x, flacFixed := z }
        else pure ()
      update State.unloaded
      concludeFloat i f.seq (!ic) false (unloadEvent s)

/-- FBA (R540). -/
def execFba (f : Gen) (s : State) : Host.Outcome State Fault Refusal :=
  perform (floatOp (.fba f) false (fun w _ a b => floatAdd false false w a b) f) s
/-- FDA (R541). -/
def execFda (f : Gen) (s : State) : Host.Outcome State Fault Refusal :=
  perform (floatOp (.fda f) true (fun w _ a b => floatAdd true false w a b) f) s
/-- FBS (R542). -/
def execFbs (f : Gen) (s : State) : Host.Outcome State Fault Refusal :=
  perform (floatOp (.fbs f) false (fun w _ a b => floatAdd false true w a b) f) s
/-- FDS (R543). -/
def execFds (f : Gen) (s : State) : Host.Outcome State Fault Refusal :=
  perform (floatOp (.fds f) true (fun w _ a b => floatAdd true true w a b) f) s
/-- FBAU (R544). -/
def execFbau (f : Gen) (s : State) : Host.Outcome State Fault Refusal :=
  perform (floatOp (.fbau f) false (fun w z a b => floatAddPlain false false w z a b) f) s
/-- FDAU (R545). -/
def execFdau (f : Gen) (s : State) : Host.Outcome State Fault Refusal :=
  perform (floatOp (.fdau f) true (fun w z a b => floatAddPlain true false w z a b) f) s
/-- FBSU (R546). -/
def execFbsu (f : Gen) (s : State) : Host.Outcome State Fault Refusal :=
  perform (floatOp (.fbsu f) false (fun w z a b => floatAddPlain false true w z a b) f) s
/-- FDSU (R547). -/
def execFdsu (f : Gen) (s : State) : Host.Outcome State Fault Refusal :=
  perform (floatOp (.fdsu f) true (fun w z a b => floatAddPlain true true w z a b) f) s
/-- FBAE (R548). -/
def execFbae (f : Gen) (s : State) : Host.Outcome State Fault Refusal :=
  perform (floatOp (.fbae f) false (fun _ _ a b => floatAddExtended false a b) f) s
/-- FBSE (R549). -/
def execFbse (f : Gen) (s : State) : Host.Outcome State Fault Refusal :=
  perform (floatOp (.fbse f) false (fun _ _ a b => floatAddExtended true a b) f) s
/-- FBM (R550). -/
def execFbm (f : Gen) (s : State) : Host.Outcome State Fault Refusal :=
  perform (floatOp (.fbm f) false (fun _ _ a b => floatMultiply false a b) f) s
/-- FDM (R551). -/
def execFdm (f : Gen) (s : State) : Host.Outcome State Fault Refusal :=
  perform (floatOp (.fdm f) true (fun _ _ a b => floatMultiply true a b) f) s
/-- FBD (R552). -/
def execFbd (f : Gen) (s : State) : Host.Outcome State Fault Refusal := perform (floatDivideOp (.fbd f) false f) s
/-- FDD (R553). -/
def execFdd (f : Gen) (s : State) : Host.Outcome State Fault Refusal := perform (floatDivideOp (.fdd f) true f) s
/-- BD (R554). -/
def execBd (f : Gen) (s : State) : Host.Outcome State Fault Refusal := perform (fixedDivideOp (.bd f) false f) s
/-- DD (R555). -/
def execDd (f : Gen) (s : State) : Host.Outcome State Fault Refusal := perform (fixedDivideOp (.dd f) true f) s
/-- FFN (R556). -/
def execFfn (f : Gen) (s : State) : Host.Outcome State Fault Refusal := perform (normalizeOp (.ffn f) f) s
/-- ULD (R557). -/
def execUld (f : Gen) (s : State) : Host.Outcome State Fault Refusal := perform (unloadOp (.uld f) f) s
/-- FCON (R558). -/
def execFcon (f : Gen) (s : State) : Host.Outcome State Fault Refusal := perform (convertOp (.fcon f) f) s
/-- FLN (R580): in every processor. -/
def execFln (f : Gen) (s : State) : Host.Outcome State Fault Refusal := perform (decisionOp (.fln f) floatLe (genForm f)) s
/-- FNN (R581): in every processor. -/
def execFnn (f : Gen) (s : State) : Host.Outcome State Fault Refusal := perform (decisionOp (.fnn f) alphaNe (genForm f)) s

end Sys2Proof.Machine
end

