-- ==== Sys2Proof/Machine/Shift.lean ====
section
/-! DEFINITION. The shift instructions (45_shift.md): SWS SPS SWE SPE SSL. -/
namespace Sys2Proof.Machine

/-- What all five shifts do first (R370): the address forms, the operand, the shift mask (R371). -/
def shiftOperands (f : Gen) : Op (MWord × MWord) := do
  beginForm (genForm f)
  needActive f.a f.dA
  if f.b = inactiveGroup then refuse .shiftInactiveB
  else if f.dB then refuse .shiftDesignatorB
  else
    needActive f.c f.dC
    let a ← readOperand f.a f.dA
    let m ← loadMask fun r => shiftMaskAddress r f.b
    pure (a, m)

/-- The count of a shift, `B{1..6}` (R370). -/
def shiftCount (b : Group) : Nat := (fld b 1 6).toNat

/-- SWS, SPS (`keep`: C protected) and SWE, SPE (R371, R375 to R378). -/
def shiftOp (i : Instr) (rot : Word → Nat → Word) (keep : Bool) (f : Gen) : Op Unit := do
  let p ← shiftOperands f
  let w := rot p.1.bits (shiftCount f.b)
  let l ← locate f.c f.dC
  let old ← if keep then peek l else pure (MWord.good 0#48)
  leaveLogical w (protect w p.2.bits old.bits) true
  store l (MWord.good (protect w p.2.bits old.bits))
  spoilZero l
  conclude i f.seq true (MWord.bad p.1 || MWord.bad p.2 || MWord.bad old) false

/-- `add11` (R379): the low-order 11 bits of an address increased, the end carry discarded. -/
def add11 (n k : Nat) : Nat := n / 2048 * 2048 + (n % 2048 + k) % 2048

/-- The special register address in an 11-bit image `t` and group `h`, used as a new counter (R379 cases 2 and 4). -/
def selectRegister (h : BitVec 3) (t : Nat) (nxt : Ctr) : Op SReg :=
  counterFrom h (BitVec.ofNat 5 (t % 32)) (BitVec.ofNat 5 (t / 64)) nxt

/-- The new contents of the counter in a shift and select (R379), for an active C; an index register of bad parity as in `sequenceTarget`
(log 33). -/
def selectTarget (x : Group) (d : Bool) (k : Nat) (nxt : Ctr) : Op SReg := do
  let s ← get
  match d, bitAt x 1 with
  | false, false => pure (SReg.mk' s.ctl.arr s.ctl.sign ((fld s.ctl.bits 2 5).toNat * 2048 + add11 (fld x 2 12).toNat k))
  | false, true => do
    let v ← index x
    pure ((SReg.mk' v.1.arr true (add11 v.1.addr k)).counted v.2.2)
  | true, false => selectRegister s.cur (add11 (fld x 2 12).toNat k) nxt
  | true, true => do
    let v ← index x
    selectRegister (fld v.1.bits 3 5) (add11 v.1.addr k) nxt

/-- SSL (R379): nothing is stored, no hunt follows; what the low-order product register holds is a free value. -/
def selectOp (i : Instr) (f : Gen) : Op Unit := do
  let p ← shiftOperands f
  let w := rotr48 p.1.bits (shiftCount f.b)
  let q ← fresh
  leaveLogical w q false
  let t ← selectTarget f.c f.dC (fld (w &&& p.2.bits) 38 48).toNat (ctrOf f.seq)
  if MWord.bad p.1 || MWord.bad p.2 then do
    jumpSuppressed (ctrOf f.seq)
    unprogrammedTransfer utParity i
  else jump (ctrOf f.seq) t

/-- SWS (R375). -/
def execSws (f : Gen) (s : State) : Host.Outcome State Fault Refusal := perform (shiftOp (.sws f) rotr48 true f) s
/-- SPS (R376). -/
def execSps (f : Gen) (s : State) : Host.Outcome State Fault Refusal := perform (shiftOp (.sps f) rotr44 true f) s
/-- SWE (R377). -/
def execSwe (f : Gen) (s : State) : Host.Outcome State Fault Refusal := perform (shiftOp (.swe f) rotr48 false f) s
/-- SPE (R378). -/
def execSpe (f : Gen) (s : State) : Host.Outcome State Fault Refusal := perform (shiftOp (.spe f) rotr44 false f) s
/-- SSL (R379). -/
def execSsl (f : Gen) (s : State) : Host.Outcome State Fault Refusal := perform (selectOp (.ssl f) f) s

end Sys2Proof.Machine
end

