-- ==== Sys2Proof/Machine/Transfer.lean ====
section
/-! DEFINITION. The transfer instructions (43_transfer.md): TX TS TN MT RT IT. -/
namespace Sys2Proof.Machine

/-- The word of a transfer delivered: unmasked with the parity it came with, masked as a good word (R321). Whether the old contents of a
protected location had bad parity. -/
def deliverCopy (m : Option MWord) (l : Loc) (w : MWord) : Op Bool :=
  match m with
  | none => do
    store l w
    pure false
  | some _ => deliver m l w.bits

/-- TX (R310): B is ignored. -/
def transferOp (i : Instr) (f : Form) : Op Unit := do
  beginForm f
  needActive f.a f.dA
  needActive f.c f.dC
  noAc
  let m ← maskOf f.mask
  let w ← readOperand f.a f.dA
  let l ← locate f.c f.dC
  let badC ← deliverCopy m l w
  conclude i f.seq true (maskBad m || MWord.bad w || badC) false

/-- The low-order product register retrieved (R223, R225): a free value unless the instruction just before left it, under the same mask
if this one is masked. -/
def retrieveLow (m : Option MWord) : Op Word := do
  let s ← get
  if s.lopHeld ∧ (m = none ∨ s.heldMask = m.map (·.bits)) then pure s.lop else fresh

/-- A word in the arithmetic unit after TS with an inactive B: copied to the low-order product register, from where it may be retrieved,
under the same mask if there is one (R223, R311), and left in the accumulator, which a print may show (R460). Of bad parity, it is retrieved and
printed with good parity all the same: the model's choice (log 24). -/
def State.captured (s : State) (m : Option MWord) (w : Word) : State :=
  { s with ac := w, acState := .printable, lop := w, lopHeld := true, heldMask := m.map (·.bits) }

/-- The transfer of TS (R311), the four cases of A and B. Whether a parity fails. That a masked TS with an inactive B leaves the word under the mask is
the model's choice (log 24). -/
def transferPart (m : Option MWord) (f : Form) (ia ib : Bool) : Op Bool := do
  match ia, ib with
  | true, true => refuse .inactiveAddress
  | true, false => do
    let w ← retrieveLow m
    noAc
    let l ← locate f.b f.dB
    deliver m l w
  | false, true => do
    let w ← readOperand f.a f.dA
    update fun s => s.captured m (gate m w.bits)
    pure (MWord.bad w)
  | false, false => do
    noAc
    let w ← readOperand f.a f.dA
    let l ← locate f.b f.dB
    let bad ← deliverCopy m l w
    pure (bad || MWord.bad w)

/-- TS (R311): the transfer, then the sequence change (R322); no hunt. -/
def transferJumpOp (i : Instr) (f : Form) : Op Unit := do
  beginForm f
  let ia ← isInactive f.a f.dA
  let ib ← isInactive f.b f.dB
  let m ← maskOf f.mask
  let bad ← transferPart m f ia ib
  concludeJump i f.seq f.c f.dC true (maskBad m || bad) false

/-- The count of a group transfer, `B{1..6}` (R312, R313): B is no address here (log 26). -/
def transferCount (b : Group) : Nat := (fld b 1 6).toNat

/-- The transfers of MT (R312): both groups are evaluated again each time. Whether a parity failed. -/
def multipleTransfers (f : Gen) : Nat → Bool → Op Bool
  | 0, bad => pure bad
  | n + 1, bad => do
    let w ← readOperand f.a f.dA
    writeResult f.c f.dC w
    multipleTransfers f n (bad || MWord.bad w)

/-- MT (R312). That the designator of B, but with 7777, is ignored is the model's choice (log 26). -/
def multipleOp (i : Instr) (f : Gen) : Op Unit := do
  beginForm (genForm f)
  needActive f.a f.dA
  needActive f.c f.dC
  noAc
  let bad ← multipleTransfers f (transferCount f.b) false
  conclude i f.seq true bad false

/-- The arithmetic control counters loaded (R320); whether A and C name special registers. -/
def loadCounters (f : Gen) : Op (Bool × Bool) := do
  let a ← auInit f.a f.dA
  match a with
  | none => refuse .inactiveAddress
  | some a => do
    loadAu au1 a.2
    let c ← auInit f.c f.dC
    match c with
    | none => refuse .inactiveAddress
    | some c => do
      loadAu au2 c.2
      pure (a.1, c.1)

/-- One word of a group transfer (R320). -/
def transferWord (regA regC : Bool) : Op MWord := do
  let w ← auRead regA au1
  auWrite regC au2 w
  nextAu au1
  nextAu au2
  pure w

/-- The transfers of TN (R313). Whether a parity failed. -/
def groupTransfers (regA regC : Bool) : Nat → Bool → Op Bool
  | 0, bad => pure bad
  | n + 1, bad => do
    let w ← transferWord regA regC
    groupTransfers regA regC n (bad || MWord.bad w)

/-- TN (R313): the counters are loaded also when the count is 0 (log 30). That the designator of B, but with 7777, is ignored is the model's
choice (log 26). -/
def groupOp (i : Instr) (f : Gen) : Op Unit := do
  beginForm (genForm f)
  noAc
  let k ← loadCounters f
  let bad ← groupTransfers k.1 k.2 (transferCount f.b) false
  conclude i f.seq true bad false

/-- How a record or item transfer ended: at its terminator; at a parity failure; at the end of memory (R333, R334). -/
inductive RunEnd where
  | terminator
  | parity
  | memory
deriving DecidableEq, Repr

/-- One word of a record transfer stored, by the counter `q`, and both counters stepped. -/
def recordWord (q : SReg) (w : MWord) : Op Unit := do
  memWrite q.full w
  nextAu au1
  nextAu au2

/-- The source word whose bad parity stops a record transfer: whether it was stored and the counters stepped is a free truth value, where the
destination can be used (R334, U30; log 29). -/
def recordStopped (q : SReg) (w : MWord) : Op Unit := do
  let go ← freshBool
  let s ← get
  if q.tag == .good && s.exists? q.full && go then recordWord q w else pure ()

/-- The words of RT and IT (R333, R330). A source word with bad parity stops the run before its destination is looked at. A counter that
cannot advance or cannot be used is control error 00001 (log 28). -/
def recordTransfers (stop : Word → Bool) : Nat → Op RunEnd
  | 0 => fail .endlessTransfer
  | n + 1 => do
    let s ← get
    let r := s.reg s.cur au1
    let q := s.reg s.cur au2
    let okA ← runCounter r
    if !okA then pure .memory
    else do
      let w ← memRead r.full
      if MWord.bad w then do
        recordStopped q w
        pure .parity
      else
        let okC ← runCounter q
        if !okC then pure .memory
        else do
          recordWord q w
          if stop w.bits then pure .terminator
          else if s.atStopper r || s.atStopper q then do
            softError 0b00001#5
            pure .memory
          else recordTransfers stop n

/-- More words than a record transfer can take (log 28). -/
def recordFuel : Nat := 131072

/-- RT and IT (R333, R330, R334): `last` is stored at B first. -/
def recordOp (i : Instr) (last : Word) (stop : Word → Bool) (f : Gen) : Op Unit := do
  beginForm (genForm f)
  needActive f.b f.dB
  noAc
  writeResult f.b f.dB (MWord.good last)
  let k ← loadCounters f
  if k.1 || k.2 then refuse .groupRegister
  else
    let e ← recordTransfers stop recordFuel
    match e with
    | .terminator => endInstr f.seq true
    | .parity => unprogrammedTransfer utParity i
    | .memory => endInstr f.seq false

/-- What IT stores at B: the end-of-item symbol and 16 zeros (R330). -/
def eoiWord : Word := 0xAA00EEEE0000#48

/-- TX (R310). -/
def execTx (f : Gen) (s : State) : Host.Outcome State Fault Refusal := perform (transferOp (.tx f) (genForm f)) s
/-- TX masked (R310). -/
def execTxM (f : Fld) (s : State) : Host.Outcome State Fault Refusal := perform (transferOp (.txM f) (fldForm f)) s
/-- TS (R311). -/
def execTs (f : Gen) (s : State) : Host.Outcome State Fault Refusal := perform (transferJumpOp (.ts f) (genForm f)) s
/-- TS masked (R311). -/
def execTsM (f : Fld) (s : State) : Host.Outcome State Fault Refusal := perform (transferJumpOp (.tsM f) (fldForm f)) s
/-- MT (R312). -/
def execMt (f : Gen) (s : State) : Host.Outcome State Fault Refusal := perform (multipleOp (.mt f) f) s
/-- TN (R313). -/
def execTn (f : Gen) (s : State) : Host.Outcome State Fault Refusal := perform (groupOp (.tn f) f) s
/-- RT (R333). -/
def execRt (f : Gen) (s : State) : Host.Outcome State Fault Refusal := perform (recordOp (.rt f) eorWord isEor f) s
/-- IT (R330). -/
def execIt (f : Gen) (s : State) : Host.Outcome State Fault Refusal := perform (recordOp (.it f) eoiWord isEoi f) s

end Sys2Proof.Machine
end

