-- ==== Sys2Proof/Machine/Dispatch.lean ====
section
/-! DEFINITION. One arm per instruction: the machine's dispatch. -/
namespace Sys2Proof.Machine

/-- The meaning of one instruction, selected by the machine (60_exceptions.md rule R630). -/
def exec (i : Instr) (s : State) : Host.Outcome State Fault Refusal :=
  match i with
  | .ba f => Sys2Proof.Machine.execBa f s
  | .da f => Sys2Proof.Machine.execDa f s
  | .wa f => Sys2Proof.Machine.execWa f s
  | .bs f => Sys2Proof.Machine.execBs f s
  | .ds f => Sys2Proof.Machine.execDs f s
  | .wd f => Sys2Proof.Machine.execWd f s
  | .na f => Sys2Proof.Machine.execNa f s
  | .nn f => Sys2Proof.Machine.execNn f s
  | .la f => Sys2Proof.Machine.execLa f s
  | .ln f => Sys2Proof.Machine.execLn f s
  | .tx f => Sys2Proof.Machine.execTx f s
  | .ts f => Sys2Proof.Machine.execTs f s
  | .ha f => Sys2Proof.Machine.execHa f s
  | .sm f => Sys2Proof.Machine.execSm f s
  | .cp f => Sys2Proof.Machine.execCp f s
  | .bm f => Sys2Proof.Machine.execBm f s
  | .dm f => Sys2Proof.Machine.execDm f s
  | .bt f => Sys2Proof.Machine.execBt f s
  | .dt f => Sys2Proof.Machine.execDt f s
  | .mt f => Sys2Proof.Machine.execMt f s
  | .tn f => Sys2Proof.Machine.execTn f s
  | .cc f => Sys2Proof.Machine.execCc f s
  | .it f => Sys2Proof.Machine.execIt f s
  | .eba f => Sys2Proof.Machine.execEba f s
  | .ebs f => Sys2Proof.Machine.execEbs f s
  | .rt f => Sys2Proof.Machine.execRt f s
  | .mpc f => Sys2Proof.Machine.execMpc f s
  | .pr f => Sys2Proof.Machine.execPr f s
  | .sws f => Sys2Proof.Machine.execSws f s
  | .sps f => Sys2Proof.Machine.execSps f s
  | .swe f => Sys2Proof.Machine.execSwe f s
  | .spe f => Sys2Proof.Machine.execSpe f s
  | .ssl f => Sys2Proof.Machine.execSsl f s
  | .ss f => Sys2Proof.Machine.execSs f s
  | .ex f => Sys2Proof.Machine.execEx f s
  | .fba f => Sys2Proof.Machine.execFba f s
  | .fda f => Sys2Proof.Machine.execFda f s
  | .fbs f => Sys2Proof.Machine.execFbs f s
  | .fds f => Sys2Proof.Machine.execFds f s
  | .fbd f => Sys2Proof.Machine.execFbd f s
  | .fdd f => Sys2Proof.Machine.execFdd f s
  | .fbau f => Sys2Proof.Machine.execFbau f s
  | .fdau f => Sys2Proof.Machine.execFdau f s
  | .fbsu f => Sys2Proof.Machine.execFbsu f s
  | .fdsu f => Sys2Proof.Machine.execFdsu f s
  | .fbm f => Sys2Proof.Machine.execFbm f s
  | .fdm f => Sys2Proof.Machine.execFdm f s
  | .uld f => Sys2Proof.Machine.execUld f s
  | .fbae f => Sys2Proof.Machine.execFbae f s
  | .fbse f => Sys2Proof.Machine.execFbse f s
  | .bd f => Sys2Proof.Machine.execBd f s
  | .dd f => Sys2Proof.Machine.execDd f s
  | .ffn f => Sys2Proof.Machine.execFfn f s
  | .fcon f => Sys2Proof.Machine.execFcon f s
  | .fln f => Sys2Proof.Machine.execFln f s
  | .fnn f => Sys2Proof.Machine.execFnn f s
  | .baM f => Sys2Proof.Machine.execBaM f s
  | .daM f => Sys2Proof.Machine.execDaM f s
  | .waM f => Sys2Proof.Machine.execWaM f s
  | .bsM f => Sys2Proof.Machine.execBsM f s
  | .dsM f => Sys2Proof.Machine.execDsM f s
  | .wdM f => Sys2Proof.Machine.execWdM f s
  | .naM f => Sys2Proof.Machine.execNaM f s
  | .nnM f => Sys2Proof.Machine.execNnM f s
  | .laM f => Sys2Proof.Machine.execLaM f s
  | .lnM f => Sys2Proof.Machine.execLnM f s
  | .txM f => Sys2Proof.Machine.execTxM f s
  | .tsM f => Sys2Proof.Machine.execTsM f s
  | .haM f => Sys2Proof.Machine.execHaM f s
  | .smM f => Sys2Proof.Machine.execSmM f s
  | .cpM f => Sys2Proof.Machine.execCpM f s
  | .rf f => Sys2Proof.Machine.execRf f s
  | .rb f => Sys2Proof.Machine.execRb f s
  | .wf f => Sys2Proof.Machine.execWf f s
  | .rw f => Sys2Proof.Machine.execRw f s
  | .pra f => Sys2Proof.Machine.execPra f s
  | .prd f => Sys2Proof.Machine.execPrd f s
  | .pro f => Sys2Proof.Machine.execPro f s
  | .sDir f => Sys2Proof.Machine.execSDir f s
  | .sIdx f => Sys2Proof.Machine.execSIdx f s

end Sys2Proof.Machine
end

