-- ==== Sys2Proof/Machine/Select.lean ====
section
/-! DEFINITION. What happens between instructions: the console at a hunt (R640), the hunt (R630), and the selection of the next instruction
(R32, R33, R602, R604, R666). -/
namespace Sys2Proof.Machine

/-! ### The console (R640) -/

/-- The word of a special register as the console shows it: array bit 32, sign bit 33. -/
def consoleWord (r : SReg) : Word := BitVec.ofNat 48 (r.arr.toNat * 2 ^ 16 + r.bits.toNat)

/-- What a console action does; the barricade does not apply, and a location that does not exist is no error (R640, log 40). -/
def State.operated (s : State) (a : ConsoleAct) : State :=
  match a with
  | .writeMem n w => if s.exists? n then s.putWord n (MWord.good w) else s
  | .typeMem n => { s with consoleOut := s.consoleOut ++ [(s.mem.word n).bits] }
  | .writeReg g i arr v => s.setReg g i ⟨s.cfg.extended && arr, v, .good⟩
  | .typeReg g i => { s with consoleOut := s.consoleOut ++ [consoleWord (s.reg g i)] }
  | .on g => s.setDemandBit g true
  | .off g => s.setDemandBit g false
  | .source g seq => s.setBis g seq
  | .fixedStart g key arr start =>
    { ((s.setReg g (Ctr.ix .sc) (SReg.mk' (s.cfg.extended && arr) true start.toNat)).setBis g false).setDemandBit g true with
      pcr := setFld ((((s.setReg g (Ctr.ix .sc) (SReg.mk' (s.cfg.extended && arr) true start.toNat)).setBis g
        false).setDemandBit g true).pcr) 37 40 key }
  | .typeBarricade => { s with consoleOut := s.consoleOut ++ [barWord s.bar] }

/-- A console action at a hunt point: one for each hunt point (R640), and nothing an arithmetic register holds may be retrieved over
it (R223). That the low-order exponent indicators are not reset by it (R47, R528) is the model's choice (log 40). -/
def State.console (s : State) (a : ConsoleAct) : State := { s.dropHeld.operated a with consoleServed := true }

/-! ### The hunt (R630) -/

/-- The group a hunt chooses: the program that was stalled first, just reactivated, if it is runnable, else the first runnable one in
sequence. -/
def State.hunt (s : State) (h : BitVec 3) : Option (BitVec 3) :=
  match s.firstOn with
  | some f => if s.runnable f then some f else s.scanFrom h
  | none => s.scanFrom h

/-- The state once a hunt has been made: the program reactivated first is forgotten, and the console may act at the next hunt point. -/
def State.resumed (s : State) : State := { s with firstOn := none, consoleServed := false }

/-! ### Selecting the instruction (R32, R33, R602, R604) -/

/-- What the processor does with its cycle. -/
inductive Selection where
  | next (s : State)
  | run (i : Instr) (s : State)
deriving DecidableEq, Repr

/-- The limited control error that turns the group off now: its instruction has been performed (R666). -/
def State.due (s : State) : Option Limited :=
  match s.limited with
  | some ⟨code, g, false⟩ => some ⟨code, g, false⟩
  | _ => none

/-- A control error found during instruction extraction (R666 class (a)): with the barricade the group is turned off, for an earlier error
if one is due; without it the machine stops. -/
def State.extractionError (s : State) (code : BitVec 5) : State :=
  match s.due with
  | some l => s.turnOff l.group l.code
  | none => if s.cfg.barricade then s.turnOff s.cur code else s.halt code

/-- The bits selected, as an instruction (R147). -/
def State.decoded (s : State) (w : Word) : Selection :=
  match decode s.cfg.opmap w with
  | .ok i => .run i s
  | .error _ => .next (s.extractionError s.cfg.illegalOp)

/-- Whether a word has the command code of a simulator instruction (R490). -/
def isSimulator (w : Word) : Bool := fld w 10 12 == 0b111#3

/-- The word selected, as an instruction (R610 case 1): bad parity is control error 01010, or 10010 in an entry of the unprogrammed transfer
table or a simulator instruction. With the barricade that of a simulator instruction is of class (b), so that the instruction is performed
(R490, R666; log 63); the others are found in extraction, and their instruction is not. -/
def State.extract (s : State) (w : MWord) : Selection :=
  match s.due with
  | some l => .next (s.turnOff l.group l.code)
  | none =>
    if MWord.bad w then
      if isSimulator w.bits && !s.byUtr && s.cfg.barricade then (s.flag 0b10010#5).decoded w.bits
      else .next (s.extractionError (if s.byUtr || isSimulator w.bits then 0b10010#5 else 0b01010#5))
    else s.decoded w.bits

/-- The counter that selects the next instruction of a group (R31, R45). -/
def State.counterOf (s : State) (g : BitVec 3) : Ctr := ctrOf (s.bis g)

/-- The counter stepped as soon as it has selected (R32), and what the instruction's addresses refer to (R180). -/
def State.latch (s : State) (c : Ctr) (r : SReg) : State :=
  match stepCounter true r s with
  | .ok (r', s') => { s'.setReg s'.cur c.ix r' with sel := c, ctl := r, byUtr := false, scan := none }
  | .error _ => s

/-- The next instruction of group `g` (R32, R33): bad parity, minus zero, or having gone beyond the stopper, in the counter is critical control
error 00011. -/
def State.selectFrom (s0 : State) (g : BitVec 3) : Selection :=
  let s : State := { s0.setCur g with stalls := s0.stalls.set g.toNat .running g.isLt }
  let c := s.counterOf g
  let r := s.reg g c.ix
  if r.tag.fatal = true ∨ (r.sign = false ∧ r.addr = 0) then .next (s.halt 0b00011#5)
  else
    let s1 := s.latch c r
    if r.tag.astray = true ∨ s.exists? r.full = false then .next (s1.extractionError 0b00001#5)
    else s1.extract (s.mem.word r.full)

/-- The entry of the unprogrammed transfer table (R602, R604): no counter is stepped, and the addresses refer to the bank of the UTR. -/
def State.selectEntry (s0 : State) (j : Nat) : Selection :=
  let s := { s0 with utEntry := none, scan := none, byUtr := true, ctl := s0.reg s0.cur utrIx }
  if s.exists? j = false then .next (s.extractionError 0b00001#5)
  else s.extract (s.mem.word j)

/-- The processor's cycle (R630, R640): the pending table entry; else the same group, where no hunt was asked for; else the console's
action, one at each hunt point; else the hunt, and nothing at all where no group can run (R633). -/
def State.select (s : State) : Selection :=
  match s.utEntry with
  | some j => s.selectEntry j
  | none =>
    match s.scan with
    | none => s.selectFrom s.cur
    | some h =>
      match s.consoleServed, s.consoleQ with
      | false, a :: rest => .next ({ s with consoleQ := rest }.console a)
      | _, _ =>
        match s.hunt h with
        | none => .next s.resumed
        | some g => s.resumed.selectFrom g

/-- After an instruction: a limited error that lets one more instruction be performed falls due with it (R666 class (d)). -/
def State.settleLimited (before after : State) : State :=
  match before.limited, after.limited with
  | some _, some l => if l.late then { after with limited := some { l with late := false }, scan := none } else after
  | _, _ => after

/-! ### Placing an instruction where the next step fetches it (log 11) -/

/-- The group whose instruction the next processor cycle selects, made to run. -/
def State.readied (s : State) : State × BitVec 3 :=
  let s1 : State := { s with
    env := [], demands := Vector.replicate 16 false, halted := false, limited := none, utEntry := none, consoleQ := [] }
  match s.scan with
  | none => (s1, s.cur)
  | some h =>
    let g := (s.hunt h).getD 0#3
    ({ (s1.setDemandBit g true).resumed with stalls := s1.stalls.set g.toNat .running g.isLt, scan := some g }, g)

/-- The counter of a group as the fetch needs it: one it cannot use is set to location 01000 octal. -/
def State.usableCounter (s : State) (r : SReg) : SReg :=
  if r.tag = .good ∧ ¬(r.sign = false ∧ r.addr = 0) ∧ s.exists? r.full = true then r else SReg.mk' false true 512

/-- The machine with a word at the place its next instruction comes from. -/
def State.placed (s : State) (w : Word) : State :=
  let p := s.readied
  let c := p.1.counterOf p.2
  let r := p.1.usableCounter (p.1.reg p.2 c.ix)
  { p.1.setReg p.2 c.ix r with mem := s.mem.setWord r.full (MWord.good w) }

end Sys2Proof.Machine
end

