-- ==== Sys2Proof/Machine/Step.lean ====
section
/-! DEFINITION. One step of the machine (log 9): at most one event of the environment, then one grant of traffic control, a buffer cycle of
a channel or one instruction of the processor. Traffic control also scans before each later memory cycle of that instruction (`tick`), so
that buffer cycles fall between them (R100, R105). -/
namespace Sys2Proof.Machine

/-- The instruction selected, performed in the state its selection left. -/
def runSelected (i : Instr) (t : State) : Host.Outcome State Fault Refusal :=
  match exec i t with
  | .next s => .next (State.settleLimited t s)
  | .fault f => .fault f
  | .refused r => .refused r

/-- The processor's turn. -/
def cpuStep (s : State) : Host.Outcome State Fault Refusal :=
  match s.select with
  | .next t => .next t
  | .run i t => runSelected i t

/-- A machine stopped by a control error does nothing more (R621; log 19); otherwise the channels outrank the processor (R100). -/
def step (s : State) : Host.Outcome State Fault Refusal :=
  if s.halted then .next s
  else
    match s.environment.grant with
    | some p => .next (s.environment.bufferCycle p.1 p.2)
    | none => cpuStep s.environment

/-- The state in which the next step fetches and runs the instruction whose bits are `w` (log 11). -/
def State.withFetchWord (s : State) (nbits w : Nat) : State := s.placed (BitVec.ofNat 48 (w % 2 ^ nbits))

end Sys2Proof.Machine
end

