-- ==== Sys2Proof/Safety.lean ====
section
/-! DEFINITION. The terms the statements about the machine use: its invariant, the effect of a store, what an instruction leaves alone,
and a safe run. -/
namespace Sys2Proof.Machine

/-! ### The invariant -/

/-- What every step keeps: memory in canonical form; PCR bit 17 unassigned (R45) and zero, as reset leaves it (R682); the barricade
register's bits 28 to 32 and 38 to 40 zero, and its parity bit the one its loading generates (R50). -/
structure State.Inv (s : State) : Prop where
  memory : s.mem.wf = true
  unassigned : bitAt s.pcr 17 = false
  barLow : fld s.bar 4 8 = 0#5
  barHigh : fld s.bar 14 16 = 0#3
  parity : s.barParity = barParityBit s.bar

/-! ### Locations -/

/-- The main memory word a location is: none for a special register. -/
def Loc.words (l : Loc) : List Nat :=
  match l with
  | .mem a => [a]
  | _ => []

/-- The special register a location is: none for a word of main memory. -/
def Loc.regs (l : Loc) : List (BitVec 3 × BitVec 5) :=
  match l with
  | .reg h i _ => [(h, i)]
  | _ => []

/-- The word of main memory that a masked result for a special register leaves unspecified (R231). -/
def Loc.spoils (l : Loc) : List Nat :=
  match l with
  | .reg _ _ _ => [0]
  | _ => []

/-- What a location holds, as a result location is read (R230). -/
def State.contents (s : State) (l : Loc) : MWord :=
  match l with
  | .inactive => MWord.good 0#48
  | .mem a => s.mem.word a
  | .reg h i _ => MWord.good (srToWord (s.reg h i))

/-- Whether a result may be stored there: the word exists (R92), and the barricade does not forbid it (R660). -/
def State.admits (s : State) (l : Loc) : Prop :=
  match l with
  | .inactive => False
  | .mem a => s.exists? a = true ∧ s.barsMem a = false
  | .reg h i _ => s.barsReg h i = false

/-- A word stored at a location (R190, R28); a word with bad parity takes a free value where it goes to a special register (U12). -/
def State.stored (s : State) (l : Loc) (v : MWord) : State :=
  match l with
  | .inactive => s
  | .mem a => s.putWord a v
  | .reg h i _ => { s with free := if MWord.bad v then s.free + 1 else s.free }.setReg h i (s.toSr v)

/-- Whether a location now holds a word stored into it: all of it in main memory, but for the typewriter buffer while a word is being typed
(R466, U47); its low-order 16 bits in a special register (R28), whose parity is bad where the word's was (R321). -/
def State.holds (t : State) (l : Loc) (v : MWord) : Prop :=
  match l with
  | .inactive => True
  | .mem a => t.reserved a = false → t.mem.word a = v
  | .reg h i _ => if MWord.bad v then (t.reg h i).tag = .bad else t.reg h i = t.toSr v

/-- A word stored by EBA or EBS (R275). -/
def State.storedExtended (s : State) (l : Loc) (v : MWord) : State :=
  match l with
  | .reg h i _ => s.setReg h i (extToSr v.bits)
  | l => s.stored l v

/-- Whether a location now holds a word stored by EBA or EBS. -/
def State.holdsExtended (t : State) (l : Loc) (v : MWord) : Prop :=
  match l with
  | .reg h i _ => t.reg h i = extToSr v.bits
  | l => t.holds l v

/-- The special register that an address group names by its subaddress, alone or after indexing (R190, R192): the only one whose contents
the evaluation of the group may step (R191, R194). -/
def State.named (s : State) (x : Group) (d : Bool) : List (BitVec 3 × BitVec 5) :=
  if d && x != inactiveGroup then
    if bitAt x 1 then
      let v := (augment (s.reg s.cur (indexReg x)) (fld x 5 12).toNat).1.bits
      [(fld v 3 5, fld v 12 16)]
    else [(s.cur, fld x 8 12)]
  else []

/-- The special register that an arithmetic control counter names, where it addresses special registers (R320). -/
def State.auNamed (s : State) (isReg : Bool) (i : BitVec 5) : List (BitVec 3 × BitVec 5) :=
  if isReg then [(fld (s.reg s.cur i).bits 3 5, fld (s.reg s.cur i).bits 12 16)] else []

/-- The special register that the C group of a shift and select names once the count `k` is added (R379). -/
def State.selectNamed (s : State) (x : Group) (d : Bool) (k : Nat) : List (BitVec 3 × BitVec 5) :=
  if d then
    if bitAt x 1 then
      let v := (augment (s.reg s.cur (indexReg x)) (fld x 5 12).toNat).1
      [(fld v.bits 3 5, BitVec.ofNat 5 (add11 v.addr k % 32))]
    else [(s.cur, BitVec.ofNat 5 (add11 (fld x 2 12).toNat k % 32))]
  else []

/-! ### What an instruction leaves alone -/

/-- What a programmed increment `k` of register `i` of group `h` leaves (R26, R91, R194, R662, R664): nothing changed where it is zero, where the
register holds the address of a stopper or is protected from the program; else the address stepped by the register's sign. -/
def State.Increments (s : State) (h : BitVec 3) (i : BitVec 5) (k : Nat) (t : State) : Prop :=
  ((k = 0 ∨ s.atStopper (s.reg h i) = true ∨ s.barsReg h i = true) ∧ t = s) ∨
  (k ≠ 0 ∧ s.atStopper (s.reg h i) = false ∧ s.barsReg h i = false ∧
    ((s.reg h i).sign = true ∧ (s.reg h i).addr + k < 32768 ∧
        t = s.setReg h i (SReg.mk' (s.reg h i).arr true ((s.reg h i).addr + k)) ∨
      (s.reg h i).sign = false ∧ k ≤ (s.reg h i).addr ∧
        t = s.setReg h i (SReg.mk' (s.reg h i).arr false ((s.reg h i).addr - k))))

/-- Everything but main memory, the special registers, the arithmetic registers, the program control register, the low-order exponent
indicators, and the model's own bookkeeping (the hunt to come, a limited error to come, what may be retrieved, whether the word being typed
has been stored into, the count of free values): the arithmetic and logical instructions change none of it. -/
def State.outside (s : State) : State :=
  { s with
    mem := [], regs := Vector.replicate 256 SReg.zero, ac := 0, acSign := false, acState := .undefined, lop := 0,
    lopHeld := false, heldMask := none, mr := 0, pcr := 0, flopHeld := false, flopOvf := false, flopUnf := false, scan := none,
    limited := none, typeSpoiled := false, free := 0 }

/-- From `s` to `t`, no special register but those of `regs` changes, and no byte of main memory but those of the words `words`. -/
structure Frame (s t : State) (regs : List (BitVec 3 × BitVec 5)) (words : List Nat) : Prop where
  regs : ∀ h i, (h, i) ∉ regs → t.reg h i = s.reg h i
  bytes : ∀ n, n / 8 ∉ words → t.mem.byte n = s.mem.byte n

/-- The end of an instruction of the arithmetic, logical, transfer and decision kinds: the group's bisequence bit is written, the registers
and words named may change, and nothing else outside the arithmetic registers. -/
structure Ends (s t : State) (seq : Bool) (regs : List (BitVec 3 × BitVec 5)) (words : List Nat) : Prop where
  pcr : t.pcr = setBitAt s.pcr (21 + s.cur.toNat) seq
  outside : t.outside = s.outside
  frame : Frame s t regs words

/-- The state after an instruction that ends with a sequence change through C (R36, R322): to the new contents of the counter the bisequence
bit names, or, with an inactive C, to that counter as it stands; no hunt. -/
def State.sequenced (s : State) (seq : Bool) (target : Option SReg) : State :=
  match target with
  | some r => s.jumped (ctrOf seq) r
  | none => s.ended seq false

/-- The counter and the history register a sequence change writes (R36): none with an inactive C. -/
def State.sequencers (s : State) (seq : Bool) (target : Option SReg) : List (BitVec 3 × BitVec 5) :=
  match target with
  | some _ => [(s.cur, (ctrOf seq).ix), (s.cur, (ctrOf seq).hist)]
  | none => []

/-- The state after an unprogrammed transfer (R602) for the instruction `i`, by offset `n`: its word at U or U + 1 by the counter that
selected it, the table entry next, no hunt. -/
def State.transferred (s : State) (n : Nat) (i : Instr) : State :=
  { s.putWord ((s.reg s.cur utrIx).full + if s.sel = .csc then 1 else 0) (MWord.good (encode s.cfg.opmap i)) with
    utEntry := some (utTarget (s.reg s.cur utrIx) (n + if s.sel = .csc then 1 else 0)), scan := none }

/-- Whether an unprogrammed transfer can be made: the UTR good and even (R39), the word it stores into writable. -/
def State.canTransfer (s : State) : Prop :=
  (s.reg s.cur utrIx).tag = .good ∧ (s.reg s.cur utrIx).addr % 2 = 0 ∧
    s.admits (.mem ((s.reg s.cur utrIx).full + if s.sel = .csc then 1 else 0))

/-- The state after a control error found before an instruction has any effect: with the barricade the program is turned off, without it
the machine stops (R621, R666). -/
def State.trapped (s : State) (code : BitVec 5) : State := if s.cfg.barricade then s.turnOff s.cur code else s.halt code

/-- A stall (R408, R631): the selecting counter is back where it selected the instruction, the group takes no cycles until what it waits
for, a hunt follows, and no other register, no memory, and nothing of the PCR but the peripheral fixed-start bits has changed. -/
structure Stalls (s t : State) (why : Stall) : Prop where
  counter : t.reg s.cur s.sel.ix = s.ctl
  stall : t.stalls = s.stalls.set s.cur.toNat why s.cur.isLt
  order : why = Stall.io → t.stallOrder = s.stallOrder.filter (· != s.cur) ++ [s.cur]
  scan : t.scan = some (s.cur + 1)
  pcr : ∀ n, 4 ≤ n → n ≤ 48 → bitAt t.pcr n = bitAt s.pcr n
  devices : t.devs = s.devs ∧ t.xfers = s.xfers
  frame : Frame s t [(s.cur, s.sel.ix)] []

/-! ### The control program instruction (Figure XII-2 in R470) -/

/-- The demand bit of a group after a function: `v` its bit of B, `own` whether it is the executing group, `d` the bit before. -/
def demandAfter (code : Nat) (v own d : Bool) : Bool :=
  match code with
  | 0 => if own then false else d
  | 1 => d && v
  | 2 => d || v
  | 3 => v
  | 5 => d || !v
  | 6 => d || v
  | _ => d

/-- The bisequence bit of a group after a function, before that of the executing group takes command code bit 1. -/
def bisequenceAfter (code : Nat) (v b : Bool) : Bool :=
  match code with
  | 5 => b && v
  | 6 => b || v
  | 7 => v
  | _ => b

/-- The program control register delivered by an MPC (R470): with an inactive C into the accumulator and the low-order product register, else
to the word of memory C names. -/
def State.controlDelivered (s : State) (f : Mpc) (u : State) (words : List Nat) : Prop :=
  (f.c = inactiveGroup ∧ f.dC = false ∧ u = s.begun.pcrHeld ∧ words = []) ∨
    (f.c ≠ inactiveGroup ∧ ∃ a v, locate f.c f.dC s.begun.noAc = .ok (.mem a, v) ∧ v.admits (.mem a) ∧
      u = v.putWord a (MWord.good s.pcr) ∧ words = [a])

/-! ### Peripheral instructions -/

/-- The main memory address a direct or indexed address group stands for, as a register (R183, R184). -/
def State.plainAt (s : State) (x : Group) : SReg :=
  if bitAt x 1 then (augment (s.reg s.cur (indexReg x)) (fld x 5 12).toNat).1 else s.direct x

/-- Whether it stands for one: the index register good, the sum within 15 bits. -/
def State.plainOk (s : State) (x : Group) : Prop :=
  bitAt x 1 = true → (s.reg s.cur (indexReg x)).tag ≠ .bad ∧ (augment (s.reg s.cur (indexReg x)) (fld x 5 12).toNat).2 = true

/-- The contents a read-write counter is given: that address, negative for a backward read (R404, R431). -/
def State.bufferAt (s : State) (x : Group) (m : Motion) : SReg :=
  SReg.mk' (s.plainAt x).arr (decide (m ≠ .backward)) (s.plainAt x).addr

/-- Whether a peripheral instruction with active A names counters its program may use (R660). -/
def State.buffersOk (s : State) (f : Per) (m : Motion) : Prop :=
  s.plainOk f.a ∧ s.barsMem (s.bufferAt f.a m).full = false ∧
    (f.b ≠ inactiveGroup → s.plainOk f.b ∧ s.barsMem (s.bufferAt f.b m).full = false)

/-- The state once the counters of a peripheral instruction are set (R404 step 6), its fixed-start bits cleared. -/
def State.prepared (s : State) (f : Per) (m : Motion) : State :=
  let u := (s.begun.noAc.setFixedStart 0#3).setReg f.ch (bufferIx m.dir) (s.bufferAt f.a m)
  if f.b = inactiveGroup then u else u.setReg f.ch (tableIx m.dir) (s.bufferAt f.b m)

/-- Whether the C group of a peripheral instruction can be used. -/
def State.targetOk (s : State) (x : Group) : Prop :=
  x ≠ inactiveGroup → bitAt x 1 = true → (s.reg s.cur (indexReg x)).tag ≠ .bad

/-- The counter contents that group gives a sequence change (R322): an indexed address outside 15 bits names no location (log 33). -/
def State.plainTarget (s : State) (x : Group) : SReg :=
  (SReg.mk' (s.plainAt x).arr true (s.plainAt x).addr).counted
    (!bitAt x 1 || (augment (s.reg s.cur (indexReg x)) (fld x 5 12).toNat).2)

/-- The end of a peripheral instruction (R400, R404): the sequence change of the selecting counter, none with an inactive C; no hunt. -/
def State.continued (u s : State) (x : Group) : State :=
  if x = inactiveGroup then { u with scan := none } else u.jumped s.sel (s.plainTarget x)

/-- The registers that end may change. -/
def State.continuers (s : State) (x : Group) : List (BitVec 3 × BitVec 5) :=
  if x = inactiveGroup then [] else [(s.cur, s.sel.ix), (s.cur, s.sel.hist)]

/-- Whether a device can take an operation at once (R404, R420, R424, R458): present and able, neither it nor the control it shares in use, no
error stored, no program switch set. -/
structure State.Available (s : State) (f : Per) (m : Motion) (k : DevKind) : Prop where
  kind : Config.kind s.cfg m.dir f.ch f.dev = some k
  able : canMove k m = true
  unused : (s.dev m.dir f.ch f.dev).unavailable k m (f.a != inactiveGroup) = false
  alone : s.multipleBusy m.dir f.ch f.dev = false
  unlocked : f.a ≠ inactiveGroup → bitAt s.pcr (interlockBit m.dir f.ch) = false

/-- Whether a word ends an item of a distributed transfer, so that the counter is replaced from the table (R410, R411): an end-of-item word, but
for the first word of a record read backward, and on output for the end-of-record word (D41). -/
def Xfer.reloads (x : Xfer) (d : Dir) (w : Word) : Bool :=
  x.distributed && isEoi w &&
    (match d with
      | .input => !(x.backward && x.first)
      | .output => !isEor w)

/-! ### Scientific instructions -/

/-- The result `w` of a scientific instruction delivered from `x` to `u` (R524): stored at the address, or, if it is inactive, nowhere. -/
def State.floatDelivered (x : State) (c : Group) (d : Bool) (w : Word) (u : State) (words : List Nat) : Prop :=
  (c = inactiveGroup ∧ d = false ∧ u = x ∧ words = []) ∨
    (c ≠ inactiveGroup ∧ ∃ l v, locate c d x = .ok (l, v) ∧ v.admits l ∧ u = v.stored l (MWord.good w) ∧ words = l.words)

/-- The end of a scientific instruction: as `Ends`, but for the floating registers and their indicators; the unit is the executing group's
(R687). -/
structure FloatEnds (s t : State) (seq : Bool) (regs : List (BitVec 3 × BitVec 5)) (words : List Nat) : Prop where
  pcr : t.pcr = setBitAt s.pcr (21 + s.cur.toNat) seq
  outside : t.outside = { s.outside with
    flac := t.flac, flop := t.flop, flacOvf := t.flacOvf, flacUnf := t.flacUnf, flacFixed := t.flacFixed, fpuGroup := some s.cur }
  frame : Frame s t regs words

/-- The divide instructions (R552 to R555): which are of fixed-point numbers, and which decimal. -/
def divideRow : Instr → Option (Bool × Bool × Gen)
  | .fbd f => some (false, false, f)
  | .fdd f => some (false, true, f)
  | .bd f => some (true, false, f)
  | .dd f => some (true, true, f)
  | _ => none

/-- Whether the operands of a division consist of digits of its radix (R533, R534). -/
def divisible (fixed dec : Bool) (a b : FpOperand) : Bool :=
  if fixed then digitsOk dec 11 (mag a.word) && digitsOk dec 11 (mag b.word) else operandsOk dec a b

/-- Division overcapacity (R533, R534): a fixed-point divisor not above the dividend, a floating divisor unnormalized or zero. -/
def tooLarge (fixed dec : Bool) (a b : FpOperand) : Bool :=
  if fixed then decide (fixedIn dec a.word ≤ fixedIn dec b.word) else badDivisor a.word

/-- The result of a division (R533, R534). -/
def quotient (fixed dec : Bool) (a b : FpOperand) : FpOut :=
  if fixed then fixedDivide dec a.word b.word else floatDivide dec (fpOf dec a.word a.e) (fpOf dec b.word b.e)

/-! ### What numbers mean -/

/-- What the adder leaves of a signed sum `v` whose first operand is `a` (R241, R242): overflow where the magnitude does not fit, the sign of the
sum, or of A where it is zero; the accumulator holds the magnitude `m` left of it, its sign bits filled by an addition of magnitudes. -/
structure Sum.Signed (r : Sum) (a : Word) (added : Bool) (v : Int) (limit m : Nat) : Prop where
  ovf : r.ovf = decide (limit ≤ v.natAbs)
  sign : r.sign = if v = 0 then posSign a else decide (0 < v)
  ac : r.ac = signedWord added m

/-- The signed value of a word of eleven decimal digits (R251). -/
def decimalSigned (w : Word) : Int := if posSign w then (decimalValue 11 (mag w) : Int) else -(decimalValue 11 (mag w) : Int)

/-- A mantissa with the sign of its number. -/
def Fp.signed (x : Fp) (m : Nat) : Int := if x.pos then (m : Int) else -(m : Int)

/-- The number a floating-point number of `n` digits of radix `R` stands for (R521, R527). -/
def Fp.value (R n : Nat) (x : Fp) : Rat := (x.signed x.m : Rat) * (R : Rat) ^ (x.e - 64 - n)

/-- The sum `S` of two mantissas of `n` digits and its exponent `E` in a normalized addition (R530 stages 1 to 3): the number of larger exponent is
shifted left until it is normalized or the exponents are equal, the other one right, what leaves the `n` digits being lost. -/
def Fp.Aligned (R n : Nat) (a b : Fp) (E S : Int) : Prop :=
  ∃ (x y : Fp) (j : Nat), (x = a ∧ y = b ∨ x = b ∧ y = a) ∧ y.e ≤ x.e ∧ (j : Int) ≤ x.e - y.e ∧ x.m * R ^ j < R ^ n ∧
    (if x.m = 0 then j = 0 else (j : Int) = x.e - y.e ∨ R ^ (n - 1) ≤ x.m * R ^ j) ∧ E = x.e - j ∧
    S = x.signed (x.m * R ^ j) + y.signed (y.m / R ^ (E - y.e).toNat)

/-- What is left of a sum `S` of `n` digits, in units of its exponent: the digit that mantissa overflow shifts out is lost (R530 stage 3). -/
def kept (R n : Nat) (S : Int) : Nat := if S.natAbs < R ^ n then S.natAbs else S.natAbs / R * R

/-- A floating-point word with the sign and the working exponent given (R521, R527). -/
def Word.HasSignExponent (w : Word) (pos : Bool) (e : Int) : Prop := bitAt w 1 = pos ∧ (exponent w : Int) = e % 128

/-! ### Masks -/

/-- Whether the mask of an instruction can be fetched and is good: MXR holds an address that exists, and the mask's parity is right
(R40, R230). -/
def State.maskReady (s : State) (k : Option (BitVec 5)) : Prop :=
  match k with
  | none => True
  | some k =>
    (s.reg s.cur mxrIx).tag = .good ∧ s.exists? (fieldMaskAddress (s.reg s.cur mxrIx) k) = true ∧
      MWord.bad (s.mem.word (fieldMaskAddress (s.reg s.cur mxrIx) k)) = false

/-- The mask of an instruction. -/
def State.maskWord (s : State) (k : Option (BitVec 5)) : Option MWord :=
  k.map fun k => s.mem.word (fieldMaskAddress (s.reg s.cur mxrIx) k)

/-- The mask in the mask register (R44, R224). -/
def State.masking (s : State) (k : Option (BitVec 5)) : State :=
  match s.maskWord k with
  | none => s
  | some m => { s with mr := m.bits }

/-- Whether the mask of a shift can be fetched and is good (R40, R371). -/
def State.shiftMaskReady (s : State) (b : Group) : Prop :=
  (s.reg s.cur mxrIx).tag = .good ∧ s.exists? (shiftMaskAddress (s.reg s.cur mxrIx) b) = true ∧
    MWord.bad (s.mem.word (shiftMaskAddress (s.reg s.cur mxrIx) b)) = false

/-- The mask of a shift. -/
def State.shiftMask (s : State) (b : Group) : Word := (s.mem.word (shiftMaskAddress (s.reg s.cur mxrIx) b)).bits

/-- The word an instruction leaves at a location that held `old`: protected where there is a mask (R230). -/
def merged (m : Option MWord) (old : MWord) (w : Word) : Word :=
  match m with
  | none => w
  | some m => protect w m.bits old.bits

/-- The first operand `a` of the add family, and the accumulator `r` with it, from `s` to `s1` (R221 to R223, R244): an active A of good parity, under
the mask; or, with an inactive A, the accumulator as the instruction just before left it, for a masked instruction under the same mask. -/
def State.firstAdded (s : State) (k : AcKind) (f : Form) (a : Word) (r : Sum) (s1 : State) : Prop :=
  (f.a ≠ inactiveGroup ∧ ∃ w, readOperand f.a f.dA (s.begun.masking f.mask) = .ok (w, s1) ∧ MWord.bad w = false ∧
      a = gate (s.maskWord f.mask) w.bits ∧ r = ⟨a, loadedSign k s.acSign a, false⟩) ∨
    (f.a = inactiveGroup ∧ f.dA = false ∧ s.acState = .held k ∧ (f.mask = none ∨ s.heldMask = (s.maskWord f.mask).map (·.bits)) ∧
      s1 = s.begun.masking f.mask ∧ r = ⟨s.ac, s.acSign, false⟩ ∧ a = storeForm k r)

/-- The accumulator `r` after the second operand of the add family, from `s1` to `s2`, `a` and `q` being the first (R221, R244): an active B of good
parity, under the mask `m`, added; with an inactive B the accumulator is left undisturbed. -/
def Adder.secondAdded (k : Adder) (m : Option MWord) (f : Form) (a : Word) (q r : Sum) (s1 s2 : State) : Prop :=
  (f.b ≠ inactiveGroup ∧ ∃ b, readOperand f.b f.dB s1 = .ok (b, s2) ∧ MWord.bad b = false ∧ k.combine q.sign a (gate m b.bits) = .sum r) ∨
    (f.b = inactiveGroup ∧ f.dB = false ∧ s2 = s1 ∧ r = q)

/-- The word a transfer delivers (R310, R321): unmasked, with the parity it has; masked, protected and of good parity. -/
def copied (m : Option MWord) (old w : MWord) : MWord :=
  match m with
  | none => w
  | some m => MWord.good (protect w.bits m.bits old.bits)

/-! ### The instructions by family -/

/-- The add family (R240), with the adder and the form of each. -/
def addRow : Instr → Option (Adder × Form)
  | .ba f => some (adderBA, genForm f)
  | .da f => some (adderDA, genForm f)
  | .wa f => some (adderWA, genForm f)
  | .bs f => some (adderBS, genForm f)
  | .ds f => some (adderDS, genForm f)
  | .wd f => some (adderWD, genForm f)
  | .baM f => some (adderBA, fldForm f)
  | .daM f => some (adderDA, fldForm f)
  | .waM f => some (adderWA, fldForm f)
  | .bsM f => some (adderBS, fldForm f)
  | .dsM f => some (adderDS, fldForm f)
  | .wdM f => some (adderWD, fldForm f)
  | _ => none

/-- HA and SM (R290, R291), with the function of each bit. -/
def logicalRow : Instr → Option ((Word → Word → Word) × Form)
  | .ha f => some (fun a b => a ^^^ b, genForm f)
  | .sm f => some (fun a b => a ||| b, genForm f)
  | .haM f => some (fun a b => a ^^^ b, fldForm f)
  | .smM f => some (fun a b => a ||| b, fldForm f)
  | _ => none

/-- The shifts that store (R375 to R378): the rotation, and whether C is protected. -/
def shiftRow : Instr → Option ((Word → Nat → Word) × Bool × Gen)
  | .sws f => some (rotr48, true, f)
  | .sps f => some (rotr44, true, f)
  | .swe f => some (rotr48, false, f)
  | .spe f => some (rotr44, false, f)
  | _ => none

/-- The decision instructions and the two comparisons of section 48 (R355 to R358, R580, R581), with the condition of each. -/
def decisionRow : Instr → Option ((Word → Word → Bool) × Form)
  | .na f => some (alphaNe, genForm f)
  | .nn f => some (numNe, genForm f)
  | .la f => some (alphaLe, genForm f)
  | .ln f => some (numLe, genForm f)
  | .fln f => some (floatLe, genForm f)
  | .fnn f => some (alphaNe, genForm f)
  | .naM f => some (alphaNe, fldForm f)
  | .nnM f => some (numNe, fldForm f)
  | .laM f => some (alphaLe, fldForm f)
  | .lnM f => some (numLe, fldForm f)
  | _ => none

/-- TX (R310). -/
def transferRow : Instr → Option Form
  | .tx f => some (genForm f)
  | .txM f => some (fldForm f)
  | _ => none

/-- TS (R311). -/
def sequenceRow : Instr → Option Form
  | .ts f => some (genForm f)
  | .tsM f => some (fldForm f)
  | _ => none

/-- CP (R500, R501). -/
def checkRow : Instr → Option Form
  | .cp f => some (genForm f)
  | .cpM f => some (fldForm f)
  | _ => none

/-- The floating-point instructions of two operands (R540 to R551): whether decimal, and the result of each. -/
def floatRow : Instr → Option (Bool × (Word → Bool → Fp → Fp → FpOut) × Gen)
  | .fba f => some (false, fun w _ a b => floatAdd false false w a b, f)
  | .fda f => some (true, fun w _ a b => floatAdd true false w a b, f)
  | .fbs f => some (false, fun w _ a b => floatAdd false true w a b, f)
  | .fds f => some (true, fun w _ a b => floatAdd true true w a b, f)
  | .fbau f => some (false, fun w z a b => floatAddPlain false false w z a b, f)
  | .fdau f => some (true, fun w z a b => floatAddPlain true false w z a b, f)
  | .fbsu f => some (false, fun w z a b => floatAddPlain false true w z a b, f)
  | .fdsu f => some (true, fun w z a b => floatAddPlain true true w z a b, f)
  | .fbae f => some (false, fun _ _ a b => floatAddExtended false a b, f)
  | .fbse f => some (false, fun _ _ a b => floatAddExtended true a b, f)
  | .fbm f => some (false, fun _ _ a b => floatMultiply false a b, f)
  | .fdm f => some (true, fun _ _ a b => floatMultiply true a b, f)
  | _ => none

/-- The three instructions that move a record (R430 to R432). -/
def motionRow : Instr → Option (Motion × Per)
  | .rf f => some (.forward, f)
  | .rb f => some (.backward, f)
  | .wf f => some (.write, f)
  | _ => none

/-- The print instructions (R461 to R463). -/
def printRow : Instr → Option Prt
  | .pra f => some f
  | .prd f => some f
  | .pro f => some f
  | _ => none

/-- The instructions of the scientific option (R520), which alone use `FLAC` and `FLOP`. -/
def scientific : Instr → Bool
  | .fba _ | .fda _ | .fbs _ | .fds _ | .fbd _ | .fdd _ | .fbau _ | .fdau _ | .fbsu _ | .fdsu _ | .fbm _ | .fdm _ | .uld _
  | .fbae _ | .fbse _ | .bd _ | .dd _ | .ffn _ | .fcon _ => true
  | _ => false

/-- Whether an instruction is a print with typewriter number 4, the barricade load form (R468). -/
def loadsBarricade (i : Instr) : Bool :=
  match printRow i with
  | some f => f.b != inactiveGroup && typewriterOf f.b == 4
  | none => false

/-- The floating-point registers and the indicators that outlive an instruction (R46, R47). -/
def State.floating (s : State) : Word × Word × Bool × Bool × Bool := (s.flac, s.flop, s.flacOvf, s.flacUnf, s.flacFixed)

/-! ### Selection -/

/-- The next step selects, for group `g`, by its counter `c`, whose contents are `r` (R32, R630): the machine runs, no event, no channel demand,
no table entry and no limited control error is due, and no hunt was asked for, or the console has had its turn or wants none and the hunt
finds `g`. `q` is the state then. -/
structure State.Selects (s q : State) (g : BitVec 3) (c : Ctr) (r : SReg) : Prop where
  running : s.halted = false
  noEvent : s.env = []
  noDemand : s.grant = none
  noEntry : s.utEntry = none
  noError : s.limited = none
  chosen : (s.scan = none ∧ g = s.cur ∧ q = s) ∨
    ((s.consoleQ = [] ∨ s.consoleServed = true) ∧ ∃ h, s.scan = some h ∧ s.hunt h = some g ∧ q = s.resumed)
  counter : c = s.counterOf g
  contents : r = s.reg g c.ix

/-- A step that ends in a control error of selection (R33, R610, R666): with the barricade group `g` is turned off and a hunt follows, without it
the machine stops; the code is displayed, and memory is as it was. -/
def State.Stops (s : State) (g : BitVec 3) (code : BitVec 5) : Prop :=
  ∃ t, step s = .next t ∧ fld t.pcr 4 8 = code ∧ t.mem = s.mem ∧
    (s.cfg.barricade = false → t.halted = true) ∧
    (s.cfg.barricade = true → t.halted = false ∧ t.inDemand g = false ∧ fld t.bar 1 3 = g ∧ t.scan = some (g + 1) ∧
      ∀ h, h ≠ g → t.inDemand h = s.inDemand h)

/-! ### Safe runs -/

/-- Whether `n` steps from `s` meet neither a fault nor a refusal. -/
def State.safe : Nat → State → Bool
  | 0, _ => true
  | n + 1, s =>
    match step s with
    | .next t => State.safe n t
    | _ => false

end Sys2Proof.Machine
end

