-- ==== Sys2Proof/Certificates/Slice0/Obligations.lean ====
section
/-! DEFINITION. The statements for the provers. In each, `s` is the state an instruction starts from, `s1`, `s2`, … the states after its
parts, in the order the spec gives them, and `t` the state it leaves. Where an instruction uses memory, no event of the environment is to
come (`s.env = []`), so that no cycle of another agent falls among its own (log 9): `BufferCycles` says what happens where one does. A word
stored is held by its location (`holds`), but for location 00021 while a word is being typed, which then holds a free one (R466, U47). -/
open Sys2Proof Sys2Proof.Machine

/-! ### Arithmetic -/

/-- The add family (R240 to R244, R250 to R255), both operands and C active, masked or not: A and B are read, gated by the mask, combined
and left in the accumulator, the result is stored at C, protected by the mask, and a hunt follows. What the adders compute is `AdderValues`. -/
def Obligations.AddInstructions : Prop :=
  ∀ (i : Instr) (k : Adder) (f : Form) (s s1 s2 s3 : State) (a b : MWord) (r : Sum) (l : Loc),
    addRow i = some (k, f) → s.env = [] → s.mem.wf = true →
    f.a ≠ inactiveGroup → f.b ≠ inactiveGroup → f.c ≠ inactiveGroup → s.begun.maskReady f.mask →
    readOperand f.a f.dA (s.begun.masking f.mask) = .ok (a, s1) → MWord.bad a = false →
    readOperand f.b f.dB s1 = .ok (b, s2) → MWord.bad b = false →
    k.combine (loadedSign k.kind s.acSign (gate (s.maskWord f.mask) a.bits)) (gate (s.maskWord f.mask) a.bits)
      (gate (s.maskWord f.mask) b.bits) = .sum r → r.ovf = false →
    locate f.c f.dC (s2.summed k.kind (s.maskWord f.mask) r true) = .ok (l, s3) → s3.admits l →
    (f.mask.isSome = true → MWord.bad (s3.contents l) = false) → (k.kind = .decimal → l.regs = []) →
    ∃ t, exec i s = .next t ∧
      t = (s3.stored l (MWord.good (merged (s.maskWord f.mask) (s3.contents l) (storeForm k.kind r)))).ended f.seq true ∧
      t.holds l (MWord.good (merged (s.maskWord f.mask) (s3.contents l) (storeForm k.kind r))) ∧
      t.ac = r.ac ∧ t.acSign = r.sign ∧ (t.acState = .delivered ∨ t.acState = .spent) ∧ t.mr = (s.masking f.mask).mr ∧
      (f.mask = none → t.lop = s.lop) ∧
      Ends s t f.seq (s.named f.a f.dA ++ s1.named f.b f.dB ++ s2.named f.c f.dC) l.words

/-- What the adders compute. Binary (R241, R242): the signed sum or difference of 44-bit magnitudes, modulo `2^44`, overflow exactly where it
does not fit, and without it the stored word has that value. Decimal (R245, R251, R254): magnitudes are added digit by digit from the low-order
one, by the table of R245; with decimal digits the result is the signed sum or difference of eleven digits. WA and WD (R252, R255): the 48-bit
sum, and the absolute difference with overflow where B is the greater. -/
def Obligations.AdderValues : Prop :=
  ∀ (f : Gen) (m : Fld) (z : Bool) (a b : Word),
    (∀ sub : Bool, ∃ k r, addRow (if sub then .bs f else .ba f) = some (k, genForm f) ∧
      addRow (if sub then .bsM m else .baM m) = some (k, fldForm m) ∧ k.kind = .binary ∧ k.combine z a b = .sum r ∧
      r.Signed a (posSign a == (posSign b ^^ sub)) (if sub then signedValue a - signedValue b else signedValue a + signedValue b) (2 ^ 44)
        ((if sub then signedValue a - signedValue b else signedValue a + signedValue b).natAbs % 2 ^ 44) ∧
      (r.ovf = false → signedValue (storeForm .binary r) = if sub then signedValue a - signedValue b else signedValue a + signedValue b)) ∧
    (∀ sub : Bool, isDecimal 11 (mag a) = true → isDecimal 11 (mag b) = true →
      ∃ k r, addRow (if sub then .ds f else .da f) = some (k, genForm f) ∧
      addRow (if sub then .dsM m else .daM m) = some (k, fldForm m) ∧ k.kind = .decimal ∧ k.combine z a b = .sum r ∧
      r.Signed a (posSign a == (posSign b ^^ sub)) (if sub then decimalSigned a - decimalSigned b else decimalSigned a + decimalSigned b)
        (10 ^ 11) (toDecimal 11 ((if sub then decimalSigned a - decimalSigned b else decimalSigned a + decimalSigned b).natAbs % 10 ^ 11)) ∧
      (r.ovf = false →
        decimalSigned (storeForm .decimal r) = if sub then decimalSigned a - decimalSigned b else decimalSigned a + decimalSigned b)) ∧
    (∀ (ds : List Nat) (c : Nat), decimalAdd (mag a) (mag b) = .sum ds c ↔ ds.length = 11 ∧ ∃ carry : Nat → Nat, carry 0 = 0 ∧ carry 11 = c ∧
      ∀ n, n < 11 → ∃ d, ds[n]? = some d ∧ addDigit (mag a / 16 ^ n % 16) (mag b / 16 ^ n % 16) (carry n) = .sum [d] (carry (n + 1))) ∧
    (∀ x y c : Nat, x < 16 → y < 16 → c ≤ 1 →
      (10 ≤ x → addDigit x y c = .sum [(x + y + c) % 16] ((x + y + c) / 16)) ∧
      (x < 10 → x + y + c < 10 → addDigit x y c = .sum [x + y + c] 0) ∧
      (x < 10 → 10 ≤ x + y + c → x + y + c ≤ 18 ∨ y < 10 → addDigit x y c = .sum [x + y + c - 10] 1) ∧
      (x < 10 → 10 ≤ y → x + y + c = 19 ∨ x + y + c = 20 → addDigit x y c = .error) ∧
      (x < 10 → 10 ≤ y → 20 < x + y + c → addDigit x y c = .unspecified)) ∧
    (∃ k r, addRow (.wa f) = some (k, genForm f) ∧ addRow (.waM m) = some (k, fldForm m) ∧ k.kind = .unsigned ∧ k.combine z a b = .sum r ∧
      (storeForm .unsigned r).toNat = (a.toNat + b.toNat) % 2 ^ 48 ∧ r.ovf = decide (2 ^ 48 ≤ a.toNat + b.toNat) ∧ r.sign = z) ∧
    (∃ k r, addRow (.wd f) = some (k, genForm f) ∧ addRow (.wdM m) = some (k, fldForm m) ∧ k.kind = .unsigned ∧ k.combine z a b = .sum r ∧
      ((storeForm .unsigned r).toNat : Int) = |(a.toNat : Int) - b.toNat| ∧ r.ovf = decide (a.toNat < b.toNat) ∧ r.sign = z)

/-- The add family with an overflow or an operand of bad parity (R242, R603, R610): the result is stored as without it, then the
unprogrammed transfer is made, to U + 2 for parity, else to U + 8. That parity goes first where both occur is decision D52 (log 35). -/
def Obligations.AddTransfers : Prop :=
  ∀ (i : Instr) (k : Adder) (f : Form) (s s1 s2 s3 : State) (a b : MWord) (r : Sum) (l : Loc),
    addRow i = some (k, f) → s.env = [] → s.mem.wf = true →
    f.a ≠ inactiveGroup → f.b ≠ inactiveGroup → f.c ≠ inactiveGroup → s.begun.maskReady f.mask →
    readOperand f.a f.dA (s.begun.masking f.mask) = .ok (a, s1) →
    readOperand f.b f.dB s1 = .ok (b, s2) →
    k.combine (loadedSign k.kind s.acSign (gate (s.maskWord f.mask) a.bits)) (gate (s.maskWord f.mask) a.bits)
      (gate (s.maskWord f.mask) b.bits) = .sum r →
    (MWord.bad a || MWord.bad b || r.ovf) = true →
    locate f.c f.dC (s2.summed k.kind (s.maskWord f.mask) r true) = .ok (l, s3) → s3.admits l →
    (f.mask.isSome = true → MWord.bad (s3.contents l) = false) → (k.kind = .decimal → l.regs = []) →
    (s3.stored l (MWord.good (merged (s.maskWord f.mask) (s3.contents l) (storeForm k.kind r)))).canTransfer →
    ∃ t, exec i s = .next t ∧
      t = (s3.stored l (MWord.good (merged (s.maskWord f.mask) (s3.contents l) (storeForm k.kind r)))).transferred
        (if MWord.bad a || MWord.bad b then utParity else utOverflow) i ∧
      t.ac = r.ac ∧ t.acSign = r.sign ∧ t.pcr = s.pcr ∧ t.scan = none ∧
      ∃ U c, U = (s3.stored l (MWord.good (merged (s.maskWord f.mask) (s3.contents l) (storeForm k.kind r)))).reg s.cur utrIx ∧
        c = (if s.sel = .csc then 1 else 0) ∧ t.holds (.mem (U.full + c)) (MWord.good (encode s.cfg.opmap i)) ∧
        Frame s t (s.named f.a f.dA ++ s1.named f.b f.dB ++ s2.named f.c f.dC) (l.words ++ [U.full + c])

/-- The add family with C inactive (R221, R244): the result stays in the accumulator for the next instruction, nothing is stored, and
no hunt follows. With B inactive too the accumulator is the A operand, and with A inactive B is added to the accumulator left by the instruction just
before (`BA X - -` and `BA - Y -` of R239); with neither, the accumulator stays as it is. -/
def Obligations.AddToAccumulator : Prop :=
  ∀ (i : Instr) (k : Adder) (f : Form) (s s1 s2 : State) (a : Word) (q r : Sum),
    addRow i = some (k, f) → s.env = [] → f.c = inactiveGroup → f.dC = false → s.begun.maskReady f.mask →
    s.firstAdded k.kind f a q s1 → k.secondAdded (s.maskWord f.mask) f a q r s1 s2 → r.ovf = false →
    ∃ t, exec i s = .next t ∧ t = (s2.summed k.kind (s.maskWord f.mask) r false).ended f.seq false ∧
      t.ac = r.ac ∧ t.acSign = r.sign ∧ t.acState = .held k.kind ∧ t.heldMask = (s.maskWord f.mask).map (·.bits) ∧
      t.scan = none ∧ Ends s t f.seq (s.named f.a f.dA ++ s1.named f.b f.dB) []

/-- The add family with A inactive and C active (R221 to R223, R244): the accumulator, left there by the instruction just before, is the first operand;
for a masked instruction, under the same mask. That it is not put under the mask a second time is the model's choice (log 24). (With C inactive too:
`AddToAccumulator`; with B inactive too: `AddOneOperand`.) An accumulator already delivered is a control error, with any B and C: its code 00100 is
decision D22 (log 18), that nothing of the instruction is then performed D55 (log 21). -/
def Obligations.AddFromAccumulator : Prop :=
  ∀ (i : Instr) (k : Adder) (f : Form) (s : State),
    addRow i = some (k, f) → s.env = [] → f.a = inactiveGroup → f.dA = false →
    (∀ (s2 s3 : State) (b : MWord) (r : Sum) (l : Loc),
      s.mem.wf = true → f.b ≠ inactiveGroup → f.c ≠ inactiveGroup → s.begun.maskReady f.mask →
      s.acState = .held k.kind → (f.mask = none ∨ s.heldMask = (s.maskWord f.mask).map (·.bits)) →
      readOperand f.b f.dB (s.begun.masking f.mask) = .ok (b, s2) → MWord.bad b = false →
      k.combine s.acSign (storeForm k.kind ⟨s.ac, s.acSign, false⟩) (gate (s.maskWord f.mask) b.bits) = .sum r → r.ovf = false →
      locate f.c f.dC (s2.summed k.kind (s.maskWord f.mask) r true) = .ok (l, s3) → s3.admits l →
      (f.mask.isSome = true → MWord.bad (s3.contents l) = false) → (k.kind = .decimal → l.regs = []) →
      ∃ t, exec i s = .next t ∧
        t = (s3.stored l (MWord.good (merged (s.maskWord f.mask) (s3.contents l) (storeForm k.kind r)))).ended f.seq true ∧
        t.holds l (MWord.good (merged (s.maskWord f.mask) (s3.contents l) (storeForm k.kind r))) ∧ t.ac = r.ac ∧
        Ends s t f.seq (s.named f.b f.dB ++ s2.named f.c f.dC) l.words) ∧
    ((f.b = inactiveGroup → f.dB = false) → (f.c = inactiveGroup → f.dC = false) → s.acState = .delivered ∨ s.acState = .spent →
      s.limited = none →
      ∃ t, exec i s = .next t ∧ t = s.begun.trapped 0b00100#5 ∧ fld t.pcr 4 8 = 0b00100#5 ∧ t.mem = s.mem ∧ t.regs = s.regs ∧
        (s.cfg.barricade = false → t.halted = true))

/-- The add family with B inactive and C active (R221, R244): the A operand, under the mask, is delivered, or with A inactive too the accumulator left
by the instruction just before (`BA - - Z` of R239); a signed one with a standard sign of four equal bits, as R244 has it in a sentence the spec marks
as derived. That the accumulator is not put under the mask a second time is the model's choice (log 24). (With C inactive too: `AddToAccumulator`.) -/
def Obligations.AddOneOperand : Prop :=
  ∀ (i : Instr) (k : Adder) (f : Form) (s s1 s3 : State) (a : Word) (r : Sum) (l : Loc),
    addRow i = some (k, f) → s.env = [] → s.mem.wf = true →
    f.b = inactiveGroup → f.dB = false → f.c ≠ inactiveGroup → s.begun.maskReady f.mask → s.firstAdded k.kind f a r s1 →
    locate f.c f.dC (s1.summed k.kind (s.maskWord f.mask) r true) = .ok (l, s3) → s3.admits l →
    (f.mask.isSome = true → MWord.bad (s3.contents l) = false) → (k.kind = .decimal → l.regs = []) →
    ∃ t, exec i s = .next t ∧
      t = (s3.stored l (MWord.good (merged (s.maskWord f.mask) (s3.contents l) (storeForm k.kind r)))).ended f.seq true ∧
      t.holds l (MWord.good (merged (s.maskWord f.mask) (s3.contents l) (storeForm k.kind r))) ∧ t.ac = r.ac ∧ t.acSign = r.sign ∧
      (t.acState = .delivered ∨ t.acState = .spent) ∧ Ends s t f.seq (s.named f.a f.dA ++ s1.named f.c f.dC) l.words

/-- EBA and EBS (R275, R276), present with extended memory: as BA and BS unmasked, with special registers read and stored in their
24-bit form. -/
def Obligations.ExtendedAddInstructions : Prop :=
  ∀ (sub : Bool) (f : Gen) (s s1 s2 s3 : State) (a b : MWord) (r : Sum) (l : Loc),
    s.env = [] → s.mem.wf = true → s.cfg.extended = true →
    f.a ≠ inactiveGroup → f.b ≠ inactiveGroup → f.c ≠ inactiveGroup →
    readExtended f.a f.dA s.begun = .ok (a, s1) → MWord.bad a = false →
    readExtended f.b f.dB s1 = .ok (b, s2) → MWord.bad b = false →
    binarySum sub a.bits b.bits = .sum r → r.ovf = false →
    locate f.c f.dC (s2.summed .binary none r true) = .ok (l, s3) → s3.admits l →
    ∃ t, exec (if sub then .ebs f else .eba f) s = .next t ∧
      t = (s3.storedExtended l (MWord.good (storeForm .binary r))).ended f.seq true ∧
      t.holdsExtended l (MWord.good (storeForm .binary r)) ∧ t.ac = r.ac ∧ t.acSign = r.sign ∧
      Ends s t f.seq (s.named f.a f.dA ++ s1.named f.b f.dB ++ s2.named f.c f.dC) l.words

/-- BM (R260, R262): the 88-bit product of the magnitudes, its high-order half at C with the standard sign, the low-order half in the
low-order product register; the multiples of A stand in locations 0 to 15, with bad parity: which of their frames are bad is free (log 45). -/
def Obligations.BinaryMultiply : Prop :=
  ∀ (f : Gen) (s s1 s2 s3 : State) (a b : MWord) (l : Loc) (hi lo : Nat) (sign : Bool),
    s.env = [] → s.mem.wf = true → f.a ≠ inactiveGroup → f.b ≠ inactiveGroup → f.c ≠ inactiveGroup →
    readOperand f.a f.dA s.begun = .ok (a, s1) → MWord.bad a = false →
    readOperand f.b f.dB s1 = .ok (b, s2) → MWord.bad b = false → s2.namesRegister f.c f.dC = false →
    hi * 2 ^ 44 + lo = mag a.bits * mag b.bits → lo < 2 ^ 44 → sign = (posSign a.bits == posSign b.bits) →
    locate f.c f.dC (s2.scratched (fun k => BitVec.ofNat 48 (k * mag a.bits)) 16) = .ok (l, s3) → s3.admits l →
    ∃ t, exec (.bm f) s = .next t ∧
      t = ((s3.stored l (MWord.good (signedWord sign hi))).multiplied sign hi lo).ended f.seq false ∧
      t.holds l (MWord.good (signedWord sign hi)) ∧ t.ac = signedWord sign hi ∧ t.acState = .delivered ∧ t.lop = signedWord sign lo ∧
      t.lopHeld = true ∧ t.scan = none ∧
      (∀ k, k < 16 → k ∉ l.words → (t.mem.word k).bits = BitVec.ofNat 48 (k * mag a.bits) ∧ MWord.bad (t.mem.word k) = true) ∧
      Ends s t f.seq (s.named f.a f.dA ++ s1.named f.b f.dB ++ [(s.cur, au1)] ++
        (s2.scratched (fun k => BitVec.ofNat 48 (k * mag a.bits)) 16).named f.c f.dC ++ l.regs) (l.words ++ List.range 16)

/-- DM (R261, R262) with decimal digits in both operands: the product of two numbers of eleven digits, in two words of eleven digits; the
multiples of A stand in locations 0 to 9: their twelve digits and bad parity are decision D24 as the model reads it (log 45). -/
def Obligations.DecimalMultiply : Prop :=
  ∀ (f : Gen) (s s1 s2 s3 : State) (a b : MWord) (l : Loc) (hi lo va vb : Nat) (sign : Bool),
    s.env = [] → s.mem.wf = true → f.a ≠ inactiveGroup → f.b ≠ inactiveGroup → f.c ≠ inactiveGroup →
    readOperand f.a f.dA s.begun = .ok (a, s1) → MWord.bad a = false →
    readOperand f.b f.dB s1 = .ok (b, s2) → MWord.bad b = false → s2.namesRegister f.c f.dC = false →
    isDecimal 11 (mag a.bits) = true → isDecimal 11 (mag b.bits) = true →
    va = decimalValue 11 (mag a.bits) → vb = decimalValue 11 (mag b.bits) →
    hi * 10 ^ 11 + lo = va * vb → lo < 10 ^ 11 → sign = (posSign a.bits == posSign b.bits) →
    locate f.c f.dC (s2.scratched (fun k => BitVec.ofNat 48 (toDecimal 12 (k * va))) 10) = .ok (l, s3) → s3.admits l →
    ∃ t, exec (.dm f) s = .next t ∧
      t = ((s3.stored l (MWord.good (signedWord sign (toDecimal 11 hi)))).multiplied sign (toDecimal 11 hi)
        (toDecimal 11 lo)).ended f.seq false ∧
      t.holds l (MWord.good (signedWord sign (toDecimal 11 hi))) ∧ t.acState = .delivered ∧ t.lop = signedWord sign (toDecimal 11 lo) ∧
      t.lopHeld = true ∧ t.scan = none ∧
      (∀ k, k < 10 → k ∉ l.words → (t.mem.word k).bits = BitVec.ofNat 48 (toDecimal 12 (k * va)) ∧ MWord.bad (t.mem.word k) = true) ∧
      Ends s t f.seq (s.named f.a f.dA ++ s1.named f.b f.dB ++ [(s.cur, au1)] ++
        (s2.scratched (fun k => BitVec.ofNat 48 (toDecimal 12 (k * va))) 10).named f.c f.dC ++ l.regs) (l.words ++ List.range 10)

/-- BT and DT (R265, R266): A is read as often as the count, its group evaluated again each time (`σ k` before the reading of the
word `w k`), the magnitudes are added (`T k` and the overflow `V k` before it), and the total is stored with the sign of the first word. Then a
hunt follows, by R240 and not by the table of R632 (log 26); with an overflow, the unprogrammed transfer to U + 8 instead. -/
def Obligations.AccumulateInstructions : Prop :=
  ∀ (dec : Bool) (f : Gen) (s s3 u : State) (n : Nat) (σ : Nat → State) (w : Nat → MWord) (T : Nat → Nat) (V : Nat → Bool) (l : Loc),
    s.env = [] → s.mem.wf = true → f.a ≠ inactiveGroup → f.c ≠ inactiveGroup → (f.b = inactiveGroup → f.dB = false) →
    (fld f.b 1 6).toNat = n → 0 < n → σ 0 = s.begun →
    (∀ k, k < n → readOperand f.a f.dA (σ k) = .ok (w k, σ (k + 1)) ∧ MWord.bad (w k) = false) →
    T 1 = mag (w 0).bits → V 1 = false →
    (∀ k, 0 < k → k < n →
      if dec then ∃ ds c, decimalAdd (T k) (mag (w k).bits) = .sum ds c ∧ T (k + 1) = ofDigits ds ∧ V (k + 1) = (V k || decide (0 < c))
      else T (k + 1) = (T k + mag (w k).bits) % 2 ^ 44 ∧ V (k + 1) = (V k || decide (2 ^ 44 ≤ T k + mag (w k).bits))) →
    locate f.c f.dC ((σ n).totalled (posSign (w 0).bits) (T n)) = .ok (l, s3) → s3.admits l →
    u = s3.stored l (MWord.good (signedWord (posSign (w 0).bits) (T n))) →
    u.holds l (MWord.good (signedWord (posSign (w 0).bits) (T n))) ∧ u.ac = signedWord true (T n) ∧ u.pcr = s.pcr ∧ u.outside = s.outside ∧
    (∀ h j, (∀ k, k < n → (h, j) ∉ (σ k).named f.a f.dA) → (h, j) ∉ (σ n).named f.c f.dC → u.reg h j = s.reg h j) ∧
    (∀ b, b / 8 ∉ l.words → u.mem.byte b = s.mem.byte b) ∧
    (V n = false → ∃ t, exec (if dec then .dt f else .bt f) s = .next t ∧ t = u.ended f.seq true) ∧
    (V n = true → u.canTransfer → ∃ t, exec (if dec then .dt f else .bt f) s = .next t ∧
      t = u.transferred utOverflow (if dec then .dt f else .bt f))

/-- BT and DT with a count of zero (R265, R266): nothing is read or written. That the hunt of an active C follows all the same (R240) and that
nothing can be retrieved from the arithmetic registers afterwards are the model's choices (logs 25, 26). -/
def Obligations.AccumulateNothing : Prop :=
  ∀ (dec : Bool) (f : Gen) (s : State), f.a ≠ inactiveGroup → f.c ≠ inactiveGroup → (fld f.b 1 6).toNat = 0 →
    ∃ t, exec (if dec then .dt f else .bt f) s = .next t ∧ t = s.begun.intervened.ended f.seq true ∧
      t.ac = s.ac ∧ t.mem = s.mem ∧ t.regs = s.regs ∧ Ends s t f.seq [] []

/-! ### Logical instructions and shifts -/

/-- HA and SM, masked or not (R290, R291): bit by bit, under the mask, the result in the accumulator and at C. -/
def Obligations.LogicalInstructions : Prop :=
  ∀ (i : Instr) (g : Word → Word → Word) (f : Form) (s s1 s2 s3 : State) (a b : MWord) (l : Loc) (w : Word),
    logicalRow i = some (g, f) → s.env = [] → s.mem.wf = true →
    f.a ≠ inactiveGroup → f.b ≠ inactiveGroup → f.c ≠ inactiveGroup → s.begun.maskReady f.mask →
    readOperand f.a f.dA (s.begun.masking f.mask) = .ok (a, s1) → MWord.bad a = false →
    readOperand f.b f.dB s1 = .ok (b, s2) → MWord.bad b = false →
    w = g (gate (s.maskWord f.mask) a.bits) (gate (s.maskWord f.mask) b.bits) →
    locate f.c f.dC (s2.combined (s.maskWord f.mask) w) = .ok (l, s3) → s3.admits l →
    (f.mask.isSome = true → MWord.bad (s3.contents l) = false) →
    ∃ t, exec i s = .next t ∧
      t = (s3.stored l (MWord.good (merged (s.maskWord f.mask) (s3.contents l) w))).ended f.seq true ∧
      t.holds l (MWord.good (merged (s.maskWord f.mask) (s3.contents l) w)) ∧ t.ac = w ∧ t.acSign = s.acSign ∧
      (t.acState = .undefined ∨ t.acState = .printable) ∧ t.mr = (s.masking f.mask).mr ∧ (f.mask = none → t.lop = s.lop) ∧
      Ends s t f.seq (s.named f.a f.dA ++ s1.named f.b f.dB ++ s2.named f.c f.dC) l.words

/-- HA is the exclusive or and SM the inclusive or of the operands (R290, R291), one bit at a time. A whole-word shift moves bit `k` to bit
`k + n` end around (R370, SWS and SWE), one that keeps the sign does so among bits 5 to 48 (SPS and SPE); which of them protect C (R375 to R378). -/
def Obligations.LogicalAndShiftBits : Prop :=
  ∀ (f : Gen) (m : Fld) (a b : Word) (k : Nat), 1 ≤ k → k ≤ 48 →
    (∃ g, logicalRow (.ha f) = some (g, genForm f) ∧ logicalRow (.haM m) = some (g, fldForm m) ∧
      bitAt (g a b) k = (bitAt a k != bitAt b k)) ∧
    (∃ g, logicalRow (.sm f) = some (g, genForm f) ∧ logicalRow (.smM m) = some (g, fldForm m) ∧
      bitAt (g a b) k = (bitAt a k || bitAt b k)) ∧
    (∃ rot, shiftRow (.sws f) = some (rot, true, f) ∧ shiftRow (.swe f) = some (rot, false, f) ∧ rot = rotr48 ∧
      ∀ n, bitAt (rot a n) k = bitAt a ((((k : Int) - 1 - n) % 48).toNat + 1)) ∧
    (∃ rot, shiftRow (.sps f) = some (rot, true, f) ∧ shiftRow (.spe f) = some (rot, false, f) ∧
      ∀ n, bitAt (rot a n) k = if k < 5 then bitAt a k else bitAt a ((((k : Int) - 5 - n) % 44).toNat + 5))

/-- EX (R293). With an active C: the operand under the mask at C, unprotected, and in the low-order product register; A in the accumulator,
the mask in the mask register. With an inactive B the mask is what the mask register holds. A register as C leaves location 0 a free
value (R231, log 46). With an inactive C the result stays in the low-order product register, and A in the accumulator for a print (R460); nothing
is stored, and no hunt follows. -/
def Obligations.ExtractInstruction : Prop :=
  ∀ (f : Gen) (s s1 s2 : State) (a m : MWord),
    s.env = [] → s.mem.wf = true →
    extractSource f s.begun = .ok (a, s1) → MWord.bad a = false →
    extractMask f s1 = .ok (m, s2) → MWord.bad m = false →
    (f.b = inactiveGroup → m = MWord.good s.mr) ∧
    (f.c ≠ inactiveGroup → ∀ (l : Loc) (s3 : State),
      locate f.c f.dC (State.logical { s2 with mr := m.bits } a.bits (a.bits &&& m.bits) true) = .ok (l, s3) → s3.admits l →
      ∃ t, exec (.ex f) s = .next t ∧
        t = ((s3.stored l (MWord.good (a.bits &&& m.bits))).zeroSpoiled l).ended f.seq true ∧
        t.holds l (MWord.good (a.bits &&& m.bits)) ∧ t.ac = a.bits ∧ t.lop = a.bits &&& m.bits ∧ t.mr = m.bits ∧
        Ends s t f.seq (s.named f.a f.dA ++ s1.named f.b f.dB ++ s2.named f.c f.dC) (l.words ++ l.spoils)) ∧
    (f.c = inactiveGroup → f.dC = false →
      ∃ t, exec (.ex f) s = .next t ∧
        t = (State.logical { s2 with mr := m.bits } a.bits (a.bits &&& m.bits) true).ended f.seq false ∧
        t.ac = a.bits ∧ t.acState = .printable ∧ t.lop = a.bits &&& m.bits ∧ t.lopHeld = true ∧ t.mr = m.bits ∧ t.scan = none ∧
        Ends s t f.seq (s.named f.a f.dA ++ s1.named f.b f.dB) [])

/-- SS (R292): the bits of A where the mask B has ones and the old bits of C elsewhere, at C; A in the accumulator, the mask in the mask
register. -/
def Obligations.SubstituteInstruction : Prop :=
  ∀ (f : Gen) (s s1 s2 s3 : State) (a m : MWord) (l : Loc),
    s.env = [] → s.mem.wf = true → f.a ≠ inactiveGroup → f.b ≠ inactiveGroup → f.c ≠ inactiveGroup →
    readOperand f.a f.dA s.begun = .ok (a, s1) → MWord.bad a = false →
    readOperand f.b f.dB s1 = .ok (m, s2) → MWord.bad m = false →
    locate f.c f.dC { s2 with mr := m.bits } = .ok (l, s3) → s3.admits l → MWord.bad (s3.contents l) = false →
    ∃ t, exec (.ss f) s = .next t ∧
      t.holds l (MWord.good (protect a.bits m.bits (s3.contents l).bits)) ∧ t.ac = a.bits ∧ t.mr = m.bits ∧
      t.lop = protect a.bits m.bits (s3.contents l).bits ∧
      Ends s t f.seq (s.named f.a f.dA ++ s1.named f.b f.dB ++ s2.named f.c f.dC) (l.words ++ l.spoils)

/-- SWS, SPS, SWE and SPE (R370, R371, R375 to R378): A rotated right by the count of B, all of it or its low-order 44 bits, then put under
the shift mask; C keeps its other bits, or loses them. The bits of a rotation are those of `LogicalAndShiftBits`. -/
def Obligations.ShiftInstructions : Prop :=
  ∀ (i : Instr) (rot : Word → Nat → Word) (keep : Bool) (f : Gen) (s s1 s3 : State) (a : MWord) (l : Loc) (w : Word),
    shiftRow i = some (rot, keep, f) → s.env = [] → s.mem.wf = true →
    f.a ≠ inactiveGroup → f.b ≠ inactiveGroup → f.dB = false → f.c ≠ inactiveGroup →
    readOperand f.a f.dA s.begun = .ok (a, s1) → MWord.bad a = false → s1.shiftMaskReady f.b →
    locate f.c f.dC { s1 with mr := s1.shiftMask f.b } = .ok (l, s3) → s3.admits l →
    (keep = true → MWord.bad (s3.contents l) = false) →
    w = protect (rot a.bits (shiftCount f.b)) (s1.shiftMask f.b) (if keep then (s3.contents l).bits else 0#48) →
    ∃ t, exec i s = .next t ∧
      t = ((State.stored (s3.logical (rot a.bits (shiftCount f.b)) w true) l (MWord.good w)).zeroSpoiled l).ended f.seq true ∧
      t.holds l (MWord.good w) ∧ t.ac = rot a.bits (shiftCount f.b) ∧ t.lop = w ∧
      t.mr = s1.shiftMask f.b ∧ Ends s t f.seq (s.named f.a f.dA ++ s1.named f.c f.dC) (l.words ++ l.spoils)

/-- SSL (R379): the count in the low-order 11 bits of the rotated and masked word is added to the address C, which becomes the new contents
of the counter the bisequence bit names; the selecting counter goes into its history register; nothing is stored and no hunt follows. The
rotated word stays in the accumulator for a print (R460). The low-order product register is left a free value: the model's choice (log 23). The bits of
the rotation are those of `LogicalAndShiftBits`. With an operand or a mask of bad parity, the unprogrammed transfer to U + 2: the history register and the
bisequence bit have changed all the same, and the counter itself has not. That a register which C names is stepped all the same is the model's
choice (log 55). -/
def Obligations.ShiftAndSelect : Prop :=
  ∀ (f : Gen) (s s1 s3 : State) (a : MWord) (r : SReg) (k : Nat),
    s.env = [] → f.a ≠ inactiveGroup → f.b ≠ inactiveGroup → f.dB = false → f.c ≠ inactiveGroup →
    readOperand f.a f.dA s.begun = .ok (a, s1) →
    (MWord.bad a = false → s1.shiftMaskReady f.b → k = (fld (rotr48 a.bits (shiftCount f.b) &&& s1.shiftMask f.b) 38 48).toNat →
      selectTarget f.c f.dC k (ctrOf f.seq)
        (State.logical { s1 with mr := s1.shiftMask f.b, free := s1.free + 1 } (rotr48 a.bits (shiftCount f.b))
          (Config.freeWord s1.free) false) = .ok (r, s3) →
      ∃ t, exec (.ssl f) s = .next t ∧ t = s3.jumped (ctrOf f.seq) r ∧ t.scan = none ∧
        t.ac = rotr48 a.bits (shiftCount f.b) ∧ t.acState = .printable ∧
        t.reg s.cur (ctrOf f.seq).ix = r ∧
        ((s.cur, s.sel.ix) ∉ s.named f.a f.dA ++ s1.selectNamed f.c f.dC k →
          t.reg s.cur (ctrOf f.seq).hist = { s.reg s.cur s.sel.ix with tag := .good }) ∧
        (f.dC = false → bitAt f.c 1 = false →
          r = SReg.mk' s.ctl.arr s.ctl.sign ((fld s.ctl.bits 2 5).toNat * 2048 + ((fld f.c 2 12).toNat + k) % 2048)) ∧
        Ends s t f.seq (s.named f.a f.dA ++ s1.selectNamed f.c f.dC k ++ s.sequencers f.seq (some r)) []) ∧
    (∀ (m : MWord) (s2 : State), loadMask (fun x => shiftMaskAddress x f.b) s1 = .ok (m, s2) → (MWord.bad a || MWord.bad m) = true →
      k = (fld (rotr48 a.bits (shiftCount f.b) &&& m.bits) 38 48).toNat →
      selectTarget f.c f.dC k (ctrOf f.seq)
        (State.logical { s2 with free := s2.free + 1 } (rotr48 a.bits (shiftCount f.b)) (Config.freeWord s2.free) false) = .ok (r, s3) →
      (s3.historied (ctrOf f.seq)).canTransfer →
      ∃ t, exec (.ssl f) s = .next t ∧ t = (s3.historied (ctrOf f.seq)).transferred utParity (.ssl f) ∧ t.scan = none ∧
        t.reg s.cur (ctrOf f.seq).hist = { s3.reg s.cur s.sel.ix with tag := .good } ∧
        t.reg s.cur (ctrOf f.seq).ix = s3.reg s.cur (ctrOf f.seq).ix ∧ t.pcr = setBitAt s.pcr (21 + s.cur.toNat) f.seq ∧
        Frame s t (s.named f.a f.dA ++ s1.selectNamed f.c f.dC k ++ [(s.cur, (ctrOf f.seq).hist)])
          [(s3.reg s.cur utrIx).full + if s.sel = .csc then 1 else 0])

/-! ### Transfers -/

/-- TX, masked or not (R310): the word A at C, and a hunt follows; the accumulator is left undefined, a free value (log 23). -/
def Obligations.TransferInstruction : Prop :=
  ∀ (i : Instr) (f : Form) (s s1 s3 : State) (w : MWord) (l : Loc),
    transferRow i = some f → s.env = [] → s.mem.wf = true → f.a ≠ inactiveGroup → f.c ≠ inactiveGroup →
    (f.b = inactiveGroup → f.dB = false) → s.begun.noAc.maskReady f.mask →
    readOperand f.a f.dA (s.begun.noAc.masking f.mask) = .ok (w, s1) → MWord.bad w = false →
    locate f.c f.dC s1 = .ok (l, s3) → s3.admits l → (f.mask.isSome = true → MWord.bad (s3.contents l) = false) →
    ∃ t, exec i s = .next t ∧
      t = (s3.stored l (MWord.good (merged (s.maskWord f.mask) (s3.contents l) w.bits))).ended f.seq true ∧
      t.holds l (MWord.good (merged (s.maskWord f.mask) (s3.contents l) w.bits)) ∧ t.acState = .undefined ∧
      t.mr = (s.masking f.mask).mr ∧ Ends s t f.seq (s.named f.a f.dA ++ s1.named f.c f.dC) l.words

/-- TS, masked or not, with A and B active (R311, R322): the word A at B, then the sequence change through C, evaluated after the store;
with an inactive C no sequence change. No hunt follows. With a parity failure of the operand, of the mask, or of what a masked store protects (R323), the
word is stored, the history register and the bisequence bit change, but not the counter, and the unprogrammed transfer is made to U + 2; with an
inactive C the bisequence bit alone. That a C which names the very counter to be changed writes the history register too is the model's choice
(log 70), as is that a register which C names is stepped in spite of the failure (log 55). -/
def Obligations.TransferAndSequence : Prop :=
  ∀ (i : Instr) (f : Form) (s s1 s2 : State) (w : MWord) (l : Loc),
    sequenceRow i = some f → s.env = [] → s.mem.wf = true → f.a ≠ inactiveGroup → f.b ≠ inactiveGroup →
    (s.begun.maskReady f.mask → readOperand f.a f.dA (s.begun.masking f.mask).noAc = .ok (w, s1) → MWord.bad w = false →
      locate f.b f.dB s1 = .ok (l, s2) → s2.admits l → (f.mask.isSome = true → MWord.bad (s2.contents l) = false) →
      ∀ (s3 : State) (r : Option SReg), sequenceTarget f.c f.dC (ctrOf f.seq)
        (s2.stored l (MWord.good (merged (s.maskWord f.mask) (s2.contents l) w.bits))) = .ok (r, s3) →
      ∃ t, exec i s = .next t ∧ t = s3.sequenced f.seq r ∧ t.scan = none ∧
        (∀ a, l = .mem a → t.holds l (MWord.good (merged (s.maskWord f.mask) (s2.contents l) w.bits))) ∧
        (∀ q, r = some q → t.reg s.cur (ctrOf f.seq).ix = q) ∧
        (∀ q, r = some q → t.reg s.cur (ctrOf f.seq).hist = { s3.reg s.cur s.sel.ix with tag := .good }) ∧
        Ends s t f.seq (s.named f.a f.dA ++ s1.named f.b f.dB ++ l.regs ++
          (s2.stored l (MWord.good (merged (s.maskWord f.mask) (s2.contents l) w.bits))).named f.c f.dC ++ s.sequencers f.seq r) l.words) ∧
    (∀ (m : Option MWord) (s0 u : State), maskOf f.mask s.begun = .ok (m, s0) → readOperand f.a f.dA s0.noAc = .ok (w, s1) →
      locate f.b f.dB s1 = .ok (l, s2) → s2.admits l → u = s2.stored l (copied m (s2.contents l) w) →
      (maskBad m || MWord.bad w || (m.isSome && MWord.bad (s2.contents l))) = true →
      (f.c ≠ inactiveGroup → ∀ (s3 : State) (r : Option SReg), sequenceTarget f.c f.dC (ctrOf f.seq) u = .ok (r, s3) →
        (s3.historied (ctrOf f.seq)).canTransfer →
        ∃ t, exec i s = .next t ∧ t = (s3.historied (ctrOf f.seq)).transferred utParity i ∧ u.holds l (copied m (s2.contents l) w) ∧
          t.reg s.cur (ctrOf f.seq).hist = { s3.reg s.cur s.sel.ix with tag := .good } ∧
          t.reg s.cur (ctrOf f.seq).ix = s3.reg s.cur (ctrOf f.seq).ix ∧ t.pcr = setBitAt s.pcr (21 + s.cur.toNat) f.seq ∧ t.scan = none ∧
          Frame s t (s.named f.a f.dA ++ s1.named f.b f.dB ++ l.regs ++ u.named f.c f.dC ++ [(s.cur, (ctrOf f.seq).hist)])
            (l.words ++ [(s3.reg s.cur utrIx).full + if s.sel = .csc then 1 else 0])) ∧
      (f.c = inactiveGroup → f.dC = false → (u.ended f.seq false).canTransfer →
        ∃ t, exec i s = .next t ∧ t = (u.ended f.seq false).transferred utParity i ∧ u.holds l (copied m (s2.contents l) w) ∧
          t.pcr = setBitAt s.pcr (21 + s.cur.toNat) f.seq ∧ t.scan = none ∧
          Frame s t (s.named f.a f.dA ++ s1.named f.b f.dB ++ l.regs)
            (l.words ++ [(u.reg s.cur utrIx).full + if s.sel = .csc then 1 else 0])))

/-- TS with one operand inactive (R223, R230, R311, R322). With an inactive B the word A is left in the low-order product register, from where it may be
retrieved, and in the accumulator, for a print (R460). R311 gives only the unmasked case: that a masked TS leaves the word under its mask, zeros elsewhere,
is the model's choice (log 24). With an inactive A the low-order product register, left there by the instruction just before, and for a masked one under
the same mask, goes to B. That it is not put under the mask a second time is the model's choice (log 24). Then the sequence change through C, and no hunt:
that a C which names the very counter to be changed writes the history register too is the model's choice (log 70). -/
def Obligations.TransferThroughRegister : Prop :=
  ∀ (i : Instr) (f : Form) (s : State),
    sequenceRow i = some f → s.env = [] → s.mem.wf = true → s.begun.maskReady f.mask →
    (f.a ≠ inactiveGroup → f.b = inactiveGroup → f.dB = false → ∀ (s1 s3 : State) (w : MWord) (r : Option SReg),
      readOperand f.a f.dA (s.begun.masking f.mask) = .ok (w, s1) → MWord.bad w = false →
      sequenceTarget f.c f.dC (ctrOf f.seq) (s1.captured (s.maskWord f.mask) (gate (s.maskWord f.mask) w.bits)) = .ok (r, s3) →
      ∃ t, exec i s = .next t ∧ t = s3.sequenced f.seq r ∧ t.scan = none ∧ t.lop = gate (s.maskWord f.mask) w.bits ∧ t.lopHeld = true ∧
        t.ac = gate (s.maskWord f.mask) w.bits ∧ t.acState = .printable ∧ t.heldMask = (s.maskWord f.mask).map (·.bits) ∧
        Ends s t f.seq (s.named f.a f.dA ++ s1.named f.c f.dC ++ s.sequencers f.seq r) []) ∧
    (f.a = inactiveGroup → f.dA = false → f.b ≠ inactiveGroup →
      s.lopHeld = true → (f.mask = none ∨ s.heldMask = (s.maskWord f.mask).map (·.bits)) →
      ∀ (s2 s3 : State) (l : Loc) (r : Option SReg),
      locate f.b f.dB (s.begun.masking f.mask).noAc = .ok (l, s2) → s2.admits l →
      (f.mask.isSome = true → MWord.bad (s2.contents l) = false) →
      sequenceTarget f.c f.dC (ctrOf f.seq)
        (s2.stored l (MWord.good (merged (s.maskWord f.mask) (s2.contents l) s.lop))) = .ok (r, s3) →
      ∃ t, exec i s = .next t ∧ t = s3.sequenced f.seq r ∧ t.scan = none ∧
        (∀ a, l = .mem a → t.holds l (MWord.good (merged (s.maskWord f.mask) (s2.contents l) s.lop))) ∧
        Ends s t f.seq (s.named f.b f.dB ++ l.regs ++
          (s2.stored l (MWord.good (merged (s.maskWord f.mask) (s2.contents l) s.lop))).named f.c f.dC ++ s.sequencers f.seq r) l.words)

/-- MT (R312): as many transfers as the count of B, both address groups evaluated again each time: `σ k` is the state before transfer `k`,
`ρ k` after its reading, `τ k` once its destination `l k` is known. That a B of 7777 is a count of 63 and that a designator of B, but with 7777, is
ignored is the model's choice (log 26). -/
def Obligations.MultipleTransfer : Prop :=
  ∀ (f : Gen) (s : State) (n : Nat) (σ ρ τ : Nat → State) (w : Nat → MWord) (l : Nat → Loc),
    s.env = [] → s.mem.wf = true → f.a ≠ inactiveGroup → f.c ≠ inactiveGroup → (f.b = inactiveGroup → f.dB = false) →
    (fld f.b 1 6).toNat = n → σ 0 = s.begun.noAc →
    (∀ k, k < n → readOperand f.a f.dA (σ k) = .ok (w k, ρ k) ∧ MWord.bad (w k) = false ∧
      locate f.c f.dC (ρ k) = .ok (l k, τ k) ∧ (τ k).admits (l k) ∧ σ (k + 1) = (τ k).stored (l k) (w k)) →
    ∃ t, exec (.mt f) s = .next t ∧ t = (σ n).ended f.seq true ∧
      (0 < n → t.holds (l (n - 1)) (w (n - 1))) ∧
      (∀ k a, k < n → l k = .mem a → (∀ j, k < j → j < n → l j ≠ .mem a) → t.holds (.mem a) (w k)) ∧
      t.pcr = setBitAt s.pcr (21 + s.cur.toNat) f.seq ∧ t.outside = s.outside ∧
      (∀ h j, (∀ k, k < n → (h, j) ∉ (σ k).named f.a f.dA ++ (ρ k).named f.c f.dC) → t.reg h j = s.reg h j) ∧
      (∀ b, (∀ k, k < n → b / 8 ∉ (l k).words) → t.mem.byte b = s.mem.byte b)

/-- TN (R313, R320): AU1 and AU2 are loaded from A and C and step after each word; `σ k` is the state before word `k`, which is `w k` and goes
to `lc k`, there as `x k`: the same word, but a free one where a subaddress has been stepped past its highest value (U14): that the reference is
then the indirect one of R197 all the same is the model's choice (log 31), as is that a count of zero loads the counters too (log 30), and that a B
of 7777 is a count of 63 and a designator of B, but with 7777, is ignored (log 26). With extended memory, that a counter of special register addresses is
loaded with the array bit zero is its choice too (log 69). -/
def Obligations.GroupTransfer : Prop :=
  ∀ (f : Gen) (s u v : State) (n : Nat) (ra rc : Bool) (a c : SReg) (σ β γ ε δ : Nat → State) (w x : Nat → MWord) (lc : Nat → Loc),
    s.env = [] → s.mem.wf = true → (f.b = inactiveGroup → f.dB = false) → (fld f.b 1 6).toNat = n →
    auInit f.a f.dA s.begun.noAc = .ok (some (ra, a), u) →
    auInit f.c f.dC (u.setReg s.cur au1 a) = .ok (some (rc, c), v) → σ 0 = v.setReg s.cur au2 c →
    (∀ k, k < n → auRead ra au1 (σ k) = .ok (w k, β k) ∧ MWord.bad (w k) = false ∧ auLoc rc au2 (β k) = .ok (lc k, γ k) ∧
      referred ((β k).overflowed rc au2) (w k) (γ k) = .ok (x k, ε k) ∧
      (ε k).admits (lc k) ∧ nextAu au1 ((ε k).stored (lc k) (x k)) = .ok ((), δ k) ∧ nextAu au2 (δ k) = .ok ((), σ (k + 1))) →
    ∃ t, exec (.tn f) s = .next t ∧ t = (σ n).ended f.seq true ∧
      (∀ k, k < n → (β k).overflowed rc au2 = false → x k = w k) ∧
      (∀ k a, k < n → lc k = .mem a → (∀ j, k < j → j < n → lc j ≠ .mem a) → t.holds (.mem a) (x k)) ∧
      t.pcr = setBitAt s.pcr (21 + s.cur.toNat) f.seq ∧ t.outside = s.outside ∧
      (∀ h j, (h, j) ∉ s.named f.a f.dA ++ [(s.cur, au1), (s.cur, au2)] ++ (u.setReg s.cur au1 a).named f.c f.dC →
        (∀ k, k < n → (h, j) ∉ (σ k).auNamed ra au1 ++ (β k).auNamed rc au2) → t.reg h j = s.reg h j) ∧
      (∀ b, (∀ k, k < n → b / 8 ∉ (lc k).words) → t.mem.byte b = s.mem.byte b)

/-- RT and IT (R330, R333): an end-of-record word, or an end-of-item word, is stored at B, then words are transferred from A on to C on, up to
and with the first end-of-record word (or, for IT, end-of-item word): word `n`; until then neither counter is at a stopper. `σ k` is the state
before word `k`. -/
def Obligations.RecordTransfer : Prop :=
  ∀ (item : Bool) (f : Gen) (s s1 s2 u v : State) (lb : Loc) (n : Nat) (a c : SReg) (last : Word) (stop : Word → Bool)
    (σ δ : Nat → State) (w : Nat → MWord),
    s.env = [] → s.mem.wf = true → f.b ≠ inactiveGroup →
    last = (if item then 0xAA00EEEE0000#48 else eorWord) → stop = (if item then isEoi else isEor) →
    locate f.b f.dB s.begun.noAc = .ok (lb, s1) → s1.admits lb → s2 = s1.stored lb (MWord.good last) →
    auInit f.a f.dA s2 = .ok (some (false, a), u) →
    auInit f.c f.dC (u.setReg s.cur au1 a) = .ok (some (false, c), v) → σ 0 = v.setReg s.cur au2 c → n < recordFuel →
    (∀ k, k ≤ n → ((σ k).reg s.cur au1).tag = .good ∧ (σ k).exists? ((σ k).reg s.cur au1).full = true ∧
      w k = (σ k).mem.word ((σ k).reg s.cur au1).full ∧ MWord.bad (w k) = false ∧
      ((σ k).reg s.cur au2).tag = .good ∧ (σ k).admits (.mem ((σ k).reg s.cur au2).full) ∧
      nextAu au1 ((σ k).putWord ((σ k).reg s.cur au2).full (w k)) = .ok ((), δ k) ∧ nextAu au2 (δ k) = .ok ((), σ (k + 1))) →
    (∀ k, k < n → stop (w k).bits = false ∧ (σ k).atStopper ((σ k).reg s.cur au1) = false ∧ (σ k).atStopper ((σ k).reg s.cur au2) = false) →
    stop (w n).bits = true →
    ∃ t, exec (if item then .it f else .rt f) s = .next t ∧ t = (σ (n + 1)).ended f.seq true ∧
      t.holds (.mem ((σ n).reg s.cur au2).full) (w n) ∧
      t.pcr = setBitAt s.pcr (21 + s.cur.toNat) f.seq ∧ t.outside = s.outside ∧
      (∀ h j, (h, j) ∉ s.named f.b f.dB ++ s2.named f.a f.dA ++ [(s.cur, au1), (s.cur, au2)] ++
        (u.setReg s.cur au1 a).named f.c f.dC → t.reg h j = s.reg h j) ∧
      (∀ b, b / 8 ∉ lb.words → (∀ k, k ≤ n → b / 8 ≠ ((σ k).reg s.cur au2).full) → t.mem.byte b = s.mem.byte b)

/-! ### Decisions -/

/-- The decision instructions and the comparisons FLN and FNN, masked or not (R350, R355 to R358, R580, R581): with the condition met, a
sequence change through C (none where C is inactive); else the next instruction follows the bisequence bit, with a hunt unless C is inactive.
Nothing is stored, and nothing can be delivered from the accumulator afterwards. That a C which names the very counter to be changed writes the history
register too is the model's choice (log 70). -/
def Obligations.DecisionInstructions : Prop :=
  ∀ (i : Instr) (cond : Word → Word → Bool) (f : Form) (s s1 s2 : State) (a b : MWord),
    decisionRow i = some (cond, f) → s.env = [] → f.a ≠ inactiveGroup → f.b ≠ inactiveGroup → s.begun.decided.maskReady f.mask →
    readOperand f.a f.dA (s.begun.decided.masking f.mask) = .ok (a, s1) → MWord.bad a = false →
    readOperand f.b f.dB s1 = .ok (b, s2) → MWord.bad b = false →
    (cond (gate (s.maskWord f.mask) a.bits) (gate (s.maskWord f.mask) b.bits) = true →
      ∀ r s3, sequenceTarget f.c f.dC (ctrOf f.seq) s2 = .ok (r, s3) →
        ∃ t, exec i s = .next t ∧ t = s3.sequenced f.seq r ∧ t.scan = none ∧ t.acState = .spent ∧
          (∀ q, r = some q → t.reg s.cur (ctrOf f.seq).ix = q) ∧
          (∀ q, r = some q → t.reg s.cur (ctrOf f.seq).hist = { s3.reg s.cur s.sel.ix with tag := .good }) ∧
          Ends s t f.seq (s.named f.a f.dA ++ s1.named f.b f.dB ++ s2.named f.c f.dC ++ s.sequencers f.seq r) []) ∧
    (cond (gate (s.maskWord f.mask) a.bits) (gate (s.maskWord f.mask) b.bits) = false →
      (f.c = inactiveGroup → f.dC = false) →
        ∃ t, exec i s = .next t ∧ t = s2.ended f.seq (f.c != inactiveGroup) ∧ t.acState = .spent ∧
          Ends s t f.seq (s.named f.a f.dA ++ s1.named f.b f.dB) [])

/-- The conditions of the decision instructions. Alphabetic (R352, stated whole): a bit-by-bit comparison of all 48 bits, in the order of the
words as unsigned numbers; masked, `a and m` against `b and m`, which is what `DecisionInstructions` gives to the condition. Beside it the
numeric ones (R351): signed numbers in which plus and minus zero are equal; and those of the comparisons of the basic processor: FLN by sign,
then exponent, then mantissa (R580), FNN by the 48 bits (R581). -/
def Obligations.DecisionConditions : Prop :=
  ∀ (f : Gen) (m : Fld) (a b : Word),
    decisionRow (.na f) = some (alphaNe, genForm f) ∧ decisionRow (.naM m) = some (alphaNe, fldForm m) ∧
    decisionRow (.la f) = some (alphaLe, genForm f) ∧ decisionRow (.laM m) = some (alphaLe, fldForm m) ∧
    decisionRow (.nn f) = some (numNe, genForm f) ∧ decisionRow (.nnM m) = some (numNe, fldForm m) ∧
    decisionRow (.ln f) = some (numLe, genForm f) ∧ decisionRow (.lnM m) = some (numLe, fldForm m) ∧
    decisionRow (.fln f) = some (floatLe, genForm f) ∧ decisionRow (.fnn f) = some (alphaNe, genForm f) ∧
    (alphaNe a b = true ↔ ∃ n, 1 ≤ n ∧ n ≤ 48 ∧ bitAt a n ≠ bitAt b n) ∧
    (alphaLe a b = true ↔ a.toNat ≤ b.toNat) ∧
    gate none a = a ∧ (∀ k : MWord, gate (some k) a = a &&& k.bits) ∧
    (numNe a b = false ↔ mag a = mag b ∧ (posSign a = posSign b ∨ mag a = 0)) ∧
    (numLe a b = true ↔ (posSign a = true ∧ posSign b = true ∧ mag a ≤ mag b) ∨ (posSign a = false ∧ posSign b = false ∧ mag b ≤ mag a) ∨
      (posSign a = false ∧ posSign b = true) ∨ (mag a = 0 ∧ mag b = 0)) ∧
    (floatLe a b = true ↔ (bitAt a 1 = false ∧ bitAt b 1 = true) ∨
      (bitAt a 1 = true ∧ bitAt b 1 = true ∧ (exponent a < exponent b ∨ exponent a = exponent b ∧ mantissa a ≤ mantissa b)) ∨
      (bitAt a 1 = false ∧ bitAt b 1 = false ∧ (exponent b < exponent a ∨ exponent a = exponent b ∧ mantissa b ≤ mantissa a)))

/-- A decision, masked or not, whose mask or operands fail their parity (R230, R353): the unprogrammed transfer to U + 2. Where the condition is
met and C active, the history register and the bisequence bit have changed as if C had been used, and the counter itself has not; otherwise the
bisequence bit alone. That a register which C names is stepped all the same is the model's choice (log 55), as is that a C which names the very counter
to be changed writes the history register too (log 70). -/
def Obligations.DecisionParity : Prop :=
  ∀ (i : Instr) (cond : Word → Word → Bool) (f : Form) (s s0 s1 s2 : State) (m : Option MWord) (a b : MWord),
    decisionRow i = some (cond, f) → s.env = [] → f.a ≠ inactiveGroup → f.b ≠ inactiveGroup →
    maskOf f.mask s.begun.decided = .ok (m, s0) →
    readOperand f.a f.dA s0 = .ok (a, s1) → readOperand f.b f.dB s1 = .ok (b, s2) →
    (maskBad m || MWord.bad a || MWord.bad b) = true →
    (cond (gate m a.bits) (gate m b.bits) = true → f.c ≠ inactiveGroup →
      ∀ r s3, sequenceTarget f.c f.dC (ctrOf f.seq) s2 = .ok (r, s3) → (s3.historied (ctrOf f.seq)).canTransfer →
      ∃ t, exec i s = .next t ∧ t = (s3.historied (ctrOf f.seq)).transferred utParity i ∧
        t.reg s.cur (ctrOf f.seq).hist = { s3.reg s.cur s.sel.ix with tag := .good } ∧
        t.reg s.cur (ctrOf f.seq).ix = s3.reg s.cur (ctrOf f.seq).ix ∧ t.pcr = setBitAt s.pcr (21 + s.cur.toNat) f.seq ∧
        (∀ h j, (h, j) ∉ s.named f.a f.dA ++ s1.named f.b f.dB ++ s2.named f.c f.dC ++ [(s.cur, (ctrOf f.seq).hist)] →
          t.reg h j = s.reg h j)) ∧
    (cond (gate m a.bits) (gate m b.bits) = false ∨ f.c = inactiveGroup → (f.c = inactiveGroup → f.dC = false) →
      (s2.ended f.seq false).canTransfer →
      ∃ t, exec i s = .next t ∧ t = (s2.ended f.seq false).transferred utParity i ∧ t.pcr = setBitAt s.pcr (21 + s.cur.toNat) f.seq ∧
        (∀ h j, (h, j) ∉ s.named f.a f.dA ++ s1.named f.b f.dB → t.reg h j = s.reg h j))

/-- CP, masked or not (R500, R501): the word A, whole, goes to B with good parity; if a frame of it has bad parity, or, for a mask of complete
frames, a frame that the mask covers, the sequence changes through C, else a hunt follows unless C is inactive. The hunt is decision D45, the
bits of each frame are D46, and that the whole word goes to B under a mask too is left open (U54): the model's readings (log 50). That a C which names the
very counter to be changed writes the history register too is its choice (log 70). -/
def Obligations.CheckParityInstruction : Prop :=
  ∀ (i : Instr) (f : Form) (s s1 s2 : State) (w : MWord) (l : Loc) (bad : Bool),
    checkRow i = some f → s.env = [] → s.mem.wf = true → f.a ≠ inactiveGroup → f.b ≠ inactiveGroup → s.begun.noAc.maskReady f.mask →
    readOperand f.a f.dA (s.begun.noAc.masking f.mask) = .ok (w, s1) →
    bad = (match s.maskWord f.mask with
      | none => w.perr != 0#6
      | some m => badFrame m.bits w.perr) →
    (∀ m, s.maskWord f.mask = some m → isFrameMask m.bits = true) →
    locate f.b f.dB s1 = .ok (l, s2) → s2.admits l →
    (bad = true → ∀ r s3, sequenceTarget f.c f.dC (ctrOf f.seq) (s2.stored l (MWord.good w.bits)) = .ok (r, s3) →
      ∃ t, exec i s = .next t ∧ t = s3.sequenced f.seq r ∧ t.scan = none ∧
        (∀ a, l = .mem a → t.holds l (MWord.good w.bits)) ∧
        Ends s t f.seq (s.named f.a f.dA ++ s1.named f.b f.dB ++ l.regs ++ (s2.stored l (MWord.good w.bits)).named f.c f.dC ++
          s.sequencers f.seq r) l.words) ∧
    (bad = false → (f.c = inactiveGroup → f.dC = false) →
      ∃ t, exec i s = .next t ∧ t = (s2.stored l (MWord.good w.bits)).ended f.seq (f.c != inactiveGroup) ∧
        t.holds l (MWord.good w.bits) ∧ Ends s t f.seq (s.named f.a f.dA ++ s1.named f.b f.dB) (l.words))

/-! ### Control program, proceed, simulator -/

/-- PR (R480): no operation; the group goes on with the same counter, and a hunt follows unless C is 7777. The arithmetic registers keep what
they hold, but it cannot be retrieved after it: read from U3 and U48 by inference (log 25). -/
def Obligations.ProceedInstruction : Prop :=
  ∀ (f : Prc) (s : State), f.bit4 = false →
    ∃ t, exec (.pr f) s = .next t ∧ t = s.begun.intervened.hunted (f.c != inactiveGroup) ∧ t.mem = s.mem ∧ t.regs = s.regs ∧
      t.pcr = s.pcr ∧ t.ac = s.ac ∧ t.lop = s.lop ∧ t.mr = s.mr ∧ t.outside = s.outside ∧
      (f.c = inactiveGroup → t.scan = none) ∧ (f.c ≠ inactiveGroup → s.limited = none → t.scan = some (s.cur + 1))

/-- MPC with function codes 0000 to 0111 (R470): the PCR as it was is delivered; then the demand and bisequence bits follow Figure XII-2, the
executing group's own bisequence bit taking command code bit 1, and no other bit of the PCR changes; a hunt follows if command code bit 5 is
one, and with it what an inactive C delivered can no longer be retrieved (R43). A group turned off is no longer among the stalled ones (R631).
That the hunt looks at the demand bits as they were is R474 (log 44). -/
def Obligations.ControlFunctions : Prop :=
  ∀ (f : Mpc) (s u : State) (words : List Nat),
    controlAddressOk f = true → bitAt f.b 1 = false → s.env = [] → s.controlDelivered f u words → s.mem.wf = true →
    ∃ t, exec (.mpc f) s = .next t ∧
      (∀ g, t.inDemand g = demandAfter (fld f.b 1 4).toNat (controlBit f.b g) (g == s.cur) (s.inDemand g)) ∧
      (∀ g, t.bis g = if g = s.cur then f.seq else bisequenceAfter (fld f.b 1 4).toNat (controlBit f.b g) (s.bis g)) ∧
      (∀ n, 1 ≤ n → n ≤ 48 → (n < 21 ∨ 36 < n) → bitAt t.pcr n = bitAt s.pcr n) ∧
      (f.hunt = false → t.scan = none) ∧
      (f.hunt = true → u.limited = none → t.scan = some ((u.scanFrom (s.cur + 1)).getD (s.cur + 1)) ∧ t.lopHeld = false) ∧
      (∀ a, a ∈ words → t.holds (.mem a) (MWord.good s.pcr)) ∧
      (words = [] → t.ac = s.pcr ∧ t.lop = s.pcr ∧ (f.hunt = false → t.lopHeld = true ∧ t.acState = .held .unsigned)) ∧
      (∀ g, s.inDemand g = true → (g ∈ t.stallOrder ↔ g ∈ s.stallOrder ∧ t.inDemand g = true)) ∧
      t.outside = { s.outside with stallOrder := t.stallOrder } ∧ Frame s t (s.named f.c f.dC) words

/-- MPC with function code 1000 (R472): the PCR as it was is delivered; group 0 or 2 is put in demand under its sequence counter and takes
control at once, so that what an inactive C delivered can no longer be retrieved (R43); the caller keeps its demand bit if its own bit of B is
one, else it is turned off. That its bisequence bit then takes command code bit 1 is a sentence of R472 that the spec marks as derived (log 44). -/
def Obligations.ControlHandOver : Prop :=
  ∀ (f : Mpc) (s u : State) (words : List Nat) (g : BitVec 3),
    controlAddressOk f = true → fld f.b 1 4 = 0b1000#4 → controlTarget f.b = some g → s.cur ≠ 0#3 → s.cur ≠ 2#3 →
    s.inDemand g = false → s.env = [] → s.controlDelivered f u words → s.mem.wf = true → u.limited = none →
    ∃ t, exec (.mpc f) s = .next t ∧ t.cur = g ∧ t.inDemand g = true ∧ t.bis g = false ∧ t.scan = none ∧
      t.inDemand s.cur = (controlBit f.b s.cur && s.inDemand s.cur) ∧
      t.bis s.cur = (if controlBit f.b s.cur then f.seq else s.bis s.cur) ∧
      (∀ h, h ≠ g → h ≠ s.cur → t.inDemand h = s.inDemand h ∧ t.bis h = s.bis h) ∧
      (∀ n, 1 ≤ n → n ≤ 48 → (n < 18 ∨ 36 < n) → bitAt t.pcr n = bitAt s.pcr n) ∧
      (∀ a, a ∈ words → t.holds (.mem a) (MWord.good s.pcr)) ∧ (words = [] → t.ac = s.pcr ∧ t.lop = s.pcr) ∧ t.lopHeld = false ∧
      (∀ h, s.inDemand h = true → (h ∈ t.stallOrder ↔ h ∈ s.stallOrder ∧ t.inDemand h = true)) ∧
      t.outside = { s.outside with stallOrder := t.stallOrder } ∧ Frame s t (s.named f.c f.dC) words

/-- S, direct or indexed (R490): the instruction is stored at the address in its command code; AU1 and AU2 take the addresses of A and C; the
cosequence counter is set to the next location and selects, the selecting counter going into the cosequence history register; no hunt
follows, as R490 has it in a sentence the spec marks as derived. That an A or C of 7777 is index register 7 with augmenter 255 is the model's
reading, on which U51 lets no proof of the machine rely (log 51). -/
def Obligations.SimulatorInstruction : Prop :=
  ∀ (indexed : Bool) (f : Sim) (s s1 s2 s3 : State) (p a c : SReg),
    s.env = [] → s.mem.wf = true → s.byUtr = false →
    plainAddress (simGroup indexed f.addr) s.begun.noAc = .ok (p, s1) → plainAddress f.a s1 = .ok (a, s2) →
    plainAddress f.c s2 = .ok (c, s3) → p.tag = .good → p.addr + 1 < 32768 → s3.admits (.mem p.full) →
    ∃ t, exec (if indexed then .sIdx f else .sDir f) s = .next t ∧
      t.holds (.mem p.full) (MWord.good (encode s.cfg.opmap (if indexed then .sIdx f else .sDir f))) ∧
      t.reg s.cur au1 = a ∧ t.reg s.cur au2 = c ∧ t.reg s.cur Ctr.csc.ix = SReg.mk' p.arr true (p.addr + 1) ∧
      t.reg s.cur Ctr.csc.hist = { s.reg s.cur s.sel.ix with tag := .good } ∧ t.scan = none ∧
      (indexed = false → p = s.direct (simGroup false f.addr)) ∧ (bitAt f.a 1 = false → a = s.direct f.a) ∧
      (bitAt f.c 1 = false → c = s.direct f.c) ∧
      Ends s t true [(s.cur, au1), (s.cur, au2), (s.cur, Ctr.csc.hist), (s.cur, Ctr.csc.ix)] [p.full]

/-- CC (R495): the words from A on are half added alternately into two words of ones, up to the first end-of-record word, word `n`; with an
active B each end-of-item word takes the next counter from the table AU2 steps through. The two orthowords and an end-of-record word go to C
and the two words after it. That the addresses of CC are taken as positive counters is the model's choice (log 48). -/
def Obligations.OrthocountInstruction : Prop :=
  ∀ (f : Gen) (s s1 s2 : State) (a0 c0 a c : SReg) (n : Nat) (table : Option Bool) (σ δ : Nat → State) (w : Nat → MWord)
    (o : Nat → Word × Word),
    s.env = [] → s.mem.wf = true → ¬ (f.dC = true ∧ bitAt f.c 1 = false ∧ bitAt f.c 7 = true ∧ fld f.c 2 6 ≠ 0#5) →
    auInit f.a f.dA s.begun = .ok (some (false, a0), s1) → a = { a0 with bits := setBitAt a0.bits 1 true } →
    auInit f.c f.dC s1 = .ok (some (false, c0), s2) → c = { c0 with bits := setBitAt c0.bits 1 true } →
    c.tag = .good → c.addr + 2 < 32768 → (∀ k, k ≤ 2 → s2.admits (.mem (c.full + k))) →
    orthoTable f ((s2.putWord c.full (MWord.good eorWord)).setReg s.cur au1 a) = .ok (table, σ 0) → n < orthoFuel →
    (∀ k, k ≤ n → ((σ k).reg s.cur au1).tag = .good ∧ (σ k).exists? ((σ k).reg s.cur au1).full = true ∧
      w k = (σ k).mem.word ((σ k).reg s.cur au1).full ∧ nextAu au1 (σ k) = .ok ((), δ k)) →
    (∀ k, k < n → isEor (w k).bits = false ∧
      (match table, isEoi (w k).bits with
        | some r, true => reloadCounter r (δ k) = .ok ((), σ (k + 1))
        | _, _ => σ (k + 1) = δ k ∧ (σ k).atStopper ((σ k).reg s.cur au1) = false)) →
    isEor (w n).bits = true → o 0 = (BitVec.allOnes 48, BitVec.allOnes 48) →
    (∀ k, k < n → o (k + 1) = ((o k).2, (o k).1 ^^^ (w k).bits)) →
    ∃ t, exec (.cc f) s = .next t ∧ t.holds (.mem c.full) (MWord.good (o n).1) ∧
      t.holds (.mem (c.full + 1)) (MWord.good (o n).2) ∧ t.holds (.mem (c.full + 2)) (MWord.good eorWord) ∧
      t.reg s.cur au2 = SReg.mk' c.arr true (c.addr + 2) ∧
      t.reg s.cur au1 = (δ n).reg s.cur au1 ∧ t.ac = (o n).1 ∧ t.mr = (o n).2 ∧
      t.pcr = setBitAt s.pcr (21 + s.cur.toNat) f.seq ∧ t.outside = s.outside ∧
      (∀ b, b / 8 ∉ [c.full, c.full + 1, c.full + 2] → t.mem.byte b = s.mem.byte b) ∧
      (table = none → ∀ h j, (h, j) ∉ s.named f.a f.dA ++ s1.named f.c f.dC ++
        ((s2.putWord c.full (MWord.good eorWord)).setReg s.cur au1 a).named f.b f.dB ++ [(s.cur, au1), (s.cur, au2)] →
        t.reg h j = s.reg h j)

/-! ### Print -/

/-- PRA, PRD and PRO (R460, R464, R466). On a free typewriter: the word A, or the accumulator with an inactive A, is put into the typewriter
buffer, with all that is to be typed; the typewriter is held for the group if more is to follow; then the sequence change through C, and no
hunt. What location 00021 holds meanwhile is a free value (log 36). With an inactive B nothing is typed, and the sequence changes through C; a word
A of bad parity, which is then read and not printed, makes the unprogrammed transfer to U + 2 instead (R610): that the sequence change and the
bisequence bit are then left alone is read from R603 by inference (log 36). That a C which names the very counter to be changed writes the history
register too is the model's choice (log 70). -/
def Obligations.PrintInstructions : Prop :=
  ∀ (i : Instr) (f : Prt) (s s1 s2 : State) (w : MWord) (r : Option SReg),
    printRow i = some f → s.env = [] →
    (f.b ≠ inactiveGroup → ∀ slave : Bool, bitAt f.b 1 = false → printMode f.b ≠ 0#2 →
      typewriterOf f.b = (if slave then 1 else 0) → (slave = true → s.cfg.slave = true) → s.typewriterBusy slave = false →
      (f.a = inactiveGroup ∧ f.dA = false ∧ s.acState ≠ .undefined ∧ s.acState ≠ .spent ∧ w = MWord.good s.ac ∧ s1 = s.begun ∨
        f.a ≠ inactiveGroup ∧ printIncremented f = false ∧ readOperand f.a f.dA s.begun = .ok (w, s1)) →
      sequenceTarget f.c f.dC (ctrOf f.seq) (s1.startedTyping slave f.b w).noAc = .ok (r, s2) →
      ∃ t, exec i s = .next t ∧ t = s2.sequenced f.seq r ∧ t.scan = none ∧
        t.typing = some ⟨slave, printSymbols s.cur (s.owner slave).isSome f.b w⟩ ∧ t.typeSpoiled = false ∧
        t.owner slave = (if bitAt f.b 4 then some s.cur else none) ∧ t.owner (!slave) = s.owner (!slave) ∧
        t.pcr = setBitAt s.pcr (21 + s.cur.toNat) f.seq ∧
        Frame s t (s.named f.a f.dA ++ s1.named f.c f.dC ++ s.sequencers f.seq r) [typewriterBuffer]) ∧
    (f.b = inactiveGroup →
      (f.a = inactiveGroup ∧ f.dA = false ∧ s1 = s.begun ∨
        f.a ≠ inactiveGroup ∧ printIncremented f = false ∧ readOperand f.a f.dA s.begun = .ok (w, s1) ∧ MWord.bad w = false) →
      sequenceTarget f.c f.dC (ctrOf f.seq) s1.noAc = .ok (r, s2) →
      ∃ t, exec i s = .next t ∧ t = s2.sequenced f.seq r ∧ t.scan = none ∧
        Ends s t f.seq (s.named f.a f.dA ++ s1.named f.c f.dC ++ s.sequencers f.seq r) []) ∧
    (f.b = inactiveGroup → f.a ≠ inactiveGroup → printIncremented f = false → (f.c = inactiveGroup → f.dC = false) →
      readOperand f.a f.dA s.begun = .ok (w, s1) → MWord.bad w = true → s1.noAc.canTransfer →
      ∃ t, exec i s = .next t ∧ t = s1.noAc.transferred utParity i ∧ t.pcr = s.pcr ∧ t.scan = none ∧ t.typing = s.typing ∧
        Frame s t (s.named f.a f.dA) [(s1.reg s.cur utrIx).full + if s.sel = .csc then 1 else 0])

/-- What is typed of a word with good parity (R464): the group indicator unless more was to follow, then characters of 6 bits, or digits of 4
bits with a space after every third, or of 3 bits with a space after every fourth, then the carriage return unless bits 3 and 4 are ones. The
space after the last group too is the model's choice (log 36): the examples of R462 and R463 show none. -/
def Obligations.PrintedSymbols : Prop :=
  ∀ (g : BitVec 3) (more : Bool) (b : Group) (w : Word),
    ∃ d, printSymbols g more b (MWord.good w) = (if more then [] else [.group g]) ++ d ++ (if bitAt b 3 && bitAt b 4 then [] else [.cr]) ∧
      (printMode b = 0b10#2 → d.length = 8 ∧ ∀ k, k < 8 → d[k]? = some (.char ((fld w (6 * k + 1) (6 * k + 6)).setWidth 6))) ∧
      (printMode b = 0b11#2 → d.length = 16 ∧ ∀ k, k < 12 → d[4 * (k / 3) + k % 3]? = some (.hex ((fld w (4 * k + 1) (4 * k + 4)).setWidth 4)) ∧
        (k < 4 → d[4 * k + 3]? = some .space)) ∧
      (printMode b = 0b01#2 → d.length = 20 ∧ ∀ k, k < 16 → d[5 * (k / 4) + k % 4]? = some (.oct ((fld w (3 * k + 1) (3 * k + 3)).setWidth 3)) ∧
        (k < 4 → d[5 * k + 4]? = some .space))

/-- The typewriter mechanism (R466): while no program has stored into the buffer word, each character cycle types the next symbol, and the last
one frees the typewriter and reactivates the programs stalled for it; the arithmetic registers are preserved (decision D43, log 36). What the
buffer word holds meanwhile is a free value (log 36). -/
def Obligations.TypewriterCycle : Prop :=
  ∀ (s : State) (slave : Bool) (x : Sym) (rest : List Sym),
    s.typing = some ⟨slave, x :: rest⟩ → s.typeSpoiled = false →
    (if slave then s.typeChar.typedSlave = s.typedSlave ++ [x] ∧ s.typeChar.typedConsole = s.typedConsole
      else s.typeChar.typedConsole = s.typedConsole ++ [x] ∧ s.typeChar.typedSlave = s.typedSlave) ∧
    (s.typeChar.typing.map (·.left) = if rest = [] then none else some rest) ∧
    (∀ g : Fin 8, rest = [] → s.stalls[g] = .io → s.typeChar.stalls[g] = .running) ∧
    s.typeChar.ac = s.ac ∧ s.typeChar.acState = s.acState ∧ s.typeChar.lop = s.lop ∧ s.typeChar.mr = s.mr ∧
    s.typeChar.pcr = s.pcr ∧ Frame s s.typeChar [] [typewriterBuffer]

/-- The barricade register access forms of the print instructions (R468): typewriter 04 loads bits 33 to 37 and 41 to 48 of the register from A,
or from the accumulator with an inactive A, whose bits 38 to 40 are zeros; typewriter 10 octal stores the register, bits 1 to 24 zeros, at A.
Nothing is typed. A word of bad parity loads the register and then makes the unprogrammed transfer to U + 2 (R610), by the boundary then in
force: that the register is loaded all the same, and that no sequence change comes first, are read by inference (log 36). That a C which names the very
counter to be changed writes the history register too is the model's choice (log 70). -/
def Obligations.BarricadeAccess : Prop :=
  (∀ (i : Instr) (f : Prt) (s s1 s2 : State) (w : MWord) (r : Option SReg),
    printRow i = some f → s.env = [] → f.b ≠ inactiveGroup → bitAt f.b 1 = false → typewriterOf f.b = 0o4 → s.cfg.barricade = true →
    (f.a = inactiveGroup ∧ f.dA = false ∧ s.acState ≠ .undefined ∧ s.acState ≠ .spent ∧ w = MWord.good s.ac ∧ s1 = s.begun ∨
      f.a ≠ inactiveGroup ∧ printIncremented f = false ∧ readOperand f.a f.dA s.begun = .ok (w, s1)) → fld w.bits 38 40 = 0#3 →
    (MWord.bad w = false → sequenceTarget f.c f.dC (ctrOf f.seq) (s1.loadedBar w.bits).noAc = .ok (r, s2) →
      ∃ t, exec i s = .next t ∧ t = s2.sequenced f.seq r ∧ t.scan = none ∧
        fld t.bar 9 13 = fld w.bits 33 37 ∧ fld t.bar 17 24 = fld w.bits 41 48 ∧
        (∀ n, 1 ≤ n → n ≤ 16 → (n < 9 ∨ 13 < n) → bitAt t.bar n = bitAt s.bar n) ∧ t.typing = s.typing ∧
        Frame s t (s.named f.a f.dA ++ s1.named f.c f.dC ++ s.sequencers f.seq r) []) ∧
    (MWord.bad w = true → (f.c = inactiveGroup → f.dC = false) → (s1.loadedBar w.bits).noAc.canTransfer →
      ∃ t, exec i s = .next t ∧ t = (s1.loadedBar w.bits).noAc.transferred utParity i ∧ t.scan = none ∧ t.pcr = s.pcr ∧
        fld t.bar 9 13 = fld w.bits 33 37 ∧ fld t.bar 17 24 = fld w.bits 41 48 ∧ t.typing = s.typing ∧
        Frame s t (s.named f.a f.dA) [(s1.reg s.cur utrIx).full + if s.sel = .csc then 1 else 0])) ∧
  (∀ (i : Instr) (f : Prt) (s s1 s2 : State) (l : Loc) (r : Option SReg),
    printRow i = some f → s.env = [] → f.b ≠ inactiveGroup → bitAt f.b 1 = false → typewriterOf f.b = 0o10 → s.cfg.barricade = true →
    s.mem.wf = true → f.a ≠ inactiveGroup → printIncremented f = false → locate f.a f.dA s.begun = .ok (l, s1) → s1.admits l →
    sequenceTarget f.c f.dC (ctrOf f.seq) (s1.stored l (MWord.good (s.bar.setWidth 48))).noAc = .ok (r, s2) →
    ∃ t, exec i s = .next t ∧ t = s2.sequenced f.seq r ∧ t.scan = none ∧ t.bar = s.bar ∧ t.typing = s.typing ∧
      (∀ a, l = .mem a → t.holds l (MWord.good (s.bar.setWidth 48))) ∧
      Frame s t (s.named f.a f.dA ++ l.regs ++ (s1.stored l (MWord.good (s.bar.setWidth 48))).named f.c f.dC ++ s.sequencers f.seq r)
        l.words)

/-! ### Waiting -/

/-- Where an instruction waits (R404, R408, R440, R458, R460, R472): a print for its typewriter, an MPC of function 1000 for the demand bit of its
target, a peripheral instruction for its device, the control it shares or its channel, a rewind for its tape. Nothing of it is performed, but that a
print has read A first: `s1` is the state then, and that a register stepped by the reading stays so is read from R460 by inference (log 36). Which
states of the typewriters stall a print is decision D44 (log 36), and that a device in use is found before a stored error is D40 (log 37). That the
other devices of a shared control are busy is a sentence R458 marks as derived, and which those are is the model's view (log 60); that a reader
with nothing left is unavailable to a read is its choice (log 38). -/
def Obligations.BusyStalls : Prop :=
  (∀ (i : Instr) (f : Prt) (s s1 : State) (slave : Bool) (w : MWord),
    printRow i = some f → s.env = [] → f.b ≠ inactiveGroup → bitAt f.b 1 = false → printMode f.b ≠ 0#2 →
    typewriterOf f.b = (if slave then 1 else 0) → (slave = true → s.cfg.slave = true) → s.typewriterBusy slave = true →
    (f.a = inactiveGroup ∧ f.dA = false ∧ s1 = s.begun ∨
      f.a ≠ inactiveGroup ∧ printIncremented f = false ∧ readOperand f.a f.dA s.begun = .ok (w, s1)) →
    (f.c = inactiveGroup → f.dC = false) → s.byUtr = false → s1.limited = none →
    ∃ t, exec i s = .next t ∧ Stalls s1 t .io ∧ t.reg s.cur s.sel.ix = s.ctl ∧
      Frame s t ((s.cur, s.sel.ix) :: s.named f.a f.dA) []) ∧
  (∀ (f : Mpc) (s : State) (g : BitVec 3),
    controlAddressOk f = true → (f.c = inactiveGroup → f.dC = false) → fld f.b 1 4 = 0b1000#4 → controlTarget f.b = some g →
    s.cur ≠ 0#3 → s.cur ≠ 2#3 → s.inDemand g = true → s.byUtr = false → s.limited = none →
    ∃ t, exec (.mpc f) s = .next t ∧ Stalls s t (.demand g)) ∧
  (∀ (i : Instr) (m : Motion) (f : Per) (k : DevKind) (s : State),
    motionRow i = some (m, f) → Config.kind s.cfg m.dir f.ch f.dev = some k → canMove k m = true →
    ((s.dev m.dir f.ch f.dev).unavailable k m (f.a != inactiveGroup) = true ∨ s.multipleBusy m.dir f.ch f.dev = true ∨
      (f.a ≠ inactiveGroup ∧ bitAt s.pcr (interlockBit m.dir f.ch) = true)) → s.byUtr = false → s.limited = none →
    ∃ t, exec i s = .next t ∧ Stalls s t .io ∧ fld t.pcr 1 3 = 0#3) ∧
  (∀ (f : Per) (d : Dir) (s : State),
    d = rewindDir s.cfg f.ch f.dev → Config.kind s.cfg d f.ch f.dev = some .tape →
    ((s.dev d f.ch f.dev).busy || (s.dev d f.ch f.dev).locked || (s.dev d f.ch f.dev).out) = true → s.byUtr = false → s.limited = none →
    ∃ t, exec (.rw f) s = .next t ∧ Stalls s t .io ∧ fld t.pcr 1 3 = 0#3)

/-! ### Peripheral instructions -/

/-- RF and RB with active A and an available device (R404, R406, R430, R431): the read counters take the addresses A and B, the device is in
motion over the next record, the channel is interlocked, and the sequence changes through C by the selecting counter with no hunt; at the end
of tape, the unprogrammed transfer to U + 4 instead (R422): near it the tolerances of R422 make which of the two a free truth value (log 56). That
a device holds its records as lists is the model's view (log 38). -/
def Obligations.ReadStart : Prop :=
  ∀ (i : Instr) (m : Motion) (f : Per) (k : DevKind) (s u : State) (v : Device) (r : Record) (rest : List Record) (e : Bool),
    motionRow i = some (m, f) → s.env = [] → m ≠ .write → f.a ≠ inactiveGroup → v = s.dev .input f.ch f.dev → s.Available f m k →
    v.readErr = false → v.switch = 0#3 → (m = .forward → v.after = r :: rest) → (m = .backward → v.before = r :: rest) →
    s.buffersOk f m → s.targetOk f.c →
    u = ({ s.prepared f m with free := (s.prepared f m).free + 1 }).started f k m
      (if m = Motion.backward then v.moving (v.readBad k rest.length r) rest (r :: v.after) .read
        else v.moving (v.readBad k v.before.length r) (r :: v.before) rest .read)
      (if m = Motion.backward then r.reverse else delivered k v r) →
    e = v.atEnd k m ((s.prepared f m).oddWrite f) (Config.freeBool (s.prepared f m).free) → (e = true → u.canTransfer) →
    ∃ t, exec i s = .next t ∧ t = (if e then u.transferred utTapeEnd i else u.continued s f.c) ∧
      t.reg f.ch racIx = s.bufferAt f.a m ∧ (f.b ≠ inactiveGroup → t.reg f.ch dracIx = s.bufferAt f.b m) ∧
      t.xfer .input f.ch = some ⟨f.dev, k, decide (m = Motion.backward), f.b != inactiveGroup, true,
        if m = Motion.backward then r.reverse else delivered k v r, [], none, false⟩ ∧
      (∀ d h, ¬ (d = .input ∧ h = f.ch) → t.xfer d h = s.xfer d h) ∧
      (t.dev .input f.ch f.dev).busy = true ∧ bitAt t.pcr (interlockBit .input f.ch) = true ∧ fld t.pcr 1 3 = 0#3 ∧
      (∀ n, 4 ≤ n → n ≤ 48 → n ≠ interlockBit .input f.ch → n ≠ 21 + s.cur.toNat → bitAt t.pcr n = bitAt s.pcr n) ∧
      t.scan = none ∧
      (e = false → t.mem = s.mem ∧ ∀ h j, (h, j) ∉ [(f.ch, racIx)] ++
        (if f.b = inactiveGroup then [] else [(f.ch, dracIx)]) ++ s.continuers f.c → t.reg h j = s.reg h j)

/-- WF with active A and an available device (R404, R406, R411, R432): the write counters take the addresses A and B, the device is in motion
and the channel interlocked, the first word is sent at once (`v` after that), and the sequence changes through C by the selecting counter with
no hunt; at the end of tape, the unprogrammed transfer to U + 4 instead (R422): near it the tolerances of R422 make which of the two a free truth
value (log 56). That a device holds its records as lists is the model's view (log 38). -/
def Obligations.WriteStart : Prop :=
  ∀ (f : Per) (k : DevKind) (s u v : State) (d : Device) (e : Bool),
    s.env = [] → f.a ≠ inactiveGroup → d = s.dev .output f.ch f.dev → s.Available f .write k → d.writeErr = false → d.switch = 0#3 →
    s.buffersOk f .write → s.targetOk f.c →
    u = ({ s.prepared f .write with free := (s.prepared f .write).free + 1 }).started f k .write (d.moving false d.before d.after .write) [] →
    v = u.bufferCycle .output f.ch → v.halted = false →
    e = d.atEnd k .write ((s.prepared f .write).oddWrite f) (Config.freeBool (s.prepared f .write).free) → (e = true → v.canTransfer) →
    ∃ t, exec (.wf f) s = .next t ∧ t = (if e then v.transferred utTapeEnd (.wf f) else v.continued s f.c) ∧
      u.reg f.ch wacIx = s.bufferAt f.a .write ∧ (f.b ≠ inactiveGroup → u.reg f.ch dwacIx = s.bufferAt f.b .write) ∧
      u.xfer .output f.ch = some ⟨f.dev, k, false, f.b != inactiveGroup, true, [], [], none, false⟩ ∧
      (u.dev .output f.ch f.dev).busy = true ∧ bitAt u.pcr (interlockBit .output f.ch) = true ∧ fld u.pcr 1 3 = 0#3 ∧
      (∀ n, 4 ≤ n → n ≤ 48 → n ≠ interlockBit .output f.ch → bitAt u.pcr n = bitAt s.pcr n) ∧ u.mem = s.mem ∧
      (∀ h j, (h, j) ∉ [(f.ch, wacIx)] ++ (if f.b = inactiveGroup then [] else [(f.ch, dwacIx)]) → u.reg h j = s.reg h j) ∧
      t.xfers = v.xfers ∧ t.devs = v.devs ∧ t.scan = none ∧
      (e = false → t.mem = v.mem ∧ ∀ h j, (h, j) ∉ s.continuers f.c → t.reg h j = v.reg h j)

/-- The tests of a peripheral instruction (R400, R404, R420, R424). With an inactive A no words move: where nothing is to be reported, only the
sequence changes. A stored error, or the operator's program switch, is shown in the fixed-start bits and reset, and the unprogrammed transfer
to U + 6 is made. That the error is tested before the switch is decision D40, and that the report uses up the switch is D42 (log 37). -/
def Obligations.PeripheralTest : Prop :=
  ∀ (i : Instr) (m : Motion) (f : Per) (k : DevKind) (s u : State) (v : Device),
    motionRow i = some (m, f) → s.env = [] → v = s.dev m.dir f.ch f.dev → s.Available f m k → u = s.begun.noAc.setFixedStart 0#3 →
    (f.a = inactiveGroup → v.stored m.dir = false → v.switch = 0#3 → s.targetOk f.c →
      (k = .tape → v.last = .none ∨ v.last = (if m = .write then .write else .read)) →
      ∃ t, exec i s = .next t ∧ t = u.continued s f.c ∧ t.scan = none ∧ fld t.pcr 1 3 = 0#3 ∧ t.devs = s.devs ∧ t.xfers = s.xfers ∧
        Frame s t (s.continuers f.c) []) ∧
    (v.stored m.dir = true → u.canTransfer →
      ∃ t, exec i s = .next t ∧
        t = ((u.setDev m.dir f.ch f.dev (v.clearError m.dir)).setFixedStart 1#3).transferred utDeviceError i ∧
        fld t.pcr 1 3 = 1#3 ∧ (∀ n, 4 ≤ n → n ≤ 48 → bitAt t.pcr n = bitAt s.pcr n) ∧ (t.dev m.dir f.ch f.dev).stored m.dir = false ∧
        t.xfers = s.xfers ∧ t.regs = s.regs) ∧
    (v.stored m.dir = false → v.switch ≠ 0#3 → u.canTransfer →
      ∃ t, exec i s = .next t ∧
        t = ((u.setDev m.dir f.ch f.dev { v with switch := 0#3 }).setFixedStart v.switch).transferred utDeviceError i ∧
        fld t.pcr 1 3 = v.switch ∧ (∀ n, 4 ≤ n → n ≤ 48 → bitAt t.pcr n = bitAt s.pcr n) ∧ (t.dev m.dir f.ch f.dev).switch = 0#3 ∧
        t.xfers = s.xfers ∧ t.regs = s.regs)

/-- RW on a tape that is not in use (R440): the tape is rewinding to its beginning, its error flip-flops are cleared, with an active A it will be
locked when rewound, and a hunt follows. That a tape already rewound, of which R440 also says that no action occurs but the advance of the counter, has its
flip-flops cleared, is busy and is locked in the same way is the model's choice (log 68). That a tape holds its records as two lists is its view
(log 38). -/
def Obligations.Rewind : Prop :=
  ∀ (f : Per) (d : Dir) (s : State) (v : Device),
    d = rewindDir s.cfg f.ch f.dev → Config.kind s.cfg d f.ch f.dev = some .tape → v = s.dev d f.ch f.dev →
    v.busy = false → v.locked = false → v.out = false →
    ∃ t w, exec (.rw f) s = .next t ∧ w = t.dev d f.ch f.dev ∧ w.busy = true ∧ w.readErr = false ∧ w.writeErr = false ∧
      w.lockOnRewind = (f.a != inactiveGroup) ∧ w.before = [] ∧ w.after = v.before.reverse ++ v.after ∧ w.locked = false ∧
      w.protect = v.protect ∧ w.eot = v.eot ∧ t.devs = (s.setDev d f.ch f.dev w).devs ∧ t.xfers = s.xfers ∧ fld t.pcr 1 3 = 0#3 ∧
      (∀ n, 4 ≤ n → n ≤ 48 → bitAt t.pcr n = bitAt s.pcr n) ∧ (s.limited = none → t.scan = some (s.cur + 1)) ∧ Frame s t [] []

/-- A buffer cycle with a good counter and a good word (R410, R411, R412). Input: the word is stored at the address in the read counter, which is
stepped; the last word ends the transfer, and reactivates the programs stalled for it. Output: the word at the address in the write counter is
sent, and the counter stepped; the end-of-record word ends the transfer of a tape, which then holds the record: that it holds records as a list
is the model's view (log 38). The word that ends an item of a distributed transfer (`Xfer.reloads`) is stored or sent in the same way; then a second cycle
(R102) replaces the counter by the table word at the address in the distributed counter, its sign bit 33 (R42), and steps that one. That the
end-of-record word of a forward read takes a table word too is a sentence R410 marks as derived, that of a write takes none by decision D41 (log 37), and
with extended memory the array bit is bit 32 of the table word by inference (log 32). Such a cycle may fall before any memory cycle of an
instruction (R100, R105, R106): where an event brings a demand, the channel has the cycle, and the processor the next one; a character cycle of the
typewriter waits for the end of the instruction (R466; logs 9, 10). -/
def Obligations.BufferCycles : Prop :=
  (∀ (s : State) (d : Dir) (ch : BitVec 3) (x : Xfer) (r : SReg) (w : MWord),
    s.mem.wf = true → s.xfer d ch = some x → r = s.reg ch (bufferIx d) → r.tag = .good → s.exists? r.full = true → MWord.bad w = false →
    s.atStopper r = false → (if r.sign then r.addr + 1 < 32768 else 0 < r.addr) →
    x.reloads d w.bits = false →
    (d = .input → x.err = false → ∀ rest, x.todo = w :: rest →
      (s.bufferCycle d ch).holds (.mem r.full) w ∧
      (s.bufferCycle d ch).reg ch racIx = r.withAddr (if r.sign then r.addr + 1 else r.addr - 1) ∧
      Frame s (s.bufferCycle d ch) [(ch, racIx)] [r.full] ∧
      (rest ≠ [] → (s.bufferCycle d ch).xfer d ch = some { x with todo := rest, first := false } ∧ (s.bufferCycle d ch).pcr = s.pcr) ∧
      (rest = [] → (s.bufferCycle d ch).xfer d ch = none ∧ bitAt (s.bufferCycle d ch).pcr (interlockBit d ch) = false ∧
        ∀ g : Fin 8, s.stalls[g] = .io → (s.bufferCycle d ch).stalls[g] = .running)) ∧
    (d = .output → x.kind = .tape → s.mem.word r.full = w →
      (s.bufferCycle d ch).reg ch wacIx = r.withAddr (if r.sign then r.addr + 1 else r.addr - 1) ∧
      Frame s (s.bufferCycle d ch) [(ch, wacIx)] [] ∧
      (isEor w.bits = false → x.count = none → (s.bufferCycle d ch).xfer d ch = some { x with first := false, sent := w :: x.sent } ∧
        (s.bufferCycle d ch).pcr = s.pcr) ∧
      (isEor w.bits = true → Config.kind s.cfg d ch x.dev = some .tape → (s.dev d ch x.dev).protect = false →
        (s.bufferCycle d ch).xfer d ch = none ∧ bitAt (s.bufferCycle d ch).pcr (interlockBit d ch) = false ∧
        ((s.bufferCycle d ch).dev d ch x.dev).before = (w :: x.sent).reverse :: (s.dev d ch x.dev).before ∧
        ∀ g : Fin 8, s.stalls[g] = .io → (s.bufferCycle d ch).stalls[g] = .running))) ∧
  (∀ (s : State) (d : Dir) (ch : BitVec 3) (x : Xfer) (r q : SReg) (w v : MWord),
    s.mem.wf = true → s.xfer d ch = some x → r = s.reg ch (bufferIx d) → r.tag = .good → s.exists? r.full = true → MWord.bad w = false →
    x.reloads d w.bits = true → q = s.reg ch (tableIx d) → q.tag = .good → s.exists? q.full = true → s.atStopper q = false →
    (if q.sign then q.addr + 1 < 32768 else 0 < q.addr) → MWord.bad v = false →
    (s.tableReg v.bits).sign = bitAt v.bits 33 ∧ (s.tableReg v.bits).addr = (fld v.bits 34 48).toNat ∧
    (d = .input → x.err = false → v = (s.putWord r.full w).mem.word q.full → ∀ rest, x.todo = w :: rest →
      (s.bufferCycle d ch).holds (.mem r.full) w ∧ (s.bufferCycle d ch).reg ch racIx = s.tableReg v.bits ∧
      (s.bufferCycle d ch).reg ch dracIx = q.withAddr (if q.sign then q.addr + 1 else q.addr - 1) ∧
      Frame s (s.bufferCycle d ch) [(ch, racIx), (ch, dracIx)] [r.full] ∧
      (rest ≠ [] → (s.bufferCycle d ch).xfer d ch = some { x with todo := rest, first := false } ∧ (s.bufferCycle d ch).pcr = s.pcr) ∧
      (rest = [] → (s.bufferCycle d ch).xfer d ch = none ∧ bitAt (s.bufferCycle d ch).pcr (interlockBit d ch) = false)) ∧
    (d = .output → x.kind = .tape → x.count = none → s.mem.word r.full = w → v = s.mem.word q.full →
      (s.bufferCycle d ch).reg ch wacIx = s.tableReg v.bits ∧
      (s.bufferCycle d ch).reg ch dwacIx = q.withAddr (if q.sign then q.addr + 1 else q.addr - 1) ∧
      Frame s (s.bufferCycle d ch) [(ch, wacIx), (ch, dwacIx)] [] ∧
      (s.bufferCycle d ch).xfer d ch = some { x with first := false, sent := w :: x.sent } ∧ (s.bufferCycle d ch).pcr = s.pcr)) ∧
  (∀ (s u : State) (e : Event) (rest : List Event) (p : Dir × BitVec 3),
    s.halted = false → s.env = e :: rest → s.within.grant = some p → u = s.within.bufferCycle p.1 p.2 → u.halted = false →
    u.within.grant = none → u.within.halted = false →
    (∀ a, u.within.exists? a = true → memRead a s = .ok (u.within.mem.word a, u.within)) ∧
    (∀ a v, u.within.admits (.mem a) → memWrite a v s = .ok ((), u.within.putWord a v)))

/-! ### Scientific instructions -/

/-- The floating-point add, subtract and multiply instructions (R520 to R532): the operands are read, an inactive address standing for FLAC;
the result is in FLAC and FLOP with the exponent indicators, and at C. With an inactive C no hunt follows; with an active one FLOP is
undefined (a free value). What the results are is `FloatValues`. `x` is the state with the unit claimed: what another group has left in it is
free (R687, U71, log 43). -/
def Obligations.FloatInstructions : Prop :=
  ∀ (i : Instr) (dec : Bool) (compute : Word → Bool → Fp → Fp → FpOut) (f : Gen) (s s1 s2 u : State) (a b : FpOperand) (r : FpOut)
    (ovf unf : Bool) (words : List Nat) (x : State),
    floatRow i = some (dec, compute, f) → s.env = [] → s.mem.wf = true → s.cfg.fpu = true →
    floatOperand f.a f.dA s.begun = .ok (a, s1) → a.bad = false → floatOperand f.b f.dB s1 = .ok (b, s2) → b.bad = false →
    operandsOk dec a b = true →
    r = compute (Config.freeWord s2.free) (Config.freeBool (s2.free + 1)) (fpOf dec a.word a.e) (fpOf dec b.word b.e) →
    x = State.claimed { s2 with free := s2.free + 2 } →
    settle x.pending (a.flac || b.flac) (f.c != inactiveGroup) false r.e = (ovf, unf, none) →
    (x.floated false (f.c != inactiveGroup) r ovf unf).noAc.floatDelivered f.c f.dC r.flac u words →
    ∃ t, exec i s = .next t ∧ t = u.ended f.seq (f.c != inactiveGroup) ∧ t.flac = r.flac ∧ (f.c = inactiveGroup → t.flop = r.flop) ∧
      t.flacOvf = ovf ∧ t.flacUnf = unf ∧ t.flopOvf = decide (127 < r.low) ∧ t.flopUnf = decide (r.low < 0) ∧ t.flacFixed = false ∧
      (∀ n, n ∈ words → t.holds (.mem n) (MWord.good r.flac)) ∧ (f.c = inactiveGroup → t.scan = none) ∧
      FloatEnds s t f.seq (s.named f.a f.dA ++ s1.named f.b f.dB ++ s2.named f.c f.dC) words

/-- What the floating-point instructions compute, in exact numbers. Normalized addition and subtraction (R530): the mantissas aligned, added,
the digit that overflows lost, and the result normalized; zero is the normalized zero. Extended (R530): the same with twenty digits in two words.
Unnormalized (R531): aligned at the larger exponent, added, not normalized; the sign of a zero is a free truth value (U66, log 43). Multiplication
(R532): the exact product in two words, normalized; that it is exact is a sentence R532 marks as derived, and that it is so for unnormalized
operands too, where R532 lets no proof rely on the low-order digits, is the model's, which follows the pseudocode there (log 43). -/
def Obligations.FloatValues : Prop :=
  ∀ (dec sub z : Bool) (free : Word) (a b : Fp) (R : Nat), R = radix dec → a.m < R ^ 10 → b.m < R ^ 10 →
    (∀ r, r = floatAdd dec sub free a b → ∃ E S, Fp.Aligned R 10 a.zeroed (b.negateIf sub).zeroed E S ∧ r.low = 0 ∧
      (S = 0 → r.flac = normalZero ∧ r.e = 0) ∧
      (S ≠ 0 → (fpOf dec r.flac r.e).value R 10 = (S.sign : Rat) * (kept R 10 S : Rat) * (R : Rat) ^ (E - 74) ∧
        R ^ 9 ≤ (fpOf dec r.flac r.e).m ∧ Word.HasSignExponent r.flac (decide (0 < S)) r.e)) ∧
    (dec = false → ∀ r, r = floatAddExtended sub a b → ∃ E S,
      Fp.Aligned 16 20 (Fp.zeroed ⟨a.pos, a.e, a.m * 16 ^ 10⟩) (Fp.zeroed (Fp.negateIf ⟨b.pos, b.e, b.m * 16 ^ 10⟩ sub)) E S ∧
      (S = 0 → r = FpOut.zero) ∧
      (S ≠ 0 → (fpOf false r.flac r.e).value 16 10 + (fpOf false r.flop r.low).value 16 10 =
          (S.sign : Rat) * (kept 16 20 S : Rat) * (16 : Rat) ^ (E - 84) ∧
        16 ^ 9 ≤ (fpOf false r.flac r.e).m ∧ r.low = r.e - 10 ∧ Word.HasSignExponent r.flac (decide (0 < S)) r.e ∧
        Word.HasSignExponent r.flop (decide (0 < S)) r.low)) ∧
    (∀ r E S, r = floatAddPlain dec sub free z a b → E = max a.e b.e →
      S = a.signed (a.m / R ^ (E - a.e).toNat) + (b.negateIf sub).signed (b.m / R ^ (E - b.e).toNat) →
      r.low = 0 ∧ r.e = (if S.natAbs < R ^ 10 then E else E + 1) ∧
      (fpOf dec r.flac r.e).m = (if S.natAbs < R ^ 10 then S.natAbs else S.natAbs / R) ∧
      Word.HasSignExponent r.flac (if S = 0 then z else decide (0 < S)) r.e) ∧
    (∀ r, r = floatMultiply dec a b → (a.m = 0 ∨ b.m = 0 → r = FpOut.zero) ∧
      (a.m ≠ 0 → b.m ≠ 0 → (fpOf dec r.flac r.e).value R 10 + (fpOf dec r.flop r.low).value R 10 = a.value R 10 * b.value R 10 ∧
        R ^ 9 ≤ (fpOf dec r.flac r.e).m ∧ r.low = r.e - 10 ∧ Word.HasSignExponent r.flac (a.pos == b.pos) r.e ∧
        Word.HasSignExponent r.flop (a.pos == b.pos) r.low))

/-- The floating-point instructions whose result has an exponent out of range, with a stored exponent condition that falls due, or with an
operand of bad parity (R524, R526, R527, R610): the result is delivered as without it, then the unprogrammed transfer is made, to U + 2 for
parity, else to U + 12 for underflow and U + 14 for overflow. When a stored condition falls due, and where it then goes, is decision D47
(log 43); that parity goes before the exponent is D52 (log 35). -/
def Obligations.FloatTransfers : Prop :=
  ∀ (i : Instr) (dec : Bool) (compute : Word → Bool → Fp → Fp → FpOut) (f : Gen) (s s1 s2 u : State) (a b : FpOperand) (r : FpOut)
    (ovf unf : Bool) (k : Option ExpEvent) (words : List Nat) (x : State),
    floatRow i = some (dec, compute, f) → s.env = [] → s.mem.wf = true → s.cfg.fpu = true →
    floatOperand f.a f.dA s.begun = .ok (a, s1) → floatOperand f.b f.dB s1 = .ok (b, s2) → operandsOk dec a b = true →
    r = compute (Config.freeWord s2.free) (Config.freeBool (s2.free + 1)) (fpOf dec a.word a.e) (fpOf dec b.word b.e) →
    x = State.claimed { s2 with free := s2.free + 2 } →
    settle x.pending (a.flac || b.flac) (f.c != inactiveGroup) false r.e = (ovf, unf, k) → (a.bad || b.bad || k.isSome) = true →
    (x.floated false (f.c != inactiveGroup) r ovf unf).noAc.floatDelivered f.c f.dC r.flac u words →
    u.canTransfer →
    ∃ t, exec i s = .next t ∧
      t = u.transferred (if a.bad || b.bad then utParity else if k = some .overflow then utExpOverflow else utUnderflow) i ∧
      t.flac = r.flac ∧ t.flacOvf = ovf ∧ t.flacUnf = unf ∧ t.pcr = s.pcr ∧ t.scan = none ∧
      Frame s t (s.named f.a f.dA ++ s1.named f.b f.dB ++ s2.named f.c f.dC)
        (words ++ [(u.reg s.cur utrIx).full + if s.sel = .csc then 1 else 0])

/-- FBD, FDD, BD and DD within capacity (R525, R533, R534): quotient in FLAC and at C, remainder in FLOP while C is inactive. Floating: the
dividend's mantissa is the quotient times the divisor's with the remainder, the quotient normalized where the dividend is, its exponent the
difference. Fixed: the dividend times the scale is the quotient times the divisor with the remainder; FLAC as an operand is read as a fixed-point
number (R525). The relation of the floating quotient and remainder is a formula R533 marks as derived, and that it holds for an unnormalized
dividend too is the model's, which follows the pseudocode there (log 43). The signs of BD and DD are decision D48 (log 43). -/
def Obligations.DivideInstructions : Prop :=
  ∀ (i : Instr) (fixed dec : Bool) (f : Gen) (s s1 s2 u : State) (a b : FpOperand) (r : FpOut) (ovf unf : Bool) (words : List Nat),
    divideRow i = some (fixed, dec, f) → s.env = [] → s.mem.wf = true → s.cfg.fpu = true →
    floatOperand f.a f.dA s.begun = .ok (a, s1) → a.bad = false → floatOperand f.b f.dB s1 = .ok (b, s2) → b.bad = false →
    divisible fixed dec a b = true → tooLarge fixed dec a b = false → r = quotient fixed dec a b →
    settle s2.claimed.pending (a.flac || b.flac) (f.c != inactiveGroup) true r.e = (ovf, unf, none) →
    (s2.claimed.floated fixed (f.c != inactiveGroup) r ovf unf).noAc.floatDelivered f.c f.dC r.flac u words →
    (∃ t, exec i s = .next t ∧ t = u.ended f.seq (f.c != inactiveGroup) ∧ t.flac = r.flac ∧ (f.c = inactiveGroup → t.flop = r.flop) ∧
      t.flacFixed = fixed ∧ (∀ n, n ∈ words → t.holds (.mem n) (MWord.good r.flac)) ∧ (f.c = inactiveGroup → t.scan = none) ∧
      FloatEnds s t f.seq (s.named f.a f.dA ++ s1.named f.b f.dB ++ s2.named f.c f.dC) words) ∧
    (fixed = false → ∀ (A B k : Nat), A = (fpOf dec a.word a.e).m → B = (fpOf dec b.word b.e).m → k = (if B < A then 10 else 9) →
      (B = 0 → r = FpOut.zero) ∧
      (B ≠ 0 → (fpOf dec r.flac r.e).m * A + (fpOf dec r.flop r.low).m = B * radix dec ^ k ∧ (fpOf dec r.flop r.low).m < A ∧
        (radix dec ^ 9 ≤ B → radix dec ^ 9 ≤ (fpOf dec r.flac r.e).m) ∧ r.e = b.e - a.e + 74 - k ∧ r.low = b.e - k ∧
        Word.HasSignExponent r.flac (bitAt a.word 1 == bitAt b.word 1) r.e ∧ Word.HasSignExponent r.flop (bitAt b.word 1) r.low)) ∧
    (fixed = true → fixedIn dec r.flac * fixedIn dec a.word + fixedIn dec r.flop = fixedIn dec b.word * fixedScale dec ∧
      fixedIn dec r.flop < fixedIn dec a.word ∧ posSign r.flac = (posSign a.word == posSign b.word) ∧ posSign r.flop = posSign b.word)

/-- Division overcapacity (R533, R534, R601): the instruction is not performed and nothing is stored at C; the unprogrammed transfer to U + 10
is made, or to U + 2 where an operand has bad parity: that parity goes first is decision D52 (log 35). FLAC and FLOP are then free values (U61),
and so is the form of FLAC (log 43); the stored exponent indicators are as they were: R527 and R533 are silent on them (log 43); after another
group has used the unit they are free too (U71, log 43). -/
def Obligations.DivideOvercapacity : Prop :=
  ∀ (i : Instr) (fixed dec : Bool) (f : Gen) (s s1 s2 : State) (a b : FpOperand),
    divideRow i = some (fixed, dec, f) → s.env = [] → s.cfg.fpu = true → (f.c = inactiveGroup → f.dC = false) →
    floatOperand f.a f.dA s.begun = .ok (a, s1) → floatOperand f.b f.dB s1 = .ok (b, s2) →
    (if fixed then divisible fixed dec a b = true else True) → tooLarge fixed dec a b = true → s2.canTransfer →
    ∃ t, exec i s = .next t ∧
      t = s2.claimed.unfloated.noAc.transferred (if a.bad || b.bad then utParity else utDivide) i ∧ t.pcr = s.pcr ∧ t.scan = none ∧
      Frame s t (s.named f.a f.dA ++ s1.named f.b f.dB) [(s2.reg s.cur utrIx).full + if s.sel = .csc then 1 else 0]

/-- FFN (R556): the eleven digits of B, or the ten of a floating FLAC, normalized with the exponent of A: zero, or the same digits shifted until
the first is not zero, the exponent lowered by as many; the result in FLAC and at C, the rest in FLOP while C is inactive. -/
def Obligations.NormalizeInstruction : Prop :=
  ∀ (f : Gen) (s s1 s2 u : State) (a b : FpOperand) (float sign : Bool) (V : Nat) (r : FpOut) (ovf unf : Bool) (words : List Nat),
    s.env = [] → s.mem.wf = true → s.cfg.fpu = true → ¬ (f.a = inactiveGroup ∧ f.b = inactiveGroup) →
    floatOperand f.a f.dA s.begun = .ok (a, s1) → a.bad = false → floatOperand f.b f.dB s1 = .ok (b, s2) → b.bad = false →
    float = (b.flac && !s2.flacFixed) → sign = (if float then bitAt b.word 1 else posSign b.word) →
    V = (if float then mantissa b.word else mag b.word) → r = floatNormalize sign a.e V →
    settle s2.claimed.pending (a.flac || b.flac) (f.c != inactiveGroup) false r.e = (ovf, unf, none) →
    (s2.claimed.floated false (f.c != inactiveGroup) r ovf unf).noAc.floatDelivered f.c f.dC r.flac u words →
    (∃ t, exec (.ffn f) s = .next t ∧ t = u.ended f.seq (f.c != inactiveGroup) ∧ t.flac = r.flac ∧
      (f.c = inactiveGroup → t.flop = r.flop) ∧ t.flacOvf = ovf ∧ t.flacUnf = unf ∧ t.flacFixed = false ∧
      (∀ n, n ∈ words → t.holds (.mem n) (MWord.good r.flac)) ∧
      FloatEnds s t f.seq (s.named f.a f.dA ++ s1.named f.b f.dB ++ s2.named f.c f.dC) words) ∧
    (V = 0 → r = FpOut.zero) ∧
    (V ≠ 0 → ∃ d : Nat, r.e = a.e - d ∧ mantissa r.flac * 16 ^ 10 + mantissa r.flop = V * 16 ^ (9 + d) ∧ 16 ^ 9 ≤ mantissa r.flac ∧
      r.low = r.e - 10 ∧ Word.HasSignExponent r.flac sign r.e ∧ Word.HasSignExponent r.flop sign r.low)

/-- FCON with types 1 and 4 (R558): the fixed decimal number B as a floating binary one, or the floating binary fraction B as a fixed decimal
one, in FLAC and at C; where C is inactive, the remainder in FLOP. The exponent field 64 of type 1 and the truncated quotient and remainder of both
types are sentences R558 marks as derived; that the remainder stands in the low-order bits of FLOP, the others being free, is the model's choice
(U67, log 43). -/
def Obligations.ConvertInstruction : Prop :=
  ∀ (f : Gen) (s s1 s2 u : State) (a b : FpOperand) (r : FpOut) (ovf unf toDec : Bool) (words : List Nat) (x : State),
    s.env = [] → s.mem.wf = true → s.cfg.fpu = true → f.a ≠ inactiveGroup →
    floatOperand f.a f.dA s.begun = .ok (a, s1) → a.bad = false → floatOperand f.b f.dB s1 = .ok (b, s2) → b.bad = false →
    a.word.toNat % 3 = 1 → conversionType a.word = (if toDec then 4 else 1) → (toDec = false → isDecimal 11 (mag b.word) = true) →
    r = (if toDec then convertToDecimal (Config.freeWord s2.free) b.word else convertToBinary (Config.freeWord s2.free) b.word) →
    x = State.claimed { s2 with free := s2.free + 1 } → settle x.pending b.flac (f.c != inactiveGroup) false 64 = (ovf, unf, none) →
    (x.floated toDec (f.c != inactiveGroup) r ovf unf).noAc.floatDelivered f.c f.dC r.flac u words →
    ∃ t, exec (.fcon f) s = .next t ∧ t = u.ended f.seq (f.c != inactiveGroup) ∧ t.flac = r.flac ∧ t.flacFixed = toDec ∧
      (toDec = false → Word.HasSignExponent t.flac (posSign b.word) 64 ∧ (f.c = inactiveGroup →
        mantissa t.flac * 10 ^ 11 + decimalValue 11 (mag t.flop) = decimalValue 11 (mag b.word) * 2 ^ 40)) ∧
      (toDec = true → fld t.flac 1 4 = (if mantissa b.word = 0 then 0b1000#4 else if bitAt b.word 1 then 0b1111#4 else 0#4) ∧
        (f.c = inactiveGroup → decimalValue 11 (mag t.flac) * 2 ^ 40 + mantissa t.flop = mantissa b.word * 10 ^ 11)) ∧
      (∀ n, n ∈ words → t.holds (.mem n) (MWord.good r.flac)) ∧
      FloatEnds s t f.seq (s.named f.a f.dA ++ s1.named f.b f.dB ++ s2.named f.c f.dC) words

/-- ULD with no exponent indicator set (R557): FLAC to A, then FLOP to C, and a hunt follows; with an inactive C, FLOP goes into FLAC and no hunt
follows. Free values stand for both registers where another group has used the unit since (R687, U71), and for FLOP where a hunt may have come
between (U60): `v` and `low` (log 43). The form of FLAC stays (R525), but after an inactive A and an active C, which leave FLAC undefined. -/
def Obligations.UnloadInstruction : Prop :=
  ∀ (f : Gen) (s v s2 u : State) (low : Word) (wordsA wordsC : List Nat),
    s.env = [] → s.mem.wf = true → s.cfg.fpu = true → f.b = inactiveGroup → f.dB = false → v = s.claimed →
    unloadEvent v = none → low = (if v.flopHeld then v.flop else Config.freeWord v.free) →
    (State.noAc { v with free := if v.flopHeld then v.free else v.free + 1 }).floatDelivered f.a f.dA v.flac s2 wordsA →
    s2.floatDelivered f.c f.dC low u wordsC →
    ∃ t, exec (.uld f) s = .next t ∧ t.flop = v.flop ∧ (f.c = inactiveGroup → t.flac = low) ∧
      (f.c ≠ inactiveGroup → f.a ≠ inactiveGroup → t.flac = v.flac) ∧
      (f.c = inactiveGroup ∨ f.a ≠ inactiveGroup → t.flacFixed = v.flacFixed) ∧
      (∀ n, n ∈ wordsC → t.holds (.mem n) (MWord.good low)) ∧ (∀ n, n ∈ wordsA → n ∉ wordsC → t.holds (.mem n) (MWord.good v.flac)) ∧
      (f.c = inactiveGroup → t.scan = none) ∧ (f.c ≠ inactiveGroup → s.limited = none → t.scan = some (s.cur + 1)) ∧
      FloatEnds s t f.seq (s.named f.a f.dA ++ s2.named f.c f.dC) (wordsA ++ wordsC)

/-! ### Addresses -/

/-- The address types (R182 to R184, R190 to R194): direct, the 11 bits in the bank of the controlling counter; indexed, the index register
with the augmenter added or subtracted by its sign; special register, of the executing group, or, indexed, of the group and subaddress that the
sum names; indirect, through such a register. A register is stepped by the increment after use (`Increments`), but not as a result. That an
indexed special register address is formed by the same sum, modulo `2^15`, is decision D35 (log 33). -/
def Obligations.AddressTypes : Prop :=
  ∀ (x : Group) (s : State), x ≠ inactiveGroup →
    (bitAt x 1 = false → locate x false s =
      .ok (.mem ((if s.ctl.arr then 32768 else 0) + (fld s.ctl.bits 2 5).toNat * 2048 + (fld x 2 12).toNat), s)) ∧
    (∀ (r : SReg) (k : Nat), bitAt x 1 = true → r = s.reg s.cur (BitVec.ofNat 5 (8 + (fld x 2 4).toNat)) → r.tag ≠ .bad →
      k = (fld x 5 12).toNat →
      (r.sign = true → r.addr + k < 32768 → locate x false s = .ok (.mem (r.full + k), s)) ∧
      (r.sign = false → k ≤ r.addr → locate x false s = .ok (.mem (r.full - k), s)) ∧
      ∀ (v : Nat) (h : BitVec 3) (i inc : BitVec 5), v = (if r.sign then r.addr + k else r.addr + 32768 - k) % 32768 →
        h = BitVec.ofNat 3 (v / 2048) → i = BitVec.ofNat 5 v → inc = BitVec.ofNat 5 (v / 64) →
        (v / 32 % 2 = 0 → locate x true s = .ok (.reg h i inc, s)) ∧
        (v / 32 % 2 = 1 → (s.reg h i).tag = .good → ∀ t, s.Increments h i inc.toNat t →
          locate x true s = .ok (.mem (s.reg h i).full, t))) ∧
    (bitAt x 1 = false → bitAt x 7 = false → locate x true s = .ok (.reg s.cur (fld x 8 12) (fld x 2 6), s)) ∧
    (bitAt x 1 = false → bitAt x 7 = true → (s.reg s.cur (fld x 8 12)).tag = .good →
      ∀ t, s.Increments s.cur (fld x 8 12) (fld x 2 6).toNat t → locate x true s = .ok (.mem (s.reg s.cur (fld x 8 12)).full, t)) ∧
    (∀ (h : BitVec 3) (i inc : BitVec 5) (t u : State), locate x true s = .ok (.reg h i inc, u) → s.Increments h i inc.toNat t →
      readOperand x true s = .ok (MWord.good (srToWord (s.reg h i)), t) ∧
      ∀ v, MWord.bad v = false → s.barsReg h i = false → writeResult x true v s = .ok ((), s.setReg h i (s.toSr v)))

/-- A restricted program that references a special register of a protected group does not increment it (R664): read as an operand, as an indirect
address, as a new counter, or as the first address of a group transfer, the register is left as it is, its contents are used, and no error is
raised. -/
def Obligations.ProtectedIncrements : Prop :=
  ∀ (s : State) (h : BitVec 3) (i inc : BitVec 5), s.barsReg h i = true →
    fetch (.reg h i inc) s = .ok (MWord.good (srToWord (s.reg h i)), s) ∧
    ((s.reg h i).tag ≠ .bad → registerLoc h i inc true s = .ok (.mem (s.reg h i).full, s) ∧
      ∀ nxt, counterFrom h i inc nxt s = .ok ({ s.reg h i with tag := .good }, s)) ∧
    (∀ (x : Group) (r : SReg) (v : SReg), x ≠ inactiveGroup → bitAt x 1 = true → r = s.reg s.cur (indexReg x) → r.tag ≠ .bad →
      v = (augment r (fld x 5 12).toNat).1 → fld v.bits 3 5 = h → fld v.bits 12 16 = i → fld v.bits 6 10 = inc →
      (bitAt v.bits 11 = false → readOperand x true s = .ok (MWord.good (srToWord (s.reg h i)), s)) ∧
      (bitAt v.bits 11 = true → (s.reg h i).tag ≠ .bad → locate x true s = .ok (.mem (s.reg h i).full, s) ∧
        auInit x true s = .ok (some (false, { s.reg h i with tag := .good }), s)))

/-! ### Encoding -/

/-- Decoding the encoding of a well-formed instruction gives the instruction back (R130 to R140, R146), whatever assignment of operation codes the
installation has: no bit of a field is lost. -/
def Obligations.DecodeEncode : Prop := ∀ (m : OpMap) (i : Instr), m.wf = true → WellFormed i = true → decode m (encode m i) = .ok i

/-- A word that is decoded is the encoding of the instruction it decodes to, which is well-formed (R132, R146), whatever assignment of operation
codes the installation has: each word has one meaning. That a print word of mode 00 is given to PRO is the model's choice (log 13). -/
def Obligations.EncodeDecode : Prop :=
  ∀ (m : OpMap) (w : Word) (i : Instr), m.wf = true → decode m w = .ok i → encode m i = w ∧ WellFormed i = true

/-- Some words, written out from the default operation codes of R146 and the layouts of R133 to R140. The default assignment is decision D30, one of
the parameters (log 12). -/
def Obligations.DecodeWords : Prop :=
  decode .default 0x409040041042#48 = .ok (.ba ⟨false, false, false, false, 0o100#12, 0o101#12, 0o102#12⟩) ∧
  decode .default 0x489088070088#48 = .ok (.ba ⟨false, false, true, false, 0o210#12, 0o160#12, 0o210#12⟩) ∧
  decode .default 0x0A9040041042#48 = .ok (.baM ⟨false, 0b00010#5, 0o100#12, 0o101#12, 0o102#12⟩) ∧
  decode .default 0x543004FFF002#48 = .ok (.tx ⟨false, true, false, true, 0o4#12, 0o7777#12, 0o2#12⟩) ∧
  decode .default 0x504010089200#48 = .ok (.na ⟨false, true, false, false, 0o20#12, 0o211#12, 0o1000#12⟩) ∧
  decode .default 0x48500000008A#48 = .ok (.mpc ⟨false, false, true, false, 0#12, 0#12, 0o212#12⟩) ∧
  decode .default 0x000000000FFF#48 = .ok (.pr ⟨false, false, false, false, 0#12, 0#12, 0o7777#12⟩) ∧
  decode .default 0x232080FFF100#48 = .ok (.rf ⟨1#3, 0#3, 0o200#12, 0o7777#12, 0o400#12⟩) ∧
  decode .default 0x0360400800C0#48 = .ok (.pra ⟨false, false, false, false, false, false, 0o100#12, 0o200#12, 0o300#12⟩) ∧
  decode .default 0x0470800000C0#48 = .ok (.sDir ⟨0b00001000#8, 0o200#12, 0#12, 0o300#12⟩) ∧
  decode .default 0x201040041042#48 = .ok (.fba ⟨false, false, false, false, 0o100#12, 0o101#12, 0o102#12⟩) ∧
  decode .default 0x406040B00042#48 = .ok (.sws ⟨false, false, false, false, 0o100#12, 0o5400#12, 0o102#12⟩) ∧
  decode .default 0x408040041042#48 = .ok (.ha ⟨false, false, false, false, 0o100#12, 0o101#12, 0o102#12⟩) ∧
  decode .default 0x002000000000#48 = .error .unassigned

/-! ### The machine -/

/-- After reset (R682): nothing in demand, no error, no interlock, group 0, every bisequence bit the sequence counter, the devices idle, the
barricade disabled; the machine then does nothing (R633). That unread registers and memory are zero, the installation, and what the
operators set on the devices, are the model's choices (logs 1 to 6, 62). -/
def Obligations.ResetState : Prop :=
  State.reset.Inv ∧ State.reset.pcr = 0#48 ∧ State.reset.cur = 0#3 ∧ State.reset.acState = .undefined ∧
    (∀ g, State.reset.inDemand g = false ∧ State.reset.bis g = false ∧ State.reset.restricted g = false) ∧
    (∀ g i, (State.reset.reg g i).tag = .good) ∧ (∀ a, MWord.bad (State.reset.mem.word a) = false) ∧
    (∀ d ch dev, State.reset.dev d ch dev = Device.idle) ∧ (∀ d ch, State.reset.xfer d ch = none) ∧
    (State.reset.flacOvf || State.reset.flacUnf || State.reset.flopOvf || State.reset.flopUnf || State.reset.flacFixed ||
      State.reset.fpCheckPending || State.reset.halted || State.reset.byUtr) = false ∧
    fld State.reset.bar 1 3 = 0#3 ∧ fld State.reset.bar 9 13 = BitVec.allOnes 5 ∧ fld State.reset.bar 17 24 = 0#8 ∧
    step State.reset = .next State.reset

/-- Every step keeps the invariant, from every state that has it: memory in canonical form, the unassigned bit of the PCR and the unused bits of
the barricade register zero, and that register's parity bit the one its loading generates (R45, R50). The canonical form of memory is the model's
(log 8), and the sense of the parity bit its choice (log 58); that PCR bit 17 stays as reset leaves it is read from R45 and R682 by inference
(log 53). -/
def Obligations.StepInvariant : Prop := ∀ s t, s.Inv → step s = .next t → t.Inv

/-- The barricade (R660): no instruction of a restricted program alters memory above the boundary, or a register of a protected group other than
the read-write counters; and nothing but the barricade load form moves the boundary or releases a program. -/
def Obligations.BarricadeProtects : Prop :=
  ∀ (i : Instr) (s t : State), s.env = [] → exec i s = .next t → loadsBarricade i = false →
    t.boundary = s.boundary ∧ (∀ g, t.restricted g = s.restricted g) ∧
    (s.restricted s.cur = true →
      (∀ n, s.boundary < n / 8 → t.mem.byte n = s.mem.byte n) ∧
      (∀ h j, s.restricted h = false → j.toNat < 28 → t.reg h j = s.reg h j))

/-- A step runs the instruction it selects (R32, R180, R602): that of the word at the address in the counter the bisequence bit names, the counter
being stepped as soon as it has selected; or that of the unprogrammed transfer table entry, no counter being stepped. Nothing else of the
state has changed when the instruction starts but what records the selection. That its addresses refer to the bank of the counter as it was before
that step is decision D36 (log 51). -/
def Obligations.StepRunsDecoded : Prop :=
  (∀ (s q : State) (g : BitVec 3) (c : Ctr) (r : SReg) (i : Instr),
    s.Selects q g c r → r.tag = .good → ¬ (r.sign = false ∧ r.addr = 0) → s.exists? r.full = true →
    MWord.bad (s.mem.word r.full) = false → decode s.cfg.opmap (s.mem.word r.full).bits = .ok i →
    ∃ u, step s = exec i u ∧ u.sel = c ∧ u.ctl = r ∧ u.byUtr = false ∧ u.scan = none ∧ u.cur = g ∧
      u.stalls = s.stalls.set g.toNat .running g.isLt ∧
      (∀ n, 1 ≤ n → n ≤ 48 → ¬ (18 ≤ n ∧ n ≤ 20) → bitAt u.pcr n = bitAt s.pcr n) ∧
      (∀ h j, (h, j) ≠ (g, c.ix) → u.reg h j = s.reg h j) ∧
      (s.atStopper r = false → r.addr + 1 < 32768 →
        u.reg g c.ix = r.withAddr (if r.sign then r.addr + 1 else r.addr - 1)) ∧
      { u with
        pcr := s.pcr, regs := s.regs, stalls := s.stalls, scan := s.scan, sel := s.sel, ctl := s.ctl, byUtr := s.byUtr,
        free := s.free, firstOn := s.firstOn, consoleServed := s.consoleServed } = s) ∧
  (∀ (s : State) (j : Nat) (i : Instr),
    s.halted = false → s.env = [] → s.grant = none → s.limited = none → s.utEntry = some j → s.exists? j = true →
    MWord.bad (s.mem.word j) = false → decode s.cfg.opmap (s.mem.word j).bits = .ok i →
    step s = exec i { s with utEntry := none, scan := none, byUtr := true, ctl := s.reg s.cur utrIx })

/-- Where no instruction can be selected (R33, R92, R147, R490, R610, R621, R622, R662, R666): a counter that holds minus zero, bad parity, or
has gone beyond the stopper stops the machine with code 00011; an address that does not exist, or lies beyond the boundary, is control error
00001; a word of bad parity is 01010, or 10010 for a simulator instruction or an entry of the unprogrammed transfer table; and an unassigned
command code is the installation's. A stopped machine does nothing more. The code 00011 for such counters is decision D21 (log 18), what a counter
at the stopper holds is the model's (log 16), that a counter given an indexed C whose sum left 15 bits is control error 00001 at its next selection,
and not before, is its choice, the spec being silent (log 33), the boundary crossing is a derived sentence of R662 (log 17), and that an unassigned
code is a control error is D32 (log 14). That with the barricade a simulator instruction of bad parity is performed, and its program then turned
off, is read from R666's list of class (b) by inference (log 63). That a stopped machine's step leaves it as it is is the model's choice (log 19). -/
def Obligations.SelectionErrors : Prop :=
  (∀ (s q : State) (g : BitVec 3) (c : Ctr) (r : SReg), s.Selects q g c r →
    (r.tag = .bad ∨ r.tag = .ended ∨ (r.sign = false ∧ r.addr = 0) →
      ∃ t, step s = .next t ∧ t.halted = true ∧ fld t.pcr 4 8 = 0b00011#5 ∧ t.mem = s.mem) ∧
    (r.tag ≠ .bad → r.tag ≠ .ended → ¬ (r.sign = false ∧ r.addr = 0) →
      (r.tag = .crossed ∨ r.tag = .lost ∨ s.exists? r.full = false → s.Stops g 0b00001#5) ∧
      (r.tag = .good → s.exists? r.full = true → MWord.bad (s.mem.word r.full) = true →
        (fld (s.mem.word r.full).bits 10 12 ≠ 0b111#3 → s.Stops g 0b01010#5) ∧
        (fld (s.mem.word r.full).bits 10 12 = 0b111#3 → s.cfg.barricade = false → s.Stops g 0b10010#5) ∧
        (∀ i, fld (s.mem.word r.full).bits 10 12 = 0b111#3 → s.cfg.barricade = true → decode s.cfg.opmap (s.mem.word r.full).bits = .ok i →
          ∃ u, step s = runSelected i u ∧ u.limited = some ⟨0b10010#5, g, false⟩ ∧ u.cur = g ∧ u.sel = c ∧ u.ctl = r ∧
            u.byUtr = false ∧ u.mem = s.mem)) ∧
      (∀ e, r.tag = .good → s.exists? r.full = true → MWord.bad (s.mem.word r.full) = false →
        decode s.cfg.opmap (s.mem.word r.full).bits = .error e → s.Stops g s.cfg.illegalOp))) ∧
  (∀ (s : State) (j : Nat),
    s.halted = false → s.env = [] → s.grant = none → s.limited = none → s.utEntry = some j →
    (s.exists? j = false → s.Stops s.cur 0b00001#5) ∧
    (s.exists? j = true → MWord.bad (s.mem.word j) = true → s.Stops s.cur 0b10010#5)) ∧
  (∀ s : State, s.halted = true → step s = .next s)
end

