-- ==== Sys2Proof/Laws/Op.lean ====
section
/-! SUPPORT. Running an operation of the processor: what each building block answers. -/
namespace Sys2Proof.Machine

theorem Op.bind_run {α β : Type} (m : Op α) (f : α → Op β) (s : State) :
    (m >>= f) s = match m s with
      | .ok (a, t) => f a t
      | .error e => .error e := by
  show StateT.bind m f s = _
  unfold StateT.bind
  show Except.bind (m s) _ = _
  unfold Except.bind
  split <;> simp_all

theorem Op.bind_ok {α β : Type} {m : Op α} {f : α → Op β} {s t : State} {a : α} (h : m s = .ok (a, t)) : (m >>= f) s = f a t := by
  rw [Op.bind_run, h]

theorem Op.bind_error {α β : Type} {m : Op α} {f : α → Op β} {s : State} {e : Stop} (h : m s = .error e) :
    (m >>= f) s = .error e := by
  rw [Op.bind_run, h]

@[simp] theorem Op.pure_run {α : Type} (a : α) (s : State) : (pure a : Op α) s = .ok (a, s) := rfl
@[simp] theorem Op.get_run (s : State) : (get : Op State) s = .ok (s, s) := rfl
@[simp] theorem Op.update_run (f : State → State) (s : State) : update f s = .ok ((), f s) := rfl
@[simp] theorem Op.refuse_run {α : Type} (r : Refusal) (s : State) : (refuse r : Op α) s = .error (.refuse r) := rfl
@[simp] theorem Op.fail_run {α : Type} (f : Fault) (s : State) : (fail f : Op α) s = .error (.fault f) := rfl
@[simp] theorem Op.critical_run {α : Type} (c : BitVec 5) (s : State) : (critical c : Op α) s = .error (.error false c s) := rfl
@[simp] theorem Op.offError_run {α : Type} (c : BitVec 5) (s : State) : (offError c : Op α) s = .error (.error true c s) := rfl
@[simp] theorem Op.finishNow_run {α : Type} (s : State) : (finishNow : Op α) s = .error (.done s) := rfl
@[simp] theorem Op.fresh_run (s : State) : fresh s = .ok (Config.freeWord s.free, { s with free := s.free + 1 }) := rfl
@[simp] theorem Op.freshBool_run (s : State) : freshBool s = .ok (Config.freeBool s.free, { s with free := s.free + 1 }) := rfl

theorem Op.softError_run (c : BitVec 5) (s : State) :
    softError c s = if s.cfg.barricade then .ok ((), s.flag c) else .error (.error false c s) := rfl

/-- An operation that answers makes a step. -/
theorem perform_ok {m : Op Unit} {s t : State} (h : m s = .ok ((), t)) : perform m s = .next t := by
  unfold perform; rw [h]

/-- Every way an operation makes a next state. -/
theorem perform_next {m : Op Unit} {s t : State} (h : perform m s = .next t) :
    m s = .ok ((), t) ∨ m s = .error (.done t) ∨
      ∃ l c u, m s = .error (.error l c u) ∧
        ((l = true ∧ s.cfg.barricade = true ∧ t = s.caught u c) ∨
          ((l = false ∨ s.cfg.barricade = false) ∧ t = u.halt c)) := by
  unfold perform at h
  split at h
  · left; rw [← Host.Outcome.next.inj h]; assumption
  · right; left; rw [← Host.Outcome.next.inj h]; assumption
  · rename_i l c u hm
    right; right
    refine ⟨l, c, u, hm, ?_⟩
    split at h
    · rename_i hl
      rw [Bool.and_eq_true] at hl
      exact Or.inl ⟨hl.1, hl.2, (Host.Outcome.next.inj h).symm⟩
    · rename_i hl
      refine Or.inr ⟨?_, (Host.Outcome.next.inj h).symm⟩
      rw [Bool.and_eq_true, not_and_or, Bool.not_eq_true, Bool.not_eq_true] at hl
      exact hl
  · exact nomatch h
  · exact nomatch h

end Sys2Proof.Machine
end

