-- ==== Sys2Proof/Laws/Bits.lean ====
section
/-! SUPPORT. Bits and fields in the manual's numbering: reading after writing. -/
namespace Sys2Proof.Machine

theorem getLsbD_setBitAt {n : Nat} (w : BitVec n) (i : Nat) (b : Bool) (k : Nat) :
    (setBitAt w i b).getLsbD k = if k = n - i ∧ k < n then b else w.getLsbD k := by
  unfold setBitAt
  by_cases hk : k < n
  · by_cases h : k = n - i
    · subst h
      cases b <;> simp [hk]
    · have h' : ¬ (n - i ≤ k ∧ k - (n - i) = 0) := by omega
      cases b <;> simp [h, hk] <;> intros <;> omega
  · rw [BitVec.getLsbD_of_ge _ _ (by omega)]
    simp [hk, BitVec.getLsbD_of_ge w k (by omega)]

theorem getLsbD_setFld {n : Nat} (w : BitVec n) (i j : Nat) (v : BitVec (j + 1 - i)) (k : Nat) :
    (setFld w i j v).getLsbD k =
      if n - j ≤ k ∧ k < n - j + (j + 1 - i) ∧ k < n then v.getLsbD (k - (n - j)) else w.getLsbD k := by
  unfold setFld
  by_cases hk : k < n
  · by_cases h : n - j ≤ k
    · by_cases h2 : k - (n - j) < j + 1 - i
      · have h3 : k < n - j + (j + 1 - i) := by omega
        simp [h, h2, h3, hk, show ¬ k < n - j by omega]
      · have h3 : ¬ k < n - j + (j + 1 - i) := by omega
        simp [h, h2, h3, hk, show ¬ k < n - j by omega, BitVec.getLsbD_of_ge v (k - (n - j)) (by omega)]
    · have h2 : k < n - j := by omega
      simp [h, h2, hk]
  · rw [BitVec.getLsbD_of_ge _ _ (by omega)]
    simp [hk, BitVec.getLsbD_of_ge w k (by omega)]

/-- A bit of the word after one bit is written. -/
theorem bitAt_setBitAt {n : Nat} (w : BitVec n) {i k : Nat} (b : Bool) (hi : 1 ≤ i ∧ i ≤ n) (hk : 1 ≤ k ∧ k ≤ n) :
    bitAt (setBitAt w i b) k = if k = i then b else bitAt w k := by
  unfold bitAt
  rw [getLsbD_setBitAt]
  by_cases h : k = i
  · subst h; simp; omega
  · rw [if_neg h, if_neg (by omega)]

/-- A field that does not contain the bit written. -/
theorem fld_setBitAt {n : Nat} (w : BitVec n) {i a z : Nat} (b : Bool) (hz : z ≤ n) (hi : 1 ≤ i ∧ i ≤ n)
    (h : i < a ∨ z < i) : fld (setBitAt w i b) a z = fld w a z := by
  unfold fld
  apply BitVec.eq_of_getLsbD_eq
  intro k hk
  simp only [BitVec.getLsbD_extractLsb', getLsbD_setBitAt]
  rw [if_neg (by omega)]

/-- A bit outside the field written. -/
theorem bitAt_setFld {n : Nat} (w : BitVec n) {i j k : Nat} (v : BitVec (j + 1 - i)) (hj : j ≤ n) (hk : 1 ≤ k ∧ k ≤ n)
    (h : k < i ∨ j < k) : bitAt (setFld w i j v) k = bitAt w k := by
  unfold bitAt
  rw [getLsbD_setFld, if_neg (by omega)]

/-- A field apart from the field written. -/
theorem fld_setFld_other {n : Nat} (w : BitVec n) {i j a z : Nat} (v : BitVec (j + 1 - i)) (hj : j ≤ n) (hz : z ≤ n)
    (h : z < i ∨ j < a) : fld (setFld w i j v) a z = fld w a z := by
  unfold fld
  apply BitVec.eq_of_getLsbD_eq
  intro k hk
  simp only [BitVec.getLsbD_extractLsb', getLsbD_setFld]
  rw [if_neg (by omega)]

/-- The field written. -/
theorem fld_setFld_self {n : Nat} (w : BitVec n) {i j : Nat} (v : BitVec (j + 1 - i)) (hj : j ≤ n) (hi : 1 ≤ i) :
    fld (setFld w i j v) i j = v := by
  unfold fld
  apply BitVec.eq_of_getLsbD_eq
  intro k hk
  simp only [BitVec.getLsbD_extractLsb', getLsbD_setFld]
  rw [if_pos (by omega)]
  simp [hk]

end Sys2Proof.Machine
end

