-- ==== Sys2Proof/Laws/Memory.lean ====
section
/-! SUPPORT. The laws of main memory: reading after writing, and the canonical form, for a byte and for a word. -/
namespace Sys2Proof.Machine

/-! ### Bytes -/

/-- Bytes other than the one written: in any memory, canonical or not. -/
theorem Memory.byte_setByte_other {m : Memory} {a n : Nat} (h : n ≠ a) (b : BitVec 8) :
    Memory.byte (Memory.setByte m a b) n = Memory.byte m n := by
  induction m with
  | nil =>
    simp only [Memory.setByte]
    split <;> simp [Memory.byte, h.symm]
  | cons p t ih =>
    obtain ⟨k, c⟩ := p
    simp only [Memory.setByte]
    split
    · split <;> simp [Memory.byte, h.symm]
    · split
      · rename_i _ hak
        subst hak
        split <;> simp [Memory.byte, h.symm]
      · simp only [Memory.byte, ih]

theorem Memory.wfAbove_mono {lo lo' : Nat} (h : lo ≤ lo') {m : Memory} (w : Memory.wfAbove lo' m = true) :
    Memory.wfAbove lo m = true := by
  cases m with
  | nil => rfl
  | cons p t =>
    simp only [Memory.wfAbove, Bool.and_eq_true, decide_eq_true_eq] at w ⊢
    exact ⟨⟨by omega, w.1.2⟩, w.2⟩

/-- Below the lowest address nothing is listed. -/
theorem Memory.byte_below {m : Memory} :
    ∀ {lo a : Nat}, Memory.wfAbove lo m = true → a < lo → Memory.byte m a = unlistedByte := by
  induction m with
  | nil => intros; rfl
  | cons p t ih =>
    intro lo a w h
    simp only [Memory.wfAbove, Bool.and_eq_true, decide_eq_true_eq] at w
    simp only [Memory.byte]
    rw [if_neg (by omega)]
    exact ih w.2 (by omega)

/-- The byte written, in a canonical memory. -/
theorem Memory.byte_setByte_self {m : Memory} :
    ∀ {lo : Nat}, Memory.wfAbove lo m = true → ∀ (a : Nat) (b : BitVec 8), Memory.byte (Memory.setByte m a b) a = b := by
  induction m with
  | nil =>
    intro lo _ a b
    simp only [Memory.setByte]
    split
    · rename_i hb; simp [hb, Memory.byte]
    · simp [Memory.byte]
  | cons p t ih =>
    obtain ⟨k, c⟩ := p
    intro lo w a b
    simp only [Memory.wfAbove, Bool.and_eq_true, decide_eq_true_eq] at w
    simp only [Memory.setByte]
    split
    · have below : Memory.byte t a = unlistedByte := Memory.byte_below w.2 (by omega)
      split
      · rename_i hb; simp [Memory.byte, hb, below, show k ≠ a by omega]
      · simp [Memory.byte]
    · split
      · rename_i _ hak
        subst hak
        have below : Memory.byte t a = unlistedByte := Memory.byte_below w.2 (by omega)
        split
        · rename_i hb; simp [hb, below]
        · simp [Memory.byte]
      · simp only [Memory.byte, ih w.2, show k ≠ a by omega, if_false]

theorem Memory.setByte_wfAbove {m : Memory} :
    ∀ {lo : Nat}, Memory.wfAbove lo m = true → ∀ {a : Nat} (b : BitVec 8), lo ≤ a →
      Memory.wfAbove lo (Memory.setByte m a b) = true := by
  induction m with
  | nil =>
    intro lo _ a b h
    simp only [Memory.setByte]
    split
    · rfl
    · rename_i hb; simp [Memory.wfAbove, h, hb]
  | cons p t ih =>
    obtain ⟨k, c⟩ := p
    intro lo w a b h
    have w' := w
    simp only [Memory.wfAbove, Bool.and_eq_true, decide_eq_true_eq] at w
    simp only [Memory.setByte]
    split
    · split
      · exact w'
      · rename_i hak hb
        simp only [Memory.wfAbove, Bool.and_eq_true, decide_eq_true_eq]
        exact ⟨⟨h, hb⟩, ⟨by omega, w.1.2⟩, w.2⟩
    · split
      · rename_i _ hak
        split
        · exact Memory.wfAbove_mono (by omega) w.2
        · rename_i hb
          simp only [Memory.wfAbove, Bool.and_eq_true, decide_eq_true_eq]
          exact ⟨⟨h, hb⟩, by subst hak; exact w.2⟩
      · simp only [Memory.wfAbove, Bool.and_eq_true, decide_eq_true_eq]
        exact ⟨w.1, ih w.2 b (by omega)⟩

/-- Writing a byte keeps the canonical form. -/
theorem Memory.setByte_wf {m : Memory} (w : m.wf = true) (a : Nat) (b : BitVec 8) :
    Memory.wf (Memory.setByte m a b) = true :=
  Memory.setByte_wfAbove w b (Nat.zero_le a)

/-! ### Words -/

/-- Writing a word keeps the canonical form. -/
theorem Memory.setWord_wf {m : Memory} (w : m.wf = true) (a : Nat) (v : MWord) : Memory.wf (m.setWord a v) = true := by
  unfold Memory.setWord
  iterate 7 apply Memory.setByte_wf
  exact w

/-- Writing a word leaves every byte outside it alone: in any memory. -/
theorem Memory.byte_setWord_other {m : Memory} {a n : Nat} (h : n / 8 ≠ a) (v : MWord) :
    Memory.byte (m.setWord a v) n = Memory.byte m n := by
  unfold Memory.setWord
  rw [Memory.byte_setByte_other (by omega), Memory.byte_setByte_other (by omega), Memory.byte_setByte_other (by omega),
    Memory.byte_setByte_other (by omega), Memory.byte_setByte_other (by omega), Memory.byte_setByte_other (by omega),
    Memory.byte_setByte_other (by omega)]

/-- The six bytes of a word make the word. -/
theorem wordOfBytes_wordBytes (w : Word) : wordOfBytes (wordBytes w) = w := by
  have h : w.toNat < 2 ^ 48 := w.isLt
  apply BitVec.eq_of_toNat_eq
  simp only [wordOfBytes, wordBytes, fld, List.getD_cons_zero, List.getD_cons_succ, BitVec.extractLsb'_toNat,
    Nat.shiftRight_eq_div_pow, BitVec.toNat_ofNat]
  omega

/-- The word written, in a canonical memory. -/
theorem Memory.word_setWord_self {m : Memory} (w : m.wf = true) (a : Nat) (v : MWord) : (m.setWord a v).word a = v := by
  have w1 := Memory.setByte_wf w (8 * a) (fld v.bits 1 8)
  have w2 := Memory.setByte_wf w1 (8 * a + 1) (fld v.bits 9 16)
  have w3 := Memory.setByte_wf w2 (8 * a + 2) (fld v.bits 17 24)
  have w4 := Memory.setByte_wf w3 (8 * a + 3) (fld v.bits 25 32)
  have w5 := Memory.setByte_wf w4 (8 * a + 4) (fld v.bits 33 40)
  have w6 := Memory.setByte_wf w5 (8 * a + 5) (fld v.bits 41 48)
  obtain ⟨b, p⟩ := v
  have hb := wordOfBytes_wordBytes b
  unfold wordBytes at hb
  unfold Memory.word Memory.setWord
  rw [MWord.mk.injEq]
  constructor
  · refine Eq.trans (congrArg wordOfBytes ?_) hb
    simp (disch := omega) only [Memory.byte_setByte_other, Memory.byte_setByte_self w, Memory.byte_setByte_self w1,
      Memory.byte_setByte_self w2, Memory.byte_setByte_self w3, Memory.byte_setByte_self w4, Memory.byte_setByte_self w5]
  · rw [Memory.byte_setByte_self w6]; simp

/-- Words other than the one written: in any memory. -/
theorem Memory.word_setWord_other {m : Memory} {a n : Nat} (h : n ≠ a) (v : MWord) :
    (m.setWord a v).word n = m.word n := by
  unfold Memory.word
  rw [Memory.byte_setWord_other (by omega), Memory.byte_setWord_other (by omega), Memory.byte_setWord_other (by omega),
    Memory.byte_setWord_other (by omega), Memory.byte_setWord_other (by omega), Memory.byte_setWord_other (by omega),
    Memory.byte_setWord_other (by omega)]

end Sys2Proof.Machine
end

