-- ==== Sys2Proof/Laws/State.lean ====
section
/-! SUPPORT. One lemma per field per update of the state: an update changes its own fields only. -/
namespace Sys2Proof.Machine

/-! `setReg` -/

@[simp] theorem State.setReg_cfg (s : State) (h : BitVec 3) (i : BitVec 5) (r : SReg) : (s.setReg h i r).cfg = s.cfg := rfl
@[simp] theorem State.setReg_mem (s : State) (h : BitVec 3) (i : BitVec 5) (r : SReg) : (s.setReg h i r).mem = s.mem := rfl
@[simp] theorem State.setReg_ac (s : State) (h : BitVec 3) (i : BitVec 5) (r : SReg) : (s.setReg h i r).ac = s.ac := rfl
@[simp] theorem State.setReg_acSign (s : State) (h : BitVec 3) (i : BitVec 5) (r : SReg) : (s.setReg h i r).acSign = s.acSign := rfl
@[simp] theorem State.setReg_acState (s : State) (h : BitVec 3) (i : BitVec 5) (r : SReg) : (s.setReg h i r).acState = s.acState := rfl
@[simp] theorem State.setReg_lop (s : State) (h : BitVec 3) (i : BitVec 5) (r : SReg) : (s.setReg h i r).lop = s.lop := rfl
@[simp] theorem State.setReg_lopHeld (s : State) (h : BitVec 3) (i : BitVec 5) (r : SReg) : (s.setReg h i r).lopHeld = s.lopHeld := rfl
@[simp] theorem State.setReg_heldMask (s : State) (h : BitVec 3) (i : BitVec 5) (r : SReg) : (s.setReg h i r).heldMask = s.heldMask := rfl
@[simp] theorem State.setReg_mr (s : State) (h : BitVec 3) (i : BitVec 5) (r : SReg) : (s.setReg h i r).mr = s.mr := rfl
@[simp] theorem State.setReg_pcr (s : State) (h : BitVec 3) (i : BitVec 5) (r : SReg) : (s.setReg h i r).pcr = s.pcr := rfl
@[simp] theorem State.setReg_flac (s : State) (h : BitVec 3) (i : BitVec 5) (r : SReg) : (s.setReg h i r).flac = s.flac := rfl
@[simp] theorem State.setReg_flop (s : State) (h : BitVec 3) (i : BitVec 5) (r : SReg) : (s.setReg h i r).flop = s.flop := rfl
@[simp] theorem State.setReg_flopHeld (s : State) (h : BitVec 3) (i : BitVec 5) (r : SReg) : (s.setReg h i r).flopHeld = s.flopHeld := rfl
@[simp] theorem State.setReg_fpuGroup (s : State) (h : BitVec 3) (i : BitVec 5) (r : SReg) : (s.setReg h i r).fpuGroup = s.fpuGroup := rfl
@[simp] theorem State.setReg_flacOvf (s : State) (h : BitVec 3) (i : BitVec 5) (r : SReg) : (s.setReg h i r).flacOvf = s.flacOvf := rfl
@[simp] theorem State.setReg_flacUnf (s : State) (h : BitVec 3) (i : BitVec 5) (r : SReg) : (s.setReg h i r).flacUnf = s.flacUnf := rfl
@[simp] theorem State.setReg_flopOvf (s : State) (h : BitVec 3) (i : BitVec 5) (r : SReg) : (s.setReg h i r).flopOvf = s.flopOvf := rfl
@[simp] theorem State.setReg_flopUnf (s : State) (h : BitVec 3) (i : BitVec 5) (r : SReg) : (s.setReg h i r).flopUnf = s.flopUnf := rfl
@[simp] theorem State.setReg_flacFixed (s : State) (h : BitVec 3) (i : BitVec 5) (r : SReg) : (s.setReg h i r).flacFixed = s.flacFixed := rfl
@[simp] theorem State.setReg_fpCheckPending (s : State) (h : BitVec 3) (i : BitVec 5) (r : SReg) : (s.setReg h i r).fpCheckPending = s.fpCheckPending := rfl
@[simp] theorem State.setReg_stalls (s : State) (h : BitVec 3) (i : BitVec 5) (r : SReg) : (s.setReg h i r).stalls = s.stalls := rfl
@[simp] theorem State.setReg_stallOrder (s : State) (h : BitVec 3) (i : BitVec 5) (r : SReg) : (s.setReg h i r).stallOrder = s.stallOrder := rfl
@[simp] theorem State.setReg_firstOn (s : State) (h : BitVec 3) (i : BitVec 5) (r : SReg) : (s.setReg h i r).firstOn = s.firstOn := rfl
@[simp] theorem State.setReg_scan (s : State) (h : BitVec 3) (i : BitVec 5) (r : SReg) : (s.setReg h i r).scan = s.scan := rfl
@[simp] theorem State.setReg_consoleQ (s : State) (h : BitVec 3) (i : BitVec 5) (r : SReg) : (s.setReg h i r).consoleQ = s.consoleQ := rfl
@[simp] theorem State.setReg_consoleServed (s : State) (h : BitVec 3) (i : BitVec 5) (r : SReg) : (s.setReg h i r).consoleServed = s.consoleServed := rfl
@[simp] theorem State.setReg_consoleOut (s : State) (h : BitVec 3) (i : BitVec 5) (r : SReg) : (s.setReg h i r).consoleOut = s.consoleOut := rfl
@[simp] theorem State.setReg_byUtr (s : State) (h : BitVec 3) (i : BitVec 5) (r : SReg) : (s.setReg h i r).byUtr = s.byUtr := rfl
@[simp] theorem State.setReg_sel (s : State) (h : BitVec 3) (i : BitVec 5) (r : SReg) : (s.setReg h i r).sel = s.sel := rfl
@[simp] theorem State.setReg_ctl (s : State) (h : BitVec 3) (i : BitVec 5) (r : SReg) : (s.setReg h i r).ctl = s.ctl := rfl
@[simp] theorem State.setReg_utEntry (s : State) (h : BitVec 3) (i : BitVec 5) (r : SReg) : (s.setReg h i r).utEntry = s.utEntry := rfl
@[simp] theorem State.setReg_limited (s : State) (h : BitVec 3) (i : BitVec 5) (r : SReg) : (s.setReg h i r).limited = s.limited := rfl
@[simp] theorem State.setReg_halted (s : State) (h : BitVec 3) (i : BitVec 5) (r : SReg) : (s.setReg h i r).halted = s.halted := rfl
@[simp] theorem State.setReg_bar (s : State) (h : BitVec 3) (i : BitVec 5) (r : SReg) : (s.setReg h i r).bar = s.bar := rfl
@[simp] theorem State.setReg_barParity (s : State) (h : BitVec 3) (i : BitVec 5) (r : SReg) : (s.setReg h i r).barParity = s.barParity := rfl
@[simp] theorem State.setReg_devs (s : State) (h : BitVec 3) (i : BitVec 5) (r : SReg) : (s.setReg h i r).devs = s.devs := rfl
@[simp] theorem State.setReg_xfers (s : State) (h : BitVec 3) (i : BitVec 5) (r : SReg) : (s.setReg h i r).xfers = s.xfers := rfl
@[simp] theorem State.setReg_demands (s : State) (h : BitVec 3) (i : BitVec 5) (r : SReg) : (s.setReg h i r).demands = s.demands := rfl
@[simp] theorem State.setReg_typing (s : State) (h : BitVec 3) (i : BitVec 5) (r : SReg) : (s.setReg h i r).typing = s.typing := rfl
@[simp] theorem State.setReg_typeSpoiled (s : State) (h : BitVec 3) (i : BitVec 5) (r : SReg) : (s.setReg h i r).typeSpoiled = s.typeSpoiled := rfl
@[simp] theorem State.setReg_mtfConsole (s : State) (h : BitVec 3) (i : BitVec 5) (r : SReg) : (s.setReg h i r).mtfConsole = s.mtfConsole := rfl
@[simp] theorem State.setReg_mtfSlave (s : State) (h : BitVec 3) (i : BitVec 5) (r : SReg) : (s.setReg h i r).mtfSlave = s.mtfSlave := rfl
@[simp] theorem State.setReg_typedConsole (s : State) (h : BitVec 3) (i : BitVec 5) (r : SReg) : (s.setReg h i r).typedConsole = s.typedConsole := rfl
@[simp] theorem State.setReg_typedSlave (s : State) (h : BitVec 3) (i : BitVec 5) (r : SReg) : (s.setReg h i r).typedSlave = s.typedSlave := rfl
@[simp] theorem State.setReg_env (s : State) (h : BitVec 3) (i : BitVec 5) (r : SReg) : (s.setReg h i r).env = s.env := rfl
@[simp] theorem State.setReg_free (s : State) (h : BitVec 3) (i : BitVec 5) (r : SReg) : (s.setReg h i r).free = s.free := rfl

/-! `setPcrBit` -/

@[simp] theorem State.setPcrBit_cfg (s : State) (n : Nat) (b : Bool) : (s.setPcrBit n b).cfg = s.cfg := rfl
@[simp] theorem State.setPcrBit_mem (s : State) (n : Nat) (b : Bool) : (s.setPcrBit n b).mem = s.mem := rfl
@[simp] theorem State.setPcrBit_regs (s : State) (n : Nat) (b : Bool) : (s.setPcrBit n b).regs = s.regs := rfl
@[simp] theorem State.setPcrBit_ac (s : State) (n : Nat) (b : Bool) : (s.setPcrBit n b).ac = s.ac := rfl
@[simp] theorem State.setPcrBit_acSign (s : State) (n : Nat) (b : Bool) : (s.setPcrBit n b).acSign = s.acSign := rfl
@[simp] theorem State.setPcrBit_acState (s : State) (n : Nat) (b : Bool) : (s.setPcrBit n b).acState = s.acState := rfl
@[simp] theorem State.setPcrBit_lop (s : State) (n : Nat) (b : Bool) : (s.setPcrBit n b).lop = s.lop := rfl
@[simp] theorem State.setPcrBit_lopHeld (s : State) (n : Nat) (b : Bool) : (s.setPcrBit n b).lopHeld = s.lopHeld := rfl
@[simp] theorem State.setPcrBit_heldMask (s : State) (n : Nat) (b : Bool) : (s.setPcrBit n b).heldMask = s.heldMask := rfl
@[simp] theorem State.setPcrBit_mr (s : State) (n : Nat) (b : Bool) : (s.setPcrBit n b).mr = s.mr := rfl
@[simp] theorem State.setPcrBit_flac (s : State) (n : Nat) (b : Bool) : (s.setPcrBit n b).flac = s.flac := rfl
@[simp] theorem State.setPcrBit_flop (s : State) (n : Nat) (b : Bool) : (s.setPcrBit n b).flop = s.flop := rfl
@[simp] theorem State.setPcrBit_flopHeld (s : State) (n : Nat) (b : Bool) : (s.setPcrBit n b).flopHeld = s.flopHeld := rfl
@[simp] theorem State.setPcrBit_fpuGroup (s : State) (n : Nat) (b : Bool) : (s.setPcrBit n b).fpuGroup = s.fpuGroup := rfl
@[simp] theorem State.setPcrBit_flacOvf (s : State) (n : Nat) (b : Bool) : (s.setPcrBit n b).flacOvf = s.flacOvf := rfl
@[simp] theorem State.setPcrBit_flacUnf (s : State) (n : Nat) (b : Bool) : (s.setPcrBit n b).flacUnf = s.flacUnf := rfl
@[simp] theorem State.setPcrBit_flopOvf (s : State) (n : Nat) (b : Bool) : (s.setPcrBit n b).flopOvf = s.flopOvf := rfl
@[simp] theorem State.setPcrBit_flopUnf (s : State) (n : Nat) (b : Bool) : (s.setPcrBit n b).flopUnf = s.flopUnf := rfl
@[simp] theorem State.setPcrBit_flacFixed (s : State) (n : Nat) (b : Bool) : (s.setPcrBit n b).flacFixed = s.flacFixed := rfl
@[simp] theorem State.setPcrBit_fpCheckPending (s : State) (n : Nat) (b : Bool) : (s.setPcrBit n b).fpCheckPending = s.fpCheckPending := rfl
@[simp] theorem State.setPcrBit_stalls (s : State) (n : Nat) (b : Bool) : (s.setPcrBit n b).stalls = s.stalls := rfl
@[simp] theorem State.setPcrBit_stallOrder (s : State) (n : Nat) (b : Bool) : (s.setPcrBit n b).stallOrder = s.stallOrder := rfl
@[simp] theorem State.setPcrBit_firstOn (s : State) (n : Nat) (b : Bool) : (s.setPcrBit n b).firstOn = s.firstOn := rfl
@[simp] theorem State.setPcrBit_scan (s : State) (n : Nat) (b : Bool) : (s.setPcrBit n b).scan = s.scan := rfl
@[simp] theorem State.setPcrBit_consoleQ (s : State) (n : Nat) (b : Bool) : (s.setPcrBit n b).consoleQ = s.consoleQ := rfl
@[simp] theorem State.setPcrBit_consoleServed (s : State) (n : Nat) (b : Bool) : (s.setPcrBit n b).consoleServed = s.consoleServed := rfl
@[simp] theorem State.setPcrBit_consoleOut (s : State) (n : Nat) (b : Bool) : (s.setPcrBit n b).consoleOut = s.consoleOut := rfl
@[simp] theorem State.setPcrBit_byUtr (s : State) (n : Nat) (b : Bool) : (s.setPcrBit n b).byUtr = s.byUtr := rfl
@[simp] theorem State.setPcrBit_sel (s : State) (n : Nat) (b : Bool) : (s.setPcrBit n b).sel = s.sel := rfl
@[simp] theorem State.setPcrBit_ctl (s : State) (n : Nat) (b : Bool) : (s.setPcrBit n b).ctl = s.ctl := rfl
@[simp] theorem State.setPcrBit_utEntry (s : State) (n : Nat) (b : Bool) : (s.setPcrBit n b).utEntry = s.utEntry := rfl
@[simp] theorem State.setPcrBit_limited (s : State) (n : Nat) (b : Bool) : (s.setPcrBit n b).limited = s.limited := rfl
@[simp] theorem State.setPcrBit_halted (s : State) (n : Nat) (b : Bool) : (s.setPcrBit n b).halted = s.halted := rfl
@[simp] theorem State.setPcrBit_bar (s : State) (n : Nat) (b : Bool) : (s.setPcrBit n b).bar = s.bar := rfl
@[simp] theorem State.setPcrBit_barParity (s : State) (n : Nat) (b : Bool) : (s.setPcrBit n b).barParity = s.barParity := rfl
@[simp] theorem State.setPcrBit_devs (s : State) (n : Nat) (b : Bool) : (s.setPcrBit n b).devs = s.devs := rfl
@[simp] theorem State.setPcrBit_xfers (s : State) (n : Nat) (b : Bool) : (s.setPcrBit n b).xfers = s.xfers := rfl
@[simp] theorem State.setPcrBit_demands (s : State) (n : Nat) (b : Bool) : (s.setPcrBit n b).demands = s.demands := rfl
@[simp] theorem State.setPcrBit_typing (s : State) (n : Nat) (b : Bool) : (s.setPcrBit n b).typing = s.typing := rfl
@[simp] theorem State.setPcrBit_typeSpoiled (s : State) (n : Nat) (b : Bool) : (s.setPcrBit n b).typeSpoiled = s.typeSpoiled := rfl
@[simp] theorem State.setPcrBit_mtfConsole (s : State) (n : Nat) (b : Bool) : (s.setPcrBit n b).mtfConsole = s.mtfConsole := rfl
@[simp] theorem State.setPcrBit_mtfSlave (s : State) (n : Nat) (b : Bool) : (s.setPcrBit n b).mtfSlave = s.mtfSlave := rfl
@[simp] theorem State.setPcrBit_typedConsole (s : State) (n : Nat) (b : Bool) : (s.setPcrBit n b).typedConsole = s.typedConsole := rfl
@[simp] theorem State.setPcrBit_typedSlave (s : State) (n : Nat) (b : Bool) : (s.setPcrBit n b).typedSlave = s.typedSlave := rfl
@[simp] theorem State.setPcrBit_env (s : State) (n : Nat) (b : Bool) : (s.setPcrBit n b).env = s.env := rfl
@[simp] theorem State.setPcrBit_free (s : State) (n : Nat) (b : Bool) : (s.setPcrBit n b).free = s.free := rfl

/-! `setCur` -/

@[simp] theorem State.setCur_cfg (s : State) (g : BitVec 3) : (s.setCur g).cfg = s.cfg := rfl
@[simp] theorem State.setCur_mem (s : State) (g : BitVec 3) : (s.setCur g).mem = s.mem := rfl
@[simp] theorem State.setCur_regs (s : State) (g : BitVec 3) : (s.setCur g).regs = s.regs := rfl
@[simp] theorem State.setCur_ac (s : State) (g : BitVec 3) : (s.setCur g).ac = s.ac := rfl
@[simp] theorem State.setCur_acSign (s : State) (g : BitVec 3) : (s.setCur g).acSign = s.acSign := rfl
@[simp] theorem State.setCur_acState (s : State) (g : BitVec 3) : (s.setCur g).acState = s.acState := rfl
@[simp] theorem State.setCur_lop (s : State) (g : BitVec 3) : (s.setCur g).lop = s.lop := rfl
@[simp] theorem State.setCur_lopHeld (s : State) (g : BitVec 3) : (s.setCur g).lopHeld = s.lopHeld := rfl
@[simp] theorem State.setCur_heldMask (s : State) (g : BitVec 3) : (s.setCur g).heldMask = s.heldMask := rfl
@[simp] theorem State.setCur_mr (s : State) (g : BitVec 3) : (s.setCur g).mr = s.mr := rfl
@[simp] theorem State.setCur_flac (s : State) (g : BitVec 3) : (s.setCur g).flac = s.flac := rfl
@[simp] theorem State.setCur_flop (s : State) (g : BitVec 3) : (s.setCur g).flop = s.flop := rfl
@[simp] theorem State.setCur_flopHeld (s : State) (g : BitVec 3) : (s.setCur g).flopHeld = s.flopHeld := rfl
@[simp] theorem State.setCur_fpuGroup (s : State) (g : BitVec 3) : (s.setCur g).fpuGroup = s.fpuGroup := rfl
@[simp] theorem State.setCur_flacOvf (s : State) (g : BitVec 3) : (s.setCur g).flacOvf = s.flacOvf := rfl
@[simp] theorem State.setCur_flacUnf (s : State) (g : BitVec 3) : (s.setCur g).flacUnf = s.flacUnf := rfl
@[simp] theorem State.setCur_flopOvf (s : State) (g : BitVec 3) : (s.setCur g).flopOvf = s.flopOvf := rfl
@[simp] theorem State.setCur_flopUnf (s : State) (g : BitVec 3) : (s.setCur g).flopUnf = s.flopUnf := rfl
@[simp] theorem State.setCur_flacFixed (s : State) (g : BitVec 3) : (s.setCur g).flacFixed = s.flacFixed := rfl
@[simp] theorem State.setCur_fpCheckPending (s : State) (g : BitVec 3) : (s.setCur g).fpCheckPending = s.fpCheckPending := rfl
@[simp] theorem State.setCur_stalls (s : State) (g : BitVec 3) : (s.setCur g).stalls = s.stalls := rfl
@[simp] theorem State.setCur_stallOrder (s : State) (g : BitVec 3) : (s.setCur g).stallOrder = s.stallOrder := rfl
@[simp] theorem State.setCur_firstOn (s : State) (g : BitVec 3) : (s.setCur g).firstOn = s.firstOn := rfl
@[simp] theorem State.setCur_scan (s : State) (g : BitVec 3) : (s.setCur g).scan = s.scan := rfl
@[simp] theorem State.setCur_consoleQ (s : State) (g : BitVec 3) : (s.setCur g).consoleQ = s.consoleQ := rfl
@[simp] theorem State.setCur_consoleServed (s : State) (g : BitVec 3) : (s.setCur g).consoleServed = s.consoleServed := rfl
@[simp] theorem State.setCur_consoleOut (s : State) (g : BitVec 3) : (s.setCur g).consoleOut = s.consoleOut := rfl
@[simp] theorem State.setCur_byUtr (s : State) (g : BitVec 3) : (s.setCur g).byUtr = s.byUtr := rfl
@[simp] theorem State.setCur_sel (s : State) (g : BitVec 3) : (s.setCur g).sel = s.sel := rfl
@[simp] theorem State.setCur_ctl (s : State) (g : BitVec 3) : (s.setCur g).ctl = s.ctl := rfl
@[simp] theorem State.setCur_utEntry (s : State) (g : BitVec 3) : (s.setCur g).utEntry = s.utEntry := rfl
@[simp] theorem State.setCur_limited (s : State) (g : BitVec 3) : (s.setCur g).limited = s.limited := rfl
@[simp] theorem State.setCur_halted (s : State) (g : BitVec 3) : (s.setCur g).halted = s.halted := rfl
@[simp] theorem State.setCur_bar (s : State) (g : BitVec 3) : (s.setCur g).bar = s.bar := rfl
@[simp] theorem State.setCur_barParity (s : State) (g : BitVec 3) : (s.setCur g).barParity = s.barParity := rfl
@[simp] theorem State.setCur_devs (s : State) (g : BitVec 3) : (s.setCur g).devs = s.devs := rfl
@[simp] theorem State.setCur_xfers (s : State) (g : BitVec 3) : (s.setCur g).xfers = s.xfers := rfl
@[simp] theorem State.setCur_demands (s : State) (g : BitVec 3) : (s.setCur g).demands = s.demands := rfl
@[simp] theorem State.setCur_typing (s : State) (g : BitVec 3) : (s.setCur g).typing = s.typing := rfl
@[simp] theorem State.setCur_typeSpoiled (s : State) (g : BitVec 3) : (s.setCur g).typeSpoiled = s.typeSpoiled := rfl
@[simp] theorem State.setCur_mtfConsole (s : State) (g : BitVec 3) : (s.setCur g).mtfConsole = s.mtfConsole := rfl
@[simp] theorem State.setCur_mtfSlave (s : State) (g : BitVec 3) : (s.setCur g).mtfSlave = s.mtfSlave := rfl
@[simp] theorem State.setCur_typedConsole (s : State) (g : BitVec 3) : (s.setCur g).typedConsole = s.typedConsole := rfl
@[simp] theorem State.setCur_typedSlave (s : State) (g : BitVec 3) : (s.setCur g).typedSlave = s.typedSlave := rfl
@[simp] theorem State.setCur_env (s : State) (g : BitVec 3) : (s.setCur g).env = s.env := rfl
@[simp] theorem State.setCur_free (s : State) (g : BitVec 3) : (s.setCur g).free = s.free := rfl

/-! `setErrorCode` -/

@[simp] theorem State.setErrorCode_cfg (s : State) (c : BitVec 5) : (s.setErrorCode c).cfg = s.cfg := rfl
@[simp] theorem State.setErrorCode_mem (s : State) (c : BitVec 5) : (s.setErrorCode c).mem = s.mem := rfl
@[simp] theorem State.setErrorCode_regs (s : State) (c : BitVec 5) : (s.setErrorCode c).regs = s.regs := rfl
@[simp] theorem State.setErrorCode_ac (s : State) (c : BitVec 5) : (s.setErrorCode c).ac = s.ac := rfl
@[simp] theorem State.setErrorCode_acSign (s : State) (c : BitVec 5) : (s.setErrorCode c).acSign = s.acSign := rfl
@[simp] theorem State.setErrorCode_acState (s : State) (c : BitVec 5) : (s.setErrorCode c).acState = s.acState := rfl
@[simp] theorem State.setErrorCode_lop (s : State) (c : BitVec 5) : (s.setErrorCode c).lop = s.lop := rfl
@[simp] theorem State.setErrorCode_lopHeld (s : State) (c : BitVec 5) : (s.setErrorCode c).lopHeld = s.lopHeld := rfl
@[simp] theorem State.setErrorCode_heldMask (s : State) (c : BitVec 5) : (s.setErrorCode c).heldMask = s.heldMask := rfl
@[simp] theorem State.setErrorCode_mr (s : State) (c : BitVec 5) : (s.setErrorCode c).mr = s.mr := rfl
@[simp] theorem State.setErrorCode_flac (s : State) (c : BitVec 5) : (s.setErrorCode c).flac = s.flac := rfl
@[simp] theorem State.setErrorCode_flop (s : State) (c : BitVec 5) : (s.setErrorCode c).flop = s.flop := rfl
@[simp] theorem State.setErrorCode_flopHeld (s : State) (c : BitVec 5) : (s.setErrorCode c).flopHeld = s.flopHeld := rfl
@[simp] theorem State.setErrorCode_fpuGroup (s : State) (c : BitVec 5) : (s.setErrorCode c).fpuGroup = s.fpuGroup := rfl
@[simp] theorem State.setErrorCode_flacOvf (s : State) (c : BitVec 5) : (s.setErrorCode c).flacOvf = s.flacOvf := rfl
@[simp] theorem State.setErrorCode_flacUnf (s : State) (c : BitVec 5) : (s.setErrorCode c).flacUnf = s.flacUnf := rfl
@[simp] theorem State.setErrorCode_flopOvf (s : State) (c : BitVec 5) : (s.setErrorCode c).flopOvf = s.flopOvf := rfl
@[simp] theorem State.setErrorCode_flopUnf (s : State) (c : BitVec 5) : (s.setErrorCode c).flopUnf = s.flopUnf := rfl
@[simp] theorem State.setErrorCode_flacFixed (s : State) (c : BitVec 5) : (s.setErrorCode c).flacFixed = s.flacFixed := rfl
@[simp] theorem State.setErrorCode_fpCheckPending (s : State) (c : BitVec 5) : (s.setErrorCode c).fpCheckPending = s.fpCheckPending := rfl
@[simp] theorem State.setErrorCode_stalls (s : State) (c : BitVec 5) : (s.setErrorCode c).stalls = s.stalls := rfl
@[simp] theorem State.setErrorCode_stallOrder (s : State) (c : BitVec 5) : (s.setErrorCode c).stallOrder = s.stallOrder := rfl
@[simp] theorem State.setErrorCode_firstOn (s : State) (c : BitVec 5) : (s.setErrorCode c).firstOn = s.firstOn := rfl
@[simp] theorem State.setErrorCode_scan (s : State) (c : BitVec 5) : (s.setErrorCode c).scan = s.scan := rfl
@[simp] theorem State.setErrorCode_consoleQ (s : State) (c : BitVec 5) : (s.setErrorCode c).consoleQ = s.consoleQ := rfl
@[simp] theorem State.setErrorCode_consoleServed (s : State) (c : BitVec 5) : (s.setErrorCode c).consoleServed = s.consoleServed := rfl
@[simp] theorem State.setErrorCode_consoleOut (s : State) (c : BitVec 5) : (s.setErrorCode c).consoleOut = s.consoleOut := rfl
@[simp] theorem State.setErrorCode_byUtr (s : State) (c : BitVec 5) : (s.setErrorCode c).byUtr = s.byUtr := rfl
@[simp] theorem State.setErrorCode_sel (s : State) (c : BitVec 5) : (s.setErrorCode c).sel = s.sel := rfl
@[simp] theorem State.setErrorCode_ctl (s : State) (c : BitVec 5) : (s.setErrorCode c).ctl = s.ctl := rfl
@[simp] theorem State.setErrorCode_utEntry (s : State) (c : BitVec 5) : (s.setErrorCode c).utEntry = s.utEntry := rfl
@[simp] theorem State.setErrorCode_limited (s : State) (c : BitVec 5) : (s.setErrorCode c).limited = s.limited := rfl
@[simp] theorem State.setErrorCode_halted (s : State) (c : BitVec 5) : (s.setErrorCode c).halted = s.halted := rfl
@[simp] theorem State.setErrorCode_bar (s : State) (c : BitVec 5) : (s.setErrorCode c).bar = s.bar := rfl
@[simp] theorem State.setErrorCode_barParity (s : State) (c : BitVec 5) : (s.setErrorCode c).barParity = s.barParity := rfl
@[simp] theorem State.setErrorCode_devs (s : State) (c : BitVec 5) : (s.setErrorCode c).devs = s.devs := rfl
@[simp] theorem State.setErrorCode_xfers (s : State) (c : BitVec 5) : (s.setErrorCode c).xfers = s.xfers := rfl
@[simp] theorem State.setErrorCode_demands (s : State) (c : BitVec 5) : (s.setErrorCode c).demands = s.demands := rfl
@[simp] theorem State.setErrorCode_typing (s : State) (c : BitVec 5) : (s.setErrorCode c).typing = s.typing := rfl
@[simp] theorem State.setErrorCode_typeSpoiled (s : State) (c : BitVec 5) : (s.setErrorCode c).typeSpoiled = s.typeSpoiled := rfl
@[simp] theorem State.setErrorCode_mtfConsole (s : State) (c : BitVec 5) : (s.setErrorCode c).mtfConsole = s.mtfConsole := rfl
@[simp] theorem State.setErrorCode_mtfSlave (s : State) (c : BitVec 5) : (s.setErrorCode c).mtfSlave = s.mtfSlave := rfl
@[simp] theorem State.setErrorCode_typedConsole (s : State) (c : BitVec 5) : (s.setErrorCode c).typedConsole = s.typedConsole := rfl
@[simp] theorem State.setErrorCode_typedSlave (s : State) (c : BitVec 5) : (s.setErrorCode c).typedSlave = s.typedSlave := rfl
@[simp] theorem State.setErrorCode_env (s : State) (c : BitVec 5) : (s.setErrorCode c).env = s.env := rfl
@[simp] theorem State.setErrorCode_free (s : State) (c : BitVec 5) : (s.setErrorCode c).free = s.free := rfl

/-! `setFixedStart` -/

@[simp] theorem State.setFixedStart_cfg (s : State) (v : BitVec 3) : (s.setFixedStart v).cfg = s.cfg := rfl
@[simp] theorem State.setFixedStart_mem (s : State) (v : BitVec 3) : (s.setFixedStart v).mem = s.mem := rfl
@[simp] theorem State.setFixedStart_regs (s : State) (v : BitVec 3) : (s.setFixedStart v).regs = s.regs := rfl
@[simp] theorem State.setFixedStart_ac (s : State) (v : BitVec 3) : (s.setFixedStart v).ac = s.ac := rfl
@[simp] theorem State.setFixedStart_acSign (s : State) (v : BitVec 3) : (s.setFixedStart v).acSign = s.acSign := rfl
@[simp] theorem State.setFixedStart_acState (s : State) (v : BitVec 3) : (s.setFixedStart v).acState = s.acState := rfl
@[simp] theorem State.setFixedStart_lop (s : State) (v : BitVec 3) : (s.setFixedStart v).lop = s.lop := rfl
@[simp] theorem State.setFixedStart_lopHeld (s : State) (v : BitVec 3) : (s.setFixedStart v).lopHeld = s.lopHeld := rfl
@[simp] theorem State.setFixedStart_heldMask (s : State) (v : BitVec 3) : (s.setFixedStart v).heldMask = s.heldMask := rfl
@[simp] theorem State.setFixedStart_mr (s : State) (v : BitVec 3) : (s.setFixedStart v).mr = s.mr := rfl
@[simp] theorem State.setFixedStart_flac (s : State) (v : BitVec 3) : (s.setFixedStart v).flac = s.flac := rfl
@[simp] theorem State.setFixedStart_flop (s : State) (v : BitVec 3) : (s.setFixedStart v).flop = s.flop := rfl
@[simp] theorem State.setFixedStart_flopHeld (s : State) (v : BitVec 3) : (s.setFixedStart v).flopHeld = s.flopHeld := rfl
@[simp] theorem State.setFixedStart_fpuGroup (s : State) (v : BitVec 3) : (s.setFixedStart v).fpuGroup = s.fpuGroup := rfl
@[simp] theorem State.setFixedStart_flacOvf (s : State) (v : BitVec 3) : (s.setFixedStart v).flacOvf = s.flacOvf := rfl
@[simp] theorem State.setFixedStart_flacUnf (s : State) (v : BitVec 3) : (s.setFixedStart v).flacUnf = s.flacUnf := rfl
@[simp] theorem State.setFixedStart_flopOvf (s : State) (v : BitVec 3) : (s.setFixedStart v).flopOvf = s.flopOvf := rfl
@[simp] theorem State.setFixedStart_flopUnf (s : State) (v : BitVec 3) : (s.setFixedStart v).flopUnf = s.flopUnf := rfl
@[simp] theorem State.setFixedStart_flacFixed (s : State) (v : BitVec 3) : (s.setFixedStart v).flacFixed = s.flacFixed := rfl
@[simp] theorem State.setFixedStart_fpCheckPending (s : State) (v : BitVec 3) : (s.setFixedStart v).fpCheckPending = s.fpCheckPending := rfl
@[simp] theorem State.setFixedStart_stalls (s : State) (v : BitVec 3) : (s.setFixedStart v).stalls = s.stalls := rfl
@[simp] theorem State.setFixedStart_stallOrder (s : State) (v : BitVec 3) : (s.setFixedStart v).stallOrder = s.stallOrder := rfl
@[simp] theorem State.setFixedStart_firstOn (s : State) (v : BitVec 3) : (s.setFixedStart v).firstOn = s.firstOn := rfl
@[simp] theorem State.setFixedStart_scan (s : State) (v : BitVec 3) : (s.setFixedStart v).scan = s.scan := rfl
@[simp] theorem State.setFixedStart_consoleQ (s : State) (v : BitVec 3) : (s.setFixedStart v).consoleQ = s.consoleQ := rfl
@[simp] theorem State.setFixedStart_consoleServed (s : State) (v : BitVec 3) : (s.setFixedStart v).consoleServed = s.consoleServed := rfl
@[simp] theorem State.setFixedStart_consoleOut (s : State) (v : BitVec 3) : (s.setFixedStart v).consoleOut = s.consoleOut := rfl
@[simp] theorem State.setFixedStart_byUtr (s : State) (v : BitVec 3) : (s.setFixedStart v).byUtr = s.byUtr := rfl
@[simp] theorem State.setFixedStart_sel (s : State) (v : BitVec 3) : (s.setFixedStart v).sel = s.sel := rfl
@[simp] theorem State.setFixedStart_ctl (s : State) (v : BitVec 3) : (s.setFixedStart v).ctl = s.ctl := rfl
@[simp] theorem State.setFixedStart_utEntry (s : State) (v : BitVec 3) : (s.setFixedStart v).utEntry = s.utEntry := rfl
@[simp] theorem State.setFixedStart_limited (s : State) (v : BitVec 3) : (s.setFixedStart v).limited = s.limited := rfl
@[simp] theorem State.setFixedStart_halted (s : State) (v : BitVec 3) : (s.setFixedStart v).halted = s.halted := rfl
@[simp] theorem State.setFixedStart_bar (s : State) (v : BitVec 3) : (s.setFixedStart v).bar = s.bar := rfl
@[simp] theorem State.setFixedStart_barParity (s : State) (v : BitVec 3) : (s.setFixedStart v).barParity = s.barParity := rfl
@[simp] theorem State.setFixedStart_devs (s : State) (v : BitVec 3) : (s.setFixedStart v).devs = s.devs := rfl
@[simp] theorem State.setFixedStart_xfers (s : State) (v : BitVec 3) : (s.setFixedStart v).xfers = s.xfers := rfl
@[simp] theorem State.setFixedStart_demands (s : State) (v : BitVec 3) : (s.setFixedStart v).demands = s.demands := rfl
@[simp] theorem State.setFixedStart_typing (s : State) (v : BitVec 3) : (s.setFixedStart v).typing = s.typing := rfl
@[simp] theorem State.setFixedStart_typeSpoiled (s : State) (v : BitVec 3) : (s.setFixedStart v).typeSpoiled = s.typeSpoiled := rfl
@[simp] theorem State.setFixedStart_mtfConsole (s : State) (v : BitVec 3) : (s.setFixedStart v).mtfConsole = s.mtfConsole := rfl
@[simp] theorem State.setFixedStart_mtfSlave (s : State) (v : BitVec 3) : (s.setFixedStart v).mtfSlave = s.mtfSlave := rfl
@[simp] theorem State.setFixedStart_typedConsole (s : State) (v : BitVec 3) : (s.setFixedStart v).typedConsole = s.typedConsole := rfl
@[simp] theorem State.setFixedStart_typedSlave (s : State) (v : BitVec 3) : (s.setFixedStart v).typedSlave = s.typedSlave := rfl
@[simp] theorem State.setFixedStart_env (s : State) (v : BitVec 3) : (s.setFixedStart v).env = s.env := rfl
@[simp] theorem State.setFixedStart_free (s : State) (v : BitVec 3) : (s.setFixedStart v).free = s.free := rfl

/-! `setDemandBit` -/

@[simp] theorem State.setDemandBit_cfg (s : State) (g : BitVec 3) (b : Bool) : (s.setDemandBit g b).cfg = s.cfg := rfl
@[simp] theorem State.setDemandBit_mem (s : State) (g : BitVec 3) (b : Bool) : (s.setDemandBit g b).mem = s.mem := rfl
@[simp] theorem State.setDemandBit_regs (s : State) (g : BitVec 3) (b : Bool) : (s.setDemandBit g b).regs = s.regs := rfl
@[simp] theorem State.setDemandBit_ac (s : State) (g : BitVec 3) (b : Bool) : (s.setDemandBit g b).ac = s.ac := rfl
@[simp] theorem State.setDemandBit_acSign (s : State) (g : BitVec 3) (b : Bool) : (s.setDemandBit g b).acSign = s.acSign := rfl
@[simp] theorem State.setDemandBit_acState (s : State) (g : BitVec 3) (b : Bool) : (s.setDemandBit g b).acState = s.acState := rfl
@[simp] theorem State.setDemandBit_lop (s : State) (g : BitVec 3) (b : Bool) : (s.setDemandBit g b).lop = s.lop := rfl
@[simp] theorem State.setDemandBit_lopHeld (s : State) (g : BitVec 3) (b : Bool) : (s.setDemandBit g b).lopHeld = s.lopHeld := rfl
@[simp] theorem State.setDemandBit_heldMask (s : State) (g : BitVec 3) (b : Bool) : (s.setDemandBit g b).heldMask = s.heldMask := rfl
@[simp] theorem State.setDemandBit_mr (s : State) (g : BitVec 3) (b : Bool) : (s.setDemandBit g b).mr = s.mr := rfl
@[simp] theorem State.setDemandBit_flac (s : State) (g : BitVec 3) (b : Bool) : (s.setDemandBit g b).flac = s.flac := rfl
@[simp] theorem State.setDemandBit_flop (s : State) (g : BitVec 3) (b : Bool) : (s.setDemandBit g b).flop = s.flop := rfl
@[simp] theorem State.setDemandBit_flopHeld (s : State) (g : BitVec 3) (b : Bool) : (s.setDemandBit g b).flopHeld = s.flopHeld := rfl
@[simp] theorem State.setDemandBit_fpuGroup (s : State) (g : BitVec 3) (b : Bool) : (s.setDemandBit g b).fpuGroup = s.fpuGroup := rfl
@[simp] theorem State.setDemandBit_flacOvf (s : State) (g : BitVec 3) (b : Bool) : (s.setDemandBit g b).flacOvf = s.flacOvf := rfl
@[simp] theorem State.setDemandBit_flacUnf (s : State) (g : BitVec 3) (b : Bool) : (s.setDemandBit g b).flacUnf = s.flacUnf := rfl
@[simp] theorem State.setDemandBit_flopOvf (s : State) (g : BitVec 3) (b : Bool) : (s.setDemandBit g b).flopOvf = s.flopOvf := rfl
@[simp] theorem State.setDemandBit_flopUnf (s : State) (g : BitVec 3) (b : Bool) : (s.setDemandBit g b).flopUnf = s.flopUnf := rfl
@[simp] theorem State.setDemandBit_flacFixed (s : State) (g : BitVec 3) (b : Bool) : (s.setDemandBit g b).flacFixed = s.flacFixed := rfl
@[simp] theorem State.setDemandBit_fpCheckPending (s : State) (g : BitVec 3) (b : Bool) : (s.setDemandBit g b).fpCheckPending = s.fpCheckPending := rfl
@[simp] theorem State.setDemandBit_stalls (s : State) (g : BitVec 3) (b : Bool) : (s.setDemandBit g b).stalls = s.stalls := rfl
@[simp] theorem State.setDemandBit_firstOn (s : State) (g : BitVec 3) (b : Bool) : (s.setDemandBit g b).firstOn = s.firstOn := rfl
@[simp] theorem State.setDemandBit_scan (s : State) (g : BitVec 3) (b : Bool) : (s.setDemandBit g b).scan = s.scan := rfl
@[simp] theorem State.setDemandBit_consoleQ (s : State) (g : BitVec 3) (b : Bool) : (s.setDemandBit g b).consoleQ = s.consoleQ := rfl
@[simp] theorem State.setDemandBit_consoleServed (s : State) (g : BitVec 3) (b : Bool) : (s.setDemandBit g b).consoleServed = s.consoleServed := rfl
@[simp] theorem State.setDemandBit_consoleOut (s : State) (g : BitVec 3) (b : Bool) : (s.setDemandBit g b).consoleOut = s.consoleOut := rfl
@[simp] theorem State.setDemandBit_byUtr (s : State) (g : BitVec 3) (b : Bool) : (s.setDemandBit g b).byUtr = s.byUtr := rfl
@[simp] theorem State.setDemandBit_sel (s : State) (g : BitVec 3) (b : Bool) : (s.setDemandBit g b).sel = s.sel := rfl
@[simp] theorem State.setDemandBit_ctl (s : State) (g : BitVec 3) (b : Bool) : (s.setDemandBit g b).ctl = s.ctl := rfl
@[simp] theorem State.setDemandBit_utEntry (s : State) (g : BitVec 3) (b : Bool) : (s.setDemandBit g b).utEntry = s.utEntry := rfl
@[simp] theorem State.setDemandBit_limited (s : State) (g : BitVec 3) (b : Bool) : (s.setDemandBit g b).limited = s.limited := rfl
@[simp] theorem State.setDemandBit_halted (s : State) (g : BitVec 3) (b : Bool) : (s.setDemandBit g b).halted = s.halted := rfl
@[simp] theorem State.setDemandBit_bar (s : State) (g : BitVec 3) (b : Bool) : (s.setDemandBit g b).bar = s.bar := rfl
@[simp] theorem State.setDemandBit_barParity (s : State) (g : BitVec 3) (b : Bool) : (s.setDemandBit g b).barParity = s.barParity := rfl
@[simp] theorem State.setDemandBit_devs (s : State) (g : BitVec 3) (b : Bool) : (s.setDemandBit g b).devs = s.devs := rfl
@[simp] theorem State.setDemandBit_xfers (s : State) (g : BitVec 3) (b : Bool) : (s.setDemandBit g b).xfers = s.xfers := rfl
@[simp] theorem State.setDemandBit_demands (s : State) (g : BitVec 3) (b : Bool) : (s.setDemandBit g b).demands = s.demands := rfl
@[simp] theorem State.setDemandBit_typing (s : State) (g : BitVec 3) (b : Bool) : (s.setDemandBit g b).typing = s.typing := rfl
@[simp] theorem State.setDemandBit_typeSpoiled (s : State) (g : BitVec 3) (b : Bool) : (s.setDemandBit g b).typeSpoiled = s.typeSpoiled := rfl
@[simp] theorem State.setDemandBit_mtfConsole (s : State) (g : BitVec 3) (b : Bool) : (s.setDemandBit g b).mtfConsole = s.mtfConsole := rfl
@[simp] theorem State.setDemandBit_mtfSlave (s : State) (g : BitVec 3) (b : Bool) : (s.setDemandBit g b).mtfSlave = s.mtfSlave := rfl
@[simp] theorem State.setDemandBit_typedConsole (s : State) (g : BitVec 3) (b : Bool) : (s.setDemandBit g b).typedConsole = s.typedConsole := rfl
@[simp] theorem State.setDemandBit_typedSlave (s : State) (g : BitVec 3) (b : Bool) : (s.setDemandBit g b).typedSlave = s.typedSlave := rfl
@[simp] theorem State.setDemandBit_env (s : State) (g : BitVec 3) (b : Bool) : (s.setDemandBit g b).env = s.env := rfl
@[simp] theorem State.setDemandBit_free (s : State) (g : BitVec 3) (b : Bool) : (s.setDemandBit g b).free = s.free := rfl

/-! `setBis` -/

@[simp] theorem State.setBis_cfg (s : State) (g : BitVec 3) (b : Bool) : (s.setBis g b).cfg = s.cfg := rfl
@[simp] theorem State.setBis_mem (s : State) (g : BitVec 3) (b : Bool) : (s.setBis g b).mem = s.mem := rfl
@[simp] theorem State.setBis_regs (s : State) (g : BitVec 3) (b : Bool) : (s.setBis g b).regs = s.regs := rfl
@[simp] theorem State.setBis_ac (s : State) (g : BitVec 3) (b : Bool) : (s.setBis g b).ac = s.ac := rfl
@[simp] theorem State.setBis_acSign (s : State) (g : BitVec 3) (b : Bool) : (s.setBis g b).acSign = s.acSign := rfl
@[simp] theorem State.setBis_acState (s : State) (g : BitVec 3) (b : Bool) : (s.setBis g b).acState = s.acState := rfl
@[simp] theorem State.setBis_lop (s : State) (g : BitVec 3) (b : Bool) : (s.setBis g b).lop = s.lop := rfl
@[simp] theorem State.setBis_lopHeld (s : State) (g : BitVec 3) (b : Bool) : (s.setBis g b).lopHeld = s.lopHeld := rfl
@[simp] theorem State.setBis_heldMask (s : State) (g : BitVec 3) (b : Bool) : (s.setBis g b).heldMask = s.heldMask := rfl
@[simp] theorem State.setBis_mr (s : State) (g : BitVec 3) (b : Bool) : (s.setBis g b).mr = s.mr := rfl
@[simp] theorem State.setBis_flac (s : State) (g : BitVec 3) (b : Bool) : (s.setBis g b).flac = s.flac := rfl
@[simp] theorem State.setBis_flop (s : State) (g : BitVec 3) (b : Bool) : (s.setBis g b).flop = s.flop := rfl
@[simp] theorem State.setBis_flopHeld (s : State) (g : BitVec 3) (b : Bool) : (s.setBis g b).flopHeld = s.flopHeld := rfl
@[simp] theorem State.setBis_fpuGroup (s : State) (g : BitVec 3) (b : Bool) : (s.setBis g b).fpuGroup = s.fpuGroup := rfl
@[simp] theorem State.setBis_flacOvf (s : State) (g : BitVec 3) (b : Bool) : (s.setBis g b).flacOvf = s.flacOvf := rfl
@[simp] theorem State.setBis_flacUnf (s : State) (g : BitVec 3) (b : Bool) : (s.setBis g b).flacUnf = s.flacUnf := rfl
@[simp] theorem State.setBis_flopOvf (s : State) (g : BitVec 3) (b : Bool) : (s.setBis g b).flopOvf = s.flopOvf := rfl
@[simp] theorem State.setBis_flopUnf (s : State) (g : BitVec 3) (b : Bool) : (s.setBis g b).flopUnf = s.flopUnf := rfl
@[simp] theorem State.setBis_flacFixed (s : State) (g : BitVec 3) (b : Bool) : (s.setBis g b).flacFixed = s.flacFixed := rfl
@[simp] theorem State.setBis_fpCheckPending (s : State) (g : BitVec 3) (b : Bool) : (s.setBis g b).fpCheckPending = s.fpCheckPending := rfl
@[simp] theorem State.setBis_stalls (s : State) (g : BitVec 3) (b : Bool) : (s.setBis g b).stalls = s.stalls := rfl
@[simp] theorem State.setBis_stallOrder (s : State) (g : BitVec 3) (b : Bool) : (s.setBis g b).stallOrder = s.stallOrder := rfl
@[simp] theorem State.setBis_firstOn (s : State) (g : BitVec 3) (b : Bool) : (s.setBis g b).firstOn = s.firstOn := rfl
@[simp] theorem State.setBis_scan (s : State) (g : BitVec 3) (b : Bool) : (s.setBis g b).scan = s.scan := rfl
@[simp] theorem State.setBis_consoleQ (s : State) (g : BitVec 3) (b : Bool) : (s.setBis g b).consoleQ = s.consoleQ := rfl
@[simp] theorem State.setBis_consoleServed (s : State) (g : BitVec 3) (b : Bool) : (s.setBis g b).consoleServed = s.consoleServed := rfl
@[simp] theorem State.setBis_consoleOut (s : State) (g : BitVec 3) (b : Bool) : (s.setBis g b).consoleOut = s.consoleOut := rfl
@[simp] theorem State.setBis_byUtr (s : State) (g : BitVec 3) (b : Bool) : (s.setBis g b).byUtr = s.byUtr := rfl
@[simp] theorem State.setBis_sel (s : State) (g : BitVec 3) (b : Bool) : (s.setBis g b).sel = s.sel := rfl
@[simp] theorem State.setBis_ctl (s : State) (g : BitVec 3) (b : Bool) : (s.setBis g b).ctl = s.ctl := rfl
@[simp] theorem State.setBis_utEntry (s : State) (g : BitVec 3) (b : Bool) : (s.setBis g b).utEntry = s.utEntry := rfl
@[simp] theorem State.setBis_limited (s : State) (g : BitVec 3) (b : Bool) : (s.setBis g b).limited = s.limited := rfl
@[simp] theorem State.setBis_halted (s : State) (g : BitVec 3) (b : Bool) : (s.setBis g b).halted = s.halted := rfl
@[simp] theorem State.setBis_bar (s : State) (g : BitVec 3) (b : Bool) : (s.setBis g b).bar = s.bar := rfl
@[simp] theorem State.setBis_barParity (s : State) (g : BitVec 3) (b : Bool) : (s.setBis g b).barParity = s.barParity := rfl
@[simp] theorem State.setBis_devs (s : State) (g : BitVec 3) (b : Bool) : (s.setBis g b).devs = s.devs := rfl
@[simp] theorem State.setBis_xfers (s : State) (g : BitVec 3) (b : Bool) : (s.setBis g b).xfers = s.xfers := rfl
@[simp] theorem State.setBis_demands (s : State) (g : BitVec 3) (b : Bool) : (s.setBis g b).demands = s.demands := rfl
@[simp] theorem State.setBis_typing (s : State) (g : BitVec 3) (b : Bool) : (s.setBis g b).typing = s.typing := rfl
@[simp] theorem State.setBis_typeSpoiled (s : State) (g : BitVec 3) (b : Bool) : (s.setBis g b).typeSpoiled = s.typeSpoiled := rfl
@[simp] theorem State.setBis_mtfConsole (s : State) (g : BitVec 3) (b : Bool) : (s.setBis g b).mtfConsole = s.mtfConsole := rfl
@[simp] theorem State.setBis_mtfSlave (s : State) (g : BitVec 3) (b : Bool) : (s.setBis g b).mtfSlave = s.mtfSlave := rfl
@[simp] theorem State.setBis_typedConsole (s : State) (g : BitVec 3) (b : Bool) : (s.setBis g b).typedConsole = s.typedConsole := rfl
@[simp] theorem State.setBis_typedSlave (s : State) (g : BitVec 3) (b : Bool) : (s.setBis g b).typedSlave = s.typedSlave := rfl
@[simp] theorem State.setBis_env (s : State) (g : BitVec 3) (b : Bool) : (s.setBis g b).env = s.env := rfl
@[simp] theorem State.setBis_free (s : State) (g : BitVec 3) (b : Bool) : (s.setBis g b).free = s.free := rfl

/-! `putWord` -/

@[simp] theorem State.putWord_cfg (s : State) (a : Nat) (v : MWord) : (s.putWord a v).cfg = s.cfg := rfl
@[simp] theorem State.putWord_regs (s : State) (a : Nat) (v : MWord) : (s.putWord a v).regs = s.regs := rfl
@[simp] theorem State.putWord_ac (s : State) (a : Nat) (v : MWord) : (s.putWord a v).ac = s.ac := rfl
@[simp] theorem State.putWord_acSign (s : State) (a : Nat) (v : MWord) : (s.putWord a v).acSign = s.acSign := rfl
@[simp] theorem State.putWord_acState (s : State) (a : Nat) (v : MWord) : (s.putWord a v).acState = s.acState := rfl
@[simp] theorem State.putWord_lop (s : State) (a : Nat) (v : MWord) : (s.putWord a v).lop = s.lop := rfl
@[simp] theorem State.putWord_lopHeld (s : State) (a : Nat) (v : MWord) : (s.putWord a v).lopHeld = s.lopHeld := rfl
@[simp] theorem State.putWord_heldMask (s : State) (a : Nat) (v : MWord) : (s.putWord a v).heldMask = s.heldMask := rfl
@[simp] theorem State.putWord_mr (s : State) (a : Nat) (v : MWord) : (s.putWord a v).mr = s.mr := rfl
@[simp] theorem State.putWord_pcr (s : State) (a : Nat) (v : MWord) : (s.putWord a v).pcr = s.pcr := rfl
@[simp] theorem State.putWord_flac (s : State) (a : Nat) (v : MWord) : (s.putWord a v).flac = s.flac := rfl
@[simp] theorem State.putWord_flop (s : State) (a : Nat) (v : MWord) : (s.putWord a v).flop = s.flop := rfl
@[simp] theorem State.putWord_flopHeld (s : State) (a : Nat) (v : MWord) : (s.putWord a v).flopHeld = s.flopHeld := rfl
@[simp] theorem State.putWord_fpuGroup (s : State) (a : Nat) (v : MWord) : (s.putWord a v).fpuGroup = s.fpuGroup := rfl
@[simp] theorem State.putWord_flacOvf (s : State) (a : Nat) (v : MWord) : (s.putWord a v).flacOvf = s.flacOvf := rfl
@[simp] theorem State.putWord_flacUnf (s : State) (a : Nat) (v : MWord) : (s.putWord a v).flacUnf = s.flacUnf := rfl
@[simp] theorem State.putWord_flopOvf (s : State) (a : Nat) (v : MWord) : (s.putWord a v).flopOvf = s.flopOvf := rfl
@[simp] theorem State.putWord_flopUnf (s : State) (a : Nat) (v : MWord) : (s.putWord a v).flopUnf = s.flopUnf := rfl
@[simp] theorem State.putWord_flacFixed (s : State) (a : Nat) (v : MWord) : (s.putWord a v).flacFixed = s.flacFixed := rfl
@[simp] theorem State.putWord_fpCheckPending (s : State) (a : Nat) (v : MWord) : (s.putWord a v).fpCheckPending = s.fpCheckPending := rfl
@[simp] theorem State.putWord_stalls (s : State) (a : Nat) (v : MWord) : (s.putWord a v).stalls = s.stalls := rfl
@[simp] theorem State.putWord_stallOrder (s : State) (a : Nat) (v : MWord) : (s.putWord a v).stallOrder = s.stallOrder := rfl
@[simp] theorem State.putWord_firstOn (s : State) (a : Nat) (v : MWord) : (s.putWord a v).firstOn = s.firstOn := rfl
@[simp] theorem State.putWord_scan (s : State) (a : Nat) (v : MWord) : (s.putWord a v).scan = s.scan := rfl
@[simp] theorem State.putWord_consoleQ (s : State) (a : Nat) (v : MWord) : (s.putWord a v).consoleQ = s.consoleQ := rfl
@[simp] theorem State.putWord_consoleServed (s : State) (a : Nat) (v : MWord) : (s.putWord a v).consoleServed = s.consoleServed := rfl
@[simp] theorem State.putWord_consoleOut (s : State) (a : Nat) (v : MWord) : (s.putWord a v).consoleOut = s.consoleOut := rfl
@[simp] theorem State.putWord_byUtr (s : State) (a : Nat) (v : MWord) : (s.putWord a v).byUtr = s.byUtr := rfl
@[simp] theorem State.putWord_sel (s : State) (a : Nat) (v : MWord) : (s.putWord a v).sel = s.sel := rfl
@[simp] theorem State.putWord_ctl (s : State) (a : Nat) (v : MWord) : (s.putWord a v).ctl = s.ctl := rfl
@[simp] theorem State.putWord_utEntry (s : State) (a : Nat) (v : MWord) : (s.putWord a v).utEntry = s.utEntry := rfl
@[simp] theorem State.putWord_limited (s : State) (a : Nat) (v : MWord) : (s.putWord a v).limited = s.limited := rfl
@[simp] theorem State.putWord_halted (s : State) (a : Nat) (v : MWord) : (s.putWord a v).halted = s.halted := rfl
@[simp] theorem State.putWord_bar (s : State) (a : Nat) (v : MWord) : (s.putWord a v).bar = s.bar := rfl
@[simp] theorem State.putWord_barParity (s : State) (a : Nat) (v : MWord) : (s.putWord a v).barParity = s.barParity := rfl
@[simp] theorem State.putWord_devs (s : State) (a : Nat) (v : MWord) : (s.putWord a v).devs = s.devs := rfl
@[simp] theorem State.putWord_xfers (s : State) (a : Nat) (v : MWord) : (s.putWord a v).xfers = s.xfers := rfl
@[simp] theorem State.putWord_demands (s : State) (a : Nat) (v : MWord) : (s.putWord a v).demands = s.demands := rfl
@[simp] theorem State.putWord_typing (s : State) (a : Nat) (v : MWord) : (s.putWord a v).typing = s.typing := rfl
@[simp] theorem State.putWord_mtfConsole (s : State) (a : Nat) (v : MWord) : (s.putWord a v).mtfConsole = s.mtfConsole := rfl
@[simp] theorem State.putWord_mtfSlave (s : State) (a : Nat) (v : MWord) : (s.putWord a v).mtfSlave = s.mtfSlave := rfl
@[simp] theorem State.putWord_typedConsole (s : State) (a : Nat) (v : MWord) : (s.putWord a v).typedConsole = s.typedConsole := rfl
@[simp] theorem State.putWord_typedSlave (s : State) (a : Nat) (v : MWord) : (s.putWord a v).typedSlave = s.typedSlave := rfl
@[simp] theorem State.putWord_env (s : State) (a : Nat) (v : MWord) : (s.putWord a v).env = s.env := rfl
@[simp] theorem State.putWord_free (s : State) (a : Nat) (v : MWord) :
    (s.putWord a v).free = if s.reserved a then s.free + 2 else s.free := rfl

/-! `setDev` -/

@[simp] theorem State.setDev_cfg (s : State) (d : Dir) (ch dev : BitVec 3) (v : Device) : (s.setDev d ch dev v).cfg = s.cfg := rfl
@[simp] theorem State.setDev_mem (s : State) (d : Dir) (ch dev : BitVec 3) (v : Device) : (s.setDev d ch dev v).mem = s.mem := rfl
@[simp] theorem State.setDev_regs (s : State) (d : Dir) (ch dev : BitVec 3) (v : Device) : (s.setDev d ch dev v).regs = s.regs := rfl
@[simp] theorem State.setDev_ac (s : State) (d : Dir) (ch dev : BitVec 3) (v : Device) : (s.setDev d ch dev v).ac = s.ac := rfl
@[simp] theorem State.setDev_acSign (s : State) (d : Dir) (ch dev : BitVec 3) (v : Device) : (s.setDev d ch dev v).acSign = s.acSign := rfl
@[simp] theorem State.setDev_acState (s : State) (d : Dir) (ch dev : BitVec 3) (v : Device) : (s.setDev d ch dev v).acState = s.acState := rfl
@[simp] theorem State.setDev_lop (s : State) (d : Dir) (ch dev : BitVec 3) (v : Device) : (s.setDev d ch dev v).lop = s.lop := rfl
@[simp] theorem State.setDev_lopHeld (s : State) (d : Dir) (ch dev : BitVec 3) (v : Device) : (s.setDev d ch dev v).lopHeld = s.lopHeld := rfl
@[simp] theorem State.setDev_heldMask (s : State) (d : Dir) (ch dev : BitVec 3) (v : Device) : (s.setDev d ch dev v).heldMask = s.heldMask := rfl
@[simp] theorem State.setDev_mr (s : State) (d : Dir) (ch dev : BitVec 3) (v : Device) : (s.setDev d ch dev v).mr = s.mr := rfl
@[simp] theorem State.setDev_pcr (s : State) (d : Dir) (ch dev : BitVec 3) (v : Device) : (s.setDev d ch dev v).pcr = s.pcr := rfl
@[simp] theorem State.setDev_flac (s : State) (d : Dir) (ch dev : BitVec 3) (v : Device) : (s.setDev d ch dev v).flac = s.flac := rfl
@[simp] theorem State.setDev_flop (s : State) (d : Dir) (ch dev : BitVec 3) (v : Device) : (s.setDev d ch dev v).flop = s.flop := rfl
@[simp] theorem State.setDev_flopHeld (s : State) (d : Dir) (ch dev : BitVec 3) (v : Device) : (s.setDev d ch dev v).flopHeld = s.flopHeld := rfl
@[simp] theorem State.setDev_fpuGroup (s : State) (d : Dir) (ch dev : BitVec 3) (v : Device) : (s.setDev d ch dev v).fpuGroup = s.fpuGroup := rfl
@[simp] theorem State.setDev_flacOvf (s : State) (d : Dir) (ch dev : BitVec 3) (v : Device) : (s.setDev d ch dev v).flacOvf = s.flacOvf := rfl
@[simp] theorem State.setDev_flacUnf (s : State) (d : Dir) (ch dev : BitVec 3) (v : Device) : (s.setDev d ch dev v).flacUnf = s.flacUnf := rfl
@[simp] theorem State.setDev_flopOvf (s : State) (d : Dir) (ch dev : BitVec 3) (v : Device) : (s.setDev d ch dev v).flopOvf = s.flopOvf := rfl
@[simp] theorem State.setDev_flopUnf (s : State) (d : Dir) (ch dev : BitVec 3) (v : Device) : (s.setDev d ch dev v).flopUnf = s.flopUnf := rfl
@[simp] theorem State.setDev_flacFixed (s : State) (d : Dir) (ch dev : BitVec 3) (v : Device) : (s.setDev d ch dev v).flacFixed = s.flacFixed := rfl
@[simp] theorem State.setDev_fpCheckPending (s : State) (d : Dir) (ch dev : BitVec 3) (v : Device) : (s.setDev d ch dev v).fpCheckPending = s.fpCheckPending := rfl
@[simp] theorem State.setDev_stalls (s : State) (d : Dir) (ch dev : BitVec 3) (v : Device) : (s.setDev d ch dev v).stalls = s.stalls := rfl
@[simp] theorem State.setDev_stallOrder (s : State) (d : Dir) (ch dev : BitVec 3) (v : Device) : (s.setDev d ch dev v).stallOrder = s.stallOrder := rfl
@[simp] theorem State.setDev_firstOn (s : State) (d : Dir) (ch dev : BitVec 3) (v : Device) : (s.setDev d ch dev v).firstOn = s.firstOn := rfl
@[simp] theorem State.setDev_scan (s : State) (d : Dir) (ch dev : BitVec 3) (v : Device) : (s.setDev d ch dev v).scan = s.scan := rfl
@[simp] theorem State.setDev_consoleQ (s : State) (d : Dir) (ch dev : BitVec 3) (v : Device) : (s.setDev d ch dev v).consoleQ = s.consoleQ := rfl
@[simp] theorem State.setDev_consoleServed (s : State) (d : Dir) (ch dev : BitVec 3) (v : Device) : (s.setDev d ch dev v).consoleServed = s.consoleServed := rfl
@[simp] theorem State.setDev_consoleOut (s : State) (d : Dir) (ch dev : BitVec 3) (v : Device) : (s.setDev d ch dev v).consoleOut = s.consoleOut := rfl
@[simp] theorem State.setDev_byUtr (s : State) (d : Dir) (ch dev : BitVec 3) (v : Device) : (s.setDev d ch dev v).byUtr = s.byUtr := rfl
@[simp] theorem State.setDev_sel (s : State) (d : Dir) (ch dev : BitVec 3) (v : Device) : (s.setDev d ch dev v).sel = s.sel := rfl
@[simp] theorem State.setDev_ctl (s : State) (d : Dir) (ch dev : BitVec 3) (v : Device) : (s.setDev d ch dev v).ctl = s.ctl := rfl
@[simp] theorem State.setDev_utEntry (s : State) (d : Dir) (ch dev : BitVec 3) (v : Device) : (s.setDev d ch dev v).utEntry = s.utEntry := rfl
@[simp] theorem State.setDev_limited (s : State) (d : Dir) (ch dev : BitVec 3) (v : Device) : (s.setDev d ch dev v).limited = s.limited := rfl
@[simp] theorem State.setDev_halted (s : State) (d : Dir) (ch dev : BitVec 3) (v : Device) : (s.setDev d ch dev v).halted = s.halted := rfl
@[simp] theorem State.setDev_bar (s : State) (d : Dir) (ch dev : BitVec 3) (v : Device) : (s.setDev d ch dev v).bar = s.bar := rfl
@[simp] theorem State.setDev_barParity (s : State) (d : Dir) (ch dev : BitVec 3) (v : Device) : (s.setDev d ch dev v).barParity = s.barParity := rfl
@[simp] theorem State.setDev_xfers (s : State) (d : Dir) (ch dev : BitVec 3) (v : Device) : (s.setDev d ch dev v).xfers = s.xfers := rfl
@[simp] theorem State.setDev_demands (s : State) (d : Dir) (ch dev : BitVec 3) (v : Device) : (s.setDev d ch dev v).demands = s.demands := rfl
@[simp] theorem State.setDev_typing (s : State) (d : Dir) (ch dev : BitVec 3) (v : Device) : (s.setDev d ch dev v).typing = s.typing := rfl
@[simp] theorem State.setDev_typeSpoiled (s : State) (d : Dir) (ch dev : BitVec 3) (v : Device) : (s.setDev d ch dev v).typeSpoiled = s.typeSpoiled := rfl
@[simp] theorem State.setDev_mtfConsole (s : State) (d : Dir) (ch dev : BitVec 3) (v : Device) : (s.setDev d ch dev v).mtfConsole = s.mtfConsole := rfl
@[simp] theorem State.setDev_mtfSlave (s : State) (d : Dir) (ch dev : BitVec 3) (v : Device) : (s.setDev d ch dev v).mtfSlave = s.mtfSlave := rfl
@[simp] theorem State.setDev_typedConsole (s : State) (d : Dir) (ch dev : BitVec 3) (v : Device) : (s.setDev d ch dev v).typedConsole = s.typedConsole := rfl
@[simp] theorem State.setDev_typedSlave (s : State) (d : Dir) (ch dev : BitVec 3) (v : Device) : (s.setDev d ch dev v).typedSlave = s.typedSlave := rfl
@[simp] theorem State.setDev_env (s : State) (d : Dir) (ch dev : BitVec 3) (v : Device) : (s.setDev d ch dev v).env = s.env := rfl
@[simp] theorem State.setDev_free (s : State) (d : Dir) (ch dev : BitVec 3) (v : Device) : (s.setDev d ch dev v).free = s.free := rfl

/-! `setXfer` -/

@[simp] theorem State.setXfer_cfg (s : State) (d : Dir) (ch : BitVec 3) (x : Option Xfer) : (s.setXfer d ch x).cfg = s.cfg := rfl
@[simp] theorem State.setXfer_mem (s : State) (d : Dir) (ch : BitVec 3) (x : Option Xfer) : (s.setXfer d ch x).mem = s.mem := rfl
@[simp] theorem State.setXfer_regs (s : State) (d : Dir) (ch : BitVec 3) (x : Option Xfer) : (s.setXfer d ch x).regs = s.regs := rfl
@[simp] theorem State.setXfer_ac (s : State) (d : Dir) (ch : BitVec 3) (x : Option Xfer) : (s.setXfer d ch x).ac = s.ac := rfl
@[simp] theorem State.setXfer_acSign (s : State) (d : Dir) (ch : BitVec 3) (x : Option Xfer) : (s.setXfer d ch x).acSign = s.acSign := rfl
@[simp] theorem State.setXfer_acState (s : State) (d : Dir) (ch : BitVec 3) (x : Option Xfer) : (s.setXfer d ch x).acState = s.acState := rfl
@[simp] theorem State.setXfer_lop (s : State) (d : Dir) (ch : BitVec 3) (x : Option Xfer) : (s.setXfer d ch x).lop = s.lop := rfl
@[simp] theorem State.setXfer_lopHeld (s : State) (d : Dir) (ch : BitVec 3) (x : Option Xfer) : (s.setXfer d ch x).lopHeld = s.lopHeld := rfl
@[simp] theorem State.setXfer_heldMask (s : State) (d : Dir) (ch : BitVec 3) (x : Option Xfer) : (s.setXfer d ch x).heldMask = s.heldMask := rfl
@[simp] theorem State.setXfer_mr (s : State) (d : Dir) (ch : BitVec 3) (x : Option Xfer) : (s.setXfer d ch x).mr = s.mr := rfl
@[simp] theorem State.setXfer_pcr (s : State) (d : Dir) (ch : BitVec 3) (x : Option Xfer) : (s.setXfer d ch x).pcr = s.pcr := rfl
@[simp] theorem State.setXfer_flac (s : State) (d : Dir) (ch : BitVec 3) (x : Option Xfer) : (s.setXfer d ch x).flac = s.flac := rfl
@[simp] theorem State.setXfer_flop (s : State) (d : Dir) (ch : BitVec 3) (x : Option Xfer) : (s.setXfer d ch x).flop = s.flop := rfl
@[simp] theorem State.setXfer_flopHeld (s : State) (d : Dir) (ch : BitVec 3) (x : Option Xfer) : (s.setXfer d ch x).flopHeld = s.flopHeld := rfl
@[simp] theorem State.setXfer_fpuGroup (s : State) (d : Dir) (ch : BitVec 3) (x : Option Xfer) : (s.setXfer d ch x).fpuGroup = s.fpuGroup := rfl
@[simp] theorem State.setXfer_flacOvf (s : State) (d : Dir) (ch : BitVec 3) (x : Option Xfer) : (s.setXfer d ch x).flacOvf = s.flacOvf := rfl
@[simp] theorem State.setXfer_flacUnf (s : State) (d : Dir) (ch : BitVec 3) (x : Option Xfer) : (s.setXfer d ch x).flacUnf = s.flacUnf := rfl
@[simp] theorem State.setXfer_flopOvf (s : State) (d : Dir) (ch : BitVec 3) (x : Option Xfer) : (s.setXfer d ch x).flopOvf = s.flopOvf := rfl
@[simp] theorem State.setXfer_flopUnf (s : State) (d : Dir) (ch : BitVec 3) (x : Option Xfer) : (s.setXfer d ch x).flopUnf = s.flopUnf := rfl
@[simp] theorem State.setXfer_flacFixed (s : State) (d : Dir) (ch : BitVec 3) (x : Option Xfer) : (s.setXfer d ch x).flacFixed = s.flacFixed := rfl
@[simp] theorem State.setXfer_fpCheckPending (s : State) (d : Dir) (ch : BitVec 3) (x : Option Xfer) : (s.setXfer d ch x).fpCheckPending = s.fpCheckPending := rfl
@[simp] theorem State.setXfer_stalls (s : State) (d : Dir) (ch : BitVec 3) (x : Option Xfer) : (s.setXfer d ch x).stalls = s.stalls := rfl
@[simp] theorem State.setXfer_stallOrder (s : State) (d : Dir) (ch : BitVec 3) (x : Option Xfer) : (s.setXfer d ch x).stallOrder = s.stallOrder := rfl
@[simp] theorem State.setXfer_firstOn (s : State) (d : Dir) (ch : BitVec 3) (x : Option Xfer) : (s.setXfer d ch x).firstOn = s.firstOn := rfl
@[simp] theorem State.setXfer_scan (s : State) (d : Dir) (ch : BitVec 3) (x : Option Xfer) : (s.setXfer d ch x).scan = s.scan := rfl
@[simp] theorem State.setXfer_consoleQ (s : State) (d : Dir) (ch : BitVec 3) (x : Option Xfer) : (s.setXfer d ch x).consoleQ = s.consoleQ := rfl
@[simp] theorem State.setXfer_consoleServed (s : State) (d : Dir) (ch : BitVec 3) (x : Option Xfer) : (s.setXfer d ch x).consoleServed = s.consoleServed := rfl
@[simp] theorem State.setXfer_consoleOut (s : State) (d : Dir) (ch : BitVec 3) (x : Option Xfer) : (s.setXfer d ch x).consoleOut = s.consoleOut := rfl
@[simp] theorem State.setXfer_byUtr (s : State) (d : Dir) (ch : BitVec 3) (x : Option Xfer) : (s.setXfer d ch x).byUtr = s.byUtr := rfl
@[simp] theorem State.setXfer_sel (s : State) (d : Dir) (ch : BitVec 3) (x : Option Xfer) : (s.setXfer d ch x).sel = s.sel := rfl
@[simp] theorem State.setXfer_ctl (s : State) (d : Dir) (ch : BitVec 3) (x : Option Xfer) : (s.setXfer d ch x).ctl = s.ctl := rfl
@[simp] theorem State.setXfer_utEntry (s : State) (d : Dir) (ch : BitVec 3) (x : Option Xfer) : (s.setXfer d ch x).utEntry = s.utEntry := rfl
@[simp] theorem State.setXfer_limited (s : State) (d : Dir) (ch : BitVec 3) (x : Option Xfer) : (s.setXfer d ch x).limited = s.limited := rfl
@[simp] theorem State.setXfer_halted (s : State) (d : Dir) (ch : BitVec 3) (x : Option Xfer) : (s.setXfer d ch x).halted = s.halted := rfl
@[simp] theorem State.setXfer_bar (s : State) (d : Dir) (ch : BitVec 3) (x : Option Xfer) : (s.setXfer d ch x).bar = s.bar := rfl
@[simp] theorem State.setXfer_barParity (s : State) (d : Dir) (ch : BitVec 3) (x : Option Xfer) : (s.setXfer d ch x).barParity = s.barParity := rfl
@[simp] theorem State.setXfer_devs (s : State) (d : Dir) (ch : BitVec 3) (x : Option Xfer) : (s.setXfer d ch x).devs = s.devs := rfl
@[simp] theorem State.setXfer_demands (s : State) (d : Dir) (ch : BitVec 3) (x : Option Xfer) : (s.setXfer d ch x).demands = s.demands := rfl
@[simp] theorem State.setXfer_typing (s : State) (d : Dir) (ch : BitVec 3) (x : Option Xfer) : (s.setXfer d ch x).typing = s.typing := rfl
@[simp] theorem State.setXfer_typeSpoiled (s : State) (d : Dir) (ch : BitVec 3) (x : Option Xfer) : (s.setXfer d ch x).typeSpoiled = s.typeSpoiled := rfl
@[simp] theorem State.setXfer_mtfConsole (s : State) (d : Dir) (ch : BitVec 3) (x : Option Xfer) : (s.setXfer d ch x).mtfConsole = s.mtfConsole := rfl
@[simp] theorem State.setXfer_mtfSlave (s : State) (d : Dir) (ch : BitVec 3) (x : Option Xfer) : (s.setXfer d ch x).mtfSlave = s.mtfSlave := rfl
@[simp] theorem State.setXfer_typedConsole (s : State) (d : Dir) (ch : BitVec 3) (x : Option Xfer) : (s.setXfer d ch x).typedConsole = s.typedConsole := rfl
@[simp] theorem State.setXfer_typedSlave (s : State) (d : Dir) (ch : BitVec 3) (x : Option Xfer) : (s.setXfer d ch x).typedSlave = s.typedSlave := rfl
@[simp] theorem State.setXfer_env (s : State) (d : Dir) (ch : BitVec 3) (x : Option Xfer) : (s.setXfer d ch x).env = s.env := rfl
@[simp] theorem State.setXfer_free (s : State) (d : Dir) (ch : BitVec 3) (x : Option Xfer) : (s.setXfer d ch x).free = s.free := rfl

/-! `setDemand` -/

@[simp] theorem State.setDemand_cfg (s : State) (d : Dir) (ch : BitVec 3) (b : Bool) : (s.setDemand d ch b).cfg = s.cfg := rfl
@[simp] theorem State.setDemand_mem (s : State) (d : Dir) (ch : BitVec 3) (b : Bool) : (s.setDemand d ch b).mem = s.mem := rfl
@[simp] theorem State.setDemand_regs (s : State) (d : Dir) (ch : BitVec 3) (b : Bool) : (s.setDemand d ch b).regs = s.regs := rfl
@[simp] theorem State.setDemand_ac (s : State) (d : Dir) (ch : BitVec 3) (b : Bool) : (s.setDemand d ch b).ac = s.ac := rfl
@[simp] theorem State.setDemand_acSign (s : State) (d : Dir) (ch : BitVec 3) (b : Bool) : (s.setDemand d ch b).acSign = s.acSign := rfl
@[simp] theorem State.setDemand_acState (s : State) (d : Dir) (ch : BitVec 3) (b : Bool) : (s.setDemand d ch b).acState = s.acState := rfl
@[simp] theorem State.setDemand_lop (s : State) (d : Dir) (ch : BitVec 3) (b : Bool) : (s.setDemand d ch b).lop = s.lop := rfl
@[simp] theorem State.setDemand_lopHeld (s : State) (d : Dir) (ch : BitVec 3) (b : Bool) : (s.setDemand d ch b).lopHeld = s.lopHeld := rfl
@[simp] theorem State.setDemand_heldMask (s : State) (d : Dir) (ch : BitVec 3) (b : Bool) : (s.setDemand d ch b).heldMask = s.heldMask := rfl
@[simp] theorem State.setDemand_mr (s : State) (d : Dir) (ch : BitVec 3) (b : Bool) : (s.setDemand d ch b).mr = s.mr := rfl
@[simp] theorem State.setDemand_pcr (s : State) (d : Dir) (ch : BitVec 3) (b : Bool) : (s.setDemand d ch b).pcr = s.pcr := rfl
@[simp] theorem State.setDemand_flac (s : State) (d : Dir) (ch : BitVec 3) (b : Bool) : (s.setDemand d ch b).flac = s.flac := rfl
@[simp] theorem State.setDemand_flop (s : State) (d : Dir) (ch : BitVec 3) (b : Bool) : (s.setDemand d ch b).flop = s.flop := rfl
@[simp] theorem State.setDemand_flopHeld (s : State) (d : Dir) (ch : BitVec 3) (b : Bool) : (s.setDemand d ch b).flopHeld = s.flopHeld := rfl
@[simp] theorem State.setDemand_fpuGroup (s : State) (d : Dir) (ch : BitVec 3) (b : Bool) : (s.setDemand d ch b).fpuGroup = s.fpuGroup := rfl
@[simp] theorem State.setDemand_flacOvf (s : State) (d : Dir) (ch : BitVec 3) (b : Bool) : (s.setDemand d ch b).flacOvf = s.flacOvf := rfl
@[simp] theorem State.setDemand_flacUnf (s : State) (d : Dir) (ch : BitVec 3) (b : Bool) : (s.setDemand d ch b).flacUnf = s.flacUnf := rfl
@[simp] theorem State.setDemand_flopOvf (s : State) (d : Dir) (ch : BitVec 3) (b : Bool) : (s.setDemand d ch b).flopOvf = s.flopOvf := rfl
@[simp] theorem State.setDemand_flopUnf (s : State) (d : Dir) (ch : BitVec 3) (b : Bool) : (s.setDemand d ch b).flopUnf = s.flopUnf := rfl
@[simp] theorem State.setDemand_flacFixed (s : State) (d : Dir) (ch : BitVec 3) (b : Bool) : (s.setDemand d ch b).flacFixed = s.flacFixed := rfl
@[simp] theorem State.setDemand_fpCheckPending (s : State) (d : Dir) (ch : BitVec 3) (b : Bool) : (s.setDemand d ch b).fpCheckPending = s.fpCheckPending := rfl
@[simp] theorem State.setDemand_stalls (s : State) (d : Dir) (ch : BitVec 3) (b : Bool) : (s.setDemand d ch b).stalls = s.stalls := rfl
@[simp] theorem State.setDemand_stallOrder (s : State) (d : Dir) (ch : BitVec 3) (b : Bool) : (s.setDemand d ch b).stallOrder = s.stallOrder := rfl
@[simp] theorem State.setDemand_firstOn (s : State) (d : Dir) (ch : BitVec 3) (b : Bool) : (s.setDemand d ch b).firstOn = s.firstOn := rfl
@[simp] theorem State.setDemand_scan (s : State) (d : Dir) (ch : BitVec 3) (b : Bool) : (s.setDemand d ch b).scan = s.scan := rfl
@[simp] theorem State.setDemand_consoleQ (s : State) (d : Dir) (ch : BitVec 3) (b : Bool) : (s.setDemand d ch b).consoleQ = s.consoleQ := rfl
@[simp] theorem State.setDemand_consoleServed (s : State) (d : Dir) (ch : BitVec 3) (b : Bool) : (s.setDemand d ch b).consoleServed = s.consoleServed := rfl
@[simp] theorem State.setDemand_consoleOut (s : State) (d : Dir) (ch : BitVec 3) (b : Bool) : (s.setDemand d ch b).consoleOut = s.consoleOut := rfl
@[simp] theorem State.setDemand_byUtr (s : State) (d : Dir) (ch : BitVec 3) (b : Bool) : (s.setDemand d ch b).byUtr = s.byUtr := rfl
@[simp] theorem State.setDemand_sel (s : State) (d : Dir) (ch : BitVec 3) (b : Bool) : (s.setDemand d ch b).sel = s.sel := rfl
@[simp] theorem State.setDemand_ctl (s : State) (d : Dir) (ch : BitVec 3) (b : Bool) : (s.setDemand d ch b).ctl = s.ctl := rfl
@[simp] theorem State.setDemand_utEntry (s : State) (d : Dir) (ch : BitVec 3) (b : Bool) : (s.setDemand d ch b).utEntry = s.utEntry := rfl
@[simp] theorem State.setDemand_limited (s : State) (d : Dir) (ch : BitVec 3) (b : Bool) : (s.setDemand d ch b).limited = s.limited := rfl
@[simp] theorem State.setDemand_halted (s : State) (d : Dir) (ch : BitVec 3) (b : Bool) : (s.setDemand d ch b).halted = s.halted := rfl
@[simp] theorem State.setDemand_bar (s : State) (d : Dir) (ch : BitVec 3) (b : Bool) : (s.setDemand d ch b).bar = s.bar := rfl
@[simp] theorem State.setDemand_barParity (s : State) (d : Dir) (ch : BitVec 3) (b : Bool) : (s.setDemand d ch b).barParity = s.barParity := rfl
@[simp] theorem State.setDemand_devs (s : State) (d : Dir) (ch : BitVec 3) (b : Bool) : (s.setDemand d ch b).devs = s.devs := rfl
@[simp] theorem State.setDemand_xfers (s : State) (d : Dir) (ch : BitVec 3) (b : Bool) : (s.setDemand d ch b).xfers = s.xfers := rfl
@[simp] theorem State.setDemand_typing (s : State) (d : Dir) (ch : BitVec 3) (b : Bool) : (s.setDemand d ch b).typing = s.typing := rfl
@[simp] theorem State.setDemand_typeSpoiled (s : State) (d : Dir) (ch : BitVec 3) (b : Bool) : (s.setDemand d ch b).typeSpoiled = s.typeSpoiled := rfl
@[simp] theorem State.setDemand_mtfConsole (s : State) (d : Dir) (ch : BitVec 3) (b : Bool) : (s.setDemand d ch b).mtfConsole = s.mtfConsole := rfl
@[simp] theorem State.setDemand_mtfSlave (s : State) (d : Dir) (ch : BitVec 3) (b : Bool) : (s.setDemand d ch b).mtfSlave = s.mtfSlave := rfl
@[simp] theorem State.setDemand_typedConsole (s : State) (d : Dir) (ch : BitVec 3) (b : Bool) : (s.setDemand d ch b).typedConsole = s.typedConsole := rfl
@[simp] theorem State.setDemand_typedSlave (s : State) (d : Dir) (ch : BitVec 3) (b : Bool) : (s.setDemand d ch b).typedSlave = s.typedSlave := rfl
@[simp] theorem State.setDemand_env (s : State) (d : Dir) (ch : BitVec 3) (b : Bool) : (s.setDemand d ch b).env = s.env := rfl
@[simp] theorem State.setDemand_free (s : State) (d : Dir) (ch : BitVec 3) (b : Bool) : (s.setDemand d ch b).free = s.free := rfl

/-! `begun` -/

@[simp] theorem State.begun_cfg (s : State) : s.begun.cfg = s.cfg := rfl
@[simp] theorem State.begun_mem (s : State) : s.begun.mem = s.mem := rfl
@[simp] theorem State.begun_regs (s : State) : s.begun.regs = s.regs := rfl
@[simp] theorem State.begun_ac (s : State) : s.begun.ac = s.ac := rfl
@[simp] theorem State.begun_acSign (s : State) : s.begun.acSign = s.acSign := rfl
@[simp] theorem State.begun_acState (s : State) : s.begun.acState = s.acState := rfl
@[simp] theorem State.begun_lop (s : State) : s.begun.lop = s.lop := rfl
@[simp] theorem State.begun_lopHeld (s : State) : s.begun.lopHeld = s.lopHeld := rfl
@[simp] theorem State.begun_heldMask (s : State) : s.begun.heldMask = s.heldMask := rfl
@[simp] theorem State.begun_mr (s : State) : s.begun.mr = s.mr := rfl
@[simp] theorem State.begun_pcr (s : State) : s.begun.pcr = s.pcr := rfl
@[simp] theorem State.begun_flac (s : State) : s.begun.flac = s.flac := rfl
@[simp] theorem State.begun_flop (s : State) : s.begun.flop = s.flop := rfl
@[simp] theorem State.begun_flopHeld (s : State) : s.begun.flopHeld = s.flopHeld := rfl
@[simp] theorem State.begun_fpuGroup (s : State) : s.begun.fpuGroup = s.fpuGroup := rfl
@[simp] theorem State.begun_flacOvf (s : State) : s.begun.flacOvf = s.flacOvf := rfl
@[simp] theorem State.begun_flacUnf (s : State) : s.begun.flacUnf = s.flacUnf := rfl
@[simp] theorem State.begun_flacFixed (s : State) : s.begun.flacFixed = s.flacFixed := rfl
@[simp] theorem State.begun_fpCheckPending (s : State) : s.begun.fpCheckPending = s.fpCheckPending := rfl
@[simp] theorem State.begun_stalls (s : State) : s.begun.stalls = s.stalls := rfl
@[simp] theorem State.begun_stallOrder (s : State) : s.begun.stallOrder = s.stallOrder := rfl
@[simp] theorem State.begun_firstOn (s : State) : s.begun.firstOn = s.firstOn := rfl
@[simp] theorem State.begun_scan (s : State) : s.begun.scan = s.scan := rfl
@[simp] theorem State.begun_consoleQ (s : State) : s.begun.consoleQ = s.consoleQ := rfl
@[simp] theorem State.begun_consoleServed (s : State) : s.begun.consoleServed = s.consoleServed := rfl
@[simp] theorem State.begun_consoleOut (s : State) : s.begun.consoleOut = s.consoleOut := rfl
@[simp] theorem State.begun_byUtr (s : State) : s.begun.byUtr = s.byUtr := rfl
@[simp] theorem State.begun_sel (s : State) : s.begun.sel = s.sel := rfl
@[simp] theorem State.begun_ctl (s : State) : s.begun.ctl = s.ctl := rfl
@[simp] theorem State.begun_utEntry (s : State) : s.begun.utEntry = s.utEntry := rfl
@[simp] theorem State.begun_limited (s : State) : s.begun.limited = s.limited := rfl
@[simp] theorem State.begun_halted (s : State) : s.begun.halted = s.halted := rfl
@[simp] theorem State.begun_bar (s : State) : s.begun.bar = s.bar := rfl
@[simp] theorem State.begun_barParity (s : State) : s.begun.barParity = s.barParity := rfl
@[simp] theorem State.begun_devs (s : State) : s.begun.devs = s.devs := rfl
@[simp] theorem State.begun_xfers (s : State) : s.begun.xfers = s.xfers := rfl
@[simp] theorem State.begun_demands (s : State) : s.begun.demands = s.demands := rfl
@[simp] theorem State.begun_typing (s : State) : s.begun.typing = s.typing := rfl
@[simp] theorem State.begun_typeSpoiled (s : State) : s.begun.typeSpoiled = s.typeSpoiled := rfl
@[simp] theorem State.begun_mtfConsole (s : State) : s.begun.mtfConsole = s.mtfConsole := rfl
@[simp] theorem State.begun_mtfSlave (s : State) : s.begun.mtfSlave = s.mtfSlave := rfl
@[simp] theorem State.begun_typedConsole (s : State) : s.begun.typedConsole = s.typedConsole := rfl
@[simp] theorem State.begun_typedSlave (s : State) : s.begun.typedSlave = s.typedSlave := rfl
@[simp] theorem State.begun_env (s : State) : s.begun.env = s.env := rfl
@[simp] theorem State.begun_free (s : State) : s.begun.free = s.free := rfl

/-! `noAc` -/

@[simp] theorem State.noAc_cfg (s : State) : s.noAc.cfg = s.cfg := rfl
@[simp] theorem State.noAc_mem (s : State) : s.noAc.mem = s.mem := rfl
@[simp] theorem State.noAc_regs (s : State) : s.noAc.regs = s.regs := rfl
@[simp] theorem State.noAc_acSign (s : State) : s.noAc.acSign = s.acSign := rfl
@[simp] theorem State.noAc_lop (s : State) : s.noAc.lop = s.lop := rfl
@[simp] theorem State.noAc_mr (s : State) : s.noAc.mr = s.mr := rfl
@[simp] theorem State.noAc_pcr (s : State) : s.noAc.pcr = s.pcr := rfl
@[simp] theorem State.noAc_flac (s : State) : s.noAc.flac = s.flac := rfl
@[simp] theorem State.noAc_flop (s : State) : s.noAc.flop = s.flop := rfl
@[simp] theorem State.noAc_flopHeld (s : State) : s.noAc.flopHeld = s.flopHeld := rfl
@[simp] theorem State.noAc_fpuGroup (s : State) : s.noAc.fpuGroup = s.fpuGroup := rfl
@[simp] theorem State.noAc_flacOvf (s : State) : s.noAc.flacOvf = s.flacOvf := rfl
@[simp] theorem State.noAc_flacUnf (s : State) : s.noAc.flacUnf = s.flacUnf := rfl
@[simp] theorem State.noAc_flopOvf (s : State) : s.noAc.flopOvf = s.flopOvf := rfl
@[simp] theorem State.noAc_flopUnf (s : State) : s.noAc.flopUnf = s.flopUnf := rfl
@[simp] theorem State.noAc_flacFixed (s : State) : s.noAc.flacFixed = s.flacFixed := rfl
@[simp] theorem State.noAc_fpCheckPending (s : State) : s.noAc.fpCheckPending = s.fpCheckPending := rfl
@[simp] theorem State.noAc_stalls (s : State) : s.noAc.stalls = s.stalls := rfl
@[simp] theorem State.noAc_stallOrder (s : State) : s.noAc.stallOrder = s.stallOrder := rfl
@[simp] theorem State.noAc_firstOn (s : State) : s.noAc.firstOn = s.firstOn := rfl
@[simp] theorem State.noAc_scan (s : State) : s.noAc.scan = s.scan := rfl
@[simp] theorem State.noAc_consoleQ (s : State) : s.noAc.consoleQ = s.consoleQ := rfl
@[simp] theorem State.noAc_consoleServed (s : State) : s.noAc.consoleServed = s.consoleServed := rfl
@[simp] theorem State.noAc_consoleOut (s : State) : s.noAc.consoleOut = s.consoleOut := rfl
@[simp] theorem State.noAc_byUtr (s : State) : s.noAc.byUtr = s.byUtr := rfl
@[simp] theorem State.noAc_sel (s : State) : s.noAc.sel = s.sel := rfl
@[simp] theorem State.noAc_ctl (s : State) : s.noAc.ctl = s.ctl := rfl
@[simp] theorem State.noAc_utEntry (s : State) : s.noAc.utEntry = s.utEntry := rfl
@[simp] theorem State.noAc_limited (s : State) : s.noAc.limited = s.limited := rfl
@[simp] theorem State.noAc_halted (s : State) : s.noAc.halted = s.halted := rfl
@[simp] theorem State.noAc_bar (s : State) : s.noAc.bar = s.bar := rfl
@[simp] theorem State.noAc_barParity (s : State) : s.noAc.barParity = s.barParity := rfl
@[simp] theorem State.noAc_devs (s : State) : s.noAc.devs = s.devs := rfl
@[simp] theorem State.noAc_xfers (s : State) : s.noAc.xfers = s.xfers := rfl
@[simp] theorem State.noAc_demands (s : State) : s.noAc.demands = s.demands := rfl
@[simp] theorem State.noAc_typing (s : State) : s.noAc.typing = s.typing := rfl
@[simp] theorem State.noAc_typeSpoiled (s : State) : s.noAc.typeSpoiled = s.typeSpoiled := rfl
@[simp] theorem State.noAc_mtfConsole (s : State) : s.noAc.mtfConsole = s.mtfConsole := rfl
@[simp] theorem State.noAc_mtfSlave (s : State) : s.noAc.mtfSlave = s.mtfSlave := rfl
@[simp] theorem State.noAc_typedConsole (s : State) : s.noAc.typedConsole = s.typedConsole := rfl
@[simp] theorem State.noAc_typedSlave (s : State) : s.noAc.typedSlave = s.typedSlave := rfl
@[simp] theorem State.noAc_env (s : State) : s.noAc.env = s.env := rfl

/-! `intervened` -/

@[simp] theorem State.intervened_cfg (s : State) : s.intervened.cfg = s.cfg := rfl
@[simp] theorem State.intervened_mem (s : State) : s.intervened.mem = s.mem := rfl
@[simp] theorem State.intervened_regs (s : State) : s.intervened.regs = s.regs := rfl
@[simp] theorem State.intervened_ac (s : State) : s.intervened.ac = s.ac := rfl
@[simp] theorem State.intervened_acSign (s : State) : s.intervened.acSign = s.acSign := rfl
@[simp] theorem State.intervened_lop (s : State) : s.intervened.lop = s.lop := rfl
@[simp] theorem State.intervened_mr (s : State) : s.intervened.mr = s.mr := rfl
@[simp] theorem State.intervened_pcr (s : State) : s.intervened.pcr = s.pcr := rfl
@[simp] theorem State.intervened_flac (s : State) : s.intervened.flac = s.flac := rfl
@[simp] theorem State.intervened_flop (s : State) : s.intervened.flop = s.flop := rfl
@[simp] theorem State.intervened_flopHeld (s : State) : s.intervened.flopHeld = s.flopHeld := rfl
@[simp] theorem State.intervened_fpuGroup (s : State) : s.intervened.fpuGroup = s.fpuGroup := rfl
@[simp] theorem State.intervened_flacOvf (s : State) : s.intervened.flacOvf = s.flacOvf := rfl
@[simp] theorem State.intervened_flacUnf (s : State) : s.intervened.flacUnf = s.flacUnf := rfl
@[simp] theorem State.intervened_flopOvf (s : State) : s.intervened.flopOvf = s.flopOvf := rfl
@[simp] theorem State.intervened_flopUnf (s : State) : s.intervened.flopUnf = s.flopUnf := rfl
@[simp] theorem State.intervened_flacFixed (s : State) : s.intervened.flacFixed = s.flacFixed := rfl
@[simp] theorem State.intervened_fpCheckPending (s : State) : s.intervened.fpCheckPending = s.fpCheckPending := rfl
@[simp] theorem State.intervened_stalls (s : State) : s.intervened.stalls = s.stalls := rfl
@[simp] theorem State.intervened_stallOrder (s : State) : s.intervened.stallOrder = s.stallOrder := rfl
@[simp] theorem State.intervened_firstOn (s : State) : s.intervened.firstOn = s.firstOn := rfl
@[simp] theorem State.intervened_scan (s : State) : s.intervened.scan = s.scan := rfl
@[simp] theorem State.intervened_consoleQ (s : State) : s.intervened.consoleQ = s.consoleQ := rfl
@[simp] theorem State.intervened_consoleServed (s : State) : s.intervened.consoleServed = s.consoleServed := rfl
@[simp] theorem State.intervened_consoleOut (s : State) : s.intervened.consoleOut = s.consoleOut := rfl
@[simp] theorem State.intervened_byUtr (s : State) : s.intervened.byUtr = s.byUtr := rfl
@[simp] theorem State.intervened_sel (s : State) : s.intervened.sel = s.sel := rfl
@[simp] theorem State.intervened_ctl (s : State) : s.intervened.ctl = s.ctl := rfl
@[simp] theorem State.intervened_utEntry (s : State) : s.intervened.utEntry = s.utEntry := rfl
@[simp] theorem State.intervened_limited (s : State) : s.intervened.limited = s.limited := rfl
@[simp] theorem State.intervened_halted (s : State) : s.intervened.halted = s.halted := rfl
@[simp] theorem State.intervened_bar (s : State) : s.intervened.bar = s.bar := rfl
@[simp] theorem State.intervened_barParity (s : State) : s.intervened.barParity = s.barParity := rfl
@[simp] theorem State.intervened_devs (s : State) : s.intervened.devs = s.devs := rfl
@[simp] theorem State.intervened_xfers (s : State) : s.intervened.xfers = s.xfers := rfl
@[simp] theorem State.intervened_demands (s : State) : s.intervened.demands = s.demands := rfl
@[simp] theorem State.intervened_typing (s : State) : s.intervened.typing = s.typing := rfl
@[simp] theorem State.intervened_typeSpoiled (s : State) : s.intervened.typeSpoiled = s.typeSpoiled := rfl
@[simp] theorem State.intervened_mtfConsole (s : State) : s.intervened.mtfConsole = s.mtfConsole := rfl
@[simp] theorem State.intervened_mtfSlave (s : State) : s.intervened.mtfSlave = s.mtfSlave := rfl
@[simp] theorem State.intervened_typedConsole (s : State) : s.intervened.typedConsole = s.typedConsole := rfl
@[simp] theorem State.intervened_typedSlave (s : State) : s.intervened.typedSlave = s.typedSlave := rfl
@[simp] theorem State.intervened_env (s : State) : s.intervened.env = s.env := rfl
@[simp] theorem State.intervened_free (s : State) : s.intervened.free = s.free := rfl

/-! `dropHeld` -/

@[simp] theorem State.dropHeld_cfg (s : State) : s.dropHeld.cfg = s.cfg := rfl
@[simp] theorem State.dropHeld_mem (s : State) : s.dropHeld.mem = s.mem := rfl
@[simp] theorem State.dropHeld_regs (s : State) : s.dropHeld.regs = s.regs := rfl
@[simp] theorem State.dropHeld_ac (s : State) : s.dropHeld.ac = s.ac := rfl
@[simp] theorem State.dropHeld_acSign (s : State) : s.dropHeld.acSign = s.acSign := rfl
@[simp] theorem State.dropHeld_lop (s : State) : s.dropHeld.lop = s.lop := rfl
@[simp] theorem State.dropHeld_mr (s : State) : s.dropHeld.mr = s.mr := rfl
@[simp] theorem State.dropHeld_pcr (s : State) : s.dropHeld.pcr = s.pcr := rfl
@[simp] theorem State.dropHeld_flac (s : State) : s.dropHeld.flac = s.flac := rfl
@[simp] theorem State.dropHeld_flop (s : State) : s.dropHeld.flop = s.flop := rfl
@[simp] theorem State.dropHeld_fpuGroup (s : State) : s.dropHeld.fpuGroup = s.fpuGroup := rfl
@[simp] theorem State.dropHeld_flacOvf (s : State) : s.dropHeld.flacOvf = s.flacOvf := rfl
@[simp] theorem State.dropHeld_flacUnf (s : State) : s.dropHeld.flacUnf = s.flacUnf := rfl
@[simp] theorem State.dropHeld_flopOvf (s : State) : s.dropHeld.flopOvf = s.flopOvf := rfl
@[simp] theorem State.dropHeld_flopUnf (s : State) : s.dropHeld.flopUnf = s.flopUnf := rfl
@[simp] theorem State.dropHeld_flacFixed (s : State) : s.dropHeld.flacFixed = s.flacFixed := rfl
@[simp] theorem State.dropHeld_fpCheckPending (s : State) : s.dropHeld.fpCheckPending = s.fpCheckPending := rfl
@[simp] theorem State.dropHeld_stalls (s : State) : s.dropHeld.stalls = s.stalls := rfl
@[simp] theorem State.dropHeld_stallOrder (s : State) : s.dropHeld.stallOrder = s.stallOrder := rfl
@[simp] theorem State.dropHeld_firstOn (s : State) : s.dropHeld.firstOn = s.firstOn := rfl
@[simp] theorem State.dropHeld_scan (s : State) : s.dropHeld.scan = s.scan := rfl
@[simp] theorem State.dropHeld_consoleQ (s : State) : s.dropHeld.consoleQ = s.consoleQ := rfl
@[simp] theorem State.dropHeld_consoleServed (s : State) : s.dropHeld.consoleServed = s.consoleServed := rfl
@[simp] theorem State.dropHeld_consoleOut (s : State) : s.dropHeld.consoleOut = s.consoleOut := rfl
@[simp] theorem State.dropHeld_byUtr (s : State) : s.dropHeld.byUtr = s.byUtr := rfl
@[simp] theorem State.dropHeld_sel (s : State) : s.dropHeld.sel = s.sel := rfl
@[simp] theorem State.dropHeld_ctl (s : State) : s.dropHeld.ctl = s.ctl := rfl
@[simp] theorem State.dropHeld_utEntry (s : State) : s.dropHeld.utEntry = s.utEntry := rfl
@[simp] theorem State.dropHeld_limited (s : State) : s.dropHeld.limited = s.limited := rfl
@[simp] theorem State.dropHeld_halted (s : State) : s.dropHeld.halted = s.halted := rfl
@[simp] theorem State.dropHeld_bar (s : State) : s.dropHeld.bar = s.bar := rfl
@[simp] theorem State.dropHeld_barParity (s : State) : s.dropHeld.barParity = s.barParity := rfl
@[simp] theorem State.dropHeld_devs (s : State) : s.dropHeld.devs = s.devs := rfl
@[simp] theorem State.dropHeld_xfers (s : State) : s.dropHeld.xfers = s.xfers := rfl
@[simp] theorem State.dropHeld_demands (s : State) : s.dropHeld.demands = s.demands := rfl
@[simp] theorem State.dropHeld_typing (s : State) : s.dropHeld.typing = s.typing := rfl
@[simp] theorem State.dropHeld_typeSpoiled (s : State) : s.dropHeld.typeSpoiled = s.typeSpoiled := rfl
@[simp] theorem State.dropHeld_mtfConsole (s : State) : s.dropHeld.mtfConsole = s.mtfConsole := rfl
@[simp] theorem State.dropHeld_mtfSlave (s : State) : s.dropHeld.mtfSlave = s.mtfSlave := rfl
@[simp] theorem State.dropHeld_typedConsole (s : State) : s.dropHeld.typedConsole = s.typedConsole := rfl
@[simp] theorem State.dropHeld_typedSlave (s : State) : s.dropHeld.typedSlave = s.typedSlave := rfl
@[simp] theorem State.dropHeld_env (s : State) : s.dropHeld.env = s.env := rfl
@[simp] theorem State.dropHeld_free (s : State) : s.dropHeld.free = s.free := rfl

/-! `hunted` -/

@[simp] theorem State.hunted_cfg (s : State) (b : Bool) : (s.hunted b).cfg = s.cfg := rfl
@[simp] theorem State.hunted_mem (s : State) (b : Bool) : (s.hunted b).mem = s.mem := rfl
@[simp] theorem State.hunted_regs (s : State) (b : Bool) : (s.hunted b).regs = s.regs := rfl
@[simp] theorem State.hunted_ac (s : State) (b : Bool) : (s.hunted b).ac = s.ac := rfl
@[simp] theorem State.hunted_acSign (s : State) (b : Bool) : (s.hunted b).acSign = s.acSign := rfl
@[simp] theorem State.hunted_lop (s : State) (b : Bool) : (s.hunted b).lop = s.lop := rfl
@[simp] theorem State.hunted_mr (s : State) (b : Bool) : (s.hunted b).mr = s.mr := rfl
@[simp] theorem State.hunted_pcr (s : State) (b : Bool) : (s.hunted b).pcr = s.pcr := rfl
@[simp] theorem State.hunted_flac (s : State) (b : Bool) : (s.hunted b).flac = s.flac := rfl
@[simp] theorem State.hunted_flop (s : State) (b : Bool) : (s.hunted b).flop = s.flop := rfl
@[simp] theorem State.hunted_fpuGroup (s : State) (b : Bool) : (s.hunted b).fpuGroup = s.fpuGroup := rfl
@[simp] theorem State.hunted_flacOvf (s : State) (b : Bool) : (s.hunted b).flacOvf = s.flacOvf := rfl
@[simp] theorem State.hunted_flacUnf (s : State) (b : Bool) : (s.hunted b).flacUnf = s.flacUnf := rfl
@[simp] theorem State.hunted_flopOvf (s : State) (b : Bool) : (s.hunted b).flopOvf = s.flopOvf := rfl
@[simp] theorem State.hunted_flopUnf (s : State) (b : Bool) : (s.hunted b).flopUnf = s.flopUnf := rfl
@[simp] theorem State.hunted_flacFixed (s : State) (b : Bool) : (s.hunted b).flacFixed = s.flacFixed := rfl
@[simp] theorem State.hunted_fpCheckPending (s : State) (b : Bool) : (s.hunted b).fpCheckPending = s.fpCheckPending := rfl
@[simp] theorem State.hunted_stalls (s : State) (b : Bool) : (s.hunted b).stalls = s.stalls := rfl
@[simp] theorem State.hunted_stallOrder (s : State) (b : Bool) : (s.hunted b).stallOrder = s.stallOrder := rfl
@[simp] theorem State.hunted_firstOn (s : State) (b : Bool) : (s.hunted b).firstOn = s.firstOn := rfl
@[simp] theorem State.hunted_consoleQ (s : State) (b : Bool) : (s.hunted b).consoleQ = s.consoleQ := rfl
@[simp] theorem State.hunted_consoleServed (s : State) (b : Bool) : (s.hunted b).consoleServed = s.consoleServed := rfl
@[simp] theorem State.hunted_consoleOut (s : State) (b : Bool) : (s.hunted b).consoleOut = s.consoleOut := rfl
@[simp] theorem State.hunted_byUtr (s : State) (b : Bool) : (s.hunted b).byUtr = s.byUtr := rfl
@[simp] theorem State.hunted_sel (s : State) (b : Bool) : (s.hunted b).sel = s.sel := rfl
@[simp] theorem State.hunted_ctl (s : State) (b : Bool) : (s.hunted b).ctl = s.ctl := rfl
@[simp] theorem State.hunted_utEntry (s : State) (b : Bool) : (s.hunted b).utEntry = s.utEntry := rfl
@[simp] theorem State.hunted_limited (s : State) (b : Bool) : (s.hunted b).limited = s.limited := rfl
@[simp] theorem State.hunted_halted (s : State) (b : Bool) : (s.hunted b).halted = s.halted := rfl
@[simp] theorem State.hunted_bar (s : State) (b : Bool) : (s.hunted b).bar = s.bar := rfl
@[simp] theorem State.hunted_barParity (s : State) (b : Bool) : (s.hunted b).barParity = s.barParity := rfl
@[simp] theorem State.hunted_devs (s : State) (b : Bool) : (s.hunted b).devs = s.devs := rfl
@[simp] theorem State.hunted_xfers (s : State) (b : Bool) : (s.hunted b).xfers = s.xfers := rfl
@[simp] theorem State.hunted_demands (s : State) (b : Bool) : (s.hunted b).demands = s.demands := rfl
@[simp] theorem State.hunted_typing (s : State) (b : Bool) : (s.hunted b).typing = s.typing := rfl
@[simp] theorem State.hunted_typeSpoiled (s : State) (b : Bool) : (s.hunted b).typeSpoiled = s.typeSpoiled := rfl
@[simp] theorem State.hunted_mtfConsole (s : State) (b : Bool) : (s.hunted b).mtfConsole = s.mtfConsole := rfl
@[simp] theorem State.hunted_mtfSlave (s : State) (b : Bool) : (s.hunted b).mtfSlave = s.mtfSlave := rfl
@[simp] theorem State.hunted_typedConsole (s : State) (b : Bool) : (s.hunted b).typedConsole = s.typedConsole := rfl
@[simp] theorem State.hunted_typedSlave (s : State) (b : Bool) : (s.hunted b).typedSlave = s.typedSlave := rfl
@[simp] theorem State.hunted_env (s : State) (b : Bool) : (s.hunted b).env = s.env := rfl
@[simp] theorem State.hunted_free (s : State) (b : Bool) : (s.hunted b).free = s.free := rfl

/-! `ended` -/

@[simp] theorem State.ended_cfg (s : State) (q b : Bool) : (s.ended q b).cfg = s.cfg := rfl
@[simp] theorem State.ended_mem (s : State) (q b : Bool) : (s.ended q b).mem = s.mem := rfl
@[simp] theorem State.ended_regs (s : State) (q b : Bool) : (s.ended q b).regs = s.regs := rfl
@[simp] theorem State.ended_ac (s : State) (q b : Bool) : (s.ended q b).ac = s.ac := rfl
@[simp] theorem State.ended_acSign (s : State) (q b : Bool) : (s.ended q b).acSign = s.acSign := rfl
@[simp] theorem State.ended_lop (s : State) (q b : Bool) : (s.ended q b).lop = s.lop := rfl
@[simp] theorem State.ended_mr (s : State) (q b : Bool) : (s.ended q b).mr = s.mr := rfl
@[simp] theorem State.ended_flac (s : State) (q b : Bool) : (s.ended q b).flac = s.flac := rfl
@[simp] theorem State.ended_flop (s : State) (q b : Bool) : (s.ended q b).flop = s.flop := rfl
@[simp] theorem State.ended_fpuGroup (s : State) (q b : Bool) : (s.ended q b).fpuGroup = s.fpuGroup := rfl
@[simp] theorem State.ended_flacOvf (s : State) (q b : Bool) : (s.ended q b).flacOvf = s.flacOvf := rfl
@[simp] theorem State.ended_flacUnf (s : State) (q b : Bool) : (s.ended q b).flacUnf = s.flacUnf := rfl
@[simp] theorem State.ended_flopOvf (s : State) (q b : Bool) : (s.ended q b).flopOvf = s.flopOvf := rfl
@[simp] theorem State.ended_flopUnf (s : State) (q b : Bool) : (s.ended q b).flopUnf = s.flopUnf := rfl
@[simp] theorem State.ended_flacFixed (s : State) (q b : Bool) : (s.ended q b).flacFixed = s.flacFixed := rfl
@[simp] theorem State.ended_fpCheckPending (s : State) (q b : Bool) : (s.ended q b).fpCheckPending = s.fpCheckPending := rfl
@[simp] theorem State.ended_stalls (s : State) (q b : Bool) : (s.ended q b).stalls = s.stalls := rfl
@[simp] theorem State.ended_stallOrder (s : State) (q b : Bool) : (s.ended q b).stallOrder = s.stallOrder := rfl
@[simp] theorem State.ended_firstOn (s : State) (q b : Bool) : (s.ended q b).firstOn = s.firstOn := rfl
@[simp] theorem State.ended_consoleQ (s : State) (q b : Bool) : (s.ended q b).consoleQ = s.consoleQ := rfl
@[simp] theorem State.ended_consoleServed (s : State) (q b : Bool) : (s.ended q b).consoleServed = s.consoleServed := rfl
@[simp] theorem State.ended_consoleOut (s : State) (q b : Bool) : (s.ended q b).consoleOut = s.consoleOut := rfl
@[simp] theorem State.ended_byUtr (s : State) (q b : Bool) : (s.ended q b).byUtr = s.byUtr := rfl
@[simp] theorem State.ended_sel (s : State) (q b : Bool) : (s.ended q b).sel = s.sel := rfl
@[simp] theorem State.ended_ctl (s : State) (q b : Bool) : (s.ended q b).ctl = s.ctl := rfl
@[simp] theorem State.ended_utEntry (s : State) (q b : Bool) : (s.ended q b).utEntry = s.utEntry := rfl
@[simp] theorem State.ended_limited (s : State) (q b : Bool) : (s.ended q b).limited = s.limited := rfl
@[simp] theorem State.ended_halted (s : State) (q b : Bool) : (s.ended q b).halted = s.halted := rfl
@[simp] theorem State.ended_bar (s : State) (q b : Bool) : (s.ended q b).bar = s.bar := rfl
@[simp] theorem State.ended_barParity (s : State) (q b : Bool) : (s.ended q b).barParity = s.barParity := rfl
@[simp] theorem State.ended_devs (s : State) (q b : Bool) : (s.ended q b).devs = s.devs := rfl
@[simp] theorem State.ended_xfers (s : State) (q b : Bool) : (s.ended q b).xfers = s.xfers := rfl
@[simp] theorem State.ended_demands (s : State) (q b : Bool) : (s.ended q b).demands = s.demands := rfl
@[simp] theorem State.ended_typing (s : State) (q b : Bool) : (s.ended q b).typing = s.typing := rfl
@[simp] theorem State.ended_typeSpoiled (s : State) (q b : Bool) : (s.ended q b).typeSpoiled = s.typeSpoiled := rfl
@[simp] theorem State.ended_mtfConsole (s : State) (q b : Bool) : (s.ended q b).mtfConsole = s.mtfConsole := rfl
@[simp] theorem State.ended_mtfSlave (s : State) (q b : Bool) : (s.ended q b).mtfSlave = s.mtfSlave := rfl
@[simp] theorem State.ended_typedConsole (s : State) (q b : Bool) : (s.ended q b).typedConsole = s.typedConsole := rfl
@[simp] theorem State.ended_typedSlave (s : State) (q b : Bool) : (s.ended q b).typedSlave = s.typedSlave := rfl
@[simp] theorem State.ended_env (s : State) (q b : Bool) : (s.ended q b).env = s.env := rfl
@[simp] theorem State.ended_free (s : State) (q b : Bool) : (s.ended q b).free = s.free := rfl

end Sys2Proof.Machine
end

