-- ==== Sys2Proof/Laws/Registers.lean ====
section
/-! SUPPORT. What the reads of the state (a register, the group in control, the barricade, a location) answer after each update. -/
namespace Sys2Proof.Machine

theorem regIx_inj {g h : BitVec 3} {i j : BitVec 5} : (regIx g i).val = (regIx h j).val ↔ g = h ∧ i = j := by
  simp only [regIx]
  constructor
  · intro e
    have hi := i.isLt; have hj := j.isLt
    exact ⟨BitVec.eq_of_toNat_eq (by omega), BitVec.eq_of_toNat_eq (by omega)⟩
  · rintro ⟨rfl, rfl⟩; rfl

/-! ### Special registers -/

theorem State.reg_of_regs {s t : State} (h : t.regs = s.regs) (g : BitVec 3) (i : BitVec 5) : t.reg g i = s.reg g i := by
  unfold State.reg; simp only [h]

theorem State.reg_setReg (s : State) (g h : BitVec 3) (i j : BitVec 5) (r : SReg) :
    (s.setReg h j r).reg g i = if g = h ∧ i = j then r else s.reg g i := by
  unfold State.reg State.setReg
  simp only [Vector.getElem_set, regIx_inj]
  simp only [eq_comm]

@[simp] theorem State.reg_setReg_self (s : State) (h : BitVec 3) (i : BitVec 5) (r : SReg) : (s.setReg h i r).reg h i = r := by
  simp [State.reg_setReg]

theorem State.reg_setReg_other (s : State) {g h : BitVec 3} {i j : BitVec 5} (n : ¬ (g = h ∧ i = j)) (r : SReg) :
    (s.setReg h j r).reg g i = s.reg g i := by
  simp [State.reg_setReg, n]

@[simp] theorem State.reg_setPcrBit (s : State) (k : Nat) (b : Bool) (g : BitVec 3) (i : BitVec 5) :
    (s.setPcrBit k b).reg g i = s.reg g i := rfl
@[simp] theorem State.reg_setCur (s : State) (c g : BitVec 3) (i : BitVec 5) : (s.setCur c).reg g i = s.reg g i := rfl
@[simp] theorem State.reg_setErrorCode (s : State) (c : BitVec 5) (g : BitVec 3) (i : BitVec 5) :
    (s.setErrorCode c).reg g i = s.reg g i := rfl
@[simp] theorem State.reg_setFixedStart (s : State) (v g : BitVec 3) (i : BitVec 5) :
    (s.setFixedStart v).reg g i = s.reg g i := rfl
@[simp] theorem State.reg_putWord (s : State) (a : Nat) (v : MWord) (g : BitVec 3) (i : BitVec 5) :
    (s.putWord a v).reg g i = s.reg g i := rfl
@[simp] theorem State.reg_begun (s : State) (g : BitVec 3) (i : BitVec 5) : s.begun.reg g i = s.reg g i := rfl
@[simp] theorem State.reg_noAc (s : State) (g : BitVec 3) (i : BitVec 5) : s.noAc.reg g i = s.reg g i := rfl
@[simp] theorem State.reg_dropHeld (s : State) (g : BitVec 3) (i : BitVec 5) : s.dropHeld.reg g i = s.reg g i := rfl
@[simp] theorem State.reg_intervened (s : State) (g : BitVec 3) (i : BitVec 5) : s.intervened.reg g i = s.reg g i := rfl
@[simp] theorem State.reg_hunted (s : State) (b : Bool) (g : BitVec 3) (i : BitVec 5) : (s.hunted b).reg g i = s.reg g i := rfl
@[simp] theorem State.reg_ended (s : State) (q b : Bool) (g : BitVec 3) (i : BitVec 5) : (s.ended q b).reg g i = s.reg g i := rfl

/-! ### The group in control -/

@[simp] theorem State.cur_setReg (s : State) (h : BitVec 3) (i : BitVec 5) (r : SReg) : (s.setReg h i r).cur = s.cur := rfl
@[simp] theorem State.cur_putWord (s : State) (a : Nat) (v : MWord) : (s.putWord a v).cur = s.cur := rfl
@[simp] theorem State.cur_begun (s : State) : s.begun.cur = s.cur := rfl
@[simp] theorem State.cur_noAc (s : State) : s.noAc.cur = s.cur := rfl
@[simp] theorem State.cur_dropHeld (s : State) : s.dropHeld.cur = s.cur := rfl
@[simp] theorem State.cur_intervened (s : State) : s.intervened.cur = s.cur := rfl

theorem State.cur_setPcrBit (s : State) {k : Nat} (b : Bool) (hk : 1 ≤ k ∧ k ≤ 48) (h : k < 18 ∨ 20 < k) :
    (s.setPcrBit k b).cur = s.cur :=
  fld_setBitAt s.pcr b (by omega) hk h

@[simp] theorem State.cur_setErrorCode (s : State) (c : BitVec 5) : (s.setErrorCode c).cur = s.cur :=
  fld_setFld_other (i := 4) (j := 8) s.pcr c (by omega) (by omega) (by omega)

@[simp] theorem State.cur_setFixedStart (s : State) (v : BitVec 3) : (s.setFixedStart v).cur = s.cur :=
  fld_setFld_other (i := 1) (j := 3) s.pcr v (by omega) (by omega) (by omega)

@[simp] theorem State.cur_setCur (s : State) (g : BitVec 3) : (s.setCur g).cur = g :=
  fld_setFld_self (i := 18) (j := 20) s.pcr g (by omega) (by omega)

@[simp] theorem State.cur_ended (s : State) (q b : Bool) : (s.ended q b).cur = s.cur :=
  State.cur_setPcrBit s q (by omega) (by omega)

/-- What the bits that name no group leave: the barricade's answers. -/
theorem State.restricted_of {s t : State} (hc : t.cfg = s.cfg) (hb : t.bar = s.bar) (g : BitVec 3) :
    t.restricted g = s.restricted g := by
  unfold State.restricted; rw [hc, hb]

theorem State.barsMem_of {s t : State} (hc : t.cfg = s.cfg) (hb : t.bar = s.bar) (hg : t.cur = s.cur) (a : Nat) :
    t.barsMem a = s.barsMem a := by
  unfold State.barsMem State.restricted State.boundary; rw [hc, hb, hg]

theorem State.barsReg_of {s t : State} (hc : t.cfg = s.cfg) (hb : t.bar = s.bar) (hg : t.cur = s.cur) (h : BitVec 3) (i : BitVec 5) :
    t.barsReg h i = s.barsReg h i := by
  unfold State.barsReg State.restricted; rw [hc, hb, hg]

/-! ### Main memory -/

/-- A store leaves its word, but in the typewriter buffer while a word is being typed. -/
theorem State.word_putWord_self {s : State} (w : s.mem.wf = true) {a : Nat} (h : s.reserved a = false) (v : MWord) :
    (s.putWord a v).mem.word a = v := by
  refine (Memory.word_setWord_self w a (if s.reserved a = true then s.freeMWord else v)).trans ?_
  rw [h]; rfl

theorem State.word_putWord_other (s : State) {a n : Nat} (h : n ≠ a) (v : MWord) :
    (s.putWord a v).mem.word n = s.mem.word n :=
  Memory.word_setWord_other h (if s.reserved a = true then s.freeMWord else v)

theorem State.byte_putWord_other (s : State) {a n : Nat} (h : n / 8 ≠ a) (v : MWord) :
    (s.putWord a v).mem.byte n = s.mem.byte n :=
  Memory.byte_setWord_other h (if s.reserved a = true then s.freeMWord else v)

/-! ### Locations -/

/-- A store changes memory or a register, and nothing else but what the model keeps for itself. -/
theorem State.stored_eq (s : State) (l : Loc) (v : MWord) :
    ∃ m r y n, s.stored l v = { s with mem := m, regs := r, typeSpoiled := y, free := n } := by
  cases l with
  | inactive => exact ⟨s.mem, s.regs, s.typeSpoiled, s.free, rfl⟩
  | mem a => exact ⟨_, s.regs, _, _, rfl⟩
  | reg h i inc => exact ⟨s.mem, _, s.typeSpoiled, _, rfl⟩

/-- Fetching a mask changes the mask register, and nothing else. -/
theorem State.masking_eq (s : State) (k : Option (BitVec 5)) : ∃ m, s.masking k = { s with mr := m } := by
  unfold State.masking
  split
  · exact ⟨s.mr, rfl⟩
  · exact ⟨_, rfl⟩

/-- A location goes on holding a word while it is not written. -/
theorem State.holds_mono {s t : State} {l : Loc} {v : MWord} (h : s.holds l v) (hc : t.cfg = s.cfg) (hk : t.ctl = s.ctl)
    (hy : t.typing = s.typing) (hm : ∀ a, l = .mem a → t.mem.word a = s.mem.word a) (hr : ∀ g i inc, l = .reg g i inc → t.reg g i = s.reg g i) : t.holds l v := by
  cases l with
  | inactive => trivial
  | mem a => exact fun e => (hm a rfl).trans (h (by unfold State.reserved at e ⊢; rwa [hy] at e))
  | reg g i inc =>
    change if MWord.bad v then (t.reg g i).tag = .bad else t.reg g i = t.toSr v
    rw [hr g i inc rfl]
    change if MWord.bad v then (s.reg g i).tag = .bad else s.reg g i = s.toSr v at h
    split
    · rename_i hb; rwa [if_pos hb] at h
    · rename_i hb
      rw [if_neg hb] at h
      rw [h]; unfold State.toSr; rw [if_neg hb, if_neg hb, hc, hk]

/-- What a store leaves: the location holds the word. -/
theorem State.holds_stored {s : State} (w : s.mem.wf = true) (l : Loc) (v : MWord) : (s.stored l v).holds l v := by
  cases l with
  | inactive => trivial
  | mem a => exact fun e => State.word_putWord_self w e v
  | reg h i inc =>
    unfold State.holds State.stored
    simp only [State.reg_setReg_self]
    unfold State.toSr
    split <;> rfl

/-- What a store leaves alone. -/
theorem State.frame_stored (s : State) (l : Loc) (v : MWord) : Frame s (s.stored l v) l.regs l.words := by
  cases l with
  | inactive => exact ⟨fun _ _ _ => rfl, fun _ _ => rfl⟩
  | mem a => exact ⟨fun _ _ _ => rfl, fun n h => State.byte_putWord_other s (by simpa [Loc.words] using h) v⟩
  | reg h i inc =>
    refine ⟨fun g j hn => State.reg_setReg_other { s with free := _ } ?_ _, fun _ _ => rfl⟩
    simpa [Loc.regs] using hn

/-- Frames compose. -/
theorem Frame.trans {s t u : State} {r r' : List (BitVec 3 × BitVec 5)} {w w' : List Nat} (h : Frame s t r w) (h' : Frame t u r' w') :
    Frame s u (r ++ r') (w ++ w') :=
  ⟨fun g i hn => by
      rw [List.mem_append, not_or] at hn
      rw [h'.regs g i hn.2, h.regs g i hn.1],
    fun n hn => by
      rw [List.mem_append, not_or] at hn
      rw [h'.bytes n hn.2, h.bytes n hn.1]⟩

/-- A change of neither registers nor memory. -/
theorem Frame.same {s t : State} (hr : t.regs = s.regs) (hm : t.mem = s.mem) : Frame s t [] [] :=
  ⟨fun g i _ => State.reg_of_regs hr g i, fun n _ => by rw [hm]⟩

/-- More may be said to change. -/
theorem Frame.mono {s t : State} {r r' : List (BitVec 3 × BitVec 5)} {w w' : List Nat} (h : Frame s t r w) (hr : r ⊆ r') (hw : w ⊆ w') :
    Frame s t r' w' :=
  ⟨fun g i hn => h.regs g i fun m => hn (hr m), fun n hn => h.bytes n fun m => hn (hw m)⟩

end Sys2Proof.Machine
end

