-- ==== Sys2Proof/Laws/Run.lean ====
section
/-! SUPPORT. What each shared operation answers where nothing goes wrong, as an equation that later proofs rewrite with. -/
namespace Sys2Proof.Machine

/-! ### Address groups -/

theorem isInactive_active {x : Group} (h : x ≠ inactiveGroup) (d : Bool) (s : State) : isInactive x d s = .ok (false, s) := by
  unfold isInactive; rw [if_neg h]; rfl

theorem isInactive_inactive (s : State) : isInactive inactiveGroup false s = .ok (true, s) := rfl

theorem needActive_active {x : Group} (h : x ≠ inactiveGroup) (d : Bool) (s : State) : needActive x d s = .ok ((), s) := by
  unfold needActive; rw [Op.bind_ok (isInactive_active h d s)]; rfl

/-! ### Entering an instruction -/

theorem beginForm_run {f : Form} (h : f.designated = true) (s : State) : beginForm f s = .ok ((), s.begun) := by
  unfold beginForm begin
  rw [Op.bind_ok (Op.update_run _ s)]
  unfold checkDesignators
  rw [h]; rfl

/-- Active groups have no designator of an inactive one. -/
theorem designated_active {f : Form} (ha : f.a ≠ inactiveGroup) (hb : f.b ≠ inactiveGroup) (hc : f.c ≠ inactiveGroup) :
    f.designated = true := by
  unfold Form.designated
  simp [ha, hb, hc]

/-! ### Registers and memory -/

/-- Traffic control has nothing to do where no event is to come (log 9). -/
theorem tick_quiet {s : State} (he : s.env = []) : tick s = .ok ((), s) := by
  unfold tick; rw [if_pos he]

theorem checkImplicit_good {r : SReg} (h : r.tag = .good) (s : State) : checkImplicit r s = .ok (true, s) := by
  unfold checkImplicit; rw [h]; rfl

theorem checkExplicit_good {r : SReg} (h : r.tag ≠ .bad) (s : State) : checkExplicit r s = .ok (true, s) := by
  unfold checkExplicit; rw [if_neg h]; rfl

theorem memRead_exists {s : State} {a : Nat} (hq : s.env = []) (h : s.exists? a = true) : memRead a s = .ok (s.mem.word a, s) := by
  unfold memRead; rw [Op.bind_ok (tick_quiet hq), Op.bind_ok (Op.get_run s), if_pos h]; rfl

theorem memWrite_admitted {s : State} {a : Nat} (hq : s.env = []) (he : s.exists? a = true) (hb : s.barsMem a = false) (v : MWord) :
    memWrite a v s = .ok ((), s.putWord a v) := by
  unfold memWrite
  rw [Op.bind_ok (tick_quiet hq), Op.bind_ok (Op.get_run s), if_neg (by rw [he]; decide), if_neg (by rw [hb]; decide)]; rfl

theorem writeReg_admitted {s : State} {h : BitVec 3} {i : BitVec 5} (hb : s.barsReg h i = false) (r : SReg) :
    writeReg h i r s = .ok ((), s.setReg h i r) := by
  unfold writeReg
  rw [Op.bind_ok (Op.get_run s), if_neg (by rw [hb]; decide)]; rfl

theorem store_admitted {s : State} {l : Loc} (hq : s.env = []) (h : s.admits l) (v : MWord) : store l v s = .ok ((), s.stored l v) := by
  cases l with
  | inactive => exact h.elim
  | mem a => exact memWrite_admitted hq h.1 h.2 v
  | reg g i inc =>
    unfold store
    dsimp only
    rw [Op.bind_ok (Op.get_run s), Op.bind_ok (Op.update_run _ s)]
    exact writeReg_admitted (s := { s with free := if MWord.bad v then s.free + 1 else s.free }) h (s.toSr v)

theorem peek_admitted {s : State} {l : Loc} (hq : s.env = []) (h : s.admits l) : peek l s = .ok (s.contents l, s) := by
  cases l with
  | inactive => exact h.elim
  | mem a => exact memRead_exists hq h.1
  | reg g i inc => rfl

/-! ### Masks -/

theorem loadMask_ready {s : State} {f : SReg → Nat} (hq : s.env = []) (ht : (s.reg s.cur mxrIx).tag = .good)
    (he : s.exists? (f (s.reg s.cur mxrIx)) = true) :
    loadMask f s = .ok (s.mem.word (f (s.reg s.cur mxrIx)), { s with mr := (s.mem.word (f (s.reg s.cur mxrIx))).bits }) := by
  unfold loadMask
  rw [Op.bind_ok (Op.get_run s)]
  rw [Op.bind_ok (checkImplicit_good ht s), if_pos rfl, Op.bind_ok (memRead_exists hq he)]; rfl

theorem maskOf_ready {s : State} {k : Option (BitVec 5)} (hq : s.env = []) (h : s.maskReady k) : maskOf k s = .ok (s.maskWord k, s.masking k) := by
  cases k with
  | none => rfl
  | some k =>
    unfold maskOf
    dsimp only
    rw [Op.bind_ok (loadMask_ready hq h.1 h.2.1)]; rfl

theorem maskBad_ready {s : State} {k : Option (BitVec 5)} (h : s.maskReady k) : maskBad (s.maskWord k) = false := by
  cases k with
  | none => rfl
  | some k => exact h.2.2

/-- A result delivered to a location that admits it. -/
theorem deliver_admitted {s : State} {m : Option MWord} {l : Loc} (hq : s.env = []) (h : s.admits l)
    (ho : m.isSome = true → MWord.bad (s.contents l) = false) (w : Word) :
    deliver m l w s = .ok (false, s.stored l (MWord.good (merged m (s.contents l) w))) := by
  unfold deliver
  cases m with
  | none => dsimp only; rw [Op.bind_ok (store_admitted hq h _)]; rfl
  | some m =>
    dsimp only
    rw [Op.bind_ok (peek_admitted hq h), Op.bind_ok (store_admitted hq h _), ho rfl]; rfl

/-! ### The end of an instruction -/

/-- The sequence change that ends a transfer or a print (R322). -/
theorem concludeJump_sequenced {i : Instr} {seq : Bool} {c : Group} {d : Bool} {hunt : Bool} {s t : State} {r : Option SReg}
    (h : sequenceTarget c d (ctrOf seq) s = .ok (r, t)) :
    concludeJump i seq c d true false hunt s = .ok ((), t.sequenced seq r) := by
  unfold concludeJump
  by_cases hc : c = inactiveGroup
  · subst hc
    cases d with
    | false =>
      rw [Op.bind_ok (isInactive_inactive s), if_pos rfl]
      unfold sequenceTarget at h
      rw [Op.bind_ok (isInactive_inactive s), if_pos rfl] at h
      cases h; rfl
    | true =>
      unfold sequenceTarget at h
      rw [Op.bind_error (e := .refuse .inactiveWithDesignator) rfl] at h; cases h
  · rw [Op.bind_ok (isInactive_active hc d s), if_neg (by decide), if_pos rfl, Op.bind_ok h]
    unfold sequenceTarget at h
    rw [Op.bind_ok (isInactive_active hc d s), if_neg (by decide)] at h
    cases r with
    | some r => rfl
    | none =>
      exfalso
      rw [Op.bind_ok (Op.get_run s)] at h
      cases d <;> cases hb : bitAt c 1 <;> simp only [hb] at h
      · cases h
      all_goals
        rw [Op.bind_run] at h
        split at h
        · first
            | cases h
            | (rw [Op.bind_run] at h; split at h <;> cases h)
        · cases h

theorem conclude_ends (i : Instr) (seq hunt : Bool) (s : State) : conclude i seq hunt false false s = .ok ((), s.ended seq hunt) := rfl

theorem conclude_overflow (i : Instr) (seq hunt : Bool) (s : State) :
    conclude i seq hunt false true s = unprogrammedTransfer utOverflow i s := rfl

theorem conclude_parity (i : Instr) (seq hunt ovf : Bool) (s : State) :
    conclude i seq hunt true ovf s = unprogrammedTransfer utParity i s := rfl

/-- An unprogrammed transfer with a usable UTR (R602). -/
theorem unprogrammedTransfer_ready {s : State} {n : Nat} {i : Instr} (hq : s.env = []) (h : s.canTransfer) :
    unprogrammedTransfer n i s = .ok ((), s.transferred n i) := by
  obtain ⟨ht, hu, ha⟩ := h
  unfold unprogrammedTransfer
  rw [Op.bind_ok (Op.get_run s)]
  dsimp only
  rw [Op.bind_ok (checkImplicit_good ht s), if_neg (by omega), Op.bind_ok (memWrite_admitted hq ha.1 ha.2 _)]; rfl

end Sys2Proof.Machine
end

