-- ==== Sys2Proof/Laws/Operands.lean ====
section
/-! SUPPORT. Everything the evaluation of an address group can do: step the one register it names, and the model's bookkeeping. -/
namespace Sys2Proof.Machine

/-- All but the special registers, the count of free values and a limited error to come. -/
def State.bare (s : State) : State := { s with regs := Vector.replicate 256 SReg.zero, free := 0, limited := none }

/-- From `s` to `t` nothing changes but the registers of `regs` and the model's bookkeeping. -/
structure Steps (s t : State) (regs : List (BitVec 3 × BitVec 5)) : Prop where
  reg : ∀ h i, (h, i) ∉ regs → t.reg h i = s.reg h i
  bare : t.bare = s.bare

namespace Steps

variable {s t u : State} {r r' : List (BitVec 3 × BitVec 5)}

theorem refl (s : State) (r : List (BitVec 3 × BitVec 5)) : Steps s s r := ⟨fun _ _ _ => rfl, rfl⟩

theorem trans (h : Steps s t r) (h' : Steps t u r') : Steps s u (r ++ r') :=
  ⟨fun g i n => by
      rw [List.mem_append, not_or] at n
      rw [h'.reg g i n.2, h.reg g i n.1], by rw [h'.bare, h.bare]⟩

theorem mono (h : Steps s t r) (hr : ∀ p ∈ r, p ∈ r') : Steps s t r' := ⟨fun g i n => h.reg g i fun m => n (hr _ m), h.bare⟩

/-- Where nothing else changes, the rest of the state is the same. -/
theorem eq (h : Steps s t r) : t = { s with regs := t.regs, free := t.free, limited := t.limited } := by
  have e := h.bare
  cases s; cases t
  simp only [State.bare, State.mk.injEq] at e
  simp only [State.mk.injEq]
  simp_all

theorem mem (h : Steps s t r) : t.mem = s.mem := (congrArg State.mem h.bare :)
theorem pcr (h : Steps s t r) : t.pcr = s.pcr := (congrArg State.pcr h.bare :)
theorem cfg (h : Steps s t r) : t.cfg = s.cfg := (congrArg State.cfg h.bare :)
theorem ac (h : Steps s t r) : t.ac = s.ac := (congrArg State.ac h.bare :)
theorem acSign (h : Steps s t r) : t.acSign = s.acSign := (congrArg State.acSign h.bare :)
theorem acState (h : Steps s t r) : t.acState = s.acState := (congrArg State.acState h.bare :)
theorem lop (h : Steps s t r) : t.lop = s.lop := (congrArg State.lop h.bare :)
theorem lopHeld (h : Steps s t r) : t.lopHeld = s.lopHeld := (congrArg State.lopHeld h.bare :)
theorem heldMask (h : Steps s t r) : t.heldMask = s.heldMask := (congrArg State.heldMask h.bare :)
theorem mr (h : Steps s t r) : t.mr = s.mr := (congrArg State.mr h.bare :)
theorem flac (h : Steps s t r) : t.flac = s.flac := (congrArg State.flac h.bare :)
theorem flop (h : Steps s t r) : t.flop = s.flop := (congrArg State.flop h.bare :)
theorem env (h : Steps s t r) : t.env = s.env := (congrArg State.env h.bare :)
theorem scan (h : Steps s t r) : t.scan = s.scan := (congrArg State.scan h.bare :)
theorem bar (h : Steps s t r) : t.bar = s.bar := (congrArg State.bar h.bare :)
theorem ctl (h : Steps s t r) : t.ctl = s.ctl := (congrArg State.ctl h.bare :)
theorem sel (h : Steps s t r) : t.sel = s.sel := (congrArg State.sel h.bare :)
theorem outside (h : Steps s t r) : t.outside = s.outside := (congrArg State.outside h.bare :)

theorem cur (h : Steps s t r) : t.cur = s.cur := by unfold State.cur; rw [h.pcr]

theorem frame (h : Steps s t r) : Frame s t r [] := ⟨h.reg, fun _ _ => by rw [h.mem]⟩

end Steps

theorem steps_softError {c : BitVec 5} {s t : State} (h : softError c s = .ok ((), t)) : Steps s t [] := by
  rw [Op.softError_run] at h
  split at h
  · cases h
    refine ⟨fun g i _ => State.reg_of_regs ?_ g i, ?_⟩ <;> · unfold State.flag; split <;> rfl
  · cases h

theorem steps_checkExplicit {r : SReg} {b : Bool} {s t : State} (h : checkExplicit r s = .ok (b, t)) : Steps s t [] := by
  unfold checkExplicit at h
  split at h
  · rw [Op.bind_run] at h
    split at h
    · rename_i e; cases h; exact steps_softError e
    · cases h
  · cases h; exact .refl _ _

theorem steps_checkImplicit {r : SReg} {b : Bool} {s t : State} (h : checkImplicit r s = .ok (b, t)) : Steps s t [] := by
  unfold checkImplicit at h
  split at h
  · exact nomatch h
  · split at h
    · rw [Op.bind_run] at h
      split at h
      · rename_i e; cases h; exact steps_softError e
      · cases h
    · cases h; exact .refl _ _

/-- The step of a register's contents takes at most one free value. -/
theorem stepBy_free {r q : SReg} {k : Nat} {s t : State} (h : stepBy r k s = .ok (q, t)) : ∃ n, t = { s with free := n } := by
  unfold stepBy at h
  split at h <;> split at h <;> (first | (cases h; exact ⟨s.free, rfl⟩) | (cases h; exact ⟨s.free + 1, rfl⟩))

theorem stepProgrammed_free {r q : SReg} {k : Nat} {s t : State} (h : stepProgrammed r k s = .ok (q, t)) :
    ∃ n, t = { s with free := n } := by
  unfold stepProgrammed at h
  rw [Op.bind_ok (Op.get_run s)] at h
  split at h
  · cases h; exact ⟨s.free, rfl⟩
  · exact stepBy_free h

/-- A programmed increment changes its register only. -/
theorem steps_stepRegister {g : BitVec 3} {i inc : BitVec 5} {s t : State} (h : stepRegister g i inc s = .ok ((), t)) :
    Steps s t [(g, i)] := by
  unfold stepRegister at h
  rw [Op.bind_ok (Op.get_run s)] at h
  split at h
  · cases h; exact .refl _ _
  · rw [Op.bind_run] at h
    split at h
    · rename_i r u e
      obtain ⟨n, rfl⟩ := stepProgrammed_free e
      cases h
      refine ⟨fun g' i' hn => ?_, rfl⟩
      refine Eq.trans (State.reg_setReg_other _ ?_ _) rfl
      simpa using hn
    · cases h

/-- An index register is never changed (R184). -/
theorem steps_index {x : Group} {v : SReg × Bool × Bool} {s t : State} (h : index x s = .ok (v, t)) : Steps s t [] := by
  unfold index at h
  rw [Op.bind_ok (Op.get_run s), Op.bind_run] at h
  split at h
  · rename_i e; cases h; exact steps_checkExplicit e
  · cases h

/-- What an indexed address is. -/
theorem index_value {x : Group} {v : SReg × Bool × Bool} {s t : State} (h : index x s = .ok (v, t)) :
    v.1 = (augment (s.reg s.cur (indexReg x)) (fld x 5 12).toNat).1 := by
  unfold index at h
  rw [Op.bind_ok (Op.get_run s), Op.bind_run] at h
  split at h
  · cases h; rfl
  · cases h

theorem steps_registerLoc {g : BitVec 3} {i inc : BitVec 5} {tab : Bool} {l : Loc} {s t : State}
    (h : registerLoc g i inc tab s = .ok (l, t)) : Steps s t [(g, i)] ∧ (∀ p ∈ l.regs, p = (g, i)) := by
  unfold registerLoc at h
  split at h
  · rw [Op.bind_ok (Op.get_run s), Op.bind_run] at h
    split at h
    · rename_i e
      rw [Op.bind_run] at h
      split at h
      · rename_i e'
        cases h
        refine ⟨((steps_checkExplicit e).trans (steps_stepRegister e')).mono (by simp), ?_⟩
        intro p hp; exact absurd hp (by simp [Loc.regs])
      · cases h
    · cases h
  · cases h
    exact ⟨.refl _ _, by simp [Loc.regs]⟩

/-- Locating an address group changes only the register it names; a register location is that register. -/
theorem steps_locate {x : Group} {d : Bool} {l : Loc} {s t : State} (h : locate x d s = .ok (l, t)) :
    Steps s t (s.named x d) ∧ (∀ p ∈ l.regs, p ∈ s.named x d) := by
  unfold locate at h
  by_cases hx : x = inactiveGroup
  · subst hx
    cases d with
    | false => rw [Op.bind_ok (isInactive_inactive s), if_pos rfl] at h; cases h; exact ⟨.refl _ _, by simp [Loc.regs]⟩
    | true => rw [Op.bind_error (e := .refuse .inactiveWithDesignator) rfl] at h; cases h
  · rw [Op.bind_ok (isInactive_active hx d s), if_neg (by decide), Op.bind_ok (Op.get_run s)] at h
    have hn : (true && x != inactiveGroup) = true := by simp [hx]
    cases d <;> cases hb : bitAt x 1 <;> simp only [hb] at h
    · cases h; exact ⟨.refl _ _, by simp [Loc.regs]⟩
    · rw [Op.bind_run] at h
      split at h
      · rename_i e; cases h
        exact ⟨(steps_index e).mono (by simp), by simp [Loc.regs]⟩
      · cases h
    · obtain ⟨h1, h2⟩ := steps_registerLoc h
      unfold State.named
      rw [hn, if_pos rfl, hb]
      exact ⟨h1, by simpa using h2⟩
    · rw [Op.bind_run] at h
      split at h
      · rename_i v u e
        have hv := index_value e
        unfold State.named
        rw [hn, if_pos rfl, if_pos hb]
        dsimp only
        rw [← hv]
        split at h
        · obtain ⟨h1, h2⟩ := steps_registerLoc h
          exact ⟨((steps_index e).trans h1).mono (by simp), by simpa using h2⟩
        · cases h
          exact ⟨(steps_index e).mono (by simp), by simp [Loc.regs]⟩
      · cases h

theorem steps_memRead {a : Nat} {w : MWord} {s t : State} (hq : s.env = []) (h : memRead a s = .ok (w, t)) : Steps s t [] := by
  unfold memRead at h
  rw [Op.bind_ok (tick_quiet hq), Op.bind_ok (Op.get_run s)] at h
  split at h
  · cases h; exact .refl _ _
  · rw [Op.bind_run] at h
    split at h
    · rename_i u e
      cases h
      have h1 := steps_softError e
      exact ⟨h1.reg, h1.bare⟩
    · cases h

theorem steps_fetch {l : Loc} {w : MWord} {s t : State} (hq : s.env = []) (h : fetch l s = .ok (w, t)) : Steps s t l.regs := by
  unfold fetch at h
  split at h
  · cases h
  · exact steps_memRead hq h
  · rw [Op.bind_ok (Op.get_run s), Op.bind_run] at h
    split at h
    · rename_i e; cases h; exact steps_stepRegister e
    · cases h

theorem steps_peek {l : Loc} {w : MWord} {s t : State} (hq : s.env = []) (h : peek l s = .ok (w, t)) : Steps s t [] := by
  unfold peek at h
  split at h
  · cases h
  · exact steps_memRead hq h
  · rw [Op.bind_ok (Op.get_run s)] at h; cases h; exact .refl _ _

/-- Reading an operand changes only the register its address group names. -/
theorem steps_readOperand {x : Group} {d : Bool} {w : MWord} {s t : State} (hq : s.env = []) (h : readOperand x d s = .ok (w, t)) :
    Steps s t (s.named x d) := by
  unfold readOperand at h
  rw [Op.bind_run] at h
  split at h
  · rename_i l u e
    obtain ⟨h1, h2⟩ := steps_locate e
    exact (h1.trans (steps_fetch (h1.env.trans hq) h)).mono fun p hp => by
      rw [List.mem_append] at hp
      exact hp.elim id (h2 p)
  · cases h

theorem steps_readExtended {x : Group} {d : Bool} {w : MWord} {s t : State} (hq : s.env = []) (h : readExtended x d s = .ok (w, t)) :
    Steps s t (s.named x d) := by
  unfold readExtended at h
  rw [Op.bind_run] at h
  split at h
  · rename_i l u e
    obtain ⟨h1, h2⟩ := steps_locate e
    have h3 : Steps u t l.regs := by
      split at h
      · rw [Op.bind_ok (Op.get_run u), Op.bind_run] at h
        split at h
        · rename_i e'; cases h; exact steps_stepRegister e'
        · cases h
      · exact steps_fetch (h1.env.trans hq) h
    exact (h1.trans h3).mono fun p hp => by
      rw [List.mem_append] at hp
      exact hp.elim id (h2 p)
  · cases h

/-- A register read as a new counter may be stepped (R194). -/
theorem steps_counterFrom {g : BitVec 3} {i inc : BitVec 5} {c : Ctr} {r : SReg} {s t : State}
    (h : counterFrom g i inc c s = .ok (r, t)) : Steps s t [(g, i)] := by
  unfold counterFrom at h
  rw [Op.bind_ok (Op.get_run s), Op.bind_run] at h
  split at h
  · rename_i u e
    split at h
    · cases h; exact (steps_checkExplicit e).mono (by simp)
    · rw [Op.bind_run] at h
      split at h
      · rename_i e'
        cases h
        exact ((steps_checkExplicit e).trans (steps_stepRegister e')).mono (by simp)
      · cases h
  · cases h

/-- Evaluating C as a sequence change changes only the register it names (R322). -/
theorem steps_sequenceTarget {x : Group} {d : Bool} {c : Ctr} {r : Option SReg} {s t : State}
    (h : sequenceTarget x d c s = .ok (r, t)) : Steps s t (s.named x d) := by
  unfold sequenceTarget at h
  by_cases hx : x = inactiveGroup
  · subst hx
    cases d with
    | false => rw [Op.bind_ok (isInactive_inactive s), if_pos rfl] at h; cases h; exact .refl _ _
    | true => rw [Op.bind_error (e := .refuse .inactiveWithDesignator) rfl] at h; cases h
  · rw [Op.bind_ok (isInactive_active hx d s), if_neg (by decide), Op.bind_ok (Op.get_run s)] at h
    have hn : (true && x != inactiveGroup) = true := by simp [hx]
    cases d <;> cases hb : bitAt x 1 <;> simp only [hb] at h
    · cases h; exact .refl _ _
    · rw [Op.bind_run] at h
      split at h
      · rename_i e; cases h; exact (steps_index e).mono (by simp)
      · cases h
    · rw [Op.bind_run] at h
      split at h
      · rename_i e
        cases h
        unfold State.named
        rw [hn, if_pos rfl, hb]
        exact steps_counterFrom e
      · cases h
    · rw [Op.bind_run] at h
      split at h
      · rename_i v u e
        have hv := index_value e
        unfold State.named
        rw [hn, if_pos rfl, if_pos hb]
        dsimp only
        rw [← hv]
        rw [Op.bind_run] at h
        split at h
        · rename_i e'
          cases h
          exact ((steps_index e).trans (steps_counterFrom e')).mono (by simp)
        · cases h
      · cases h

/-- The registers an address group names depend on its own group's index registers alone. -/
theorem named_of {s t : State} {x : Group} {d : Bool} (hc : t.cur = s.cur) (hr : ∀ i, t.reg s.cur i = s.reg s.cur i) :
    t.named x d = s.named x d := by
  unfold State.named; rw [hc, hr]

end Sys2Proof.Machine
end

