-- ==== Sys2Proof/Laws/Passes.lean ====
section
/-! SUPPORT. The parts of an instruction composed: what the arithmetic of an instruction, its operands, its store and its end leave alone. -/
namespace Sys2Proof.Machine

/-- From `s` to `t` nothing outside the arithmetic registers changes but the registers and words named; the program control register
does not change. -/
structure Passes (s t : State) (regs : List (BitVec 3 × BitVec 5)) (words : List Nat) : Prop where
  pcr : t.pcr = s.pcr
  outside : t.outside = s.outside
  frame : Frame s t regs words

namespace Passes

variable {s t u : State} {r r' : List (BitVec 3 × BitVec 5)} {w w' : List Nat}

theorem trans (h : Passes s t r w) (h' : Passes t u r' w') : Passes s u (r ++ r') (w ++ w') :=
  ⟨by rw [h'.pcr, h.pcr], by rw [h'.outside, h.outside], h.frame.trans h'.frame⟩

theorem mono (h : Passes s t r w) (hr : r ⊆ r') (hw : w ⊆ w') : Passes s t r' w' := ⟨h.pcr, h.outside, h.frame.mono hr hw⟩

theorem env (h : Passes s t r w) : t.env = s.env := (congrArg State.env h.outside :)
theorem cur (h : Passes s t r w) : t.cur = s.cur := by unfold State.cur; rw [h.pcr]

/-- A change of arithmetic registers and bookkeeping only. -/
theorem quiet (hp : t.pcr = s.pcr) (ho : t.outside = s.outside) (hr : t.regs = s.regs) (hm : t.mem = s.mem) : Passes s t [] [] :=
  ⟨hp, ho, Frame.same hr hm⟩

theorem steps (h : Steps s t r) : Passes s t r [] := ⟨h.pcr, h.outside, h.frame⟩

theorem stored (s : State) (l : Loc) (v : MWord) : Passes s (s.stored l v) l.regs l.words := by
  refine ⟨?_, ?_, State.frame_stored s l v⟩
  · obtain ⟨m, r, y, n, e⟩ := State.stored_eq s l v; rw [e]
  · obtain ⟨m, r, y, n, e⟩ := State.stored_eq s l v; rw [e]; rfl

theorem masking (s : State) (k : Option (BitVec 5)) : Passes s (s.masking k) [] [] := by
  obtain ⟨m, e⟩ := State.masking_eq s k
  rw [e]; exact quiet rfl rfl rfl rfl

theorem putWord (s : State) (a : Nat) (v : MWord) : Passes s (s.putWord a v) [] [a] :=
  ⟨rfl, rfl, fun _ _ _ => rfl, fun _ h => State.byte_putWord_other s (by simpa using h) v⟩

theorem setReg (s : State) (h : BitVec 3) (i : BitVec 5) (r : SReg) : Passes s (s.setReg h i r) [(h, i)] [] :=
  ⟨rfl, rfl, fun _ _ n => State.reg_setReg_other s (by simpa using n) r, fun _ _ => rfl⟩

theorem zeroSpoiled (s : State) (l : Loc) : Passes s (s.zeroSpoiled l) [] l.spoils := by
  cases l with
  | reg h i inc =>
    exact ⟨rfl, rfl, fun _ _ _ => rfl, fun _ n => State.byte_putWord_other s (by simpa [Loc.spoils] using n) _⟩
  | mem a => exact ⟨rfl, rfl, fun _ _ _ => rfl, fun _ _ => rfl⟩
  | inactive => exact ⟨rfl, rfl, fun _ _ _ => rfl, fun _ _ => rfl⟩

/-- The ordinary end of an instruction. -/
theorem ends (h : Passes s t r w) (seq hunt : Bool) : Ends s (t.ended seq hunt) seq r w :=
  ⟨by
    show setBitAt t.pcr (21 + t.cur.toNat) seq = _
    rw [h.cur, h.pcr], h.outside, ⟨h.frame.regs, h.frame.bytes⟩⟩

/-- The end of an instruction with a sequence change. -/
theorem sequenced (h : Passes s t r w) (seq : Bool) (target : Option SReg) :
    Ends s (t.sequenced seq target) seq (r ++ s.sequencers seq target) w := by
  unfold State.sequenced State.sequencers
  cases target with
  | none => exact (List.append_nil r).symm ▸ h.ends seq false
  | some q =>
    have hc : t.cur = s.cur := h.cur
    have hq : decide (ctrOf seq = .csc) = seq := by cases seq <;> rfl
    have f1 : Frame t (t.historied (ctrOf seq)) [(s.cur, (ctrOf seq).hist)] [] := by
      rw [← hc]
      exact ⟨fun g i n => State.reg_setReg_other t (by simpa using n) _, fun _ _ => rfl⟩
    have f2 : Frame (t.historied (ctrOf seq)) (t.jumped (ctrOf seq) q) [(s.cur, (ctrOf seq).ix)] [] := by
      rw [← hc]
      exact ⟨fun g i n => State.reg_setReg_other (t.historied (ctrOf seq)) (by simpa using n) _, fun _ _ => rfl⟩
    refine ⟨?_, ?_, ((h.frame.trans (f1.trans f2)).mono ?_ (by simp))⟩
    · show setBitAt t.pcr (21 + t.cur.toNat) (decide (ctrOf seq = .csc)) = _
      rw [hq, hc, h.pcr]
    · exact h.outside
    · intro p hp
      simp only [List.mem_append, List.mem_cons, List.not_mem_nil, or_false] at hp ⊢
      rcases hp with hp | hp | hp
      · exact .inl hp
      · exact .inr (.inr hp)
      · exact .inr (.inl hp)

end Passes

end Sys2Proof.Machine
end

