-- ==== Sys2Proof/Laws/Arithmetic.lean ====
section
/-! SUPPORT. The add family (R240 to R244) run on operands that can be read and a result that can be stored. -/
namespace Sys2Proof.Machine

/-- The instructions of the add family are one operation. -/
theorem add_run {i : Instr} {k : Adder} {f : Form} {s : State} (h : addRow i = some (k, f)) :
    exec i s = perform (addOp i k false f) s := by
  cases i <;> simp only [addRow, Option.some.injEq, Prod.mk.injEq, reduceCtorEq] at h <;>
    (obtain ⟨rfl, rfl⟩ := h; rfl)

/-- An active A operand of the add family. -/
theorem firstOperand_active {k : AcKind} {m : Option MWord} {x : Group} {d : Bool} {s t : State} {w : MWord}
    (h : readOperand x d s = .ok (w, t)) :
    firstOperand k false m x d false s =
      .ok ((gate m w.bits, ⟨gate m w.bits, loadedSign k s.acSign (gate m w.bits), false⟩, MWord.bad w), t) := by
  unfold firstOperand operand
  rw [if_neg (by decide), Op.bind_ok (Op.get_run s), if_neg (by decide), Op.bind_ok (Op.bind_ok h)]; rfl

/-- An active B operand of the add family. -/
theorem operand_reads {m : Option MWord} {x : Group} {d : Bool} {s t : State} {w : MWord}
    (h : readOperand x d s = .ok (w, t)) : operand false m x d s = .ok ((gate m w.bits, MWord.bad w), t) := by
  unfold operand
  rw [if_neg (by decide), Op.bind_ok h]; rfl

/-- A sum delivered. -/
theorem deliverSum_admitted {k : AcKind} {s : State} {m : Option MWord} {l : Loc} (hq : s.env = []) (h : s.admits l)
    (ho : m.isSome = true → MWord.bad (s.contents l) = false) (hd : k = .decimal → l.regs = []) (w : Word) :
    deliverSum k false m l w s = .ok (false, s.stored l (MWord.good (merged m (s.contents l) w))) := by
  have := deliver_admitted (m := m) hq h ho w
  unfold deliverSum
  cases l with
  | reg g j inc =>
    dsimp only
    rw [if_neg (fun h => by simpa [Loc.regs] using hd h), if_neg (by decide)]
    exact this
  | mem a => exact this
  | inactive => exact this

theorem isSome_maskWord {s : State} {k : Option (BitVec 5)} (h : (s.maskWord k).isSome = true) : k.isSome = true := by
  revert h; cases k <;> simp [State.maskWord]

/-- The add family once A is known, up to its end. -/
theorem addOp_stored {i : Instr} {k : Adder} {f : Form} {s s1 s2 s3 : State} {a : Word × Sum × Bool} {b : MWord} {r : Sum} {l : Loc}
    (hq : s.env = []) (hq1 : s1.env = []) (hb : f.b ≠ inactiveGroup) (hc : f.c ≠ inactiveGroup)
    (hd : ¬ (f.a = inactiveGroup ∧ (s.acState = .delivered ∨ s.acState = .spent)))
    (ha : f.a ≠ inactiveGroup ∨ f.dA = false)
    (hm : s.begun.maskReady f.mask)
    (hf : firstOperand k.kind false (s.maskWord f.mask) f.a f.dA (decide (f.a = inactiveGroup)) (s.begun.masking f.mask) = .ok (a, s1))
    (hrb : readOperand f.b f.dB s1 = .ok (b, s2))
    (hcomb : k.combine a.2.1.sign a.1 (gate (s.maskWord f.mask) b.bits) = .sum r)
    (hl : locate f.c f.dC (s2.summed k.kind (s.maskWord f.mask) r true) = .ok (l, s3)) (hadm : s3.admits l)
    (hold : f.mask.isSome = true → MWord.bad (s3.contents l) = false) (hdec : k.kind = .decimal → l.regs = []) :
    addOp i k false f s = conclude i f.seq true (a.2.2 || MWord.bad b) r.ovf
      (s3.stored l (MWord.good (merged (s.maskWord f.mask) (s3.contents l) (storeForm k.kind r)))) := by
  have hmw : s.begun.maskWord f.mask = s.maskWord f.mask := rfl
  have ho := operand_reads (m := s.maskWord f.mask) hrb
  have hdg : f.designated = true := by
    unfold Form.designated; rcases ha with h | h <;> simp [h, hb, hc]
  have q0 : (s.begun.masking f.mask).env = [] := by
    obtain ⟨m, e⟩ := State.masking_eq s.begun f.mask; rw [e]; exact hq
  have q2 : s2.env = [] := (steps_readOperand hq1 hrb).env.trans hq1
  have q3 : s3.env = [] := (steps_locate hl).1.env.trans q2
  have hdel := deliverSum_admitted (k := k.kind) (m := s.maskWord f.mask) q3 hadm (fun h => hold (isSome_maskWord h)) hdec
    (storeForm k.kind r)
  have hia : isInactive f.a f.dA s.begun = .ok (decide (f.a = inactiveGroup), s.begun) := by
    by_cases h : f.a = inactiveGroup
    · have hda : f.dA = false := ha.resolve_left (fun n => n h)
      rw [h, hda]; rfl
    · rw [isInactive_active h]; simp [h]
  unfold addOp
  rw [Op.bind_ok (beginForm_run hdg s), Op.bind_ok hia, Op.bind_ok (Op.get_run _), if_neg (by simpa using fun h1 h2 => hd ⟨h1, h2⟩),
    Op.bind_ok (maskOf_ready (s := s.begun) hq hm), hmw, Op.bind_ok hf, Op.bind_ok (isInactive_active hb _ _)]
  dsimp only
  rw [if_neg (by decide), Op.bind_ok ho]
  dsimp only
  rw [hcomb]
  unfold resolve
  rw [Op.bind_ok (Op.pure_run _ _), Op.bind_ok (Op.pure_run _ _), Op.bind_ok (isInactive_active hc _ _), if_neg (by decide)]
  unfold leave
  rw [Op.bind_ok (Op.update_run _ _), Op.bind_ok hl, Op.bind_ok hdel, maskBad_ready (s := s) hm]
  simp

theorem passes_summed (s : State) (k m r d) : Passes s (s.summed k m r d) [] [] := Passes.quiet rfl rfl rfl rfl
theorem passes_begun (s : State) : Passes s s.begun [] [] := Passes.quiet rfl rfl rfl rfl

theorem passes_masked (s : State) (k) : Passes s (s.begun.masking k) [] [] := ((passes_begun s).trans (Passes.masking _ k))

theorem named_masked (s : State) (k) (x d) : (s.begun.masking k).named x d = s.named x d := by
  obtain ⟨m, e⟩ := State.masking_eq s.begun k; rw [e]; rfl

theorem mem_masked (s : State) (k) : (s.begun.masking k).mem = s.mem := by
  obtain ⟨m, e⟩ := State.masking_eq s.begun k; rw [e]; rfl

/-- What the store of a sum leaves. -/
theorem stored_summed {s s2 s3 : State} {k : AcKind} {mk : Option MWord} {r : Sum} {f : Form} {l : Loc} {R} {v : MWord}
    (hp : Passes s s2 R []) (hw : s2.mem.wf = true)
    (hl : locate f.c f.dC (s2.summed k mk r true) = .ok (l, s3)) :
    Passes s (s3.stored l v) (R ++ s2.named f.c f.dC) l.words ∧ (s3.stored l v).holds l v ∧
    (s3.stored l v).ac = r.ac ∧ (s3.stored l v).acSign = r.sign ∧ (s3.stored l v).acState = .delivered ∧
    (s3.stored l v).mr = s2.mr ∧ (s3.stored l v).lop = (s2.summed k mk r true).lop := by
  obtain ⟨q3, hln⟩ := steps_locate hl
  obtain ⟨m4, r4, y4, n4, e4⟩ := State.stored_eq s3 l v
  refine ⟨?_, State.holds_stored (by rw [q3.mem]; exact hw) l v, ?_, ?_, ?_, ?_, ?_⟩
  · refine ((hp.trans (passes_summed s2 k mk r true)).trans ((Passes.steps q3).trans (Passes.stored s3 l v))).mono ?_ (by simp)
    intro p hp
    simp only [List.append_nil, List.mem_append] at hp ⊢
    rcases hp with h | h | h
    · exact .inl h
    · exact .inr h
    · exact .inr (hln p h)
  · rw [e4]; exact q3.ac
  · rw [e4]; exact q3.acSign
  · rw [e4]; exact q3.acState
  · rw [e4]; exact q3.mr
  · rw [e4]; exact q3.lop

theorem holds_ended {s : State} {l v} (h : s.holds l v) (q b : Bool) : (s.ended q b).holds l v := by cases l <;> exact h

end Sys2Proof.Machine
end

