-- ==== Sys2Proof/Laws/Logical.lean ====
section
/-! SUPPORT. What a located store, and the spoiling of location 00000, leave; the logical and shift instructions run. -/
namespace Sys2Proof.Machine

theorem passes_combined (s : State) (m w) : Passes s (s.combined m w) [] [] := Passes.quiet rfl rfl rfl rfl

theorem passes_logical (s : State) (a l h) : Passes s (s.logical a l h) [] [] := Passes.quiet rfl rfl rfl rfl

theorem stored_located {s u s3 : State} {c d} {l : Loc} {R} {v : MWord} (hp : Passes s u R []) (hw : u.mem.wf = true)
    (hl : locate c d u = .ok (l, s3)) :
    Passes s (s3.stored l v) (R ++ u.named c d) l.words ∧ (s3.stored l v).holds l v ∧
    (s3.stored l v).ac = u.ac ∧ (s3.stored l v).acSign = u.acSign ∧ (s3.stored l v).acState = u.acState ∧
    (s3.stored l v).mr = u.mr ∧ (s3.stored l v).lop = u.lop ∧ (s3.stored l v).lopHeld = u.lopHeld ∧
    (s3.stored l v).heldMask = u.heldMask := by
  obtain ⟨q3, hln⟩ := steps_locate hl
  obtain ⟨m4, r4, y4, n4, e4⟩ := State.stored_eq s3 l v
  refine ⟨?_, State.holds_stored (by rw [q3.mem]; exact hw) l v, ?_, ?_, ?_, ?_, ?_, ?_, ?_⟩
  · refine (hp.trans ((Passes.steps q3).trans (Passes.stored s3 l v))).mono ?_ (by simp)
    intro p hp
    simp only [List.mem_append] at hp ⊢
    rcases hp with h | h | h
    · exact .inl h
    · exact .inr h
    · exact .inr (hln p h)
  · rw [e4]; exact q3.ac
  · rw [e4]; exact q3.acSign
  · rw [e4]; exact q3.acState
  · rw [e4]; exact q3.mr
  · rw [e4]; exact q3.lop
  · rw [e4]; exact q3.lopHeld
  · rw [e4]; exact q3.heldMask

theorem mr_masked (s : State) (k) : (s.begun.masking k).mr = (s.masking k).mr := by cases k <;> rfl

theorem lop_masked (s : State) (k) : (s.begun.masking k).lop = s.lop := by
  obtain ⟨m, e⟩ := State.masking_eq s.begun k; rw [e]; rfl

theorem lop_combined (s : State) (w) : (s.combined none w).lop = s.lop := rfl

theorem holds_spoiled {s : State} {l v} (h : s.holds l v) : (s.zeroSpoiled l).holds l v := by
  cases l with
  | reg g i inc => exact State.holds_mono h rfl rfl rfl (fun _ e => nomatch e) fun _ _ _ _ => rfl
  | mem a => exact h
  | inactive => exact h

theorem spoiled_eq (s : State) (l) : ∃ m y n, s.zeroSpoiled l = { s with mem := m, typeSpoiled := y, free := n } := by
  unfold State.zeroSpoiled; split
  · exact ⟨_, _, _, rfl⟩
  · exact ⟨s.mem, s.typeSpoiled, s.free, rfl⟩

theorem logical_run {i : Instr} {g : Word → Word → Word} {f : Form} {s : State} (h : logicalRow i = some (g, f)) : exec i s = perform (logicalOp i g f) s := by
  cases i <;> simp only [logicalRow, Option.some.injEq, Prod.mk.injEq, reduceCtorEq] at h <;>
    (obtain ⟨rfl, rfl⟩ := h; rfl)

theorem good_of_not_bad {w : MWord} (h : MWord.bad w = false) : MWord.good w.bits = w := by
  cases w; simp only [MWord.bad, bne_eq_false_iff_eq] at h; rw [h]

theorem acSign_masked (s : State) (k : Option (BitVec 5)) : (s.begun.masking k).acSign = s.acSign := by
  obtain ⟨m, e⟩ := State.masking_eq s.begun k; rw [e]; rfl

/-- The A operand of EX changes only the register its group names. -/
theorem steps_extractSource {f : Gen} {a : MWord} {s t : State} (hq : s.env = []) (h : extractSource f s = .ok (a, t)) : Steps s t (s.named f.a f.dA) := by
  unfold extractSource at h
  by_cases e : f.a = inactiveGroup
  · rw [e] at h ⊢
    cases hd : f.dA <;> rw [hd] at h
    · rw [Op.bind_ok (isInactive_inactive _), if_pos rfl, Op.bind_ok (Op.fresh_run _)] at h
      cases h; exact ⟨fun _ _ _ => rfl, rfl⟩
    · rw [Op.bind_error (e := .refuse .inactiveWithDesignator) rfl] at h; cases h
  · rw [Op.bind_ok (isInactive_active e _ _), if_neg (by decide)] at h
    exact steps_readOperand hq h

/-- The mask of EX likewise; with an inactive B it is the mask register. -/
theorem steps_extractMask {f : Gen} {m : MWord} {s t : State} (hq : s.env = []) (h : extractMask f s = .ok (m, t)) :
    Steps s t (s.named f.b f.dB) ∧ (f.b = inactiveGroup → m = MWord.good s.mr) := by
  unfold extractMask at h
  by_cases e : f.b = inactiveGroup
  · rw [e] at h ⊢
    cases hd : f.dB <;> rw [hd] at h
    · rw [Op.bind_ok (isInactive_inactive _), if_pos rfl, Op.bind_ok (Op.get_run _)] at h
      cases h
      exact ⟨⟨fun _ _ _ => rfl, rfl⟩, fun _ => rfl⟩
    · rw [Op.bind_error (e := .refuse .inactiveWithDesignator) rfl] at h; cases h
  · rw [Op.bind_ok (isInactive_active e _ _), if_neg (by decide)] at h
    exact ⟨steps_readOperand hq h, fun n => absurd n e⟩

theorem shift_run {i : Instr} {rot : Word → Nat → Word} {keep : Bool} {f : Gen} {s : State} (h : shiftRow i = some (rot, keep, f)) :
    exec i s = perform (shiftOp i rot keep f) s := by
  cases i <;> simp only [shiftRow, Option.some.injEq, Prod.mk.injEq, reduceCtorEq] at h <;>
    (obtain ⟨rfl, rfl, rfl⟩ := h; rfl)

/-- What every shift does first, on an operand that can be read and a mask that can be fetched. -/
theorem shiftOperands_run {f : Gen} {a : MWord} {s s1 : State} (hq : s.env = []) (ha : f.a ≠ inactiveGroup) (hb : f.b ≠ inactiveGroup)
    (hd : f.dB = false) (hc : f.c ≠ inactiveGroup) (hra : readOperand f.a f.dA s.begun = .ok (a, s1)) (hm : s1.shiftMaskReady f.b) :
    shiftOperands f s = .ok ((a, s1.mem.word (shiftMaskAddress (s1.reg s1.cur mxrIx) f.b)), { s1 with mr := s1.shiftMask f.b }) := by
  have q1 : s1.env = [] := (steps_readOperand (s := s.begun) hq hra).env.trans hq
  unfold shiftOperands
  rw [Op.bind_ok (beginForm_run (designated_active (f := genForm f) ha hb hc) s), Op.bind_ok (needActive_active ha _ _), if_neg hb, hd, if_neg (by decide),
    Op.bind_ok (needActive_active hc _ _), Op.bind_ok hra,
    Op.bind_ok (loadMask_ready (f := fun r => shiftMaskAddress r f.b) q1 hm.1 hm.2.1)]
  rfl

theorem passes_mr (s : State) (w : Word) : Passes s { s with mr := w } [] [] := Passes.quiet rfl rfl rfl rfl

theorem named_mr (s : State) (w : Word) (x : Group) (d : Bool) : State.named { s with mr := w } x d = s.named x d := rfl

/-- Evaluating C in a shift and select changes only the register it names (R379). -/
theorem steps_selectTarget {x : Group} {d : Bool} {k : Nat} {c : Ctr} {r : SReg} {s t : State}
    (h : selectTarget x d k c s = .ok (r, t)) : Steps s t (s.selectNamed x d k) := by
  unfold selectTarget at h
  rw [Op.bind_ok (Op.get_run s)] at h
  cases d <;> cases hb : bitAt x 1 <;> simp only [hb] at h
  · cases h; exact .refl _ _
  · rw [Op.bind_run] at h
    split at h
    · rename_i e; cases h; exact (steps_index e).mono (by simp)
    · cases h
  · unfold State.selectNamed
    rw [if_pos rfl, hb]
    exact steps_counterFrom h
  · rw [Op.bind_run] at h
    split at h
    · rename_i v u e
      have hv := index_value e
      unfold State.selectNamed
      rw [if_pos rfl, if_pos hb]
      dsimp only
      rw [← hv]
      exact ((steps_index e).trans (steps_counterFrom h)).mono (by simp)
    · cases h

end Sys2Proof.Machine
end

