-- ==== Sys2Proof/Laws/Addends.lean ====
section
/-! SUPPORT. The two operands of the add family, active or inactive (R221): what taking them answers and leaves alone. -/
namespace Sys2Proof.Machine

/-- An address group, with no designator on an inactive one, says whether it is inactive. -/
theorem isInactive_decided {x : Group} {d : Bool} (h : x = inactiveGroup → d = false) (s : State) :
    isInactive x d s = .ok (decide (x = inactiveGroup), s) := by
  by_cases e : x = inactiveGroup
  · rw [h e, e]; rfl
  · rw [isInactive_active e]; simp [e]

/-- What the first operand of the add family answers, active or not (R221). -/
theorem firstOperand_added {k : AcKind} {f : Form} {s s1 : State} {a : Word} {r : Sum} (h : s.firstAdded k f a r s1) :
    firstOperand k false (s.maskWord f.mask) f.a f.dA (decide (f.a = inactiveGroup)) (s.begun.masking f.mask) = .ok ((a, r, false), s1) ∧
    (f.a = inactiveGroup → f.dA = false ∧ s.acState = .held k) := by
  rcases h with ⟨ha, w, hr, hb, rfl, rfl⟩ | ⟨ha, hd, hs, hm, rfl, rfl, rfl⟩
  · refine ⟨?_, fun e => absurd e ha⟩
    rw [decide_eq_false ha, firstOperand_active hr, hb, acSign_masked]
  · refine ⟨?_, fun _ => ⟨hd, hs⟩⟩
    obtain ⟨m, e⟩ := State.masking_eq s.begun f.mask
    unfold firstOperand
    rw [decide_eq_true ha, if_pos rfl]
    unfold retrieve
    rw [Op.bind_ok (t := s.begun.masking f.mask) (a := ⟨s.ac, s.acSign, false⟩)]
    · rfl
    · rw [Op.bind_ok (Op.get_run _), if_pos]
      · rw [e]; rfl
      · rw [e]; refine ⟨hs, ?_⟩
        rcases hm with h | h
        · left; rw [h]; rfl
        · exact .inr h

/-- The add family once both operands, active or not, have been taken (R221, R244): what is left is to deliver the accumulator. -/
theorem addOp_operands {i : Instr} {k : Adder} {f : Form} {s s1 s2 : State} {a : Word} {q r : Sum}
    (hq : s.env = []) (hdc : f.c = inactiveGroup → f.dC = false) (hm : s.begun.maskReady f.mask)
    (hf : s.firstAdded k.kind f a q s1) (hs : k.secondAdded (s.maskWord f.mask) f a q r s1 s2) :
    addOp i k false f s = (do
      let ic ← isInactive f.c f.dC
      if ic then
        leave k.kind (s.maskWord f.mask) r false
        conclude i f.seq false false r.ovf
      else
        leave k.kind (s.maskWord f.mask) r true
        let l ← locate f.c f.dC
        let badC ← deliverSum k.kind false (s.maskWord f.mask) l (storeForm k.kind r)
        conclude i f.seq true badC r.ovf : Op Unit) s2 := by
  obtain ⟨h1, h2⟩ := firstOperand_added hf
  have hmw : s.begun.maskWord f.mask = s.maskWord f.mask := rfl
  have hdb : f.b = inactiveGroup → f.dB = false := by
    rcases hs with ⟨h, _⟩ | ⟨_, h, _⟩
    · exact fun e => absurd e h
    · exact fun _ => h
  have hdg : f.designated = true := by
    unfold Form.designated
    have x1 : (f.dA && f.a == inactiveGroup) = false := by
      by_cases e : f.a = inactiveGroup
      · rw [(h2 e).1]; rfl
      · simp [e]
    have x2 : (f.dB && f.b == inactiveGroup) = false := by
      by_cases e : f.b = inactiveGroup
      · rw [hdb e]; rfl
      · simp [e]
    have x3 : (f.dC && f.c == inactiveGroup) = false := by
      by_cases e : f.c = inactiveGroup
      · rw [hdc e]; rfl
      · simp [e]
    rw [x1, x2, x3]; rfl
  unfold addOp
  rw [Op.bind_ok (beginForm_run hdg s), Op.bind_ok (isInactive_decided (fun e => (h2 e).1) _), Op.bind_ok (Op.get_run _), if_neg ?_,
    Op.bind_ok (maskOf_ready (s := s.begun) hq hm), hmw, Op.bind_ok h1, Op.bind_ok (isInactive_decided hdb _)]
  swap
  · rintro ⟨e, e'⟩
    have := (h2 (by simpa using e)).2
    rw [show s.begun.acState = s.acState from rfl, this] at e'
    simp at e'
  dsimp only
  have hmb := maskBad_ready (s := s) hm
  rcases hs with ⟨hb, b, hrb, hbb, hcomb⟩ | ⟨hb, hd, rfl, rfl⟩
  · rw [decide_eq_false hb, if_neg (by decide)]
    have ho := operand_reads (m := s.maskWord f.mask) hrb
    rw [Op.bind_ok ho, hbb]
    dsimp only
    rw [hcomb]
    unfold resolve
    rw [Op.bind_ok (Op.pure_run _ _), Op.bind_ok (Op.pure_run _ _)]
    simp only [hmb, Bool.false_or, Bool.or_false]
  · rw [decide_eq_true hb, if_pos rfl, Op.bind_ok (Op.pure_run _ _)]
    simp only [hmb, Bool.false_or, Bool.or_false]

/-- What taking both operands leaves alone. -/
theorem passes_added {k : Adder} {f : Form} {s s1 s2 : State} {a : Word} {q r : Sum}
    (hq : s.env = []) (hf : s.firstAdded k.kind f a q s1) (hs : k.secondAdded (s.maskWord f.mask) f a q r s1 s2) :
    Passes s s2 (s.named f.a f.dA ++ s1.named f.b f.dB) [] ∧ s2.mem = s.mem := by
  have q0 : (s.begun.masking f.mask).env = [] := by
    obtain ⟨m, e⟩ := State.masking_eq s.begun f.mask; rw [e]; exact hq
  have p1 : Passes s s1 (s.named f.a f.dA) [] ∧ s1.mem = s.mem ∧ s1.env = [] := by
    rcases hf with ⟨_, w, hr, _⟩ | ⟨_, _, _, _, rfl, _⟩
    · have st := steps_readOperand q0 hr
      exact ⟨((passes_masked s f.mask).trans (Passes.steps st)).mono (by rw [named_masked]; simp) (by simp),
        st.mem.trans (mem_masked s _), st.env.trans q0⟩
    · exact ⟨(passes_masked s f.mask).mono (by simp) (by simp), mem_masked s _, q0⟩
  rcases hs with ⟨_, b, hr, _⟩ | ⟨_, _, rfl, _⟩
  · have st := steps_readOperand p1.2.2 hr
    exact ⟨(p1.1.trans (Passes.steps st)).mono (by simp) (by simp), st.mem.trans p1.2.1⟩
  · exact ⟨p1.1.mono (by simp) (by simp), p1.2.1⟩

end Sys2Proof.Machine
end

