-- ==== Sys2Proof/Laws/Encoding.lean ====
section
/-! SUPPORT. The fields of an encoded word, and a word put together again from its fields. -/
namespace Sys2Proof

theorem toNat_fld {n : Nat} (w : BitVec n) (i j : Nat) : (fld w i j).toNat = w.toNat / 2 ^ (n - j) % 2 ^ (j + 1 - i) := by
  unfold fld
  rw [BitVec.extractLsb'_toNat, Nat.shiftRight_eq_div_pow]

theorem bitAt_toNat {n : Nat} (w : BitVec n) (i : Nat) : bitAt w i = decide (w.toNat / 2 ^ (n - i) % 2 = 1) := by
  unfold bitAt
  rw [BitVec.getLsbD, Nat.testBit_eq_decide_div_mod_eq]

theorem toNat_encodeWord {cc : Nat} (h : cc < 4096) (a b c : Group) :
    (encodeWord cc a b c).toNat = cc * 2 ^ 36 + a.toNat * 2 ^ 24 + b.toNat * 2 ^ 12 + c.toNat := by
  unfold encodeWord
  rw [BitVec.toNat_ofNat]; omega

theorem encodeWord_a {cc : Nat} (h : cc < 4096) (a b c : Group) : fld (encodeWord cc a b c) 13 24 = a := by
  apply BitVec.eq_of_toNat_eq
  rw [toNat_fld, toNat_encodeWord h]; omega

theorem encodeWord_b {cc : Nat} (h : cc < 4096) (a b c : Group) : fld (encodeWord cc a b c) 25 36 = b := by
  apply BitVec.eq_of_toNat_eq
  rw [toNat_fld, toNat_encodeWord h]; omega

theorem encodeWord_c {cc : Nat} (h : cc < 4096) (a b c : Group) : fld (encodeWord cc a b c) 37 48 = c := by
  apply BitVec.eq_of_toNat_eq
  rw [toNat_fld, toNat_encodeWord h]; omega

/-- The bits of the command code. -/
theorem encodeWord_code {cc : Nat} (h : cc < 4096) (a b c : Group) (i j : Nat) (hj : j ≤ 12) :
    (fld (encodeWord cc a b c) i j).toNat = cc / 2 ^ (12 - j) % 2 ^ (j + 1 - i) := by
  rw [toNat_fld, toNat_encodeWord h]
  have e : 48 - j = 36 + (12 - j) := by omega
  rw [e, Nat.pow_add, ← Nat.div_div_eq_div_mul]
  congr 2; omega

theorem encodeWord_bit {cc : Nat} (h : cc < 4096) (a b c : Group) (i : Nat) (hi : i ≤ 12) :
    bitAt (encodeWord cc a b c) i = decide (cc / 2 ^ (12 - i) % 2 = 1) := by
  rw [bitAt_toNat, toNat_encodeWord h]
  have e : 48 - i = 36 + (12 - i) := by omega
  rw [e, Nat.pow_add, ← Nat.div_div_eq_div_mul]
  congr 4; omega

theorem genCode_lt {hi op : Nat} (h1 : hi < 4) (h2 : op < 64) (f : Gen) : genCode hi op f < 4096 := by
  unfold genCode
  have := Bool.toNat_lt f.seq; have := Bool.toNat_lt f.dA; have := Bool.toNat_lt f.dB; have := Bool.toNat_lt f.dC
  omega

/-- The fields of the general layout are where it says (R133). -/
theorem genOf_encodeGen {hi op : Nat} (h1 : hi < 4) (h2 : op < 64) (f : Gen) : genOf (encodeGen hi op f) = f := by
  have h := genCode_lt h1 h2 f
  unfold genOf encodeGen
  rw [encodeWord_a h, encodeWord_b h, encodeWord_c h, encodeWord_bit h _ _ _ 1 (by omega), encodeWord_bit h _ _ _ 4 (by omega),
    encodeWord_bit h _ _ _ 5 (by omega), encodeWord_bit h _ _ _ 6 (by omega)]
  have b1 := Bool.toNat_lt f.seq; have b2 := Bool.toNat_lt f.dA; have b3 := Bool.toNat_lt f.dB; have b4 := Bool.toNat_lt f.dC
  have e1 : (decide (genCode hi op f / 2 ^ (12 - 1) % 2 = 1)) = f.seq := by
    unfold genCode
    rw [show (f.seq.toNat * 2 ^ 11 + hi * 2 ^ 9 + f.dA.toNat * 2 ^ 8 + f.dB.toNat * 2 ^ 7 + f.dC.toNat * 2 ^ 6 + op) / 2 ^ (12 - 1) % 2 =
      f.seq.toNat by omega]
    cases f.seq <;> rfl
  have e2 : (decide (genCode hi op f / 2 ^ (12 - 4) % 2 = 1)) = f.dA := by
    unfold genCode
    rw [show (f.seq.toNat * 2 ^ 11 + hi * 2 ^ 9 + f.dA.toNat * 2 ^ 8 + f.dB.toNat * 2 ^ 7 + f.dC.toNat * 2 ^ 6 + op) / 2 ^ (12 - 4) % 2 =
      f.dA.toNat by omega]
    cases f.dA <;> rfl
  have e3 : (decide (genCode hi op f / 2 ^ (12 - 5) % 2 = 1)) = f.dB := by
    unfold genCode
    rw [show (f.seq.toNat * 2 ^ 11 + hi * 2 ^ 9 + f.dA.toNat * 2 ^ 8 + f.dB.toNat * 2 ^ 7 + f.dC.toNat * 2 ^ 6 + op) / 2 ^ (12 - 5) % 2 =
      f.dB.toNat by omega]
    cases f.dB <;> rfl
  have e4 : (decide (genCode hi op f / 2 ^ (12 - 6) % 2 = 1)) = f.dC := by
    unfold genCode
    rw [show (f.seq.toNat * 2 ^ 11 + hi * 2 ^ 9 + f.dA.toNat * 2 ^ 8 + f.dB.toNat * 2 ^ 7 + f.dC.toNat * 2 ^ 6 + op) / 2 ^ (12 - 6) % 2 =
      f.dC.toNat by omega]
    cases f.dC <;> rfl
  rw [e1, e2, e3, e4]

/-- The operation code of the general layout is where it says (R133). -/
theorem encodeGen_code {hi op : Nat} (h1 : hi < 4) (h2 : op < 64) (f : Gen) :
    (fld (encodeGen hi op f) 7 12).toNat = op ∧ (fld (encodeGen hi op f) 2 3).toNat = hi ∧
    (fld (encodeGen hi op f) 10 12).toNat = op % 8 := by
  have h := genCode_lt h1 h2 f
  have b1 := Bool.toNat_lt f.seq; have b2 := Bool.toNat_lt f.dA; have b3 := Bool.toNat_lt f.dB; have b4 := Bool.toNat_lt f.dC
  unfold encodeGen
  rw [encodeWord_code h _ _ _ _ _ (by omega), encodeWord_code h _ _ _ _ _ (by omega), encodeWord_code h _ _ _ _ _ (by omega)]
  unfold genCode
  refine ⟨?_, ?_, ?_⟩ <;> omega

theorem fldCode_lt {op : Nat} (h : op < 64) (f : Fld) : f.seq.toNat * 2 ^ 11 + f.mask.toNat * 2 ^ 6 + op < 4096 := by
  have := Bool.toNat_lt f.seq; omega

/-- The fields of the masked layout (R134). -/
theorem fldOf_encodeFld {op : Nat} (h2 : op < 64) (f : Fld) : fldOf (encodeFld op f) = f := by
  have h := fldCode_lt h2 f
  have b1 := Bool.toNat_lt f.seq
  unfold fldOf encodeFld
  have e5 : fld (encodeWord (f.seq.toNat * 2 ^ 11 + f.mask.toNat * 2 ^ 6 + op) f.a f.b f.c) 2 6 = f.mask := by
    apply BitVec.eq_of_toNat_eq
    rw [encodeWord_code h _ _ _ 2 6 (by omega)]; omega
  have e1 : (decide ((f.seq.toNat * 2 ^ 11 + f.mask.toNat * 2 ^ 6 + op) / 2 ^ (12 - 1) % 2 = 1)) = f.seq := by
    rw [show (f.seq.toNat * 2 ^ 11 + f.mask.toNat * 2 ^ 6 + op) / 2 ^ (12 - 1) % 2 = f.seq.toNat by omega]
    cases f.seq <;> rfl
  rw [encodeWord_a h, encodeWord_b h, encodeWord_c h, encodeWord_bit h _ _ _ 1 (by omega), e1, e5]

theorem encodeFld_code {op : Nat} (h2 : op < 64) (f : Fld) :
    (fld (encodeFld op f) 7 12).toNat = op ∧ (fld (encodeFld op f) 10 12).toNat = op % 8 := by
  have h := fldCode_lt h2 f
  unfold encodeFld
  rw [encodeWord_code h _ _ _ _ _ (by omega), encodeWord_code h _ _ _ _ _ (by omega)]
  constructor <;> omega

/-- The fields of the peripheral layout (R136). -/
theorem perOf_encodePer {op : Nat} (h2 : op < 64) (f : Per) : perOf (encodePer op f) = f := by
  have h : f.ch.toNat * 2 ^ 9 + f.dev.toNat * 2 ^ 6 + op < 4096 := by omega
  unfold perOf encodePer
  have e1 : fld (encodeWord (f.ch.toNat * 2 ^ 9 + f.dev.toNat * 2 ^ 6 + op) f.a f.b f.c) 1 3 = f.ch := by
    apply BitVec.eq_of_toNat_eq
    rw [encodeWord_code h _ _ _ 1 3 (by omega)]; omega
  have e2 : fld (encodeWord (f.ch.toNat * 2 ^ 9 + f.dev.toNat * 2 ^ 6 + op) f.a f.b f.c) 4 6 = f.dev := by
    apply BitVec.eq_of_toNat_eq
    rw [encodeWord_code h _ _ _ 4 6 (by omega)]; omega
  rw [encodeWord_a h, encodeWord_b h, encodeWord_c h, e1, e2]

theorem encodePer_code {op : Nat} (h2 : op < 64) (f : Per) :
    (fld (encodePer op f) 7 12).toNat = op ∧ (fld (encodePer op f) 10 12).toNat = op % 8 := by
  have h : f.ch.toNat * 2 ^ 9 + f.dev.toNat * 2 ^ 6 + op < 4096 := by omega
  unfold encodePer
  rw [encodeWord_code h _ _ _ _ _ (by omega), encodeWord_code h _ _ _ _ _ (by omega)]
  constructor <;> omega

/-- The simulator layout is the general layout of its bits, but for the address (R139). -/
theorem simOf_encodeSim (x : Bool) (f : Sim) :
    simOf (encodeSim x f) = f ∧ bitAt (encodeSim x f) 1 = x ∧ fld (encodeSim x f) 10 12 = 0b111#3 := by
  have b := Bool.toNat_lt x
  have h : x.toNat * 2 ^ 11 + f.addr.toNat * 2 ^ 3 + 0b111 < 4096 := by omega
  unfold simOf encodeSim
  have e1 : fld (encodeWord (x.toNat * 2 ^ 11 + f.addr.toNat * 2 ^ 3 + 0b111) f.a f.b f.c) 2 9 = f.addr := by
    apply BitVec.eq_of_toNat_eq
    rw [encodeWord_code h _ _ _ 2 9 (by omega)]; omega
  refine ⟨by rw [encodeWord_a h, encodeWord_b h, encodeWord_c h, e1], ?_, ?_⟩
  · rw [encodeWord_bit h _ _ _ 1 (by omega)]
    rw [show (x.toNat * 2 ^ 11 + f.addr.toNat * 2 ^ 3 + 0b111) / 2 ^ (12 - 1) % 2 = x.toNat by omega]
    cases x <;> rfl
  · apply BitVec.eq_of_toNat_eq
    rw [encodeWord_code h _ _ _ 10 12 (by omega)]
    show _ = 7
    omega

/-! ### The operation code map (R132, R146) -/

theorem OpMap.six_lt (m : OpMap) (o : SixOp) : (m.sixCode o).toNat < 64 := (m.sixCode o).isLt

theorem OpMap.eight_lt (m : OpMap) (o : EightOp) : (m.eightCode o).toNat / 64 < 4 ∧ (m.eightCode o).toNat % 64 < 64 := by
  have := (m.eightCode o).isLt
  omega

theorem SixOp.mem_all (o : SixOp) : o ∈ SixOp.all := by cases o <;> decide

theorem EightOp.mem_all (o : EightOp) : o ∈ EightOp.all := by cases o <;> decide

/-- A table in which codes and operations name each other is a one to one map. -/
theorem find_code {α β : Type} [BEq α] [LawfulBEq α] [BEq β] [LawfulBEq β] {l : List (α × β)}
    (h : l.all (fun p => l.all fun q => (p.1 == q.1) == (p.2 == q.2)) = true) {p : α × β} (hp : p ∈ l) :
    (l.find? fun q => q.1 == p.1) = some p ∧ (l.find? fun q => q.2 == p.2) = some p := by
  have key : ∀ q ∈ l, (q.1 == p.1) = (q.2 == p.2) := fun q hq => by
    have := List.all_eq_true.mp (List.all_eq_true.mp h q hq) p hp
    simpa using this
  have one : ∀ q ∈ l, q.1 == p.1 → q = p := fun q hq e =>
    Prod.ext (by simpa using e) (by simpa using (key q hq).symm.trans e)
  refine ⟨?_, ?_⟩
  · cases e : l.find? fun q => q.1 == p.1 with
    | none => exact absurd (List.find?_eq_none.mp e p hp) (by simp)
    | some q => rw [one q (List.mem_of_find?_eq_some e) (List.find?_some (p := fun q : α × β => q.1 == p.1) e)]
  · cases e : l.find? fun q => q.2 == p.2 with
    | none => exact absurd (List.find?_eq_none.mp e p hp) (by simp)
    | some q =>
      have hq := List.mem_of_find?_eq_some e
      rw [one q hq ((key q hq).trans (List.find?_some (p := fun q : α × β => q.2 == p.2) e))]

/-- The parts of a well-formed map. -/
theorem OpMap.wf_parts {m : OpMap} (h : m.wf = true) :
    (∀ o, ∃ p ∈ m.six, p.2 = o) ∧ (∀ o, ∃ p ∈ m.eight, p.2 = o) ∧
    m.six.all (fun p => m.six.all fun q => (p.1 == q.1) == (p.2 == q.2)) = true ∧
    m.eight.all (fun p => m.eight.all fun q => (p.1 == q.1) == (p.2 == q.2)) = true ∧
    (∀ p ∈ m.six, fld p.1 4 6 ≠ 0b111#3) ∧ (∀ p ∈ m.eight, fld p.1 6 8 ≠ 0b111#3) ∧
    (∀ p ∈ m.eight, ∀ q ∈ m.six, fld p.1 3 8 ≠ q.1) := by
  unfold OpMap.wf at h
  simp only [Bool.and_eq_true] at h
  obtain ⟨⟨⟨⟨⟨⟨h1, h2⟩, h3⟩, h4⟩, h5⟩, h6⟩, h7⟩ := h
  refine ⟨fun o => ?_, fun o => ?_, h3, h4, fun p hp => ?_, fun p hp => ?_, fun p hp q hq => ?_⟩
  · obtain ⟨p, hp, e⟩ := List.any_eq_true.mp (List.all_eq_true.mp h1 o o.mem_all)
    exact ⟨p, hp, by simpa using e⟩
  · obtain ⟨p, hp, e⟩ := List.any_eq_true.mp (List.all_eq_true.mp h2 o o.mem_all)
    exact ⟨p, hp, by simpa using e⟩
  · simpa using List.all_eq_true.mp h5 p hp
  · simpa using List.all_eq_true.mp h6 p hp
  · simpa using List.all_eq_true.mp (List.all_eq_true.mp h7 p hp) q hq

/-- An operation of table `SIX` and its code. -/
theorem OpMap.six_code {m : OpMap} (h : m.wf = true) (o : SixOp) :
    m.sixOp (m.sixCode o) = some o ∧ fld (m.sixCode o) 4 6 ≠ 0b111#3 := by
  obtain ⟨h1, _, h3, _, h5, _, _⟩ := OpMap.wf_parts h
  obtain ⟨p, hp, e⟩ := h1 o
  obtain ⟨f1, f2⟩ := find_code h3 hp
  have ec : m.sixCode o = p.1 := by unfold OpMap.sixCode; rw [← e, f2]; rfl
  rw [ec]
  exact ⟨by unfold OpMap.sixOp; rw [f1, ← e]; rfl, h5 p hp⟩

/-- An operation of table `EIGHT` and its code. -/
theorem OpMap.eight_code {m : OpMap} (h : m.wf = true) (o : EightOp) :
    m.eightOp (m.eightCode o) = some o ∧ fld (m.eightCode o) 6 8 ≠ 0b111#3 ∧ m.sixOp (fld (m.eightCode o) 3 8) = none := by
  obtain ⟨_, h2, _, h4, _, h6, h7⟩ := OpMap.wf_parts h
  obtain ⟨p, hp, e⟩ := h2 o
  obtain ⟨f1, f2⟩ := find_code h4 hp
  have ec : m.eightCode o = p.1 := by unfold OpMap.eightCode; rw [← e, f2]; rfl
  rw [ec]
  refine ⟨by unfold OpMap.eightOp; rw [f1, ← e]; rfl, h6 p hp, ?_⟩
  unfold OpMap.sixOp
  rw [Option.map_eq_none_iff, List.find?_eq_none]
  intro q hq e'
  exact h7 p hp q hq (by simpa using (beq_iff_eq.mp e').symm)

/-- The code of the operation a code names is that code. -/
theorem OpMap.sixCode_of {m : OpMap} (h : m.wf = true) {c : BitVec 6} {o : SixOp} (e : m.sixOp c = some o) : m.sixCode o = c := by
  obtain ⟨_, _, h3, _, _, _, _⟩ := OpMap.wf_parts h
  obtain ⟨p, hp, rfl⟩ := Option.map_eq_some_iff.mp e
  have hm := List.mem_of_find?_eq_some hp
  unfold OpMap.sixCode
  rw [(find_code h3 hm).2]
  simpa using List.find?_some (p := fun q : BitVec 6 × SixOp => q.1 == c) hp

theorem OpMap.eightCode_of {m : OpMap} (h : m.wf = true) {c : BitVec 8} {o : EightOp} (e : m.eightOp c = some o) :
    m.eightCode o = c := by
  obtain ⟨_, _, _, h4, _, _, _⟩ := OpMap.wf_parts h
  obtain ⟨p, hp, rfl⟩ := Option.map_eq_some_iff.mp e
  have hm := List.mem_of_find?_eq_some hp
  unfold OpMap.eightCode
  rw [(find_code h4 hm).2]
  simpa using List.find?_some (p := fun q : BitVec 8 × EightOp => q.1 == c) hp

/-- A word with a code of table `SIX` in bits 7 to 12. -/
theorem decode_six {m : OpMap} (h : m.wf = true) {o : SixOp} {w : Word} (hw : (fld w 7 12).toNat = (m.sixCode o).toNat) :
    decode m w = .ok (o.read w) := by
  have e : fld w 7 12 = m.sixCode o := BitVec.eq_of_toNat_eq hw
  obtain ⟨h1, h2⟩ := OpMap.six_code h o
  unfold decode
  rw [if_neg, e, h1]
  intro k
  apply h2
  apply BitVec.eq_of_toNat_eq
  have k' := congrArg BitVec.toNat k
  rw [toNat_fld] at k' hw ⊢
  rw [← hw]
  omega

/-- A word with a code of table `EIGHT` in bits 2, 3 and 7 to 12. -/
theorem decode_eight {m : OpMap} (h : m.wf = true) {o : EightOp} {w : Word} (h1 : (fld w 2 3).toNat = (m.eightCode o).toNat / 64)
    (h2 : (fld w 7 12).toNat = (m.eightCode o).toNat % 64) : decode m w = .ok (o.read w) := by
  obtain ⟨g1, g2, g3⟩ := OpMap.eight_code h o
  have e : eightBits w = m.eightCode o := by
    apply BitVec.eq_of_toNat_eq
    unfold eightBits
    have := (m.eightCode o).isLt
    rw [BitVec.toNat_ofNat, h1, h2]; omega
  have e6 : fld w 7 12 = fld (m.eightCode o) 3 8 := by
    apply BitVec.eq_of_toNat_eq
    rw [h2, toNat_fld]; omega
  unfold decode
  rw [if_neg, e6, g3, e, g1]
  intro k
  apply g2
  apply BitVec.eq_of_toNat_eq
  have k' := congrArg BitVec.toNat k
  rw [toNat_fld] at k' h2 ⊢
  omega

/-- A word is its command code and its groups. -/
theorem word_eq (w : Word) : w = encodeWord (fld w 1 12).toNat (fld w 13 24) (fld w 25 36) (fld w 37 48) := by
  apply BitVec.eq_of_toNat_eq
  rw [toNat_encodeWord (fld w 1 12).isLt, toNat_fld, toNat_fld, toNat_fld, toNat_fld]
  have := w.isLt
  omega

/-! ### A word from its fields -/

theorem encodeGen_genOf (w : Word) : encodeGen (fld w 2 3).toNat (fld w 7 12).toNat (genOf w) = w := by
  conv => rhs; rw [word_eq w]
  unfold encodeGen genCode genOf
  dsimp only
  congr 1
  rw [bitAt_toNat, bitAt_toNat, bitAt_toNat, bitAt_toNat, toNat_fld, toNat_fld, toNat_fld]
  simp only [Bool.toNat, cond_eq_ite, decide_eq_true_eq]
  have := w.isLt
  split <;> split <;> split <;> split <;> omega

theorem encodeFld_fldOf (w : Word) : encodeFld (fld w 7 12).toNat (fldOf w) = w := by
  conv => rhs; rw [word_eq w]
  unfold encodeFld fldOf
  dsimp only
  congr 1
  rw [bitAt_toNat, toNat_fld, toNat_fld, toNat_fld]
  simp only [Bool.toNat, cond_eq_ite, decide_eq_true_eq]
  have := w.isLt
  split <;> omega

theorem encodePer_perOf (w : Word) : encodePer (fld w 7 12).toNat (perOf w) = w := by
  conv => rhs; rw [word_eq w]
  unfold encodePer perOf
  dsimp only
  congr 1
  rw [toNat_fld, toNat_fld, toNat_fld, toNat_fld]
  have := w.isLt
  omega

theorem encodeSim_simOf (w : Word) (h : fld w 10 12 = 0b111#3) : encodeSim (bitAt w 1) (simOf w) = w := by
  have h' : (fld w 10 12).toNat = 7 := by rw [h]; rfl
  conv => rhs; rw [word_eq w]
  unfold encodeSim simOf
  dsimp only
  congr 1
  rw [toNat_fld] at h'
  rw [bitAt_toNat, toNat_fld, toNat_fld]
  simp only [Bool.toNat, cond_eq_ite, decide_eq_true_eq]
  have := w.isLt
  split <;> omega

theorem prtCode_lt {op : Nat} (h2 : op < 64) (f : Prt) : f.seq.toNat * 2 ^ 11 + f.irr2.toNat * 2 ^ 10 + f.irr3.toNat * 2 ^ 9 + f.dA.toNat * 2 ^ 8 +
    f.irr5.toNat * 2 ^ 7 + f.dC.toNat * 2 ^ 6 + op < 4096 := by
  have := Bool.toNat_lt f.seq; have := Bool.toNat_lt f.irr2; have := Bool.toNat_lt f.irr3; have := Bool.toNat_lt f.dA
  have := Bool.toNat_lt f.irr5; have := Bool.toNat_lt f.dC
  omega

theorem encodePrt_code {op : Nat} (h2 : op < 64) (f : Prt) :
    (fld (encodePrt op f) 7 12).toNat = op ∧ (fld (encodePrt op f) 10 12).toNat = op % 8 := by
  have h := prtCode_lt h2 f
  unfold encodePrt
  rw [encodeWord_code h _ _ _ _ _ (by omega), encodeWord_code h _ _ _ _ _ (by omega)]
  constructor <;> omega

/-- The fields of the print layout (R137). -/
theorem prtOf_encodePrt {op : Nat} (h2 : op < 64) (f : Prt) : prtOf (encodePrt op f) = f := by
  have h := prtCode_lt h2 f
  unfold prtOf encodePrt
  have e : ∀ b : Bool, ∀ n, n = b.toNat → decide (n = 1) = b := fun b n h => by subst h; cases b <;> rfl
  have := Bool.toNat_lt f.seq; have := Bool.toNat_lt f.irr2; have := Bool.toNat_lt f.irr3; have := Bool.toNat_lt f.dA
  have := Bool.toNat_lt f.irr5; have := Bool.toNat_lt f.dC
  rw [encodeWord_a h, encodeWord_b h, encodeWord_c h, encodeWord_bit h _ _ _ 1 (by omega), encodeWord_bit h _ _ _ 2 (by omega),
    encodeWord_bit h _ _ _ 3 (by omega), encodeWord_bit h _ _ _ 4 (by omega), encodeWord_bit h _ _ _ 5 (by omega),
    encodeWord_bit h _ _ _ 6 (by omega), e f.seq _ (by omega), e f.irr2 _ (by omega), e f.irr3 _ (by omega), e f.dA _ (by omega),
    e f.irr5 _ (by omega), e f.dC _ (by omega)]

theorem encodePrt_prtOf (w : Word) : encodePrt (fld w 7 12).toNat (prtOf w) = w := by
  conv => rhs; rw [word_eq w]
  unfold encodePrt prtOf
  dsimp only
  congr 1
  rw [bitAt_toNat, bitAt_toNat, bitAt_toNat, bitAt_toNat, bitAt_toNat, bitAt_toNat, toNat_fld, toNat_fld]
  simp only [Bool.toNat, cond_eq_ite, decide_eq_true_eq]
  have := w.isLt
  split <;> split <;> split <;> split <;> split <;> split <;> omega

end Sys2Proof
end

