-- ==== Sys2Proof/Laws/Addresses.lean ====
section
/-! SUPPORT. The fields of a special register made of its parts, and the indexed address (R184). -/
namespace Sys2Proof.Machine

theorem SReg.addr_lt (r : SReg) : r.addr < 32768 := (fld r.bits 2 16).isLt

theorem SReg.mk'_addr (a s : Bool) {n : Nat} (h : n < 32768) : (SReg.mk' a s n).addr = n := by
  unfold SReg.addr SReg.mk'
  rw [toNat_fld, BitVec.toNat_ofNat]
  have := Bool.toNat_lt s
  omega

theorem SReg.mk'_sign (a s : Bool) (n : Nat) : (SReg.mk' a s n).sign = s := by
  unfold SReg.sign SReg.mk'
  rw [bitAt_toNat, BitVec.toNat_ofNat]
  cases s
  · rw [show (false.toNat * 32768 + n % 32768) % 2 ^ 16 / 2 ^ (16 - 1) % 2 = 0 by simp; omega]; rfl
  · rw [show (true.toNat * 32768 + n % 32768) % 2 ^ 16 / 2 ^ (16 - 1) % 2 = 1 by simp; omega]; rfl

theorem SReg.mk'_mod (a s : Bool) (n : Nat) : SReg.mk' a s (n % 32768) = SReg.mk' a s n := by
  unfold SReg.mk'; rw [Nat.mod_mod]

theorem SReg.mk'_full (a s : Bool) {n : Nat} (h : n < 32768) : (SReg.mk' a s n).full = (if a then 32768 else 0) + n := by
  unfold SReg.full; rw [SReg.mk'_addr a s h]; rfl

theorem locate_indexed {x : Group} {s : State} (hx : x ≠ inactiveGroup) (h1 : bitAt x 1 = true)
    (ht : (s.reg s.cur (indexReg x)).tag ≠ .bad) :
    locate x false s = .ok (.mem (if (augment (s.reg s.cur (indexReg x)) (fld x 5 12).toNat).2 then
      (augment (s.reg s.cur (indexReg x)) (fld x 5 12).toNat).1.full else nowhere), s) := by
  unfold locate
  rw [Op.bind_ok (isInactive_active hx _ _), if_neg (by decide), Op.bind_ok (Op.get_run _), h1]
  dsimp only
  have e : index x s =
      .ok (((augment (s.reg s.cur (indexReg x)) (fld x 5 12).toNat).1, true, (augment (s.reg s.cur (indexReg x)) (fld x 5 12).toNat).2), s) := by
    unfold index
    rw [Op.bind_ok (Op.get_run _), Op.bind_ok (checkExplicit_good ht s)]; rfl
  rw [Op.bind_ok e]
  simp only [Bool.true_and]; rfl

end Sys2Proof.Machine
end

