-- ==== Sys2Proof/Laws/Changes.lean ====
section
/-! SUPPORT. The elementary changes of the state, of which every operation of the processor, and all that runs beside it, is a sequence; here
those made by changes of the state that are no operation. -/
namespace Sys2Proof.Machine

/-- All but the arithmetic registers, the bookkeeping of multiprogram control, the devices and the typewriters. -/
def State.kept (s : State) : State :=
  { s with
    ac := 0, acSign := false, acState := .undefined, lop := 0, lopHeld := false, heldMask := none, mr := 0, flopHeld := false,
    flopOvf := false, flopUnf := false, stalls := Vector.replicate 8 .running, stallOrder := [], firstOn := none, scan := none,
    utEntry := none, limited := none, halted := false, devs := Vector.replicate 128 Device.idle, xfers := Vector.replicate 16 none,
    demands := Vector.replicate 16 false, typing := none, typeSpoiled := false, mtfConsole := none, mtfSlave := none, free := 0 }

/-- The floating-point registers apart. -/
def State.keptNoFloat (s : State) : State :=
  { s.kept with flac := 0, flop := 0, fpuGroup := none, flacOvf := false, flacUnf := false, flacFixed := false }

/-- The elementary changes of an instruction: `sci` allows those of the scientific option, `bar` loading the barricade register, `out` what
happens outside the processor meanwhile, of which only the invariant is said. -/
inductive Prim (sci bar out : Bool) : State → State → Prop
  | quiet {s t : State} (h : t.kept = s.kept) : Prim sci bar out s t
  | own (s : State) (i : BitVec 5) (r : SReg) : Prim sci bar out s (s.setReg s.cur i r)
  | counter (s : State) (h : BitVec 3) (i : BitVec 5) (r : SReg) (hi : 28 ≤ i.toNat) : Prim sci bar out s (s.setReg h i r)
  | reg (s : State) (h : BitVec 3) (i : BitVec 5) (r : SReg) (hb : s.barsReg h i = false) : Prim sci bar out s (s.setReg h i r)
  | word (s : State) (a : Nat) (v : MWord) (he : s.exists? a = true) (hb : s.barsMem a = false) :
      Prim sci bar out s (s.putWord a v)
  | scratch (s : State) (a : Nat) (v : MWord) (ha : a ≤ typewriterBuffer) : Prim sci bar out s (s.putWord a v)
  | pcrBit (s : State) (k : Nat) (b : Bool) (hk : 9 ≤ k ∧ k ≤ 16 ∨ 21 ≤ k ∧ k ≤ 48) : Prim sci bar out s (s.setPcrBit k b)
  | errorCode (s : State) (c : BitVec 5) : Prim sci bar out s (s.setErrorCode c)
  | fixedStart (s : State) (v : BitVec 3) : Prim sci bar out s (s.setFixedStart v)
  | violator (s : State) (g : BitVec 3) : Prim sci bar out s { s with bar := setFld s.bar 1 3 g }
  | float {s t : State} (hs : sci = true) (h : t.keptNoFloat = s.keptNoFloat) : Prim sci bar out s t
  | load (s : State) (hl : bar = true) (w : Word) (hw : fld w 38 40 = 0#3) : Prim sci bar out s (s.loadedBar w)
  | between {s t : State} (ho : out = true) (hi : s.Inv → t.Inv) : Prim sci bar out s t

/-- A sequence of elementary changes. -/
abbrev Reach (sci bar out : Bool) : State → State → Prop := Relation.ReflTransGen (Prim sci bar out)

variable {sci bar out : Bool}

theorem Reach.one {s t : State} (h : Prim sci bar out s t) : Reach sci bar out s t := Relation.ReflTransGen.single h

theorem Reach.alike (s t : State) (h : t.kept = s.kept) : Reach sci bar out s t := Reach.one (.quiet h)

theorem Reach.quiet {s t : State} (h : t.kept = s.kept) : Reach sci bar out s t := Reach.one (.quiet h)

/-- Where nothing outside the processor happens, the events to come stay as they are. -/
theorem Prim.still {s t : State} (p : Prim sci bar out s t) (h : out = true ∨ s.env = []) : out = true ∨ t.env = [] := by
  cases p with
  | quiet e => exact h.imp_right fun h => (congrArg State.env e :).trans h
  | float _ e => exact h.imp_right fun h => (congrArg State.env e :).trans h
  | between ho _ => exact .inl ho
  | _ => exact h

theorem Reach.still {s t : State} (r : Reach sci bar out s t) (h : out = true ∨ s.env = []) : out = true ∨ t.env = [] := by
  induction r with
  | refl => exact h
  | tail _ p ih => exact p.still ih

/-! ### What an operation leaves -/

/-- The state an operation leaves, however it ends; none where the instruction has no meaning. -/
def leftIn {α : Type} : Except Stop (α × State) → Option State
  | .ok (_, t) => some t
  | .error (.done t) => some t
  | .error (.error _ _ t) => some t
  | .error _ => none

/-- A step of a register's contents changes nothing but the count of free values. -/
theorem stepBy_left {r : SReg} {k : Nat} {s t : State} (h : leftIn (stepBy r k s) = some t) : ∃ n, t = { s with free := n } := by
  unfold stepBy at h
  split at h <;> split at h <;> (first | (cases h; exact ⟨s.free, rfl⟩) | (cases h; exact ⟨s.free + 1, rfl⟩))

theorem stepProgrammed_left {r : SReg} {k : Nat} {s t : State} (h : leftIn (stepProgrammed r k s) = some t) :
    ∃ n, t = { s with free := n } := by
  unfold stepProgrammed at h
  rw [Op.bind_ok (Op.get_run s)] at h
  split at h
  · cases h; exact ⟨s.free, rfl⟩
  · exact stepBy_left h

theorem stepCounter_left {q : Bool} {r : SReg} {s t : State} (h : leftIn (stepCounter q r s) = some t) :
    ∃ n, t = { s with free := n } := by
  unfold stepCounter at h
  rw [Op.bind_ok (Op.get_run s)] at h
  split at h
  · split at h <;> (cases h; exact ⟨s.free, rfl⟩)
  · split at h
    · split at h <;> (cases h; exact ⟨s.free, rfl⟩)
    · rw [Op.bind_run] at h
      match hm : stepBy r 1 s with
      | .ok (x, u) =>
        rw [hm] at h
        obtain ⟨n, rfl⟩ := stepBy_left (t := u) (by rw [hm]; rfl)
        exact ⟨n, (Option.some.inj h).symm⟩
      | .error e =>
        rw [hm] at h
        exact stepBy_left (t := t) (by rw [hm]; cases e <;> exact h)

/-! ### Control errors, stalls, sequence changes -/

theorem flag_kept (s : State) (c : BitVec 5) : (s.flag c).kept = s.kept := by
  unfold State.flag; split <;> rfl

theorem reach_ended (s : State) (q b : Bool) : Reach sci bar out s (s.ended q b) :=
  (Reach.one (.pcrBit s (21 + s.cur.toNat) q (by omega))).trans (Reach.quiet rfl)

theorem reach_setDemandBit (s : State) (g : BitVec 3) (b : Bool) : Reach sci bar out s (s.setDemandBit g b) :=
  (Reach.one (.pcrBit s _ b (by omega))).trans (Reach.quiet rfl)

theorem reach_setBis (s : State) (g : BitVec 3) (b : Bool) : Reach sci bar out s (s.setBis g b) :=
  Reach.one (.pcrBit s _ b (by omega))

theorem reach_turnOff (s : State) (g : BitVec 3) (c : BitVec 5) : Reach sci bar out s (s.turnOff g c) :=
  Relation.ReflTransGen.trans
    ((((Reach.alike s s.begun.intervened.dropHeld rfl).trans (reach_setDemandBit _ g false)).trans
      (Reach.one (.errorCode _ c))).trans (Reach.one (.violator _ g))) (Reach.alike _ (s.turnOff g c) rfl)

theorem kept_closeChannel (s : State) (d : Dir) (ch : BitVec 3) : (s.closeChannel d ch).kept = s.kept := by
  unfold State.closeChannel
  split
  · rfl
  · split <;> rfl

theorem kept_closeChannels (l : List (BitVec 3)) (s : State) :
    (l.foldl (fun t ch => (t.closeChannel .input ch).closeChannel .output ch) s).kept = s.kept := by
  induction l generalizing s with
  | nil => rfl
  | cons ch t ih => rw [List.foldl_cons, ih, kept_closeChannel, kept_closeChannel]

theorem reach_halt (s : State) (c : BitVec 5) : Reach sci bar out s (s.halt c) :=
  (Reach.one (.errorCode s c)).trans (Reach.quiet (kept_closeChannels _ _))

theorem reach_backed (s : State) (f g : Word) : Reach sci bar out s (s.backed f g) := by
  unfold State.backed
  split
  · exact (Reach.one (.own s _ _)).trans (Reach.one (.own (s.setReg s.cur (Ctr.ix .sc) _) (Ctr.ix .csc) _))
  · exact Reach.one (.own s _ _)

theorem reach_waits (s : State) (w : Stall) : Reach sci bar out s (s.waits w) := by
  unfold State.waits
  split
  · exact reach_turnOff _ _ _
  · exact Reach.quiet rfl

theorem reach_historied (s : State) (c : Ctr) : Reach sci bar out s (s.historied c) :=
  (Reach.one (.own s _ _)).trans (Reach.one (.pcrBit _ (21 + s.cur.toNat) _ (by omega)))

theorem cur_historied (s : State) (c : Ctr) : (s.historied c).cur = s.cur :=
  State.cur_setPcrBit _ _ (by omega) (by omega)

theorem reach_jumped (s : State) (c : Ctr) (r : SReg) : Reach sci bar out s (s.jumped c r) := by
  have h := Prim.own (sci := sci) (bar := bar) (out := out) (s.historied c) c.ix r
  rw [cur_historied] at h
  exact ((reach_historied s c).trans (Reach.one h)).trans (Reach.quiet rfl)

/-! ### Channels -/

theorem reach_stepBuffer (s : State) (h : BitVec 3) (i : BitVec 5) (hi : 28 ≤ i.toNat) : Reach sci bar out s (s.stepBuffer h i) := by
  unfold State.stepBuffer
  split
  · rename_i r u hm
    exact (Reach.quiet (by obtain ⟨n, rfl⟩ := stepCounter_left (t := u) (by rw [hm]; rfl); rfl)).trans (Reach.one (.counter u h i r hi))
  · exact .refl

theorem reach_endTransfer (s : State) (d : Dir) (ch : BitVec 3) : Reach sci bar out s (s.endTransfer d ch) := by
  have hk : 9 ≤ interlockBit d ch ∧ interlockBit d ch ≤ 16 ∨ 21 ≤ interlockBit d ch ∧ interlockBit d ch ≤ 48 := by
    cases d <;> simp only [interlockBit] <;> omega
  exact ((Reach.alike s ((s.setXfer d ch none).setDemand d ch false) rfl).trans (Reach.one (.pcrBit _ _ false hk))).trans
    (Reach.alike _ (State.release _) rfl)

theorem reach_endOutput (s : State) (ch : BitVec 3) (x : Xfer) (r : Record) : Reach sci bar out s (s.endOutput ch x r) :=
  (Reach.alike s ({ s with free := s.free + 122 }.modifyDev .output ch x.dev fun v => v.finish x r s.free) rfl).trans
    (reach_endTransfer _ _ _)

theorem reach_errored (s : State) (c : BitVec 5) (d : Dir) (ch : BitVec 3) (x : Xfer) :
    Reach sci bar out s (if d = .input
      then ((s.setErrorCode c).modifyDev d ch x.dev (Device.storeError x.kind d)).endTransfer d ch
      else ((s.setErrorCode c).modifyDev d ch x.dev (Device.storeError x.kind d)).endOutput ch { x with err := true } x.sent.reverse) := by
  have h1 : Reach sci bar out s ((s.setErrorCode c).modifyDev d ch x.dev (Device.storeError x.kind d)) :=
    (Reach.one (.errorCode s _)).trans (Reach.quiet rfl)
  split
  · exact h1.trans (reach_endTransfer _ _ _)
  · exact h1.trans (reach_endOutput _ _ _ _)

theorem reach_counterFails {s t : State} {d : Dir} {ch : BitVec 3} {x : Xfer} {r : SReg} (h : s.counterFails d ch x r = some t) :
    Reach sci bar out s t := by
  unfold State.counterFails at h
  split at h
  · rw [← Option.some.inj h]; exact reach_halt _ _
  · split at h
    · split at h
      · rw [← Option.some.inj h]; exact reach_errored _ _ _ _ _
      · rw [← Option.some.inj h]; exact reach_halt _ _
    · exact nomatch h

theorem bufferIx_high (d : Dir) : 28 ≤ (bufferIx d).toNat := by cases d <;> decide

theorem tableIx_high (d : Dir) : 28 ≤ (tableIx d).toNat := by cases d <;> decide

theorem reach_tableCycle (s : State) (d : Dir) (ch : BitVec 3) (x : Xfer) : Reach sci bar out s (s.tableCycle d ch x) := by
  unfold State.tableCycle
  dsimp only
  split
  · rename_i h; exact reach_counterFails h
  · have h : ∀ p : Prop, [Decidable p] → Reach sci bar out s (if p then
        (s.modifyDev d ch x.dev (Device.storeError x.kind d)).setXfer d ch (some { x with err := true }) else s) := by
      intro p _
      split
      · exact Reach.quiet rfl
      · exact .refl
    split
    · exact h _
    · exact ((h _).trans (Reach.one (.counter _ ch _ _ (bufferIx_high d)))).trans (reach_stepBuffer _ _ _ (tableIx_high d))

theorem reach_concludeOutput (s : State) (ch : BitVec 3) (w : Word) (e : Bool) : Reach sci bar out s (s.concludeOutput ch w e) := by
  unfold State.concludeOutput
  split
  · exact .refl
  · split
    · exact reach_endOutput _ _ _ _
    · exact .refl

theorem reach_itemSent (s : State) (ch : BitVec 3) (x : Xfer) (w : Word) : Reach sci bar out s (s.itemSent ch x w) := by
  unfold State.itemSent
  split
  · exact reach_tableCycle _ _ _ _
  · exact .refl

theorem reach_sendWord (s : State) (ch : BitVec 3) (x : Xfer) (w : MWord) : Reach sci bar out s (s.sendWord ch x w) := by
  refine Relation.ReflTransGen.trans ?_ (reach_concludeOutput _ _ _ _)
  refine Relation.ReflTransGen.trans ?_ (reach_itemSent _ _ _ _)
  refine Relation.ReflTransGen.trans (b := { s.stepBuffer ch wacIx with free := s.free + 2 })
    ((reach_stepBuffer s ch wacIx (bufferIx_high .output)).trans (Reach.alike _ _ rfl)) ?_
  split <;> exact Reach.alike _ _ rfl

theorem reach_outputCycle (s : State) (ch : BitVec 3) (x : Xfer) : Reach sci bar out s (s.outputCycle ch x) := by
  unfold State.outputCycle
  split
  · rename_i h; exact reach_counterFails h
  · exact reach_sendWord _ _ _ _

theorem reach_outputBuffer (s : State) (ch : BitVec 3) : Reach sci bar out s (s.bufferCycle .output ch) := by
  unfold State.bufferCycle
  dsimp only
  split
  · exact Reach.quiet rfl
  · exact (Reach.alike s (s.setDemand .output ch false) rfl).trans (reach_outputCycle _ _ _)

theorem reach_interlock (s t : State) (h : t.kept = s.kept) (d : Dir) (ch : BitVec 3) :
    Reach sci bar out s (t.setPcrBit (interlockBit d ch) true) :=
  (Reach.quiet h).trans (Reach.one (.pcrBit _ _ true (by cases d <;> simp only [interlockBit] <;> omega)))

/-! ### Single instructions -/

theorem kept_setOwner (s : State) (b : Bool) (o : Option (BitVec 3)) : (s.setOwner b o).kept = s.kept := by
  unfold State.setOwner; split <;> rfl

theorem reach_forGroups (s : State) (f : BitVec 3 → State → State) (h : ∀ g t, Reach sci bar out t (f g t)) :
    Reach sci bar out s (s.forGroups f) := by
  unfold State.forGroups
  generalize [0#3, 1#3, 2#3, 3#3, 4#3, 5#3, 6#3, 7#3] = l
  induction l generalizing s with
  | nil => exact .refl
  | cons g t ih => exact (h g s).trans (ih (f g s))

theorem reach_control (s : State) (b : Group) : Reach sci bar out s (s.control b) := by
  unfold State.control
  dsimp only
  split
  · exact reach_setDemandBit _ _ _
  · exact reach_forGroups _ _ fun g t => by split <;> first | exact .refl | exact reach_setDemandBit _ _ _
  · exact reach_forGroups _ _ fun g t => by split <;> first | exact .refl | exact reach_setDemandBit _ _ _
  · exact reach_forGroups _ _ fun g t => reach_setDemandBit _ _ _
  · exact .refl
  · exact reach_forGroups _ _ fun g t => by
      split
      · exact .refl
      · exact (reach_setDemandBit t g true).trans (reach_setBis _ _ _)
  · exact reach_forGroups _ _ fun g t => by
      split
      · exact (reach_setDemandBit t g true).trans (reach_setBis _ _ _)
      · exact .refl
  · exact reach_forGroups _ _ fun g t => reach_setBis _ _ _

theorem reach_controlled (s : State) (f : Mpc) : Reach sci bar out s (s.controlled f) := by
  unfold State.controlled
  dsimp only
  have h1 := (reach_control (sci := sci) (bar := bar) (out := out) s f.b).trans (reach_setBis _ s.cur f.seq)
  split
  · exact h1.trans (Reach.quiet rfl)
  · exact h1.trans (Reach.quiet rfl)

theorem reach_handing (s : State) (f : Mpc) (g : BitVec 3) : Reach sci bar out s (s.handing f g) := by
  unfold State.handing
  dsimp only
  split
  · exact ((reach_setDemandBit s g true).trans (reach_setBis _ g false)).trans (reach_setBis _ _ _)
  · exact ((reach_setDemandBit s g true).trans (reach_setBis _ g false)).trans (reach_setDemandBit _ _ _)

theorem kept_dropHeld (s : State) : s.dropHeld.kept = s.kept := rfl

theorem reach_zeroSpoiled (s : State) (l : Loc) : Reach sci bar out s (s.zeroSpoiled l) := by
  unfold State.zeroSpoiled
  split
  · exact (Reach.one (.scratch s 0 _ (Nat.zero_le _))).trans (Reach.quiet rfl)
  · exact .refl

theorem reach_startedTyping (s : State) (b : Bool) (g : Group) (w : MWord) : Reach sci bar out s (s.startedTyping b g w) :=
  ((Reach.one (.scratch s typewriterBuffer _ (Nat.le_refl _))).trans (Reach.quiet (kept_setOwner _ b _))).trans (Reach.quiet rfl)

theorem reach_multiple (s : State) (w : Nat → Word) (n : Nat) (hn : n ≤ 16) : Reach sci bar out s (s.multiple w n) :=
  (Reach.one (.scratch _ n _ (by unfold typewriterBuffer; omega))).trans (Reach.quiet rfl)

end Sys2Proof.Machine
end

