-- ==== Sys2Proof/Laws/Invariant.lean ====
section
/-! SUPPORT. The invariant under each change of the state, and under all that runs beside the processor: buffer cycles, the events of the
environment, traffic control. -/
namespace Sys2Proof.Machine

theorem State.Inv.of_eq {s t : State} (h : s.Inv) (hm : t.mem = s.mem) (hp : t.pcr = s.pcr) (hb : t.bar = s.bar)
    (hq : t.barParity = s.barParity) : t.Inv :=
  ⟨by rw [hm]; exact h.memory, by rw [hp]; exact h.unassigned, by rw [hb]; exact h.barLow, by rw [hb]; exact h.barHigh,
    by rw [hq, hb]; exact h.parity⟩

theorem State.Inv.of_kept {s t : State} (h : s.Inv) (e : t.kept = s.kept) : t.Inv :=
  h.of_eq (congrArg State.mem e :) (congrArg State.pcr e :) (congrArg State.bar e :) (congrArg State.barParity e :)

theorem State.Inv.putWord {s : State} (h : s.Inv) (a : Nat) (v : MWord) : (s.putWord a v).Inv :=
  ⟨Memory.setWord_wf h.memory a (if s.reserved a = true then s.freeMWord else v), h.unassigned, h.barLow, h.barHigh, h.parity⟩

theorem State.Inv.setReg {s : State} (h : s.Inv) (g : BitVec 3) (i : BitVec 5) (r : SReg) : (s.setReg g i r).Inv :=
  h.of_eq rfl rfl rfl rfl

theorem State.Inv.setPcrBit {s : State} (h : s.Inv) (k : Nat) (b : Bool) (hk : 9 ≤ k ∧ k ≤ 16 ∨ 21 ≤ k ∧ k ≤ 48) :
    (s.setPcrBit k b).Inv :=
  ⟨h.memory, by
    refine Eq.trans (bitAt_setBitAt s.pcr b (by omega) (by omega)) ?_
    rw [if_neg (by omega)]; exact h.unassigned, h.barLow, h.barHigh, h.parity⟩

theorem State.Inv.setCur {s : State} (h : s.Inv) (g : BitVec 3) : (s.setCur g).Inv :=
  ⟨h.memory, Eq.trans (bitAt_setFld (i := 18) (j := 20) s.pcr g (by omega) (by omega) (by omega)) h.unassigned, h.barLow,
    h.barHigh, h.parity⟩

theorem State.Inv.setErrorCode {s : State} (h : s.Inv) (c : BitVec 5) : (s.setErrorCode c).Inv :=
  ⟨h.memory, Eq.trans (bitAt_setFld (i := 4) (j := 8) s.pcr c (by omega) (by omega) (by omega)) h.unassigned, h.barLow,
    h.barHigh, h.parity⟩

theorem State.Inv.setFixedStart {s : State} (h : s.Inv) (v : BitVec 3) : (s.setFixedStart v).Inv :=
  ⟨h.memory, Eq.trans (bitAt_setFld (i := 1) (j := 3) s.pcr v (by omega) (by omega) (by omega)) h.unassigned, h.barLow,
    h.barHigh, h.parity⟩

/-- The parity bit is over bits 33 to 48: recording who violated the barricade leaves it. -/
theorem barParityBit_violator (b : BitVec 24) (g : BitVec 3) : barParityBit (setFld b 1 3 g) = barParityBit b := by
  unfold barParityBit
  refine List.foldl_ext _ _ _ fun p k hk => ?_
  rw [List.mem_range] at hk
  rw [getLsbD_setFld b 1 3 g k, if_neg (by omega)]

/-- Each elementary change of an instruction keeps the invariant. -/
theorem Prim.inv {sci bar out : Bool} {s t : State} (p : Prim sci bar out s t) (h : s.Inv) : t.Inv := by
  cases p with
  | quiet e => exact h.of_kept e
  | own i r => exact h.setReg _ i r
  | counter g i r _ => exact h.setReg g i r
  | reg g i r _ => exact h.setReg g i r
  | word a v _ _ => exact h.putWord a v
  | scratch a v _ => exact h.putWord a v
  | pcrBit k b hk => exact h.setPcrBit k b hk
  | errorCode c => exact h.setErrorCode c
  | fixedStart v => exact h.setFixedStart v
  | violator g =>
    exact ⟨h.memory, h.unassigned,
      Eq.trans (fld_setFld_other (i := 1) (j := 3) s.bar g (by omega) (by omega) (by omega)) h.barLow,
      Eq.trans (fld_setFld_other (i := 1) (j := 3) s.bar g (by omega) (by omega) (by omega)) h.barHigh,
      h.parity.trans (barParityBit_violator s.bar g).symm⟩
  | float _ e =>
    exact h.of_eq (congrArg State.mem e :) (congrArg State.pcr e :) (congrArg State.bar e :) (congrArg State.barParity e :)
  | load _ w hw =>
    refine ⟨h.memory, h.unassigned, ?_, ?_, rfl⟩
    · refine Eq.trans (fld_setFld_other (i := 17) (j := 24) _ _ (by omega) (by omega) (by omega)) ?_
      exact Eq.trans (fld_setFld_other (i := 9) (j := 13) s.bar _ (by omega) (by omega) (by omega)) h.barLow
    · refine Eq.trans (fld_setFld_other (i := 17) (j := 24) _ _ (by omega) (by omega) (by omega)) ?_
      exact Eq.trans (fld_setFld_other (i := 9) (j := 13) s.bar _ (by omega) (by omega) (by omega)) h.barHigh
  | between _ hi => exact hi h

theorem Reach.inv {sci bar out : Bool} {s t : State} (r : Reach sci bar out s t) (h : s.Inv) : t.Inv := by
  induction r with
  | refl => exact h
  | tail _ p ih => exact p.inv ih

/-! ### Beside the processor -/

theorem Reach.keeps {s t : State} (r : Reach false false false s t) (h : s.Inv) : t.Inv := r.inv h

theorem deliverInput_inv {s : State} (h : s.Inv) (ch : BitVec 3) (x : Xfer) (w : MWord) : (s.deliverInput ch x w).Inv := by
  unfold State.deliverInput
  split
  · rename_i e; exact Reach.keeps (reach_counterFails e) h
  · unfold State.storeInput
    dsimp only
    have h1 := Reach.keeps (reach_stepBuffer (s.putWord (s.reg ch racIx).full w) ch racIx (by decide)) (h.putWord _ _)
    split
    · exact Reach.keeps (reach_tableCycle _ _ _ _) h1
    · exact h1

theorem inputCycle_inv {s : State} (h : s.Inv) (ch : BitVec 3) (x : Xfer) : (s.inputCycle ch x).Inv := by
  have hc : ∀ u : State, u.Inv → (u.concludeInput ch).Inv := by
    intro u hu
    unfold State.concludeInput
    split
    · split
      · exact Reach.keeps (reach_endTransfer _ _ _) hu
      · exact hu.of_kept rfl
    · exact hu
  unfold State.inputCycle
  split
  · exact Reach.keeps (reach_endTransfer _ _ _) h
  · rename_i w rest _
    have ht : (s.takeWord ch x w rest).Inv := by
      unfold State.takeWord
      dsimp only
      split
      · exact h.of_kept rfl
      · exact h.of_kept rfl
    dsimp only
    apply hc
    split
    · exact deliverInput_inv ht _ _ _
    · exact ht

theorem bufferCycle_inv {s : State} (h : s.Inv) (d : Dir) (ch : BitVec 3) : (s.bufferCycle d ch).Inv := by
  cases d with
  | output => exact Reach.keeps (reach_outputBuffer s ch) h
  | input =>
    unfold State.bufferCycle
    dsimp only
    split
    · exact h.of_kept rfl
    · exact inputCycle_inv (h.of_kept (t := s.setDemand .input ch false) rfl) _ _

theorem overrun_inv {s : State} (h : s.Inv) (d : Dir) (ch : BitVec 3) : (s.overrun d ch).Inv := by
  unfold State.overrun
  split
  · exact h
  · dsimp only
    split
    · split
      · exact Reach.keeps (reach_endTransfer _ _ _) (h.of_kept rfl)
      · exact h.of_kept rfl
    · exact h.of_kept rfl

theorem typeNext_inv {s : State} (h : s.Inv) (b : Bool) (l : List Sym) : (s.typeNext b l).Inv := by
  have ho : ∀ (u : State) (x : Sym), u.Inv → (u.typeOut b x).Inv := by
    intro u x hu
    unfold State.typeOut
    split <;> exact hu.of_eq rfl rfl rfl rfl
  unfold State.typeNext
  split
  · exact h.of_kept (s := s) rfl
  · rename_i x rest
    dsimp only
    split <;> exact ((ho s x h).putWord _ _).of_eq rfl rfl rfl rfl

theorem typeChar_inv {s : State} (h : s.Inv) : s.typeChar.Inv := by
  unfold State.typeChar
  split
  · exact h
  · split
    · exact typeNext_inv h _ _
    · refine typeNext_inv ?_ _ _; exact h.of_eq rfl rfl rfl rfl

theorem demands_inv {s : State} (h : s.Inv) (l : List (Dir × BitVec 3)) :
    (l.foldl (fun t p => if (t.xfer p.1 p.2).isSome then t.setDemand p.1 p.2 true else t) s).Inv := by
  induction l generalizing s with
  | nil => exact h
  | cons p l ih =>
    rw [List.foldl_cons]
    apply ih
    split
    · exact h.of_kept rfl
    · exact h

theorem kept_outOfService (l : List (Dir × BitVec 3 × BitVec 3)) (s : State) :
    (l.foldl (fun t p => t.modifyDev p.1 p.2.1 p.2.2 fun v => { v with out := true }) s).kept = s.kept := by
  induction l generalizing s with
  | nil => rfl
  | cons p l ih => rw [List.foldl_cons, ih]; rfl

theorem applyEvent_inv {s : State} (h : s.Inv) (e : Event) : (s.applyEvent e).Inv := by
  cases e with
  | quiet => exact h
  | demands l => exact demands_inv h l
  | deviceDone d ch dev =>
    show (s.deviceDone d ch dev).Inv
    unfold State.deviceDone
    split
    · exact h
    · exact h.of_kept rfl
  | deviceError d ch dev =>
    show (s.deviceError d ch dev).Inv
    unfold State.deviceError
    split
    · exact h
    · split
      · split
        · exact h
        · exact h.of_kept rfl
      · split
        · exact h.of_kept rfl
        · exact h
  | overrun d ch => exact overrun_inv h d ch
  | typeChar => exact typeChar_inv h
  | console a => exact h.of_eq rfl rfl rfl rfl
  | setSwitch d ch dev p =>
    show (s.setSwitch d ch dev p).Inv
    unfold State.setSwitch
    split
    · exact h
    · exact h.of_kept rfl
  | mount d ch dev b a e p =>
    show (s.mount d ch dev b a e p).Inv
    unfold State.mount
    split
    · exact h
    · exact h.of_kept rfl
  | adjust d ch dev m o c =>
    show (s.adjust d ch dev m o c).Inv
    unfold State.adjust
    split
    · exact h
    · exact h.of_kept rfl
  | unlock d ch dev =>
    show (s.unlock d ch dev).Inv
    exact h.of_kept rfl
  | service d ch dev out =>
    show (s.service d ch dev out).Inv
    unfold State.service
    split
    · exact h.of_kept rfl
    · exact h.of_kept (Eq.trans rfl (kept_outOfService (Config.multiple s.cfg d ch dev) s))

theorem environment_inv {s : State} (h : s.Inv) : s.environment.Inv := by
  unfold State.environment
  split
  · exact h
  · refine applyEvent_inv ?_ _
    exact h.of_eq rfl rfl rfl rfl

theorem within_inv {s : State} (h : s.Inv) : s.within.Inv := by
  unfold State.within
  split
  · exact h
  · exact environment_inv h

theorem serve_inv {s : State} (h : s.Inv) (n : Nat) : (State.serve n s).Inv := by
  induction n generalizing s with
  | zero => exact h
  | succ n ih =>
    unfold State.serve
    split
    · exact h
    · split
      · exact ih (bufferCycle_inv (within_inv h) _ _)
      · exact within_inv h

theorem replay_inv {s : State} (h : s.Inv) (n : Nat) : (State.replay n s).Inv := by
  induction n generalizing s with
  | zero => exact h
  | succ n ih =>
    unfold State.replay
    split
    · exact h
    · split
      · exact ih (bufferCycle_inv (environment_inv h) _ _)
      · exact ih (environment_inv h)

theorem undone_inv {s : State} (h : s.Inv) (t : State) : (s.undone t).Inv := by
  unfold State.undone
  split
  · exact h.of_kept rfl
  · have h1 : ({ s with env := s.env.take (s.env.length - t.env.length), free := t.free } : State).Inv := h.of_eq rfl rfl rfl rfl
    exact (replay_inv h1 _).of_eq rfl rfl rfl rfl

end Sys2Proof.Machine
end

