-- ==== Sys2Proof/Laws/Between.lean ====
section
/-! SUPPORT. The invariant between instructions: the console and the selection of the next instruction keep it. -/
namespace Sys2Proof.Machine

theorem setDemandBit_inv {s : State} (h : s.Inv) (g : BitVec 3) (b : Bool) : (s.setDemandBit g b).Inv :=
  Reach.keeps (reach_setDemandBit s g b) h

theorem operated_inv {s : State} (h : s.Inv) (a : ConsoleAct) : (s.operated a).Inv := by
  cases a with
  | writeMem n w =>
    show (if s.exists? n then s.putWord n (MWord.good w) else s).Inv
    split
    · exact h.putWord _ _
    · exact h
  | typeMem n => exact h.of_eq rfl rfl rfl rfl
  | writeReg g i arr v => exact h.setReg _ _ _
  | typeReg g i => exact h.of_eq rfl rfl rfl rfl
  | on g => exact setDemandBit_inv h g true
  | off g => exact setDemandBit_inv h g false
  | source g q => exact h.setPcrBit _ _ (by omega)
  | fixedStart g key arr start =>
    have h1 : (((s.setReg g (Ctr.ix .sc) (SReg.mk' (s.cfg.extended && arr) true start.toNat)).setBis g false).setDemandBit g
        true).Inv := setDemandBit_inv ((h.setReg _ _ _).setPcrBit _ _ (by omega)) g true
    exact ⟨h1.memory, Eq.trans (bitAt_setFld (i := 37) (j := 40) _ key (by omega) (by omega) (by omega)) h1.unassigned, h1.barLow,
      h1.barHigh, h1.parity⟩
  | typeBarricade => exact h.of_eq rfl rfl rfl rfl

theorem console_inv {s : State} (h : s.Inv) (a : ConsoleAct) : (s.console a).Inv := by
  have h1 : (s.dropHeld.operated a).Inv := operated_inv (h.of_kept (t := s.dropHeld) rfl) a
  exact h1.of_eq rfl rfl rfl rfl

/-- The invariant of the state that a selection leaves. -/
def Selection.Inv : Selection → Prop
  | .next t => t.Inv
  | .run _ t => t.Inv

theorem extractionError_inv {s : State} (h : s.Inv) (c : BitVec 5) : (s.extractionError c).Inv := by
  unfold State.extractionError
  split
  · exact Reach.keeps (reach_turnOff _ _ _) h
  · split
    · exact Reach.keeps (reach_turnOff _ _ _) h
    · exact Reach.keeps (reach_halt _ _) h

theorem decoded_inv {s : State} (h : s.Inv) (w : Word) : (s.decoded w).Inv := by
  unfold State.decoded
  split
  · exact h
  · exact extractionError_inv h _

theorem flag_inv {s : State} (h : s.Inv) (c : BitVec 5) : (s.flag c).Inv := h.of_kept (flag_kept s c)

theorem extract_inv {s : State} (h : s.Inv) (w : MWord) : (s.extract w).Inv := by
  unfold State.extract
  split
  · exact Reach.keeps (reach_turnOff _ _ _) h
  · split
    · split
      · exact decoded_inv (flag_inv h _) _
      · exact extractionError_inv h _
    · exact decoded_inv h _

theorem latch_inv {s : State} (h : s.Inv) (c : Ctr) (x : SReg) : (s.latch c x).Inv := by
  unfold State.latch
  split
  · rename_i a u e
    have hu : u.Inv := by
      obtain ⟨n, rfl⟩ := stepCounter_left (t := u) (by rw [e]; rfl)
      exact h.of_kept rfl
    exact (hu.setReg u.cur c.ix a).of_eq rfl rfl rfl rfl
  · exact h

theorem selectFrom_inv {s : State} (h : s.Inv) (g : BitVec 3) : (s.selectFrom g).Inv := by
  unfold State.selectFrom
  have h1 : ({ s.setCur g with stalls := s.stalls.set g.toNat .running g.isLt } : State).Inv :=
    (h.setCur g).of_eq rfl rfl rfl rfl
  dsimp only
  split
  · exact Reach.keeps (reach_halt _ _) h1
  · split
    · exact extractionError_inv (latch_inv h1 _ _) _
    · exact extract_inv (latch_inv h1 _ _) _

theorem select_inv {s : State} (h : s.Inv) : s.select.Inv := by
  have hr : s.resumed.Inv := h.of_eq rfl rfl rfl rfl
  unfold State.select
  split
  · unfold State.selectEntry
    dsimp only
    split
    · refine extractionError_inv ?_ _; exact h.of_eq rfl rfl rfl rfl
    · refine extract_inv ?_ _; exact h.of_eq rfl rfl rfl rfl
  · split
    · exact selectFrom_inv h _
    · split
      · refine console_inv ?_ _; exact h.of_eq rfl rfl rfl rfl
      · split
        · exact hr
        · exact selectFrom_inv hr _

theorem settle_inv {s t : State} (h : t.Inv) : (State.settleLimited s t).Inv := by
  unfold State.settleLimited
  split
  · split
    · exact h.of_eq rfl rfl rfl rfl
    · exact h
  · exact h

end Sys2Proof.Machine
end

