-- ==== Sys2Proof/Laws/Peripheral.lean ====
section
/-! SUPPORT. The parts of a peripheral instruction (R404): the tests of its device, its counters, the start, and its end. -/
namespace Sys2Proof.Machine

theorem connected_of_kind {c : Config} {d : Dir} {ch dev : BitVec 3} {k : DevKind} (h : Config.kind c d ch dev = some k) :
    Config.connected c d ch = true := by
  unfold Config.kind at h
  unfold Config.connected
  split at h
  · rename_i t ht
    rw [List.any_eq_true]
    exact ⟨t, List.mem_of_find?_eq_some ht, List.find?_some (p := fun t : Attach => t.dir == d && t.ch == ch) ht⟩
  · exact nomatch h

theorem motion_run {i : Instr} {m : Motion} {f : Per} {s : State} (h : motionRow i = some (m, f)) :
    exec i s = perform (peripheralOp i m f) s := by
  cases i <;> simp only [motionRow, Option.some.injEq, Prod.mk.injEq, reduceCtorEq] at h <;> (obtain ⟨rfl, rfl⟩ := h; rfl)

/-- The state a peripheral instruction tests its device in. -/
def State.cleared (s : State) : State := s.begun.noAc.setFixedStart 0#3

theorem peripheral_run {i : Instr} {m : Motion} {f : Per} {k : DevKind} {s : State} (h : s.Available f m k) :
    peripheralOp i m f s = (if (s.dev m.dir f.ch f.dev).stored m.dir
        then deviceTransfer i 1 fun u => u.setDev m.dir f.ch f.dev ((s.dev m.dir f.ch f.dev).clearError m.dir)
      else if (s.dev m.dir f.ch f.dev).switch ≠ 0 then deviceTransfer i (s.dev m.dir f.ch f.dev).switch fun u => u.setDev m.dir f.ch
          f.dev { s.dev m.dir f.ch f.dev with switch := 0 }
      else moveOp i k m f) s.cleared := by
  have hcfg : s.cleared.cfg = s.cfg := rfl
  have hdev : s.cleared.dev m.dir f.ch f.dev = s.dev m.dir f.ch f.dev := rfl
  have hil : (bitAt s.cleared.pcr (interlockBit m.dir f.ch) && f.a != inactiveGroup) = false := by
    by_cases ha : f.a = inactiveGroup
    · simp [ha]
    · have := h.unlocked ha
      have e : bitAt s.cleared.pcr (interlockBit m.dir f.ch) = bitAt s.pcr (interlockBit m.dir f.ch) := by
        refine bitAt_setFld (i := 1) (j := 3) s.pcr 0#3 (by omega) ?_ ?_ <;> (unfold interlockBit; split <;> omega)
      rw [e, this]; rfl
  unfold peripheralOp begin noAc
  rw [Op.bind_ok (Op.update_run _ s), Op.bind_ok (Op.update_run _ _), Op.bind_ok (Op.update_run _ _), Op.bind_ok (Op.get_run _)]
  show (if Config.connected s.cleared.cfg m.dir f.ch = false then (_ : Op Unit) else _) s.cleared = _
  rw [hcfg, connected_of_kind h.kind, if_neg (by decide)]
  rw [show (s.begun.noAc.setFixedStart 0).cfg = s.cfg from rfl, h.kind]
  dsimp only
  rw [if_neg (by rw [h.able]; decide)]
  show (if (s.cleared.dev m.dir f.ch f.dev).unavailable _ m (f.a != inactiveGroup) || s.cleared.multipleBusy m.dir f.ch f.dev ||
    (bitAt s.cleared.pcr (interlockBit m.dir f.ch) && f.a != inactiveGroup) then (_ : Op Unit) else _) s.cleared = _
  rw [hdev, hil, h.unused, show s.cleared.multipleBusy m.dir f.ch f.dev = s.multipleBusy m.dir f.ch f.dev from rfl, h.alone]
  rfl

theorem indexReg_lt (x : Group) (i : BitVec 5) (hi : 28 ≤ i.toNat) : indexReg x ≠ i := by
  intro e
  have := congrArg BitVec.toNat e
  unfold indexReg at this
  rw [BitVec.toNat_ofNat] at this
  have := (fld x 2 4).isLt
  omega

theorem bufferIx_ge (d : Dir) : 28 ≤ (bufferIx d).toNat ∧ 28 ≤ (tableIx d).toNat := by cases d <;> decide

theorem plainAt_setReg (s : State) (x : Group) (g : BitVec 3) (i : BitVec 5) (r : SReg) (hi : 28 ≤ i.toNat) :
    (s.setReg g i r).plainAt x = s.plainAt x := by
  unfold State.plainAt
  rw [State.cur_setReg, State.reg_setReg_other s (fun e => indexReg_lt x i hi e.2) r]; rfl

theorem index_ok {x : Group} {s : State} (ht : (s.reg s.cur (indexReg x)).tag ≠ .bad) :
   index x s = .ok (((augment (s.reg s.cur (indexReg x)) (fld x 5 12).toNat).1, true,
       (augment (s.reg s.cur (indexReg x)) (fld x 5 12).toNat).2), s) := by
    unfold index
    rw [Op.bind_ok (Op.get_run _), Op.bind_ok (checkExplicit_good ht s)]; rfl

theorem bufferAddress_ok {x : Group} {m : Motion} {s : State} (h : s.plainOk x) : bufferAddress x m s =
    .ok ((s.bufferAt x m, true), s) := by
  unfold bufferAddress
  rw [Op.bind_ok (Op.get_run _)]
  by_cases hb : bitAt x 1 = true
  · obtain ⟨h1, h2⟩ := h hb
    rw [if_pos hb, Op.bind_ok (index_ok h1)]
    dsimp only
    rw [h2]
    unfold State.bufferAt State.plainAt
    rw [if_pos hb]; rfl
  · rw [if_neg hb]
    unfold State.bufferAt State.plainAt
    rw [if_neg hb]; rfl

theorem setCounter_ok {ch : BitVec 3} {i : BitVec 5} {x : Group} {m : Motion} {s : State} (h : s.plainOk x)
    (hb : s.barsMem (s.bufferAt x m).full = false) : setCounter ch i x m s = .ok (true, s.setReg ch i (s.bufferAt x m)) := by
  unfold setCounter
  rw [Op.bind_ok (bufferAddress_ok h), Op.bind_ok (Op.update_run _ _), Op.bind_ok (Op.get_run _)]
  dsimp only
  rw [if_neg (by rw [show (s.setReg ch i (s.bufferAt x m)).barsMem = s.barsMem from rfl, hb]; decide)]; rfl

theorem setCounters_ok {f : Per} {m : Motion} {s : State} (h : s.buffersOk f m) :
    setCounters f m s.cleared = .ok (true, s.prepared f m) := by
  obtain ⟨h1, h2, h3⟩ := h
  have hc : s.cleared.cur = s.cur := State.cur_setFixedStart s.begun.noAc 0#3
  have hreg : ∀ i, s.cleared.reg s.cur i = s.reg s.cur i := fun _ => rfl
  have pl : ∀ x, s.cleared.plainAt x = s.plainAt x := by
    intro x; unfold State.plainAt; rw [hc]; rfl
  have po : ∀ x, s.plainOk x → s.cleared.plainOk x := by
    intro x; unfold State.plainOk; rw [hc]; exact id
  have ba : ∀ x, s.cleared.bufferAt x m = s.bufferAt x m := by
    intro x; unfold State.bufferAt; rw [pl]
  have bm : ∀ a, s.cleared.barsMem a = s.barsMem a := by
    intro a; unfold State.barsMem; rw [hc]; rfl
  have hi := bufferIx_ge m.dir
  unfold setCounters
  rw [Op.bind_ok (setCounter_ok (po _ h1) (by rw [bm, ba]; exact h2))]
  unfold State.prepared
  by_cases hb : f.b = inactiveGroup
  · rw [if_pos hb, if_pos hb, ba]; rfl
  · obtain ⟨h4, h5⟩ := h3 hb
    rw [if_neg hb, if_neg hb]
    have p2 : (s.cleared.setReg f.ch (bufferIx m.dir) (s.cleared.bufferAt f.a m)).plainOk f.b := by
      have := po _ h4
      unfold State.plainOk at this ⊢
      rw [State.cur_setReg, State.reg_setReg_other _ (fun e => indexReg_lt f.b _ hi.1 e.2)]; exact this
    have b2 : (s.cleared.setReg f.ch (bufferIx m.dir) (s.cleared.bufferAt f.a m)).bufferAt f.b m = s.bufferAt f.b m := by
      unfold State.bufferAt; rw [plainAt_setReg _ _ _ _ _ hi.1, pl]
    rw [Op.bind_ok (setCounter_ok p2 (by rw [b2]; show s.cleared.barsMem _ = false; rw [bm]; exact h5)), b2, ba]; rfl

/-- The end of a peripheral instruction. -/
theorem concludePeripheral_run {f : Per} {s u : State} (ht : s.targetOk f.c) (hc : u.cur = s.cur) (hr : ∀ i :
    BitVec 5, i.toNat < 28 → u.reg s.cur i = s.reg s.cur i)
    (hs : u.sel = s.sel) (hl : u.ctl = s.ctl) : concludePeripheral f u = .ok ((), u.continued s f.c) := by
  have hix : ∀ x, u.reg u.cur (indexReg x) = s.reg s.cur (indexReg x) := by
    intro x; rw [hc]; apply hr
    unfold indexReg; rw [BitVec.toNat_ofNat]; have := (fld x 2 4).isLt; omega
  unfold concludePeripheral
  rw [Op.bind_ok (Op.get_run _)]
  unfold State.continued
  by_cases h : f.c = inactiveGroup
  · rw [if_pos h, h]
    unfold sequenceTarget
    rw [Op.bind_ok (a := none) (t := u) (by rw [Op.bind_ok (isInactive_inactive u)]; rfl)]; rfl
  · rw [if_neg h]
    have e : sequenceTarget f.c false u.sel u = .ok (some (s.plainTarget f.c), u) := by
      unfold sequenceTarget
      rw [Op.bind_ok (isInactive_active h _ _), if_neg (by decide), Op.bind_ok (Op.get_run _)]
      unfold State.plainTarget State.plainAt
      cases hb : bitAt f.c 1
      · dsimp only
        show Except.ok (some (u.direct f.c), u) = _
        have : u.direct f.c = s.direct f.c := by unfold State.direct; rw [hl]
        rw [this]
        have hd : SReg.mk' (s.direct f.c).arr true (s.direct f.c).addr = s.direct f.c := by
          unfold State.direct
          rw [SReg.mk'_addr _ _ (by have := (fld s.ctl.bits 2 5).isLt; have := (fld f.c 2 12).isLt; omega)]; rfl
        simp [hd, SReg.counted]; rfl
      · dsimp only
        rw [Op.bind_ok (index_ok (by rw [hix]; exact ht h hb)), hix]; rfl
    rw [Op.bind_ok e, hs]; rfl

theorem prepared_fields (s : State) (f : Per) (m : Motion) : (s.prepared f m).devs = s.devs ∧ (s.prepared f m).cfg = s.cfg ∧
    (s.prepared f m).xfers = s.xfers ∧ (s.prepared f m).pcr = s.cleared.pcr ∧ (s.prepared f m).mem = s.mem ∧ (s.prepared f m).sel = s.sel ∧
    (s.prepared f m).ctl = s.ctl ∧ (s.prepared f m).halted = s.halted ∧ (s.prepared f m).scan = s.scan := by
  unfold State.prepared
  dsimp only
  split <;> exact ⟨rfl, rfl, rfl, rfl, rfl, rfl, rfl, rfl, rfl⟩

theorem prepared_reg (s : State) (f : Per) (m : Motion) :
    (s.prepared f m).reg f.ch (bufferIx m.dir) = s.bufferAt f.a m ∧
    (f.b ≠ inactiveGroup → (s.prepared f m).reg f.ch (tableIx m.dir) = s.bufferAt f.b m) ∧
    (∀ h j, (h, j) ∉ [(f.ch, bufferIx m.dir)] ++ (if f.b = inactiveGroup then [] else [(f.ch, tableIx m.dir)]) →
      (s.prepared f m).reg h j = s.reg h j) := by
  have ne : bufferIx m.dir ≠ tableIx m.dir := by cases m <;> decide
  unfold State.prepared
  dsimp only
  by_cases hb : f.b = inactiveGroup
  · rw [if_pos hb, if_pos hb]
    refine ⟨State.reg_setReg_self _ _ _ _, fun h => absurd hb h, fun h j n => ?_⟩
    exact State.reg_setReg_other _ (by simpa using n) _
  · rw [if_neg hb, if_neg hb]
    refine ⟨?_, fun _ => State.reg_setReg_self _ _ _ _, fun h j n => ?_⟩
    · refine (State.reg_setReg_other _ (fun e => ne e.2) _).trans (State.reg_setReg_self _ _ _ _)
    · simp only [List.cons_append, List.nil_append, List.mem_cons, Prod.mk.injEq, List.not_mem_nil, or_false, not_or] at n
      exact (State.reg_setReg_other _ n.2 _).trans (State.reg_setReg_other _ n.1 _)

theorem dev_of {s t : State} (hd : t.devs = s.devs) (hc : t.cfg = s.cfg) (d : Dir) (ch dev : BitVec 3) :
    t.dev d ch dev = s.dev d ch dev := by
  unfold State.dev; simp only [hc, hd]

theorem startRead_run {f : Per} {k : DevKind} {m : Motion} {s : State} {v : Device} {r : Record} {rest : List Record} (hm : m ≠ .write)
    (hv : v = s.dev .input f.ch f.dev) (h1 : m = .forward → v.after = r :: rest) (h2 : m = .backward → v.before = r :: rest) :
    startDevice f k m s = .ok ((), s.started f k m
      (if m = .backward then v.moving (v.readBad k rest.length r) rest (r :: v.after) .read
        else v.moving (v.readBad k v.before.length r) (r :: v.before) rest .read)
      (if m = .backward then r.reverse else delivered k v r)) := by
  unfold startDevice
  rw [Op.bind_ok (Op.get_run _)]
  cases m with
  | write => exact absurd rfl hm
  | forward =>
    dsimp only [Motion.dir]
    rw [← hv]
    have e : forwardRecord v k s = .ok ((r, v.readBad k v.before.length r, rest), s) := by
      unfold forwardRecord; rw [h1 rfl]; rfl
    rw [Op.bind_ok e, if_neg (by decide), if_neg (by decide)]; rfl
  | backward =>
    dsimp only [Motion.dir]
    rw [← hv, h2 rfl, if_pos rfl, if_pos rfl]; rfl

theorem xfer_setXfer (s : State) (d e : Dir) (c h : BitVec 3) (x : Option Xfer) :
    (s.setXfer d c x).xfer e h = if e = d ∧ h = c then x else s.xfer e h := by
  unfold State.setXfer State.xfer
  by_cases hh : e = d ∧ h = c
  · rw [if_pos hh]; obtain ⟨rfl, rfl⟩ := hh; simp
  · rw [if_neg hh]
    simp only []
    rw [Vector.getElem_set_ne]
    intro k
    apply hh
    unfold chIx at k
    cases d <;> cases e <;> simp [dirNat] at k ⊢ <;> first | omega | (apply BitVec.eq_of_toNat_eq; omega)

theorem dev_setDev_self (s : State) (d : Dir) (c h : BitVec 3) (v : Device) : (s.setDev d c h v).dev d c h = v := by
  unfold State.setDev State.dev; simp

theorem pcr_started (s : State) (f : Per) (k : DevKind) (m : Motion) (v : Device) (w : List MWord) :
    (s.started f k m v w).pcr = setBitAt s.pcr (interlockBit m.dir f.ch) true := rfl

theorem interlock_bounds (d : Dir) (ch : BitVec 3) : 9 ≤ interlockBit d ch ∧ interlockBit d ch ≤ 48 ∧ ¬ (17 ≤ interlockBit d ch ∧
    interlockBit d ch ≤ 40) := by
  unfold interlockBit; cases d <;> dsimp only <;> omega

theorem bit_prep (s : State) (f : Per) (m : Motion) (n : Nat) (h : 4 ≤ n ∧ n ≤ 48) : bitAt (s.prepared f m).pcr n = bitAt s.pcr n := by
  rw [(prepared_fields s f m).2.2.2.1]
  exact bitAt_setFld (i := 1) (j := 3) s.pcr 0#3 (by omega) (by omega) (by omega)

theorem fld_prep (s : State) (f : Per) (m : Motion) : fld (s.prepared f m).pcr 1 3 = 0#3 := by
  rw [(prepared_fields s f m).2.2.2.1]
  exact fld_setFld_self (i := 1) (j := 3) s.pcr 0#3 (by omega) (by omega)

theorem started_cur (s : State) (f : Per) (k : DevKind) (m : Motion) (v : Device) (w : List MWord) :
    ((s.prepared f m).started f k m v w).cur = s.cur := by
  have b := interlock_bounds m.dir f.ch
  have e : ((s.prepared f m).started f k m v w).cur = (s.prepared f m).cur := by
    refine State.cur_setPcrBit (((s.prepared f m).setDev m.dir f.ch f.dev v).setXfer m.dir f.ch _) _ (by omega) (by omega)
  rw [e]; unfold State.cur
  rw [(prepared_fields s f m).2.2.2.1]
  exact State.cur_setFixedStart s.begun.noAc 0#3

/-- What the end of a peripheral instruction leaves alone. -/
theorem continued_frame (u s : State) (x : Group) (hc : u.cur = s.cur) :
    (u.continued s x).scan = none ∧ (u.continued s x).mem = u.mem ∧ (u.continued s x).devs = u.devs ∧ (u.continued s x).cfg = u.cfg ∧
    (u.continued s x).xfers = u.xfers ∧
    (∀ n, 1 ≤ n → n ≤ 48 → n ≠ 21 + s.cur.toNat → bitAt (u.continued s x).pcr n = bitAt u.pcr n) ∧
    (∀ h j, (h, j) ∉ s.continuers x → (u.continued s x).reg h j = u.reg h j) := by
  unfold State.continued State.continuers
  by_cases h : x = inactiveGroup
  · rw [if_pos h, if_pos h]
    exact ⟨rfl, rfl, rfl, rfl, rfl, fun _ _ _ _ => rfl, fun _ _ _ => rfl⟩
  · rw [if_neg h, if_neg h]
    refine ⟨rfl, rfl, rfl, rfl, rfl, ?_, ?_⟩
    · intro n h1 h2 h3
      have := s.cur.isLt
      show bitAt (setBitAt u.pcr (21 + u.cur.toNat) _) n = _
      rw [hc]
      rw [bitAt_setBitAt _ _ (by omega) (by omega), if_neg h3]
    · intro g j hn
      simp only [List.mem_cons, Prod.mk.injEq, List.not_mem_nil, or_false, not_or] at hn
      unfold State.jumped
      refine (State.reg_setReg_other (u.historied s.sel) ?_ _).trans (State.reg_setReg_other u ?_ _)
      · rw [hc]; exact hn.1
      · rw [hc]; exact hn.2

theorem started_fields (s : State) (f : Per) (k : DevKind) (m : Motion) (v : Device) (w : List MWord) :
    (s.started f k m v w).regs = s.regs ∧ (s.started f k m v w).mem = s.mem ∧ (s.started f k m v w).sel = s.sel ∧
    (s.started f k m v w).ctl = s.ctl ∧ (s.started f k m v w).cfg = s.cfg ∧
        (s.started f k m v w).halted = s.halted := ⟨rfl, rfl, rfl, rfl, rfl, rfl⟩

theorem started_xfer (s : State) (f : Per) (k : DevKind) (m : Motion) (v : Device) (w : List MWord) (d : Dir) (h : BitVec 3) :
    (s.started f k m v w).xfer d h = if d = m.dir ∧ h = f.ch then some (Xfer.start f k m w) else s.xfer d h :=
  xfer_setXfer (s.setDev m.dir f.ch f.dev v) m.dir d f.ch h _

theorem started_dev (s : State) (f : Per) (k : DevKind) (m : Motion) (v : Device) (w : List MWord) :
    (s.started f k m v w).dev m.dir f.ch f.dev = v := dev_setDev_self s m.dir f.ch f.dev v

/-- A stall (R408) of a group with no limited error to come. -/
theorem stall_run (w : Stall) (u s : State) (hc : u.cur = s.cur) (hs : u.sel = s.sel) (hb : u.byUtr = false) (hl :
    u.limited = none) (hctl : u.ctl = s.ctl)
    (hst : u.stalls = s.stalls) (hso : u.stallOrder = s.stallOrder) (hr : u.regs = s.regs) (hm : u.mem = s.mem) (hd : u.devs = s.devs) (hx : u.xfers = s.xfers)
    (hp : ∀ n, 4 ≤ n → n ≤ 48 → bitAt u.pcr n = bitAt s.pcr n) :
    ∃ t, stall w u = .ok ((), t) ∧ Stalls s t w ∧ t.pcr = u.pcr := by
  have e : ∀ f g n, (({ u with free := n } : State).backed f g) = ({ u with free := n } : State).setReg u.cur u.sel.ix u.ctl := by
    intro f g n
    unfold State.backed
    rw [if_neg (by show ¬ u.byUtr = true; rw [hb]; decide)]; rfl
  have e2 : stall w u = .ok ((), ((({ u with free := u.free + 1 + 1 } : State).setReg u.cur u.sel.ix u.ctl).waits w)) := by
    unfold stall
    rw [Op.bind_ok (Op.fresh_run _), Op.bind_ok (Op.fresh_run _), Op.update_run]
    rw [e]
  refine ⟨_, e2, ?_, ?_⟩
  · unfold State.waits
    rw [show (({ u with free := u.free + 1 + 1 } : State).setReg u.cur u.sel.ix u.ctl).limited = none from hl]
    refine ⟨?_, ?_, ?_, ?_, hp, ⟨hd, hx⟩, ⟨?_, fun _ _ => by rw [← hm]; rfl⟩⟩
    · rw [← hc, ← hs, ← hctl]
      exact State.reg_setReg_self ({ u with free := u.free + 1 + 1 } : State) u.cur u.sel.ix u.ctl
    · show u.stalls.set u.cur.toNat w u.cur.isLt = _
      simp only [hst, hc]
    · intro hw
      show (if w = Stall.io then u.stallOrder.filter (· != u.cur) ++ [u.cur] else u.stallOrder) = _
      rw [if_pos hw, hso, hc]
    · show some (u.cur + 1) = _
      rw [hc]
    · intro h j n
      refine (State.reg_setReg_other ({ u with free := u.free + 1 + 1 } : State) (h := u.cur) (j := u.sel.ix) ?_ u.ctl).trans ?_
      · rw [hc, hs]; simpa using n
      · exact State.reg_of_regs (s := s) hr h j
  · unfold State.waits
    rw [show (({ u with free := u.free + 1 + 1 } : State).setReg u.cur u.sel.ix u.ctl).limited = none from hl]; rfl

theorem cleared_bits (s : State) (n : Nat) (h1 : 4 ≤ n) (h2 : n ≤ 48) : bitAt s.cleared.pcr n = bitAt s.pcr n :=
  bitAt_setFld (i := 1) (j := 3) s.pcr 0#3 (by omega) (by omega) (by omega)

theorem cleared_low (s : State) : fld s.cleared.pcr 1 3 = 0#3 := fld_setFld_self (i := 1) (j := 3) s.pcr 0#3 (by omega) (by omega)

theorem cleared_cur (s : State) : s.cleared.cur = s.cur := State.cur_setFixedStart s.begun.noAc 0#3

end Sys2Proof.Machine
end

