-- ==== Sys2Proof/Laws/Transfer.lean ====
section
/-! SUPPORT. The transfer and decision instructions run; chains of transfers; what a sequence change leaves. -/
namespace Sys2Proof.Machine

theorem transfer_run {i : Instr} {f : Form} {s : State} (h : transferRow i = some f) : exec i s = perform (transferOp i f) s := by
  cases i <;> simp only [transferRow, Option.some.injEq, reduceCtorEq] at h <;> (obtain rfl := h; rfl)

theorem sequence_run {i : Instr} {f : Form} {s : State} (h : sequenceRow i = some f) : exec i s = perform (transferJumpOp i f) s := by
  cases i <;> simp only [sequenceRow, Option.some.injEq, reduceCtorEq] at h <;> (obtain rfl := h; rfl)

theorem passes_noAc (s : State) : Passes s s.noAc [] [] := Passes.quiet rfl rfl rfl rfl

/-- The word of a transfer delivered. -/
theorem deliverCopy_admitted {s : State} {m : Option MWord} {l : Loc} (hq : s.env = []) (h : s.admits l)
    (ho : m.isSome = true → MWord.bad (s.contents l) = false) {w : MWord} (hw : MWord.bad w = false) :
    deliverCopy m l w s = .ok (false, s.stored l (MWord.good (merged m (s.contents l) w.bits))) := by
  cases m with
  | none =>
    unfold deliverCopy
    dsimp only
    rw [Op.bind_ok (store_admitted hq h _)]
    show _ = Except.ok (false, s.stored l (MWord.good w.bits))
    rw [good_of_not_bad hw]; rfl
  | some m => exact deliver_admitted hq h ho _

theorem jumped_ix (s : State) (c : Ctr) (q : SReg) : (s.jumped c q).reg s.cur c.ix = q :=
  State.reg_setReg_self _ _ _ _

theorem jumped_hist (s : State) (c : Ctr) (q : SReg) : (s.jumped c q).reg s.cur c.hist = { s.reg s.cur s.sel.ix with tag := .good } :=
  (State.reg_setReg_other (s.historied c) (fun h => absurd h.2 (by cases c <;> decide)) _).trans (State.reg_setReg_self s s.cur c.hist _)

theorem mem_sequenced (s : State) (b : Bool) (q : Option SReg) : (s.sequenced b q).mem = s.mem := by cases q <;> rfl

theorem scan_sequenced (s : State) (b : Bool) (q : Option SReg) : (s.sequenced b q).scan = none := by cases q <;> rfl

/-- A chain of passes. -/
theorem passes_chain {σ : Nat → State} {R : Nat → List (BitVec 3 × BitVec 5)} {W : Nat → List Nat} {n : Nat}
    (h : ∀ k, k < n → Passes (σ k) (σ (k + 1)) (R k) (W k)) :
    ∀ m, m ≤ n → (σ m).pcr = (σ 0).pcr ∧ (σ m).outside = (σ 0).outside ∧
      (∀ g i, (∀ k, k < m → (g, i) ∉ R k) → (σ m).reg g i = (σ 0).reg g i) ∧
      (∀ b, (∀ k, k < m → b / 8 ∉ W k) → (σ m).mem.byte b = (σ 0).mem.byte b) := by
  intro m
  induction m with
  | zero => exact fun _ => ⟨rfl, rfl, fun _ _ _ => rfl, fun _ _ => rfl⟩
  | succ m ih =>
    intro hm
    obtain ⟨i1, i2, i3, i4⟩ := ih (by omega)
    have p := h m (by omega)
    exact ⟨p.pcr.trans i1, p.outside.trans i2,
      fun g i hn => (p.frame.regs g i (hn m (by omega))).trans (i3 g i fun k hk => hn k (by omega)),
      fun b hn => (p.frame.bytes b (hn m (by omega))).trans (i4 b fun k hk => hn k (by omega))⟩

theorem wf_stored {s : State} (h : s.mem.wf = true) (l : Loc) (v : MWord) : (s.stored l v).mem.wf = true := by
  cases l with
  | mem a => exact Memory.setWord_wf h _ _
  | _ => exact h

theorem word_stored_other {s : State} {l : Loc} {a : Nat} (h : l ≠ .mem a) (v : MWord) : (s.stored l v).mem.word a = s.mem.word a := by
  cases l with
  | mem b => exact State.word_putWord_other s (fun e => h (by rw [e])) v
  | _ => rfl

/-- An arithmetic control counter loaded from an address group. -/
theorem steps_auInit {x : Group} {d : Bool} {v : Option (Bool × SReg)} {s t : State} (h : auInit x d s = .ok (v, t)) :
    Steps s t (s.named x d) := by
  unfold auInit at h
  by_cases hx : x = inactiveGroup
  · subst hx
    cases d with
    | false => rw [Op.bind_ok (isInactive_inactive s), if_pos rfl] at h; cases h; exact .refl _ _
    | true => rw [Op.bind_error (e := .refuse .inactiveWithDesignator) rfl] at h; cases h
  · rw [Op.bind_ok (isInactive_active hx d s), if_neg (by decide), Op.bind_ok (Op.get_run s)] at h
    have hn : (true && x != inactiveGroup) = true := by simp [hx]
    cases d <;> cases hb : bitAt x 1 <;> simp only [hb] at h
    · cases h; exact .refl _ _
    · rw [Op.bind_run] at h
      split at h
      · rename_i e; cases h; exact (steps_index e).mono (by simp)
      · cases h
    · unfold State.named
      rw [hn, if_pos rfl, hb]
      split at h
      · rw [Op.bind_run] at h
        split at h
        · rename_i e
          rw [Op.bind_run] at h
          split at h
          · rename_i e'; cases h
            exact ((steps_checkExplicit e).trans (steps_stepRegister e')).mono (by simp)
          · cases h
        · cases h
      · cases h; exact .refl _ _
    · rw [Op.bind_run] at h
      split at h
      · rename_i v' u e
        have hv := index_value e
        unfold State.named
        rw [hn, if_pos rfl, if_pos hb]
        dsimp only
        rw [← hv]
        split at h
        · cases h; exact (steps_index e).mono (by simp)
        · split at h
          · rw [Op.bind_run] at h
            split at h
            · rename_i e1
              rw [Op.bind_run] at h
              split at h
              · rename_i e2; cases h
                exact ((steps_index e).trans ((steps_checkExplicit e1).trans (steps_stepRegister e2))).mono (by simp)
              · cases h
            · cases h
          · cases h; exact (steps_index e).mono (by simp)
      · cases h

/-- The location an arithmetic control counter names. -/
theorem steps_auLoc {k : Bool} {i : BitVec 5} {l : Loc} {s t : State} (h : auLoc k i s = .ok (l, t)) :
    Steps s t (s.auNamed k i) ∧ (∀ p ∈ l.regs, p ∈ s.auNamed k i) := by
  unfold auLoc at h
  rw [Op.bind_ok (Op.get_run s), Op.bind_run] at h
  split at h
  · rename_i b u e
    have q := steps_checkImplicit e
    unfold State.auNamed
    split at h
    · cases h; exact ⟨q.mono (by simp), by simp [Loc.regs]⟩
    · split at h
      · rename_i hk; rw [if_pos hk]
        obtain ⟨h1, h2⟩ := steps_registerLoc h
        exact ⟨(q.trans h1).mono (by simp), by simpa using h2⟩
      · cases h; exact ⟨q.mono (by simp), by simp [Loc.regs]⟩
  · cases h

/-- The word of a reference changes nothing but the count of free values. -/
theorem referred_free {o : Bool} {w v : MWord} {s t : State} (h : referred o w s = .ok (v, t)) : ∃ n, t = { s with free := n } := by
  unfold referred at h
  cases o with
  | true => cases h; exact ⟨s.free + 2, rfl⟩
  | false => cases h; exact ⟨s.free, rfl⟩

theorem steps_referred {o : Bool} {w v : MWord} {s t : State} (h : referred o w s = .ok (v, t)) : Steps s t [] := by
  obtain ⟨n, rfl⟩ := referred_free h
  exact ⟨fun _ _ _ => rfl, rfl⟩

/-- Reading by an arithmetic control counter changes only the register it names. -/
theorem steps_auRead {k : Bool} {i : BitVec 5} {w : MWord} {s t : State} (hq : s.env = []) (h : auRead k i s = .ok (w, t)) :
    Steps s t (s.auNamed k i) := by
  unfold auRead at h
  rw [Op.bind_ok (Op.get_run s), Op.bind_run] at h
  split at h
  · rename_i l u e
    obtain ⟨q, hl⟩ := steps_auLoc e
    rw [Op.bind_run] at h
    split at h
    · rename_i x v e'
      have r := steps_fetch (q.env.trans hq) e'
      exact ((q.trans r).trans (steps_referred h)).mono fun p hp => by
        simp only [List.mem_append, List.not_mem_nil, or_false] at hp
        exact hp.elim id (hl p)
    · cases h
  · cases h

theorem stepCounter_free {b : Bool} {r q : SReg} {s t : State} (h : stepCounter b r s = .ok (q, t)) : ∃ n, t = { s with free := n } := by
  unfold stepCounter at h
  rw [Op.bind_ok (Op.get_run s)] at h
  split at h
  · split at h <;> (cases h; exact ⟨s.free, rfl⟩)
  · split at h
    · split at h <;> (cases h; exact ⟨s.free, rfl⟩)
    · rw [Op.bind_run] at h
      split at h
      · rename_i e; cases h; exact stepBy_free e
      · cases h

/-- An arithmetic control counter stepped. -/
theorem steps_nextAu {i : BitVec 5} {s t : State} (h : nextAu i s = .ok ((), t)) : Steps s t [(s.cur, i)] := by
  unfold nextAu at h
  rw [Op.bind_ok (Op.get_run s), Op.bind_run] at h
  split at h
  · rename_i r u e
    obtain ⟨n, rfl⟩ := stepCounter_free e
    cases h
    refine ⟨fun g' i' hn => Eq.trans (State.reg_setReg_other _ ?_ _) rfl, rfl⟩
    exact fun e => hn (by rw [List.mem_singleton]; exact Prod.ext e.1 e.2)
  · cases h

theorem loadCounters_run {f : Gen} {s u v : State} {ra rc : Bool} {a c : SReg} (h1 : auInit f.a f.dA s = .ok (some (ra, a), u))
    (h2 : auInit f.c f.dC (u.setReg s.cur au1 a) = .ok (some (rc, c), v)) :
    loadCounters f s = .ok ((ra, rc), v.setReg s.cur au2 c) := by
  have e1 := (steps_auInit h1).cur
  have e2 : v.cur = s.cur := (steps_auInit h2).cur.trans e1
  unfold loadCounters
  rw [Op.bind_ok h1]
  dsimp only
  unfold loadAu
  rw [Op.bind_ok (Op.update_run _ u)]
  rw [e1, Op.bind_ok h2]
  dsimp only
  rw [Op.bind_ok (Op.update_run _ v), e2]; rfl

theorem auLoc_mem {i : BitVec 5} {s : State} (h : (s.reg s.cur i).tag = .good) : auLoc false i s = .ok (.mem (s.reg s.cur i).full, s) := by
  unfold auLoc
  rw [Op.bind_ok (Op.get_run s), Op.bind_ok (checkImplicit_good h s)]; rfl

theorem decision_run {i : Instr} {c : Word → Word → Bool} {f : Form} {s : State} (h : decisionRow i = some (c, f)) :
    exec i s = perform (decisionOp i c f) s := by
  cases i <;> simp only [decisionRow, Option.some.injEq, Prod.mk.injEq, reduceCtorEq] at h <;> (obtain ⟨rfl, rfl⟩ := h; rfl)

theorem check_run {i : Instr} {f : Form} {s : State} (h : checkRow i = some f) : exec i s = perform (checkParityOp i f) s := by
  cases i <;> simp only [checkRow, Option.some.injEq, reduceCtorEq] at h <;> (obtain rfl := h; rfl)

theorem passes_decided (s : State) : Passes s s.decided [] [] := Passes.quiet rfl rfl rfl rfl

/-- The end of a decision whose condition is not met, C inactive or not. -/
theorem concludeJump_notMet {i : Instr} {seq : Bool} {c : Group} {d : Bool} {s : State} (h : c = inactiveGroup → d = false) :
    concludeJump i seq c d false false true s = .ok ((), s.ended seq (c != inactiveGroup)) := by
  unfold concludeJump
  by_cases hc : c = inactiveGroup
  · subst hc; rw [h rfl, Op.bind_ok (isInactive_inactive s), if_pos rfl]; rfl
  · rw [Op.bind_ok (isInactive_active hc d s), if_neg (by decide), if_neg (by decide), if_neg (by decide)]
    have : (c != inactiveGroup) = true := by simp [hc]
    rw [this]; rfl

/-- A decision up to its end. -/
theorem decision_start {i : Instr} {cond : Word → Word → Bool} {f : Form} {s s1 s2 : State} {a b : MWord}
    (hq : s.env = []) (hd : f.designated = true) (ha : f.a ≠ inactiveGroup) (hb : f.b ≠ inactiveGroup) (hm : s.begun.decided.maskReady f.mask)
    (hra : readOperand f.a f.dA (s.begun.decided.masking f.mask) = .ok (a, s1)) (hrb : readOperand f.b f.dB s1 = .ok (b, s2)) :
    decisionOp i cond f s = concludeJump i f.seq f.c f.dC
      (cond (gate (s.maskWord f.mask) a.bits) (gate (s.maskWord f.mask) b.bits)) (MWord.bad a || MWord.bad b) true s2 := by
  unfold decisionOp leaveDelivered
  have hb' : maskBad (s.maskWord f.mask) = false := maskBad_ready (s := s.begun.decided) hm
  have hmw : s.begun.decided.maskWord f.mask = s.maskWord f.mask := rfl
  rw [Op.bind_ok (beginForm_run hd s), Op.bind_ok (needActive_active ha _ _), Op.bind_ok (needActive_active hb _ _),
    Op.bind_ok (Op.update_run _ _), Op.bind_ok (maskOf_ready (s := s.begun.decided) hq hm), Op.bind_ok hra, Op.bind_ok hrb, hmw, hb', Bool.false_or]

end Sys2Proof.Machine
end

