-- ==== Sys2Proof/Laws/Control.lean ====
section
/-! SUPPORT. The control program instruction: the bits of the program control register each function writes (R470). -/
namespace Sys2Proof.Machine

/-- The demand bits after one is written. -/
theorem inDemand_setDemandBit (s : State) (g h : BitVec 3) (b : Bool) :
    (s.setDemandBit g b).inDemand h = if h = g then b else s.inDemand h := by
  refine (bitAt_setBitAt s.pcr b (by omega) (by omega)).trans ?_
  by_cases e : h = g
  · subst e; simp
  · have : h.toNat ≠ g.toNat := fun c => e (BitVec.eq_of_toNat_eq c)
    rw [if_neg (by omega), if_neg e]; rfl

theorem bis_setDemandBit (s : State) (g h : BitVec 3) (b : Bool) : (s.setDemandBit g b).bis h = s.bis h := by
  refine (bitAt_setBitAt s.pcr b (by omega) (by omega)).trans ?_
  rw [if_neg (by omega)]; rfl

theorem bis_setBis (s : State) (g h : BitVec 3) (b : Bool) : (s.setBis g b).bis h = if h = g then b else s.bis h := by
  refine (bitAt_setBitAt s.pcr b (by omega) (by omega)).trans ?_
  by_cases e : h = g
  · subst e; simp
  · have : h.toNat ≠ g.toNat := fun c => e (BitVec.eq_of_toNat_eq c)
    rw [if_neg (by omega), if_neg e]; rfl

theorem inDemand_setBis (s : State) (g h : BitVec 3) (b : Bool) : (s.setBis g b).inDemand h = s.inDemand h := by
  refine (bitAt_setBitAt s.pcr b (by omega) (by omega)).trans ?_
  rw [if_neg (by omega)]; rfl

theorem bitAt_setDemandBit (s : State) (g : BitVec 3) (b : Bool) {n : Nat} (h : 1 ≤ n ∧ n ≤ 48) (hn : n < 21 ∨ 36 < n) :
    bitAt (s.setDemandBit g b).pcr n = bitAt s.pcr n := by
  refine (bitAt_setBitAt s.pcr b (by omega) h).trans ?_
  rw [if_neg (by omega)]

theorem bitAt_setBis (s : State) (g : BitVec 3) (b : Bool) {n : Nat} (h : 1 ≤ n ∧ n ≤ 48) (hn : n < 21 ∨ 36 < n) :
    bitAt (s.setBis g b).pcr n = bitAt s.pcr n := by
  refine (bitAt_setBitAt s.pcr b (by omega) h).trans ?_
  rw [if_neg (by omega)]

theorem group_cases (h : BitVec 3) : h = 0#3 ∨ h = 1#3 ∨ h = 2#3 ∨ h = 3#3 ∨ h = 4#3 ∨ h = 5#3 ∨ h = 6#3 ∨ h = 7#3 := by
  revert h; decide

/-- A change made for each group in turn. -/
theorem forGroups_bits {f : BitVec 3 → State → State} {D B : BitVec 3 → Bool → Bool}
    (hd : ∀ g t h, (f g t).inDemand h = if h = g then D h (t.inDemand h) else t.inDemand h)
    (hb : ∀ g t h, (f g t).bis h = if h = g then B h (t.bis h) else t.bis h)
    (ho : ∀ g t n, 1 ≤ n ∧ n ≤ 48 → (n < 21 ∨ 36 < n) → bitAt (f g t).pcr n = bitAt t.pcr n)
    (he : ∀ g t, ∃ p o, f g t = { t with pcr := p, stallOrder := o }) (s : State) :
    (∀ h, (s.forGroups f).inDemand h = D h (s.inDemand h)) ∧ (∀ h, (s.forGroups f).bis h = B h (s.bis h)) ∧
    (∀ n, 1 ≤ n ∧ n ≤ 48 → (n < 21 ∨ 36 < n) → bitAt (s.forGroups f).pcr n = bitAt s.pcr n) ∧
    (∃ p o, s.forGroups f = { s with pcr := p, stallOrder := o }) := by
  unfold State.forGroups
  refine ⟨?_, ?_, ?_, ?_⟩
  · intro h
    simp only [List.foldl_cons, List.foldl_nil, hd]
    rcases group_cases h with rfl | rfl | rfl | rfl | rfl | rfl | rfl | rfl <;> rfl
  · intro h
    simp only [List.foldl_cons, List.foldl_nil, hb]
    rcases group_cases h with rfl | rfl | rfl | rfl | rfl | rfl | rfl | rfl <;> rfl
  · intro n h1 h2
    simp only [List.foldl_cons, List.foldl_nil, ho _ _ n h1 h2]
  · generalize [0#3, 1#3, 2#3, 3#3, 4#3, 5#3, 6#3, 7#3] = l
    induction l generalizing s with
    | nil => exact ⟨s.pcr, s.stallOrder, rfl⟩
    | cons g l ih =>
      obtain ⟨p, o, e⟩ := ih (f g s)
      obtain ⟨q, o', e'⟩ := he g s
      rw [List.foldl_cons, e, e']; exact ⟨p, o, rfl⟩

/-- Figure XII-2 (R470). -/
theorem control_bits (s : State) (b : Group) (hb : bitAt b 1 = false) :
    (∀ h, (s.control b).inDemand h = demandAfter (fld b 1 4).toNat (controlBit b h) (h == s.cur) (s.inDemand h)) ∧
    (∀ h, (s.control b).bis h = bisequenceAfter (fld b 1 4).toNat (controlBit b h) (s.bis h)) ∧
    (∀ n, 1 ≤ n ∧ n ≤ 48 → (n < 21 ∨ 36 < n) → bitAt (s.control b).pcr n = bitAt s.pcr n) ∧
    (∃ p o, s.control b = { s with pcr := p, stallOrder := o }) := by
  have hlt : (fld b 1 4).toNat < 8 := by
    have : (fld b 1 4).getLsbD 3 = false := by
      unfold fld; rw [BitVec.getLsbD_extractLsb']; simpa [bitAt] using hb
    generalize (fld b 1 4) = x at this
    have hx : x.toNat < 16 := x.isLt
    by_contra hc
    have : x.getLsbD 3 = true := by
      rw [BitVec.getLsbD_eq_getElem (by omega), BitVec.getElem_eq_testBit_toNat, Nat.testBit_eq_decide_div_mod_eq]
      simp; omega
    simp_all
  have hpd : ∀ (t : State) (g : BitVec 3) (x : Bool), ∃ p o, t.setDemandBit g x = { t with pcr := p, stallOrder := o } :=
    fun t g x => ⟨_, _, rfl⟩
  have hpb : ∀ (t : State) (g : BitVec 3) (x : Bool), ∃ p o, t.setBis g x = { t with pcr := p, stallOrder := o } :=
    fun t g x => ⟨_, t.stallOrder, rfl⟩
  have hpp : ∀ (t : State) (g : BitVec 3) (x y : Bool), ∃ p o, (t.setDemandBit g x).setBis g y = { t with pcr := p, stallOrder := o } :=
    fun t g x y => ⟨_, _, rfl⟩
  unfold State.control
  generalize (fld b 1 4).toNat = c at hlt
  have : c = 0 ∨ c = 1 ∨ c = 2 ∨ c = 3 ∨ c = 4 ∨ c = 5 ∨ c = 6 ∨ c = 7 := by omega
  rcases this with rfl | rfl | rfl | rfl | rfl | rfl | rfl | rfl <;> dsimp only
  · refine ⟨fun h => (inDemand_setDemandBit s s.cur h false).trans ?_, fun h => bis_setDemandBit s s.cur h false,
      fun n h1 h2 => bitAt_setDemandBit s s.cur false h1 h2, hpd s s.cur false⟩
    unfold demandAfter; by_cases e : h = s.cur <;> simp [e]
  · obtain ⟨a1, a2, a3, a4⟩ := forGroups_bits (f := fun g t => if controlBit b g then t else t.setDemandBit g false)
      (D := fun g d => d && controlBit b g) (B := fun _ x => x)
      (fun g t h => by by_cases e : h = g <;> by_cases v : controlBit b g <;> simp [e, v, inDemand_setDemandBit])
      (fun g t h => by by_cases v : controlBit b g <;> simp [v, bis_setDemandBit])
      (fun g t n h1 h2 => by by_cases v : controlBit b g <;> simp [v, bitAt_setDemandBit _ _ _ h1 h2])
      (fun g t => by by_cases v : controlBit b g
                     · simp only [v, if_true]; exact ⟨t.pcr, t.stallOrder, rfl⟩
                     · simp only [v]; exact hpd _ _ _) s
    exact ⟨a1, a2, a3, a4⟩
  · obtain ⟨a1, a2, a3, a4⟩ := forGroups_bits (f := fun g t => if controlBit b g then t.setDemandBit g true else t)
      (D := fun g d => d || controlBit b g) (B := fun _ x => x)
      (fun g t h => by by_cases e : h = g <;> by_cases v : controlBit b g <;> simp [e, v, inDemand_setDemandBit])
      (fun g t h => by by_cases v : controlBit b g <;> simp [v, bis_setDemandBit])
      (fun g t n h1 h2 => by by_cases v : controlBit b g <;> simp [v, bitAt_setDemandBit _ _ _ h1 h2])
      (fun g t => by by_cases v : controlBit b g
                     · simp only [v, if_true]; exact hpd _ _ _
                     · simp only [v]; exact ⟨t.pcr, t.stallOrder, rfl⟩) s
    exact ⟨a1, a2, a3, a4⟩
  · obtain ⟨a1, a2, a3, a4⟩ := forGroups_bits (f := fun g t => t.setDemandBit g (controlBit b g))
      (D := fun g _ => controlBit b g) (B := fun _ x => x)
      (fun g t h => by by_cases e : h = g <;> simp [e, inDemand_setDemandBit])
      (fun g t h => by simp [bis_setDemandBit])
      (fun g t n h1 h2 => bitAt_setDemandBit _ _ _ h1 h2)
      (fun g t => hpd _ _ _) s
    exact ⟨a1, a2, a3, a4⟩
  · exact ⟨fun _ => rfl, fun _ => rfl, fun _ _ _ => rfl, ⟨s.pcr, s.stallOrder, rfl⟩⟩
  · obtain ⟨a1, a2, a3, a4⟩ := forGroups_bits (f := fun g t => if controlBit b g then t else (t.setDemandBit g true).setBis g false)
      (D := fun g d => d || !controlBit b g) (B := fun g x => x && controlBit b g)
      (fun g t h => by by_cases e : h = g <;> by_cases v : controlBit b g <;> simp [e, v, inDemand_setDemandBit, inDemand_setBis])
      (fun g t h => by by_cases e : h = g <;> by_cases v : controlBit b g <;> simp [e, v, bis_setDemandBit, bis_setBis])
      (fun g t n h1 h2 => by by_cases v : controlBit b g <;> simp [v, bitAt_setDemandBit _ _ _ h1 h2, bitAt_setBis _ _ _ h1 h2])
      (fun g t => by by_cases v : controlBit b g
                     · simp only [v, if_true]; exact ⟨t.pcr, t.stallOrder, rfl⟩
                     · simp only [v]; exact hpp _ _ _ _) s
    exact ⟨a1, a2, a3, a4⟩
  · obtain ⟨a1, a2, a3, a4⟩ := forGroups_bits (f := fun g t => if controlBit b g then (t.setDemandBit g true).setBis g true else t)
      (D := fun g d => d || controlBit b g) (B := fun g x => x || controlBit b g)
      (fun g t h => by by_cases e : h = g <;> by_cases v : controlBit b g <;> simp [e, v, inDemand_setDemandBit, inDemand_setBis])
      (fun g t h => by by_cases e : h = g <;> by_cases v : controlBit b g <;> simp [e, v, bis_setDemandBit, bis_setBis])
      (fun g t n h1 h2 => by by_cases v : controlBit b g <;> simp [v, bitAt_setDemandBit _ _ _ h1 h2, bitAt_setBis _ _ _ h1 h2])
      (fun g t => by by_cases v : controlBit b g
                     · simp only [v, if_true]; exact hpp _ _ _ _
                     · simp only [v]; exact ⟨t.pcr, t.stallOrder, rfl⟩) s
    exact ⟨a1, a2, a3, a4⟩
  · obtain ⟨a1, a2, a3, a4⟩ := forGroups_bits (f := fun g t => t.setBis g (controlBit b g))
      (D := fun _ d => d) (B := fun g _ => controlBit b g)
      (fun g t h => by simp [inDemand_setBis])
      (fun g t h => by by_cases e : h = g <;> simp [e, bis_setBis])
      (fun g t n h1 h2 => bitAt_setBis _ _ _ h1 h2)
      (fun g t => hpb _ _ _) s
    exact ⟨a1, a2, a3, a4⟩
/-- The program control register delivered. -/
theorem deliverControl_run {f : Mpc} {s u : State} {words : List Nat} (hq : s.env = []) (hd : s.controlDelivered f u words) (hw : s.mem.wf = true) :
    isInactive f.c f.dC s.begun = .ok (f.c == inactiveGroup, s.begun) ∧
    deliverControl f (f.c == inactiveGroup) s.begun = .ok ((), u) ∧ Passes s u (s.named f.c f.dC) words ∧
    (∀ a, a ∈ words → u.reserved a = false → u.mem.word a = MWord.good s.pcr) ∧
    (words = [] → u.ac = s.pcr ∧ u.lop = s.pcr ∧ u.lopHeld = true ∧ u.acState = .held .unsigned) := by
  rcases hd with ⟨h1, h2, h3, h4⟩ | ⟨h1, a, v, h2, h3, h4, h5⟩
  · subst h4
    rw [h1, h2]
    refine ⟨rfl, ?_, ?_, by simp, fun _ => ?_⟩
    · rw [h3]; rfl
    · rw [h3]; exact Passes.quiet rfl rfl rfl rfl
    · rw [h3]; exact ⟨rfl, rfl, rfl, rfl⟩
  · subst h5
    have hb : (f.c == inactiveGroup) = false := by simp [h1]
    rw [hb]
    have hp : Passes s (s.begun.noAc) [] [] := (passes_begun s).trans (passes_noAc _)
    obtain ⟨p, g1, _⟩ := stored_located (v := MWord.good s.pcr) hp hw h2
    refine ⟨isInactive_active h1 _ _, ?_, ?_, ?_, ?_⟩
    · unfold deliverControl writeResult noAc
      rw [Op.bind_ok (Op.get_run _), if_neg (by decide), Op.bind_ok (Op.update_run _ _), Op.bind_ok h2]
      have := store_admitted ((steps_locate h2).1.env.trans hq) h3 (MWord.good s.pcr)
      rw [h4]; exact this
    · rw [h4]; exact p
    · intro b hb hy; rw [List.mem_singleton] at hb; subst hb; rw [h4] at hy ⊢; exact g1 hy
    · intro e; exact absurd e (by simp)

/-- A main memory address as a counter changes nothing but the bookkeeping. -/
theorem steps_plainAddress {x : Group} {r : SReg} {s t : State} (h : plainAddress x s = .ok (r, t)) :
    Steps s t [] ∧ (bitAt x 1 = false → r = s.direct x) := by
  unfold plainAddress at h
  rw [Op.bind_ok (Op.get_run s)] at h
  split at h
  · rename_i hb
    rw [Op.bind_run] at h
    split at h
    · rename_i e; cases h
      exact ⟨steps_index e, fun hb' => by rw [hb] at hb'; cases hb'⟩
    · cases h
  · cases h; exact ⟨.refl _ _, fun _ => rfl⟩

/-- The counter of an orthocount reloaded from its table (R495). -/
theorem steps_reloadCounter {r : Bool} {s t : State} (hq : s.env = []) (h : reloadCounter r s = .ok ((), t)) :
    Steps s t (s.auNamed r au2 ++ [(s.cur, au1), (s.cur, au2)]) := by
  unfold reloadCounter loadAu at h
  rw [Op.bind_run] at h
  split at h
  · rename_i w v e
    rw [Op.bind_ok (Op.get_run v), Op.bind_ok (Op.update_run _ v)] at h
    have q1 := steps_auRead hq e
    rw [q1.cur] at h
    have q3 : Steps v (v.setReg s.cur au1 (v.toSr (MWord.good w.bits))) [(s.cur, au1)] :=
      ⟨fun g i n => State.reg_setReg_other v (by simpa using n) _, rfl⟩
    have q4 := steps_nextAu h
    rw [State.cur_setReg, q1.cur] at q4
    exact (q1.trans (q3.trans q4)).mono fun p hp => by simpa using hp
  · cases h

end Sys2Proof.Machine
end

