-- ==== Sys2Proof/Laws/Select.lean ====
section
/-! SUPPORT. The selection of an instruction (R32, R630) where the machine is to select one. -/
namespace Sys2Proof.Machine

theorem environment_quiet {s : State} (h : s.env = []) : s.environment = s := by unfold State.environment; rw [h]

/-- A step in which no event, demand or table entry is due selects. -/
theorem step_select {s q : State} {g : BitVec 3} {c : Ctr} {r : SReg} (h : s.Selects q g c r) : step s = match q.selectFrom g with
    | .next t => .next t
    | .run i t => runSelected i t := by
  unfold step
  rw [if_neg (by rw [h.running]; decide), environment_quiet h.noEvent, h.noDemand]
  dsimp only
  unfold cpuStep State.select
  rw [h.noEntry]
  dsimp only
  rcases h.chosen with ⟨h1, h2, h3⟩ | ⟨h1, k, h2, h3, h4⟩
  · rw [h1, h2, h3]
    all_goals (dsimp only; cases s.selectFrom s.cur <;> rfl)
  · rw [h2]; dsimp only; rw [h4, h3]
    rcases h1 with h1 | h1
    · rw [h1]; cases s.consoleServed <;> dsimp only <;> cases s.resumed.selectFrom g <;> rfl
    · rw [h1] <;> dsimp only <;> cases s.resumed.selectFrom g <;> rfl

/-- Choosing the group changes only what the hunt forgets. -/
theorem selects_same {s q : State} {g : BitVec 3} {c : Ctr} {r : SReg} (h : s.Selects q g c r) :
    q = { s with firstOn := q.firstOn, consoleServed := q.consoleServed } := by
  rcases h.chosen with ⟨h1, h2, h3⟩ | ⟨h1, k, h2, h3, h4⟩
  · rw [h3]
  · rw [h4]; rfl

/-- The state in which group `g` is about to select. -/
def State.chosen (q : State) (g : BitVec 3) : State := { q.setCur g with stalls := q.stalls.set g.toNat .running g.isLt }

theorem bis_setCur (s : State) (g h : BitVec 3) : (s.setCur g).bis h = s.bis h :=
  bitAt_setFld (i := 18) (j := 20) s.pcr g (by omega) (by omega) (by omega)

/-- What selecting does. -/
theorem selectFrom_eq {s q : State} {g : BitVec 3} {c : Ctr} {r : SReg} (h : s.Selects q g c r) : q.selectFrom g =
    (if r.tag.fatal = true ∨ (r.sign = false ∧ r.addr = 0) then .next ((q.chosen g).halt 0b00011#5)
    else if r.tag.astray = true ∨ s.exists? r.full = false then .next (((q.chosen g).latch c r).extractionError 0b00001#5)
    else ((q.chosen g).latch c r).extract (s.mem.word r.full)) := by
  have hq := selects_same h
  have hc : (q.chosen g).counterOf g = c := by
    rw [h.counter]; unfold State.counterOf
    have : (q.chosen g).bis g = s.bis g := by
      refine Eq.trans (bis_setCur q g g) ?_
      rw [hq]; rfl
    rw [this]
  have hr : (q.chosen g).reg g c.ix = r := by rw [h.contents]; rw [hq]; rfl
  have e1 : (q.chosen g).exists? r.full = s.exists? r.full := by rw [hq]; rfl
  have e2 : (q.chosen g).mem = s.mem := by rw [hq]; rfl
  have e : q.selectFrom g = (fun c' r' => (if r'.tag.fatal = true ∨ (r'.sign = false ∧
      r'.addr = 0) then Selection.next ((q.chosen g).halt 0b00011#5)
    else if r'.tag.astray = true ∨ (q.chosen g).exists? r'.full = false
        then Selection.next (((q.chosen g).latch c' r').extractionError 0b00001#5)
    else ((q.chosen g).latch c' r').extract ((q.chosen g).mem.word r'.full))) ((q.chosen g).counterOf g) ((q.chosen g).reg g
        ((q.chosen g).counterOf g).ix) := rfl
  rw [e, hc, hr, ← e1, ← e2]

/-- The step of a counter always answers, and takes at most free values. -/
theorem stepCounter_ok (b : Bool) (r : SReg) (s : State) : ∃ q n, stepCounter b r s = .ok (q, { s with free := n }) := by
  have hb : ∀ r k, ∃ q n, stepBy r k s = .ok (q, { s with free := n }) := by
    intro r k
    unfold stepBy
    split <;> split <;> first | exact ⟨_, s.free, rfl⟩ | exact ⟨_, s.free + 1, rfl⟩
  unfold stepCounter
  rw [Op.bind_ok (Op.get_run _)]
  split
  · split <;> exact ⟨_, s.free, rfl⟩
  · split
    · split <;> exact ⟨_, s.free, rfl⟩
    · obtain ⟨q, n, e⟩ := hb r 1
      rw [Op.bind_ok e]; exact ⟨_, n, rfl⟩

/-- What the latch of a counter leaves. -/
theorem latch_eq (u : State) (c : Ctr) (r : SReg) : ∃ q n, stepCounter true r u = .ok (q, { u with free := n }) ∧
    u.latch c r = { ({ u with free := n } : State).setReg ({ u with free := n } :
        State).cur c.ix q with sel := c, ctl := r, byUtr := false, scan := none } := by
  obtain ⟨q, n, e⟩ := stepCounter_ok true r u
  refine ⟨q, n, e, ?_⟩
  unfold State.latch
  generalize ({ u with free := n } : State) = v at e ⊢
  rw [e]


theorem chosen_eq {s q : State} {g : BitVec 3} {c : Ctr} {r : SReg} (h : s.Selects q g c r) :
    ∃ x y z w, q.chosen g = { s with pcr := x, stalls := y, firstOn := z, consoleServed := w } ∧ x = setFld s.pcr 18 20 g ∧
    y = s.stalls.set g.toNat .running g.isLt := by
  have hq := selects_same h
  refine ⟨_, _, q.firstOn, q.consoleServed, ?_, rfl, rfl⟩
  unfold State.chosen
  rw [hq]; rfl

/-- Nothing but the record of the selection has changed. -/
theorem rest_eq (s : State) (x : Word) (y z w) (g : BitVec 3) (i : BitVec 5) (q : SReg) (n : Nat) (c : Ctr) (r : SReg) (b : State)
  (hb : b = { s with pcr := x, stalls := y, firstOn := z, consoleServed := w }) :
    { ({ ({ b with free := n } : State).setReg g i q with sel := c, ctl := r, byUtr := false, scan := none } : State) with
        pcr := s.pcr, regs := s.regs, stalls := s.stalls, scan := s.scan, sel := s.sel, ctl := s.ctl, byUtr := s.byUtr,
        free := s.free, firstOn := s.firstOn, consoleServed := s.consoleServed } = s := by
  subst hb; rfl

/-! ### What a control error leaves (R621, R666) -/

@[simp] theorem State.turnOff_mem (s : State) (g : BitVec 3) (c : BitVec 5) : (s.turnOff g c).mem = s.mem := by
  unfold State.turnOff State.setErrorCode State.setDemandBit State.setPcrBit State.dropHeld State.intervened State.begun; with_reducible rfl
@[simp] theorem State.turnOff_regs (s : State) (g : BitVec 3) (c : BitVec 5) : (s.turnOff g c).regs = s.regs := by
  unfold State.turnOff State.setErrorCode State.setDemandBit State.setPcrBit State.dropHeld State.intervened State.begun; with_reducible rfl
@[simp] theorem State.turnOff_halted (s : State) (g : BitVec 3) (c : BitVec 5) : (s.turnOff g c).halted = s.halted := by
  unfold State.turnOff State.setErrorCode State.setDemandBit State.setPcrBit State.dropHeld State.intervened State.begun; with_reducible rfl
@[simp] theorem State.turnOff_scan (s : State) (g : BitVec 3) (c : BitVec 5) : (s.turnOff g c).scan = some (g + 1) := by
  unfold State.turnOff; with_reducible rfl
@[simp] theorem State.turnOff_bar (s : State) (g : BitVec 3) (c : BitVec 5) : (s.turnOff g c).bar = setFld s.bar 1 3 g := rfl
@[simp] theorem State.turnOff_pcr (s : State) (g : BitVec 3) (c : BitVec 5) :
    (s.turnOff g c).pcr = setFld (setBitAt s.pcr (29 + g.toNat) false) 4 8 c := by
  unfold State.turnOff State.setErrorCode State.setDemandBit State.setPcrBit State.dropHeld State.intervened State.begun; with_reducible rfl

theorem turnOff_inDemand (s : State) (g h : BitVec 3) (c : BitVec 5) :
    (s.turnOff g c).inDemand h = if h = g then false else s.inDemand h := by
  rw [← inDemand_setDemandBit s g h false]
  unfold State.inDemand
  rw [State.turnOff_pcr]
  exact bitAt_setFld (i := 4) (j := 8) (setBitAt s.pcr (29 + g.toNat) false) c (by omega) (by omega) (by omega)

/-- The control error stop ends the transfers and displays the code, and changes no memory. -/
theorem halt_fields (s : State) (c : BitVec 5) :
    (s.halt c).pcr = (s.setErrorCode c).pcr ∧ (s.halt c).mem = s.mem ∧ (s.halt c).regs = s.regs ∧ (s.halt c).halted = true := by
  have one : ∀ (t : State) d ch, (t.closeChannel d ch).pcr = t.pcr ∧ (t.closeChannel d ch).mem = t.mem ∧ (t.closeChannel d ch).regs = t.regs ∧
      (t.closeChannel d ch).halted = t.halted := by
    intro t d ch; unfold State.closeChannel; split
    · exact ⟨rfl, rfl, rfl, rfl⟩
    · dsimp only; split <;> exact ⟨rfl, rfl, rfl, rfl⟩
  have key : ∀ (l : List (BitVec 3)) (t u : State), u = l.foldl (fun t ch => (t.closeChannel .input ch).closeChannel .output ch) t →
      u.pcr = t.pcr ∧ u.mem = t.mem ∧ u.regs = t.regs ∧ u.halted = t.halted := by
    intro l
    induction l with
    | nil => intro t u e; rw [e]; exact ⟨rfl, rfl, rfl, rfl⟩
    | cons a l ih =>
      intro t u e
      obtain ⟨i1, i2, i3, i4⟩ := ih _ u e
      obtain ⟨a1, a2, a3, a4⟩ := one t .input a
      obtain ⟨b1, b2, b3, b4⟩ := one (t.closeChannel .input a) .output a
      exact ⟨i1.trans (b1.trans a1), i2.trans (b2.trans a2), i3.trans (b3.trans a3), i4.trans (b4.trans a4)⟩
  exact key _ { s.setErrorCode c with halted := true } _ rfl

end Sys2Proof.Machine
end

