-- ==== Sys2Proof/Laws/Buffer.lean ====
section
/-! SUPPORT. The parts of a buffer cycle (R102, R410, R411, R412): the counters, the item change, the end of a transfer. -/
namespace Sys2Proof.Machine

/-- Stepping a buffer counter writes that register and the free count only. -/
theorem stepBuffer_eq (s : State) (h : BitVec 3) (i : BitVec 5) : ∃ q n, s.stepBuffer h i = ({ s with free := n } : State).setReg h i q := by
  obtain ⟨q, n, e⟩ := stepCounter_ok false (s.reg h i) s
  unfold State.stepBuffer
  rw [e]; exact ⟨q, n, rfl⟩

/-- A good counter off its stopper is stepped in the direction of its sign. -/
theorem stepBuffer_good {s : State} {h : BitVec 3} {i : BitVec 5} {q : SReg} (hr : s.reg h i = q) (ht : q.tag = .good) (hs : s.atStopper q = false)
    (hin : if q.sign then q.addr + 1 < 32768 else 0 < q.addr) :
    s.stepBuffer h i = s.setReg h i (q.withAddr (if q.sign then q.addr + 1 else q.addr - 1)) := by
  unfold State.atStopper at hs
  simp only [Bool.or_eq_false_iff, decide_eq_false_iff_not] at hs
  have e : stepCounter false q s = .ok (q.withAddr (if q.sign then q.addr + 1 else q.addr - 1), s) := by
    unfold stepCounter
    rw [Op.bind_ok (Op.get_run s), if_neg hs.1, if_neg (by rw [hs.2]; decide)]
    unfold stepBy
    have ha : ¬ (q.tag.astray = true) := by rw [ht]; decide
    cases hsg : q.sign
    · rw [hsg] at hin
      rw [if_neg (by decide), if_pos (by simp at hin; omega), Op.bind_ok (Op.pure_run _ s), if_neg (fun h => ha h.1)]; rfl
    · rw [hsg] at hin
      rw [if_pos rfl, if_pos (by simpa using hin), Op.bind_ok (Op.pure_run _ s), if_neg (fun h => ha h.1)]; rfl
  unfold State.stepBuffer
  rw [hr, e]

/-- A good counter at an address that exists does not fail. -/
theorem counterFails_good {s : State} {d ch x} {r : SReg} (ht : r.tag = .good) (he : s.exists? r.full = true) : s.counterFails d ch x r = none := by
  unfold State.counterFails
  rw [ht, if_neg (by decide), if_neg (by rw [he]; decide)]

/-- A buffer counter is not its distributed counter. -/
theorem buffer_ne (d : Dir) : bufferIx d ≠ tableIx d := by cases d <;> decide

/-- The second cycle of a distributed transfer (R102): the counter from the table word, and the table counter stepped. -/
theorem tableCycle_good {u : State} {d : Dir} {ch : BitVec 3} {x : Xfer} {q : SReg} {v : MWord} (hq : u.reg ch (tableIx d) = q) (ht : q.tag = .good)
    (he : u.exists? q.full = true) (hs : u.atStopper q = false) (hin : if q.sign then q.addr + 1 < 32768 else 0 < q.addr)
    (hv : u.mem.word q.full = v) (hb : MWord.bad v = false) :
    u.tableCycle d ch x = (u.setReg ch (bufferIx d) (u.tableReg v.bits)).setReg ch (tableIx d)
      (q.withAddr (if q.sign then q.addr + 1 else q.addr - 1)) := by
  unfold State.tableCycle
  dsimp only
  rw [hq, counterFails_good ht he]
  dsimp only
  rw [hv, hb, if_neg (by simp), if_neg (by simp)]
  refine stepBuffer_good ((State.reg_setReg_other u ?_ _).trans hq) ht hs hin
  rintro ⟨_, e⟩; exact buffer_ne d e.symm

/-- A word of good parity taken from an input device. -/
theorem takeWord_good (s : State) (ch : BitVec 3) (x : Xfer) {w : MWord} (rest : List MWord) (h : MWord.bad w = false) :
    s.takeWord ch x w rest = s.setXfer .input ch (some { x with todo := rest, first := false }) := by
  unfold State.takeWord
  rw [h, if_neg (by decide), Bool.or_false]

/-- What replacing the counter leaves. -/
theorem reloaded_fields {u : State} {d : Dir} {ch : BitVec 3} {y : Xfer} {q : SReg} {v : MWord} (hq : u.reg ch (tableIx d) = q) (ht : q.tag = .good)
    (he : u.exists? q.full = true) (hs : u.atStopper q = false) (hin : if q.sign then q.addr + 1 < 32768 else 0 < q.addr)
    (hv : u.mem.word q.full = v) (hb : MWord.bad v = false) :
    ∃ C, u.tableCycle d ch y = C ∧ C.reg ch (bufferIx d) = u.tableReg v.bits ∧
      C.reg ch (tableIx d) = q.withAddr (if q.sign then q.addr + 1 else q.addr - 1) ∧
      (∀ g j, (g, j) ∉ [(ch, bufferIx d), (ch, tableIx d)] → C.reg g j = u.reg g j) ∧
      ∃ R, C = { u with regs := R } := by
  refine ⟨_, tableCycle_good hq ht he hs hin hv hb, ?_, State.reg_setReg_self _ _ _ _, ?_, _, rfl⟩
  · rw [State.reg_setReg, if_neg, State.reg_setReg_self]
    rintro ⟨_, e⟩; exact buffer_ne d e
  · intro g j n
    simp only [List.mem_cons, Prod.mk.injEq, List.not_mem_nil, or_false, not_or] at n
    rw [State.reg_setReg, if_neg, State.reg_setReg, if_neg]
    · rintro ⟨rfl, rfl⟩; exact n.1 ⟨rfl, rfl⟩
    · rintro ⟨rfl, rfl⟩; exact n.2 ⟨rfl, rfl⟩

/-- A word that ends an item stored, and the counter replaced (R410). -/
theorem storeInput_reload {u : State} {ch : BitVec 3} {y : Xfer} {r q : SReg} {w v : MWord} (hr : u.reg ch racIx = r) (hq : u.reg ch dracIx = q)
    (hrel : (y.distributed && isEoi w.bits && !(y.backward && y.first)) = true) (ht : q.tag = .good)
    (he : u.exists? q.full = true) (hs : u.atStopper q = false) (hin : if q.sign then q.addr + 1 < 32768 else 0 < q.addr)
    (hv : (u.putWord r.full w).mem.word q.full = v) (hb : MWord.bad v = false) :
    ∃ C, u.storeInput ch y w = C ∧ C.reg ch racIx = u.tableReg v.bits ∧
      C.reg ch dracIx = q.withAddr (if q.sign then q.addr + 1 else q.addr - 1) ∧
      (∀ g j, (g, j) ∉ [(ch, racIx), (ch, dracIx)] → C.reg g j = u.reg g j) ∧
      ∃ R n, C = { u.putWord r.full w with regs := R, free := n } := by
  obtain ⟨z, n, hA⟩ := stepBuffer_eq (u.putWord r.full w) ch racIx
  have hAq : ((u.putWord r.full w).stepBuffer ch racIx).reg ch dracIx = q := by
    rw [hA, State.reg_setReg, if_neg]
    · exact hq
    · rintro ⟨_, e⟩; exact absurd e (by decide)
  have hAm : ((u.putWord r.full w).stepBuffer ch racIx).mem = (u.putWord r.full w).mem := by rw [hA]; rfl
  have hAe : ∀ a, ((u.putWord r.full w).stepBuffer ch racIx).exists? a = u.exists? a := by intro a; rw [hA]; rfl
  have hAs : ∀ a, ((u.putWord r.full w).stepBuffer ch racIx).atStopper a = u.atStopper a := by intro a; rw [hA]; rfl
  have hAt : ((u.putWord r.full w).stepBuffer ch racIx).tableReg v.bits = u.tableReg v.bits := by rw [hA]; rfl
  obtain ⟨C, h1, h2, h3, h4, R, h5⟩ := reloaded_fields (d := .input) (y := y) hAq ht (by rw [hAe]; exact he) (by rw [hAs]; exact hs) hin
    (by rw [hAm]; exact hv) hb
  refine ⟨C, ?_, by rw [← hAt]; exact h2, h3, ?_, R, n, ?_⟩
  · unfold State.storeInput
    rw [hr]
    dsimp only
    rw [if_pos hrel]; exact h1
  · intro g j hn
    rw [h4 g j hn, hA, State.reg_setReg, if_neg]
    · rfl
    · rintro ⟨rfl, rfl⟩; exact hn (by simp)
  · rw [h5, hA]; rfl

/-- The sign and the address of a counter taken from a table word (R42). -/
theorem tableReg_fields (s : State) (w : Word) : (s.tableReg w).sign = bitAt w 33 ∧ (s.tableReg w).addr = (fld w 34 48).toNat := by
  constructor
  · unfold State.tableReg SReg.sign bitAt fld; simp
  · unfold State.tableReg SReg.addr fld
    congr 1
    ext k hk
    simp

@[simp] theorem State.endTransfer_mem (s : State) (d : Dir) (ch : BitVec 3) : (s.endTransfer d ch).mem = s.mem := by
  unfold State.endTransfer State.release State.setPcrBit State.setDemand State.setXfer; with_reducible rfl

@[simp] theorem State.endTransfer_typing (s : State) (d : Dir) (ch : BitVec 3) : (s.endTransfer d ch).typing = s.typing := by
  unfold State.endTransfer State.release State.setPcrBit State.setDemand State.setXfer; with_reducible rfl

@[simp] theorem State.endTransfer_regs (s : State) (d : Dir) (ch : BitVec 3) : (s.endTransfer d ch).regs = s.regs := by
  unfold State.endTransfer State.release State.setPcrBit State.setDemand State.setXfer; with_reducible rfl

@[simp] theorem State.endTransfer_pcr (s : State) (d : Dir) (ch : BitVec 3) : (s.endTransfer d ch).pcr = setBitAt s.pcr (interlockBit d ch) false := by
  unfold State.endTransfer State.release State.setPcrBit State.setDemand State.setXfer; with_reducible rfl

@[simp] theorem State.endTransfer_xfers (s : State) (d : Dir) (ch : BitVec 3) : (s.endTransfer d ch).xfers = (s.setXfer d ch none).xfers := by
  unfold State.endTransfer State.release State.setPcrBit State.setDemand; with_reducible rfl

@[simp] theorem State.reg_endTransfer (s : State) (d : Dir) (ch g : BitVec 3) (j : BitVec 5) : (s.endTransfer d ch).reg g j = s.reg g j := by
  unfold State.reg; rw [State.endTransfer_regs]

end Sys2Proof.Machine
end

