-- ==== Sys2Proof/Laws/Float.lean ====
section
/-! SUPPORT. The parts of a scientific instruction (R523, R524): its operands, the delivery of its result, and what they leave alone. -/
namespace Sys2Proof.Machine

/-- Outside, but for the floating registers. -/
structure FloatPasses (s t : State) (r : List (BitVec 3 × BitVec 5)) (w : List Nat) : Prop where
  pcr : t.pcr = s.pcr
  outside : t.outside = { s.outside with
    flac := t.flac, flop := t.flop, flacOvf := t.flacOvf, flacUnf := t.flacUnf, flacFixed := t.flacFixed, fpuGroup := t.fpuGroup }
  frame : Frame s t r w

theorem FloatPasses.of_passes {s t : State} {r w} (h : Passes s t r w) : FloatPasses s t r w :=
  ⟨h.pcr, by
    have e := h.outside
    rw [e]
    have a1 : t.flac = s.flac := (congrArg State.flac e :)
    have a2 : t.flop = s.flop := (congrArg State.flop e :)
    have a3 : t.flacOvf = s.flacOvf := (congrArg State.flacOvf e :)
    have a4 : t.flacUnf = s.flacUnf := (congrArg State.flacUnf e :)
    have a5 : t.flacFixed = s.flacFixed := (congrArg State.flacFixed e :)
    have a6 : t.fpuGroup = s.fpuGroup := (congrArg State.fpuGroup e :)
    rw [a1, a2, a3, a4, a5, a6]; rfl, h.frame⟩

theorem FloatPasses.trans {s t u : State} {r r' w w'} (h : FloatPasses s t r w) (h' : FloatPasses t u r' w') :
    FloatPasses s u (r ++ r') (w ++ w') :=
  ⟨by rw [h'.pcr, h.pcr], by rw [h'.outside, h.outside], h.frame.trans h'.frame⟩

theorem FloatPasses.mono {s t : State} {r r' w w'} (h : FloatPasses s t r w) (hr : r ⊆ r') (hw : w ⊆ w') : FloatPasses s t r' w' :=
  ⟨h.pcr, h.outside, h.frame.mono hr hw⟩

theorem FloatPasses.ends {s t : State} {r w} (h : FloatPasses s t r w) (hg : t.fpuGroup = some s.cur) (seq hunt : Bool) :
    FloatEnds s (t.ended seq hunt) seq r w := by
  have hc : t.cur = s.cur := by unfold State.cur; rw [h.pcr]
  exact ⟨by
    show setBitAt t.pcr (21 + t.cur.toNat) seq = _
    rw [hc, h.pcr], by
    have o := h.outside
    rw [hg] at o
    exact o, ⟨h.frame.regs, h.frame.bytes⟩⟩

theorem FloatPasses.env {s t : State} {r w} (h : FloatPasses s t r w) : t.env = s.env := (congrArg State.env h.outside :)

/-- Reading an operand of a scientific instruction changes only the register it names, and, where another group has used the unit, the
floating registers (R687). -/
theorem floatOperand_passes {x : Group} {d : Bool} {a : FpOperand} {s t : State} (hq : s.env = []) (h : floatOperand x d s = .ok (a, t)) :
    FloatPasses s t (s.named x d) [] ∧ t.mem = s.mem := by
  unfold floatOperand at h
  by_cases hx : x = inactiveGroup
  · subst hx
    cases d with
    | false =>
      rw [Op.bind_ok (isInactive_inactive s), if_pos rfl] at h
      unfold claim at h
      rw [Op.bind_ok (Op.update_run _ s), Op.bind_ok (Op.get_run _)] at h
      cases h
      unfold State.claimed
      split
      · exact ⟨⟨rfl, rfl, Frame.same rfl rfl⟩, rfl⟩
      · exact ⟨.of_passes (Passes.quiet rfl rfl rfl rfl), rfl⟩
    | true => rw [Op.bind_error (e := .refuse .inactiveWithDesignator) rfl] at h; cases h
  · rw [Op.bind_ok (isInactive_active hx d s), if_neg (by decide), Op.bind_run] at h
    split at h
    · rename_i e; cases h
      have q := steps_readOperand hq e
      exact ⟨.of_passes (Passes.steps q), q.mem⟩
    · cases h

theorem optionGate_run {f : Gen} {m : Op Unit} {s : State} (h : s.cfg.fpu = true) (hd : (genForm f).designated = true) :
    optionGate f m s = m s.begun := by
  unfold optionGate begin checkDesignators
  rw [Op.bind_ok (Op.update_run _ s), Op.bind_ok (Op.get_run _), if_pos (by exact h), if_pos hd]; rfl

/-- The state in which a scientific result is delivered. -/
theorem deliverFloat_run {i : Instr} {f : Gen} {uf dv fx bad : Bool} {r : FpOut} {s u : State} {ovf unf : Bool} {k :
    Option ExpEvent} {words : List Nat}
    (hq : s.env = []) (hk : settle s.claimed.pending uf (f.c != inactiveGroup) dv r.e = (ovf, unf, k))
    (hd : (s.claimed.floated fx (f.c != inactiveGroup) r ovf unf).noAc.floatDelivered f.c f.dC r.flac u words) :
    deliverFloat i f uf dv fx bad r s = concludeFloat i f.seq (f.c != inactiveGroup) bad k u := by
  unfold deliverFloat leaveFloat noAc claim
  have hq' : s.claimed.env = [] := by
    rw [← hq]; unfold State.claimed; split <;> rfl
  rcases hd with ⟨h1, h2, h3, _⟩ | ⟨h1, l, v, h2, h3, h4, _⟩
  · have e : (f.c != inactiveGroup) = false := by simp [h1]
    rw [e] at hk
    rw [h1, h2, Op.bind_ok (isInactive_inactive s), Op.bind_ok (Op.update_run _ s), Op.bind_ok (Op.get_run _)]
    dsimp only
    rw [Bool.not_true, hk, Op.bind_ok (Op.update_run _ _), Op.bind_ok (Op.update_run _ _), if_pos rfl, h3, e]; rfl
  · have e : (f.c != inactiveGroup) = true := by simp [h1]
    rw [e] at hk h2
    rw [Op.bind_ok (isInactive_active h1 _ _), Op.bind_ok (Op.update_run _ s), Op.bind_ok (Op.get_run _)]
    dsimp only
    rw [Bool.not_false, hk, Op.bind_ok (Op.update_run _ _), Op.bind_ok (Op.update_run _ _), if_neg (by decide), e]
    have hw : writeResult f.c f.dC (MWord.good r.flac) (s.claimed.floated fx true r ovf unf).noAc = .ok ((), u) := by
      unfold writeResult
      rw [Op.bind_ok h2, h4]
      exact store_admitted ((steps_locate h2).1.env.trans hq') h3 _
    rw [Op.bind_ok hw]

/-- Claiming the unit changes nothing but the floating registers and the count of free values. -/
theorem floatPasses_claimed (s : State) : FloatPasses s s.claimed [] [] ∧ s.claimed.mem = s.mem := by
  unfold State.claimed
  split
  · exact ⟨⟨rfl, rfl, Frame.same rfl rfl⟩, rfl⟩
  · exact ⟨.of_passes (Passes.quiet rfl rfl rfl rfl), rfl⟩

theorem floatPasses_floated (s : State) (fx st : Bool) (r : FpOut) (a b : Bool) : FloatPasses s (s.floated fx st r a b).noAc [] [] :=
  ⟨rfl, rfl, Frame.same rfl rfl⟩

theorem floatDelivered_props {x u : State} {c : Group} {d : Bool} {w : Word} {words : List Nat} (h :
    x.floatDelivered c d w u words) (hw : x.mem.wf = true) :
    Passes x u (x.named c d) words ∧ u.flac = x.flac ∧ u.flop = x.flop ∧ u.flacOvf = x.flacOvf ∧ u.flacUnf = x.flacUnf ∧
        u.flacFixed = x.flacFixed ∧
    u.flopOvf = x.flopOvf ∧ u.flopUnf = x.flopUnf ∧ (∀ n, n ∈ words →
        u.reserved n = false → u.mem.word n = MWord.good w) := by
  rcases h with ⟨h1, h2, h3, h4⟩ | ⟨h1, l, v, h2, h3, h4, h5⟩
  · subst h3 h4
    exact ⟨(Passes.quiet rfl rfl rfl rfl).mono (by simp) (by simp), rfl, rfl, rfl, rfl, rfl, rfl, rfl, by simp⟩
  · obtain ⟨q, hl⟩ := steps_locate h2
    have p := (Passes.steps q).trans (Passes.stored v l (MWord.good w))
    rw [← h4] at p
    have p' : Passes x u (x.named c d) words := p.mono (by
      intro y hy; rw [List.mem_append] at hy; exact hy.elim id (hl y)) (by rw [h5]; simp)
    obtain ⟨m, r', y', n', e⟩ := State.stored_eq v l (MWord.good w)
    have b1 : ∀ {α} (g : State → α), (∀ y m r z n, g { y with mem := m, regs := r, typeSpoiled := z, free := n } = g y) → (∀ y :
        State, ∀ r f l, g { y with regs := r, free := f, limited := l } = g y) → g u = g x := by
      intro α g hg hg2
      rw [h4, e, hg, q.eq, hg2]
    refine ⟨p', b1 _ (fun _ _ _ _ _ => rfl) (fun _ _ _ _ => rfl), b1 _ (fun _ _ _ _ _ => rfl) (fun _ _ _ _ => rfl),
        b1 _ (fun _ _ _ _ _ => rfl) (fun _ _ _ _ => rfl), b1 _ (fun _ _ _ _ _ => rfl) (fun _ _ _ _ => rfl),
            b1 _ (fun _ _ _ _ _ => rfl) (fun _ _ _ _ => rfl), b1 _ (fun _ _ _ _ _ => rfl) (fun _ _ _ _ => rfl),
                b1 _ (fun _ _ _ _ _ => rfl) (fun _ _ _ _ => rfl), ?_⟩
    intro n hn hy
    rw [h5] at hn
    have hv : v.mem.wf = true := by rw [q.mem]; exact hw
    cases l with
    | mem a =>
      simp only [Loc.words, List.mem_singleton] at hn
      rw [hn, h4] at hy ⊢; exact State.word_putWord_self hv hy _
    | inactive => simp [Loc.words] at hn
    | reg g i inc => simp [Loc.words] at hn

theorem float_run {i : Instr} {dec : Bool} {compute : Word → Bool → Fp → Fp → FpOut} {f : Gen} {s : State} (h :
    floatRow i = some (dec, compute, f)) :
    exec i s = perform (floatOp i dec compute f) s := by
  cases i <;> simp only [floatRow, Option.some.injEq, Prod.mk.injEq, reduceCtorEq] at h <;> (obtain ⟨rfl, rfl, rfl⟩ := h; rfl)

end Sys2Proof.Machine
end

