-- ==== Sys2Proof/Laws/Multiply.lean ====
section
/-! SUPPORT. The parts of a multiplication and of an accumulation (R260 to R266): the multiples in low memory, the product registers. -/
namespace Sys2Proof.Machine

theorem badPattern_bad (n : Nat) : badPattern n ≠ 0#6 := by
  unfold badPattern; split
  · decide
  · assumption

theorem passes_tabulated (s : State) (w : Nat → Word) (n : Nat) : Passes s (s.tabulated w n) [] (List.range n) := by
  induction n with
  | zero => exact Passes.quiet rfl rfl rfl rfl
  | succ n ih =>
    have h := (ih.trans (Passes.putWord (s.tabulated w n) n ⟨w n, badPattern (s.tabulated w n).free⟩))
    rw [List.range_succ]
    exact ⟨h.pcr, h.outside, h.frame.regs, h.frame.bytes⟩

theorem wf_tabulated {s : State} (h : s.mem.wf = true) (w : Nat → Word) (n : Nat) : (s.tabulated w n).mem.wf = true := by
  induction n with
  | zero => exact h
  | succ n ih => exact Memory.setWord_wf ih _ _

theorem word_tabulated {s : State} (h : s.mem.wf = true) (w : Nat → Word) (n k : Nat) (hk : k < n) (hn : n ≤ 17) :
    ((s.tabulated w n).mem.word k).bits = w k ∧ MWord.bad ((s.tabulated w n).mem.word k) = true := by
  induction n with
  | zero => omega
  | succ n ih =>
    by_cases e : k = n
    · subst e
      have : (s.tabulated w (k + 1)).mem.word k = ⟨w k, badPattern (s.tabulated w k).free⟩ :=
        State.word_putWord_self (wf_tabulated h w k)
          (by unfold State.reserved typewriterBuffer; rw [beq_eq_false_iff_ne.mpr (by omega)]; rfl) _
      rw [this]
      exact ⟨rfl, by simpa [MWord.bad] using badPattern_bad _⟩
    · have : (s.tabulated w (n + 1)).mem.word k = (s.tabulated w n).mem.word k := State.word_putWord_other _ e _
      rw [this]; exact ih (by omega) (by omega)

theorem passes_scratched (s : State) (w : Nat → Word) (n : Nat) : Passes s (s.scratched w n) [(s.cur, au1)] (List.range n) := by
  have h := (passes_tabulated s w n).trans (Passes.setReg (s.tabulated w n) s.cur au1 (SReg.mk' false true n))
  exact h.mono (by simp) (by simp)

theorem multiplied_eq (s : State) (g : Bool) (hi lo : Nat) : ∃ x y, s.multiplied g hi lo =
    { s with
      ac := x, acSign := g, acState := .delivered, lop := y, lopHeld := true, heldMask := none,
      mr := Config.freeWord s.free, free := s.free + 1 } :=
  ⟨_, _, rfl⟩

theorem passes_multiplied (s : State) (g : Bool) (hi lo : Nat) : Passes s (s.multiplied g hi lo) [] [] := by
  obtain ⟨x, y, e⟩ := multiplied_eq s g hi lo
  rw [e]
  exact Passes.quiet rfl rfl rfl rfl

/-- The multiples stored one memory cycle after another, no event falling between. -/
theorem tabulate_run {w : Nat → Word} {s : State} (hq : s.env = []) :
    ∀ n, tabulate w n s = .ok ((), s.tabulated w n) ∧ (s.tabulated w n).env = []
  | 0 => ⟨rfl, hq⟩
  | n + 1 => by
    obtain ⟨h1, h2⟩ := tabulate_run (w := w) hq n
    refine ⟨?_, h2⟩
    unfold tabulate
    rw [Op.bind_ok h1, Op.bind_ok (tick_quiet h2)]; rfl

theorem scratch_run {w : Nat → Word} {s : State} (hq : s.env = []) (n : Nat) : scratch w n s = .ok ((), s.scratched w n) := by
  unfold scratch
  rw [Op.bind_ok (tabulate_run hq n).1]
  show Except.ok ((), (s.tabulated w n).setReg (s.tabulated w n).cur au1 _) = _
  rw [(passes_tabulated s w n).cur]; rfl

theorem multiply_run {i : Instr} {f : Gen} {z : Nat} {a b : MWord} {w : Nat → Word} {g : Bool} {hi lo : Nat} {s s3 : State} {l : Loc} (hq : s.env = [])
    (hpa : MWord.bad a = false) (hpb : MWord.bad b = false)
    (hl : locate f.c f.dC (s.scratched w z) = .ok (l, s3)) (hadm : s3.admits l) :
    multiply i f z a b w g hi lo s = .ok ((), ((s3.stored l (MWord.good (signedWord g hi))).multiplied g hi lo).ended f.seq false) := by
  have q3 : s3.env = [] := (steps_locate hl).1.env.trans (passes_scratched s w z).env |>.trans hq
  unfold multiply
  rw [Op.bind_ok (scratch_run hq z), Op.bind_ok hl, Op.bind_ok (store_admitted q3 hadm _), Op.bind_ok (Op.update_run _ _), hpa, hpb]
  exact conclude_ends _ _ _ _

theorem multiplyOperands_run {f : Gen} {s s1 s2 : State} {a b : MWord}
    (ha : f.a ≠ inactiveGroup) (hb : f.b ≠ inactiveGroup) (hc : f.c ≠ inactiveGroup) (hn : s2.namesRegister f.c f.dC = false)
    (hra : readOperand f.a f.dA s.begun = .ok (a, s1)) (hrb : readOperand f.b f.dB s1 = .ok (b, s2)) :
    multiplyOperands f s = .ok ((a, b), s2) := by
  unfold multiplyOperands
  rw [Op.bind_ok (beginForm_run (designated_active (f := genForm f) ha hb hc) s), Op.bind_ok (needActive_active ha _ _),
    Op.bind_ok (needActive_active hb _ _), Op.bind_ok (needActive_active hc _ _), Op.bind_ok hra, Op.bind_ok hrb,
    Op.bind_ok (Op.get_run _), hn, if_neg (by decide)]; rfl

theorem totalled_eq (s : State) (g : Bool) (n : Nat) : ∃ x, s.totalled g n =
    { s with ac := x, acSign := g, acState := .delivered, lopHeld := false, heldMask := none } := ⟨_, rfl⟩

end Sys2Proof.Machine
end

