-- ==== Sys2Proof/Laws/Parity.lean ====
section
/-! SUPPORT. A sequence change with a parity failure (R323, R379, R610): the parts that run, and what they leave. -/
namespace Sys2Proof.Machine

/-- A transferred word stored (R310, R321), and whether a protected destination had bad parity. -/
theorem deliverCopy_run {s : State} {m : Option MWord} {l : Loc} (hq : s.env = []) (h : s.admits l) (w : MWord) :
    deliverCopy m l w s = .ok (m.isSome && MWord.bad (s.contents l), s.stored l (copied m (s.contents l) w)) := by
  cases m with
  | none =>
    unfold deliverCopy
    dsimp only
    rw [Op.bind_ok (store_admitted hq h _)]; rfl
  | some m =>
    unfold deliverCopy deliver
    dsimp only
    rw [Op.bind_ok (peek_admitted hq h), Op.bind_ok (store_admitted hq h _)]; rfl

/-- The end of a sequence change with a parity failure (R323): history register and bisequence bit, then the unprogrammed transfer. -/
theorem concludeJump_parity {i : Instr} {seq : Bool} {c : Group} {d hunt : Bool} {s t : State} {r : Option SReg} (hc : c ≠ inactiveGroup)
    (h : sequenceTarget c d (ctrOf seq) s = .ok (r, t)) (hct : (t.historied (ctrOf seq)).canTransfer) (ht : t.env = []) :
    concludeJump i seq c d true true hunt s = .ok ((), (t.historied (ctrOf seq)).transferred utParity i) := by
  unfold concludeJump jumpSuppressed
  rw [Op.bind_ok (isInactive_active hc d s), if_neg (by decide), if_pos rfl, Op.bind_ok h, if_pos rfl, Op.bind_ok (Op.update_run _ _)]
  exact unprogrammedTransfer_ready ht hct

/-- The same with an inactive C: no sequence change, the bisequence bit only. -/
theorem concludeJump_parityInactive {i : Instr} {seq : Bool} {hunt met : Bool} {s : State}
    (hq : s.env = []) (hct : (s.ended seq false).canTransfer) :
    concludeJump i seq inactiveGroup false met true hunt s = .ok ((), (s.ended seq false).transferred utParity i) := by
  unfold concludeJump endInstr
  rw [Op.bind_ok (isInactive_inactive s), if_pos rfl, if_pos rfl, Op.bind_ok (Op.update_run _ _)]
  exact unprogrammedTransfer_ready hq hct

/-- What that end leaves: the registers it writes, and the frame. -/
theorem passes_historied_transferred {s t : State} {R W} {seq : Bool} {i : Instr} (hp : Passes s t R W) (hsel : t.sel = s.sel) :
    ((t.historied (ctrOf seq)).transferred utParity i).reg s.cur (ctrOf seq).hist = { t.reg s.cur s.sel.ix with tag := .good } ∧
    ((t.historied (ctrOf seq)).transferred utParity i).reg s.cur (ctrOf seq).ix = t.reg s.cur (ctrOf seq).ix ∧
    ((t.historied (ctrOf seq)).transferred utParity i).pcr = setBitAt s.pcr (21 + s.cur.toNat) seq ∧
    Frame s ((t.historied (ctrOf seq)).transferred utParity i) (R ++ [(s.cur, (ctrOf seq).hist)])
      (W ++ [(t.reg s.cur utrIx).full + if s.sel = .csc then 1 else 0]) := by
  have hc : t.cur = s.cur := hp.cur
  have hdec : decide (ctrOf seq = .csc) = seq := by cases seq <;> rfl
  have hcur : (t.historied (ctrOf seq)).cur = s.cur := (cur_historied t _).trans hc
  have hutr : (t.historied (ctrOf seq)).reg s.cur utrIx = t.reg s.cur utrIx :=
    State.reg_setReg_other t (by intro e; have := e.2; revert this; cases seq <;> decide) _
  refine ⟨?_, ?_, ?_, ?_, ?_⟩
  · rw [← hc, ← hsel]; exact State.reg_setReg_self t t.cur (ctrOf seq).hist _
  · exact State.reg_setReg_other t (by intro e; have := e.2; revert this; cases seq <;> decide) _
  · show setBitAt t.pcr (21 + t.cur.toNat) (decide (ctrOf seq = .csc)) = _
    rw [hdec, hc, hp.pcr]
  · intro g j n
    simp only [List.mem_append, List.mem_singleton, not_or] at n
    refine Eq.trans (State.reg_setReg_other t ?_ _) (hp.frame.regs g j n.1)
    rintro ⟨rfl, rfl⟩; exact n.2 (by rw [hc])
  · intro b n
    simp only [List.mem_append, List.mem_singleton, not_or] at n
    refine Eq.trans (State.byte_putWord_other (t.historied (ctrOf seq)) ?_ _) (hp.frame.bytes b n.1)
    rw [hcur, hutr]
    rw [show (t.historied (ctrOf seq)).sel = s.sel from hsel]
    exact n.2

theorem passes_loadMask {f : SReg → Nat} {m : MWord} {s t : State} (hq : s.env = []) (h : loadMask f s = .ok (m, t)) :
    Passes s t [] [] ∧ t.mem = s.mem ∧ t.sel = s.sel := by
  unfold loadMask at h
  rw [Op.bind_ok (Op.get_run s), Op.bind_run] at h
  split at h
  · rename_i b u e
    have q := steps_checkImplicit e
    rw [Op.bind_run] at h
    split at h
    · rename_i w v e'
      have q' := steps_memRead (q.env.trans hq) e'
      rw [Op.bind_ok (Op.update_run _ v)] at h
      cases h
      exact ⟨((Passes.steps q).trans ((Passes.steps q').trans (passes_mr v _))).mono (by simp) (by simp), q'.mem.trans q.mem,
        q'.sel.trans q.sel⟩
    · cases h
  · cases h

theorem passes_maskOf {k : Option (BitVec 5)} {m : Option MWord} {s t : State} (hq : s.env = []) (h : maskOf k s = .ok (m, t)) :
    Passes s t [] [] ∧ t.mem = s.mem ∧ t.sel = s.sel := by
  cases k with
  | none => cases h; exact ⟨Passes.quiet rfl rfl rfl rfl, rfl, rfl⟩
  | some k =>
    unfold maskOf at h
    dsimp only at h
    rw [Op.bind_run] at h
    split at h
    · rename_i w u e
      cases h
      exact passes_loadMask hq e
    · cases h

theorem sel_stored (s : State) (l : Loc) (v : MWord) : (s.stored l v).sel = s.sel := by cases l <;> rfl

theorem named_passes {s t : State} {W} (h : Passes s t [] W) (x : Group) (d : Bool) : t.named x d = s.named x d :=
  named_of h.cur (fun i => h.frame.regs _ _ (by simp))

end Sys2Proof.Machine
end

