-- ==== Sys2Proof/Laws/PerInstr.lean ====
section
/-! SUPPORT. For every instruction: its three address groups stand in their places of its word (R130). -/
namespace Sys2Proof.Laws.Coded

/-- The three address groups of an instruction. -/
def groups : Instr → Group × Group × Group
  | .ba f => (f.a, f.b, f.c)
  | .da f => (f.a, f.b, f.c)
  | .wa f => (f.a, f.b, f.c)
  | .bs f => (f.a, f.b, f.c)
  | .ds f => (f.a, f.b, f.c)
  | .wd f => (f.a, f.b, f.c)
  | .na f => (f.a, f.b, f.c)
  | .nn f => (f.a, f.b, f.c)
  | .la f => (f.a, f.b, f.c)
  | .ln f => (f.a, f.b, f.c)
  | .tx f => (f.a, f.b, f.c)
  | .ts f => (f.a, f.b, f.c)
  | .ha f => (f.a, f.b, f.c)
  | .sm f => (f.a, f.b, f.c)
  | .cp f => (f.a, f.b, f.c)
  | .bm f => (f.a, f.b, f.c)
  | .dm f => (f.a, f.b, f.c)
  | .bt f => (f.a, f.b, f.c)
  | .dt f => (f.a, f.b, f.c)
  | .mt f => (f.a, f.b, f.c)
  | .tn f => (f.a, f.b, f.c)
  | .cc f => (f.a, f.b, f.c)
  | .it f => (f.a, f.b, f.c)
  | .eba f => (f.a, f.b, f.c)
  | .ebs f => (f.a, f.b, f.c)
  | .rt f => (f.a, f.b, f.c)
  | .mpc f => (f.a, f.b, f.c)
  | .pr f => (f.a, f.b, f.c)
  | .sws f => (f.a, f.b, f.c)
  | .sps f => (f.a, f.b, f.c)
  | .swe f => (f.a, f.b, f.c)
  | .spe f => (f.a, f.b, f.c)
  | .ssl f => (f.a, f.b, f.c)
  | .ss f => (f.a, f.b, f.c)
  | .ex f => (f.a, f.b, f.c)
  | .fba f => (f.a, f.b, f.c)
  | .fda f => (f.a, f.b, f.c)
  | .fbs f => (f.a, f.b, f.c)
  | .fds f => (f.a, f.b, f.c)
  | .fbd f => (f.a, f.b, f.c)
  | .fdd f => (f.a, f.b, f.c)
  | .fbau f => (f.a, f.b, f.c)
  | .fdau f => (f.a, f.b, f.c)
  | .fbsu f => (f.a, f.b, f.c)
  | .fdsu f => (f.a, f.b, f.c)
  | .fbm f => (f.a, f.b, f.c)
  | .fdm f => (f.a, f.b, f.c)
  | .uld f => (f.a, f.b, f.c)
  | .fbae f => (f.a, f.b, f.c)
  | .fbse f => (f.a, f.b, f.c)
  | .bd f => (f.a, f.b, f.c)
  | .dd f => (f.a, f.b, f.c)
  | .ffn f => (f.a, f.b, f.c)
  | .fcon f => (f.a, f.b, f.c)
  | .fln f => (f.a, f.b, f.c)
  | .fnn f => (f.a, f.b, f.c)
  | .baM f => (f.a, f.b, f.c)
  | .daM f => (f.a, f.b, f.c)
  | .waM f => (f.a, f.b, f.c)
  | .bsM f => (f.a, f.b, f.c)
  | .dsM f => (f.a, f.b, f.c)
  | .wdM f => (f.a, f.b, f.c)
  | .naM f => (f.a, f.b, f.c)
  | .nnM f => (f.a, f.b, f.c)
  | .laM f => (f.a, f.b, f.c)
  | .lnM f => (f.a, f.b, f.c)
  | .txM f => (f.a, f.b, f.c)
  | .tsM f => (f.a, f.b, f.c)
  | .haM f => (f.a, f.b, f.c)
  | .smM f => (f.a, f.b, f.c)
  | .cpM f => (f.a, f.b, f.c)
  | .rf f => (f.a, f.b, f.c)
  | .rb f => (f.a, f.b, f.c)
  | .wf f => (f.a, f.b, f.c)
  | .rw f => (f.a, f.b, f.c)
  | .pra f => (f.a, f.b, f.c)
  | .prd f => (f.a, f.b, f.c)
  | .pro f => (f.a, f.b, f.c)
  | .sDir f => (f.a, f.b, f.c)
  | .sIdx f => (f.a, f.b, f.c)

/-- The groups of an instruction stand in bits 13 to 24, 25 to 36 and 37 to 48 of its word, whatever the operation codes (R130). -/
def Statement (i : Instr) : Prop :=
  ∀ m : OpMap, (fld (encode m i) 13 24, fld (encode m i) 25 36, fld (encode m i) 37 48) = groups i

theorem general (m : OpMap) (o : EightOp) (f : Gen) :
    (fld (m.general o f) 13 24, fld (m.general o f) 25 36, fld (m.general o f) 37 48) = (f.a, f.b, f.c) := by
  have h := genCode_lt (m.eight_lt o).1 (m.eight_lt o).2 f
  unfold OpMap.general encodeGen; rw [encodeWord_a h, encodeWord_b h, encodeWord_c h]

theorem masked (m : OpMap) (o : SixOp) (f : Fld) :
    (fld (m.field o f) 13 24, fld (m.field o f) 25 36, fld (m.field o f) 37 48) = (f.a, f.b, f.c) := by
  have h := fldCode_lt (m.six_lt o) f
  unfold OpMap.field encodeFld; rw [encodeWord_a h, encodeWord_b h, encodeWord_c h]

theorem peripheral (m : OpMap) (o : SixOp) (f : Per) :
    (fld (m.peripheral o f) 13 24, fld (m.peripheral o f) 25 36, fld (m.peripheral o f) 37 48) = (f.a, f.b, f.c) := by
  have h : f.ch.toNat * 2 ^ 9 + f.dev.toNat * 2 ^ 6 + (m.sixCode o).toNat < 4096 := by have := m.six_lt o; omega
  unfold OpMap.peripheral encodePer; rw [encodeWord_a h, encodeWord_b h, encodeWord_c h]

theorem print {op : Nat} (h2 : op < 64) (f : Prt) :
    (fld (encodePrt op f) 13 24, fld (encodePrt op f) 25 36, fld (encodePrt op f) 37 48) = (f.a, f.b, f.c) := by
  have h := prtCode_lt h2 f
  unfold encodePrt; rw [encodeWord_a h, encodeWord_b h, encodeWord_c h]

theorem simulator (x : Bool) (f : Sim) :
    (fld (encodeSim x f) 13 24, fld (encodeSim x f) 25 36, fld (encodeSim x f) 37 48) = (f.a, f.b, f.c) := by
  have b := Bool.toNat_lt x
  have h : x.toNat * 2 ^ 11 + f.addr.toNat * 2 ^ 3 + 0b111 < 4096 := by omega
  unfold encodeSim; rw [encodeWord_a h, encodeWord_b h, encodeWord_c h]

theorem ba (f : Gen) : Statement (.ba f) := fun m => general m .ba f
theorem da (f : Gen) : Statement (.da f) := fun m => general m .da f
theorem wa (f : Gen) : Statement (.wa f) := fun m => general m .wa f
theorem bs (f : Gen) : Statement (.bs f) := fun m => general m .bs f
theorem ds (f : Gen) : Statement (.ds f) := fun m => general m .ds f
theorem wd (f : Gen) : Statement (.wd f) := fun m => general m .wd f
theorem na (f : Gen) : Statement (.na f) := fun m => general m .na f
theorem nn (f : Gen) : Statement (.nn f) := fun m => general m .nn f
theorem la (f : Gen) : Statement (.la f) := fun m => general m .la f
theorem ln (f : Gen) : Statement (.ln f) := fun m => general m .ln f
theorem tx (f : Gen) : Statement (.tx f) := fun m => general m .tx f
theorem ts (f : Gen) : Statement (.ts f) := fun m => general m .ts f
theorem ha (f : Gen) : Statement (.ha f) := fun m => general m .ha f
theorem sm (f : Gen) : Statement (.sm f) := fun m => general m .sm f
theorem cp (f : Gen) : Statement (.cp f) := fun m => general m .cp f
theorem bm (f : Gen) : Statement (.bm f) := fun m => general m .bm f
theorem dm (f : Gen) : Statement (.dm f) := fun m => general m .dm f
theorem bt (f : Gen) : Statement (.bt f) := fun m => general m .bt f
theorem dt (f : Gen) : Statement (.dt f) := fun m => general m .dt f
theorem mt (f : Gen) : Statement (.mt f) := fun m => general m .mt f
theorem tn (f : Gen) : Statement (.tn f) := fun m => general m .tn f
theorem cc (f : Gen) : Statement (.cc f) := fun m => general m .cc f
theorem it (f : Gen) : Statement (.it f) := fun m => general m .it f
theorem eba (f : Gen) : Statement (.eba f) := fun m => general m .eba f
theorem ebs (f : Gen) : Statement (.ebs f) := fun m => general m .ebs f
theorem rt (f : Gen) : Statement (.rt f) := fun m => general m .rt f
theorem mpc (f : Mpc) : Statement (.mpc f) := fun m => general m .mpc ⟨f.seq, f.irr4, f.hunt, f.dC, f.a, f.b, f.c⟩
theorem pr (f : Prc) : Statement (.pr f) := fun m => general m .pr ⟨f.irr1, f.bit4, f.irr5, f.irr6, f.a, f.b, f.c⟩
theorem sws (f : Gen) : Statement (.sws f) := fun m => general m .sws f
theorem sps (f : Gen) : Statement (.sps f) := fun m => general m .sps f
theorem swe (f : Gen) : Statement (.swe f) := fun m => general m .swe f
theorem spe (f : Gen) : Statement (.spe f) := fun m => general m .spe f
theorem ssl (f : Gen) : Statement (.ssl f) := fun m => general m .ssl f
theorem ss (f : Gen) : Statement (.ss f) := fun m => general m .ss f
theorem ex (f : Gen) : Statement (.ex f) := fun m => general m .ex f
theorem fba (f : Gen) : Statement (.fba f) := fun m => general m .fba f
theorem fda (f : Gen) : Statement (.fda f) := fun m => general m .fda f
theorem fbs (f : Gen) : Statement (.fbs f) := fun m => general m .fbs f
theorem fds (f : Gen) : Statement (.fds f) := fun m => general m .fds f
theorem fbd (f : Gen) : Statement (.fbd f) := fun m => general m .fbd f
theorem fdd (f : Gen) : Statement (.fdd f) := fun m => general m .fdd f
theorem fbau (f : Gen) : Statement (.fbau f) := fun m => general m .fbau f
theorem fdau (f : Gen) : Statement (.fdau f) := fun m => general m .fdau f
theorem fbsu (f : Gen) : Statement (.fbsu f) := fun m => general m .fbsu f
theorem fdsu (f : Gen) : Statement (.fdsu f) := fun m => general m .fdsu f
theorem fbm (f : Gen) : Statement (.fbm f) := fun m => general m .fbm f
theorem fdm (f : Gen) : Statement (.fdm f) := fun m => general m .fdm f
theorem uld (f : Gen) : Statement (.uld f) := fun m => general m .uld f
theorem fbae (f : Gen) : Statement (.fbae f) := fun m => general m .fbae f
theorem fbse (f : Gen) : Statement (.fbse f) := fun m => general m .fbse f
theorem bd (f : Gen) : Statement (.bd f) := fun m => general m .bd f
theorem dd (f : Gen) : Statement (.dd f) := fun m => general m .dd f
theorem ffn (f : Gen) : Statement (.ffn f) := fun m => general m .ffn f
theorem fcon (f : Gen) : Statement (.fcon f) := fun m => general m .fcon f
theorem fln (f : Gen) : Statement (.fln f) := fun m => general m .fln f
theorem fnn (f : Gen) : Statement (.fnn f) := fun m => general m .fnn f
theorem baM (f : Fld) : Statement (.baM f) := fun m => masked m .ba f
theorem daM (f : Fld) : Statement (.daM f) := fun m => masked m .da f
theorem waM (f : Fld) : Statement (.waM f) := fun m => masked m .wa f
theorem bsM (f : Fld) : Statement (.bsM f) := fun m => masked m .bs f
theorem dsM (f : Fld) : Statement (.dsM f) := fun m => masked m .ds f
theorem wdM (f : Fld) : Statement (.wdM f) := fun m => masked m .wd f
theorem naM (f : Fld) : Statement (.naM f) := fun m => masked m .na f
theorem nnM (f : Fld) : Statement (.nnM f) := fun m => masked m .nn f
theorem laM (f : Fld) : Statement (.laM f) := fun m => masked m .la f
theorem lnM (f : Fld) : Statement (.lnM f) := fun m => masked m .ln f
theorem txM (f : Fld) : Statement (.txM f) := fun m => masked m .tx f
theorem tsM (f : Fld) : Statement (.tsM f) := fun m => masked m .ts f
theorem haM (f : Fld) : Statement (.haM f) := fun m => masked m .ha f
theorem smM (f : Fld) : Statement (.smM f) := fun m => masked m .sm f
theorem cpM (f : Fld) : Statement (.cpM f) := fun m => masked m .cp f
theorem rf (f : Per) : Statement (.rf f) := fun m => peripheral m .rf f
theorem rb (f : Per) : Statement (.rb f) := fun m => peripheral m .rb f
theorem wf (f : Per) : Statement (.wf f) := fun m => peripheral m .wf f
theorem rw (f : Per) : Statement (.rw f) := fun m => peripheral m .rw f
theorem pra (f : Prt) : Statement (.pra f) := fun m => print (m.six_lt .print) f
theorem prd (f : Prt) : Statement (.prd f) := fun m => print (m.six_lt .print) f
theorem pro (f : Prt) : Statement (.pro f) := fun m => print (m.six_lt .print) f
theorem sDir (f : Sim) : Statement (.sDir f) := fun _ => simulator false f
theorem sIdx (f : Sim) : Statement (.sIdx f) := fun _ => simulator true f

end Sys2Proof.Laws.Coded
end

