-- ==== Sys2Proof/Laws/Print.lean ====
section
/-! SUPPORT. The parts of a print instruction, and of a typewriter cycle. -/
namespace Sys2Proof.Machine

/-- A print instruction is the one print operation (R460). -/
theorem print_run {i : Instr} {f : Prt} {s : State} (h : printRow i = some f) : exec i s = perform (printOp i f) s := by
  cases i <;> simp only [printRow, Option.some.injEq, reduceCtorEq] at h <;> (obtain rfl := h; rfl)

/-- The word a print takes. -/
theorem printSource_run {f : Prt} {s s1 : State} {w : MWord} (hq : s.env = [])
    (h : f.a = inactiveGroup ∧ f.dA = false ∧ s.acState ≠ .undefined ∧ s.acState ≠ .spent ∧ w = MWord.good s.ac ∧ s1 = s.begun ∨
      f.a ≠ inactiveGroup ∧ printIncremented f = false ∧ readOperand f.a f.dA s.begun = .ok (w, s1)) :
    isInactive f.a f.dA s.begun = .ok (f.a == inactiveGroup, s.begun) ∧
    ¬ ((f.a == inactiveGroup) = false ∧ printIncremented f = true) ∧
    printSource f (f.a == inactiveGroup) s.begun = .ok (w, s1) ∧ Steps s.begun s1 (s.named f.a f.dA) := by
  rcases h with ⟨h1, h2, h5, h6, h3, h4⟩ | ⟨h1, h2, h3⟩
  · rw [h1, h2, h3, h4]
    refine ⟨rfl, by simp, ?_, .refl _ _⟩
    unfold printSource
    rw [if_pos (beq_self_eq_true _), Op.bind_ok (Op.get_run _), if_neg (by exact fun h => h.elim h5 h6)]; rfl
  · have e : (f.a == inactiveGroup) = false := by simp [h1]
    rw [e, h2]
    exact ⟨isInactive_active h1 _ _, by simp, h3, steps_readOperand hq h3⟩

/-- Reading an operand leaves the typewriters alone. -/
theorem typewriterBusy_steps {s t : State} {r : List (BitVec 3 × BitVec 5)} (h : Steps s t r) (slave : Bool) :
    t.typewriterBusy slave = s.typewriterBusy slave := by
  rw [h.eq]; cases slave <;> rfl

/-- What becomes of a word read for a typewriter (R460). -/
theorem typeWord_run {s : State} (hq : s.env = []) (slave : Bool) (b : Group) (w : MWord) :
    typeWord slave b w s =
      .ok (if s.typewriterBusy slave then (none, s) else (some false, s.startedTyping slave b w)) := by
  unfold typeWord
  rw [Op.bind_ok (Op.get_run s)]
  cases s.typewriterBusy slave
  · rw [if_neg (by decide), if_neg (by decide)]
    unfold startTyping
    rw [Op.bind_ok (a := ()) (t := s.startedTyping slave b w) (by rw [Op.bind_ok (tick_quiet hq), Op.update_run])]; rfl
  · rfl

/-- A print on a described typewriter reads its word first (R460). -/
theorem printPart_run {f : Prt} {s s1 : State} {ia slave : Bool} {w : MWord} (h1 : bitAt f.b 1 = false) (hm : printMode f.b ≠ 0#2)
    (ht : typewriterOf f.b = if slave then 1 else 0) (hs : slave = true → s.cfg.slave = true) (hr : printSource f ia s = .ok (w, s1)) :
    printPart f ia s = typeWord slave f.b w s1 := by
  have hb : barricadeForm s f.b = false := by unfold barricadeForm; rw [ht]; cases slave <;> simp
  have hd : decide (typewriterOf f.b = 1) = slave := by rw [ht]; cases slave <;> rfl
  unfold printPart
  rw [Op.bind_ok (Op.get_run s), h1, hb, if_neg (by decide), if_neg (by decide), if_neg hm, if_neg, Op.bind_ok hr, hd]
  rintro (h | ⟨h, h'⟩)
  · rw [ht] at h; cases slave <;> simp at h
  · rw [ht] at h; cases slave <;> simp_all

theorem owner_setOwner (s : State) (a b : Bool) (o : Option (BitVec 3)) : (s.setOwner a o).owner b = if a = b then o else s.owner b := by
  cases a <;> cases b <;> rfl

theorem passes_frame_started (s : State) (sl : Bool) (b : Group) (w : MWord) :
    Frame s (s.startedTyping sl b w) [] [typewriterBuffer] ∧ (s.startedTyping sl b w).pcr = s.pcr := by
  constructor
  · refine ⟨fun g i _ => ?_, fun n h => ?_⟩
    · unfold State.startedTyping State.setOwner; split <;> rfl
    · have e : (s.startedTyping sl b w).mem = (s.putWord typewriterBuffer
          ⟨Config.freeWord s.free, (Config.freeWord (s.free + 1)).setWidth 6⟩).mem := by
        unfold State.startedTyping State.setOwner; split <;> rfl
      rw [e]
      exact State.byte_putWord_other s (by simpa using h) _
  · unfold State.startedTyping State.setOwner; split <;> rfl

/-- A sequence change, for states whose outside may have changed. -/
theorem frame_sequenced {s t : State} {r w} (h : Frame s t r w) (hp : t.pcr = s.pcr) (seq : Bool) (q : Option SReg) :
    Frame s (t.sequenced seq q) (r ++ s.sequencers seq q) w ∧ (t.sequenced seq q).pcr = setBitAt s.pcr (21 + s.cur.toNat) seq := by
  have hc : t.cur = s.cur := by unfold State.cur; rw [hp]
  have p := (Passes.quiet (s := t) (t := t) rfl rfl rfl rfl).sequenced seq q
  have e : t.sequencers seq q = s.sequencers seq q := by unfold State.sequencers; rw [hc]
  rw [e] at p
  exact ⟨(h.trans p.frame).mono (by simp) (by simp), by rw [p.pcr, hc, hp]⟩

theorem frame_typeOut (s : State) (sl : Bool) (x : Sym) : (s.typeOut sl x).mem = s.mem ∧ (s.typeOut sl x).regs = s.regs ∧
    (s.typeOut sl x).stalls = s.stalls ∧ (s.typeOut sl x).ac = s.ac ∧ (s.typeOut sl x).acState = s.acState ∧ (s.typeOut sl x).lop = s.lop ∧
    (s.typeOut sl x).mr = s.mr ∧ (s.typeOut sl x).pcr = s.pcr := by cases sl <;> exact ⟨rfl, rfl, rfl, rfl, rfl, rfl, rfl, rfl⟩

/-- The twelve hexadecimal digits with their spaces (R464). -/
theorem printData_hex (w : Word) : printData 0b11#2 w =
    [.hex (fld w 1 4), .hex (fld w 5 8), .hex (fld w 9 12), .space, .hex (fld w 13 16), .hex (fld w 17 20), .hex (fld w 21 24), .space,
    .hex (fld w 25 28), .hex (fld w 29 32), .hex (fld w 33 36), .space, .hex (fld w 37 40), .hex (fld w 41 44), .hex (fld w 45 48), .space] := rfl

/-- The sixteen octal digits with their spaces (R464). -/
theorem printData_oct (w : Word) : printData 0b01#2 w =
    [.oct (fld w 1 3), .oct (fld w 4 6), .oct (fld w 7 9), .oct (fld w 10 12), .space, .oct (fld w 13 15), .oct (fld w 16 18),
    .oct (fld w 19 21), .oct (fld w 22 24), .space, .oct (fld w 25 27), .oct (fld w 28 30), .oct (fld w 31 33), .oct (fld w 34 36),
    .space, .oct (fld w 37 39), .oct (fld w 40 42), .oct (fld w 43 45), .oct (fld w 46 48), .space] := rfl

/-- The eight characters (R464). -/
theorem printData_char (w : Word) : printData 0b10#2 w =
    [.char (fld w 1 6), .char (fld w 7 12), .char (fld w 13 18), .char (fld w 19 24), .char (fld w 25 30), .char (fld w 31 36),
    .char (fld w 37 42), .char (fld w 43 48)] := rfl

end Sys2Proof.Machine
end

