-- ==== Sys2Proof/Laws/Reach.lean ====
section
/-! SUPPORT. Everything an instruction can do to the state, said once: every operation, and so every instruction, is a sequence of elementary
changes. -/
namespace Sys2Proof.Machine

variable {sci bar out : Bool}

/-- Every state an operation leaves satisfies `R`, when judged on it: what happens outside the processor meanwhile is allowed, or there is
none. -/
def Op.Rel {α : Type} (out : Bool) (R : State → State → Prop) (m : Op α) : Prop :=
  ∀ s t, (out = true ∨ s.env = []) → leftIn (m s) = some t → R s t

/-- An operation made of elementary changes. -/
abbrev Op.Reaches (sci bar out : Bool) {α : Type} (m : Op α) : Prop := Op.Rel out (Reach sci bar out) m

theorem reaches_pure {α : Type} (a : α) : Op.Reaches sci bar out (pure a : Op α) := fun _ _ _ h => by cases h; exact .refl

theorem reaches_get : Op.Reaches sci bar out (get : Op State) := fun _ _ _ h => by cases h; exact .refl

theorem reaches_refuse {α : Type} (r : Refusal) : Op.Reaches sci bar out (refuse r : Op α) := fun _ _ _ h => nomatch h

theorem reaches_fail {α : Type} (f : Fault) : Op.Reaches sci bar out (fail f : Op α) := fun _ _ _ h => nomatch h

theorem reaches_critical {α : Type} (c : BitVec 5) : Op.Reaches sci bar out (critical c : Op α) := fun _ _ _ h => by cases h; exact .refl

theorem reaches_offError {α : Type} (c : BitVec 5) : Op.Reaches sci bar out (offError c : Op α) := fun _ _ _ h => by cases h; exact .refl

theorem reaches_finishNow {α : Type} : Op.Reaches sci bar out (finishNow : Op α) := fun _ _ _ h => by cases h; exact .refl

theorem reaches_bind {α β : Type} {m : Op α} {f : α → Op β} (h : Op.Reaches sci bar out m) (h' : ∀ a, Op.Reaches sci bar out (f a)) :
    Op.Reaches sci bar out (m >>= f) := by
  intro s u hs hu
  rw [Op.bind_run] at hu
  match hm : m s with
  | .ok (a, t) =>
    rw [hm] at hu
    exact (h s t hs (by rw [hm]; rfl)).trans (h' a t u ((h s t hs (by rw [hm]; rfl)).still hs) hu)
  | .error e =>
    rw [hm] at hu
    refine h s u hs ?_
    rw [hm]
    cases e <;> exact hu

theorem reaches_update {f : State → State} (h : ∀ s, Reach sci bar out s (f s)) : Op.Reaches sci bar out (update f) :=
  fun s t _ ht => by cases ht; exact h s

theorem reaches_quiet {f : State → State} (h : ∀ s, (f s).kept = s.kept) : Op.Reaches sci bar out (update f) :=
  reaches_update fun s => Reach.quiet (h s)

/-- An operation judged at the state it starts from. -/
theorem reaches_at {α : Type} {m : Op α} (f : State → Op α) (e : ∀ s, m s = f s s)
    (h : ∀ s t, (out = true ∨ s.env = []) → leftIn (f s s) = some t → Reach sci bar out s t) : Op.Reaches sci bar out m :=
  fun s t hs ht => h s t hs (by rw [← e]; exact ht)

theorem reaches_softError (c : BitVec 5) : Op.Reaches sci bar out (softError c) := by
  intro s t _ h
  rw [Op.softError_run] at h
  split at h
  · cases h; exact Reach.quiet (flag_kept s c)
  · cases h; exact .refl

theorem reaches_fresh : Op.Reaches sci bar out fresh := fun _ _ _ h => by cases h; exact Reach.quiet rfl

theorem reaches_freshBool : Op.Reaches sci bar out freshBool := fun _ _ _ h => by cases h; exact Reach.quiet rfl

theorem reaches_freshMWord : Op.Reaches sci bar out freshMWord :=
  reaches_bind reaches_fresh fun _ => reaches_bind reaches_fresh fun _ => reaches_pure _

theorem reaches_setOwn (i : BitVec 5) (r : SReg) : Op.Reaches sci bar out (update fun s => s.setReg s.cur i r) :=
  reaches_update fun s => Reach.one (.own s i r)

/-! ### Stepping and memory access -/

theorem reaches_spoiled (r : SReg) : Op.Reaches sci bar out (spoiled r) := reaches_bind reaches_fresh fun _ => reaches_pure _

theorem reaches_stepProgrammed (r : SReg) (k : Nat) : Op.Reaches sci bar out (stepProgrammed r k) := fun s t _ h => by
  obtain ⟨n, rfl⟩ := stepProgrammed_left h; exact Reach.quiet rfl

theorem reaches_stepBy (r : SReg) (k : Nat) : Op.Reaches sci bar out (stepBy r k) := fun s t _ h => by
  obtain ⟨n, rfl⟩ := stepBy_left h; exact Reach.quiet rfl

theorem reaches_stepCounter (q : Bool) (r : SReg) : Op.Reaches sci bar out (stepCounter q r) := fun s t _ h => by
  obtain ⟨n, rfl⟩ := stepCounter_left h; exact Reach.quiet rfl

theorem reaches_stepRegister (h : BitVec 3) (i inc : BitVec 5) : Op.Reaches sci bar out (stepRegister h i inc) := by
  intro s t hs ht
  unfold stepRegister at ht
  rw [Op.bind_ok (Op.get_run s)] at ht
  split at ht
  · cases ht; exact .refl
  · rename_i hb
    rw [Op.bind_run] at ht
    match hm : stepProgrammed (s.reg h i) inc.toNat s with
    | .ok (r, u) =>
      rw [hm] at ht
      obtain ⟨n, rfl⟩ := stepProgrammed_left (t := u) (by rw [hm]; rfl)
      cases ht
      exact (Reach.quiet (s := s) (t := { s with free := n }) rfl).trans
        (Reach.one (.reg _ h i r (by rw [Bool.not_eq_true] at hb; exact hb)))
    | .error e =>
      rw [hm] at ht
      exact reaches_stepProgrammed (s.reg h i) inc.toNat s t hs (by rw [hm]; cases e <;> exact ht)

/-- What traffic control does before a memory cycle keeps the invariant, and is nothing where no event falls there. -/
theorem reaches_tick : Op.Reaches sci bar out tick := by
  intro s t hs h
  unfold tick at h
  split at h
  · cases h; exact .refl
  · rename_i he
    have ho : out = true := hs.resolve_right he
    split at h
    · cases h; exact Reach.one (.between ho fun hi => serve_inv hi _)
    · cases h; exact Reach.one (.between ho fun hi => serve_inv hi _)

theorem reaches_memRead (a : Nat) : Op.Reaches sci bar out (memRead a) := by
  unfold memRead
  refine reaches_bind reaches_tick fun _ => reaches_bind reaches_get fun s => ?_
  split
  · exact reaches_pure _
  · exact reaches_bind (reaches_softError _) fun _ => reaches_bind reaches_fresh fun _ => reaches_pure _

theorem reaches_memWrite (a : Nat) (v : MWord) : Op.Reaches sci bar out (memWrite a v) := by
  refine reaches_bind reaches_tick fun _ => ?_
  intro s t hs h
  rw [Op.bind_ok (Op.get_run s)] at h
  split at h
  · exact reaches_softError _ s t hs h
  · split at h
    · exact reaches_softError _ s t hs h
    · cases h
      exact Reach.one (.word s a v (by simp_all) (by simp_all))

theorem reaches_writeReg (h : BitVec 3) (i : BitVec 5) (r : SReg) : Op.Reaches sci bar out (writeReg h i r) := by
  intro s t hs ht
  unfold writeReg at ht
  rw [Op.bind_ok (Op.get_run s)] at ht
  split at ht
  · exact reaches_softError _ s t hs ht
  · cases ht
    exact Reach.one (.reg s h i r (by simp_all))

theorem reaches_checkExplicit (r : SReg) : Op.Reaches sci bar out (checkExplicit r) := by
  unfold checkExplicit
  split
  · exact reaches_bind (reaches_softError _) fun _ => reaches_pure _
  · exact reaches_pure _

theorem reaches_checkImplicit (r : SReg) : Op.Reaches sci bar out (checkImplicit r) := by
  unfold checkImplicit
  split
  · exact reaches_critical _
  · split
    · exact reaches_bind (reaches_softError _) fun _ => reaches_pure _
    · exact reaches_pure _

theorem reaches_runCounter (r : SReg) : Op.Reaches sci bar out (runCounter r) := by
  unfold runCounter
  refine reaches_bind (reaches_checkImplicit _) fun _ => reaches_bind reaches_get fun _ => ?_
  split
  · exact reaches_pure _
  · split
    · exact reaches_pure _
    · exact reaches_bind (reaches_softError _) fun _ => reaches_pure _

/-! ### Entering and leaving an instruction -/

theorem reaches_begin : Op.Reaches sci bar out begin := reaches_quiet fun _ => rfl

theorem reaches_checkDesignators (f : Form) : Op.Reaches sci bar out (checkDesignators f) := by
  unfold checkDesignators
  split
  · exact reaches_pure _
  · exact reaches_refuse _

theorem reaches_beginForm (f : Form) : Op.Reaches sci bar out (beginForm f) :=
  reaches_bind reaches_begin fun _ => reaches_checkDesignators f

theorem reaches_noAc : Op.Reaches sci bar out noAc := reaches_quiet fun _ => rfl

theorem reaches_intervene : Op.Reaches sci bar out intervene := reaches_quiet fun _ => rfl

theorem reaches_endInstr (q b : Bool) : Op.Reaches sci bar out (endInstr q b) := reaches_update fun s => reach_ended s q b

theorem reaches_endSame (b : Bool) : Op.Reaches sci bar out (endSame b) := reaches_quiet fun _ => rfl

theorem reaches_unprogrammedTransfer (n : Nat) (i : Instr) : Op.Reaches sci bar out (unprogrammedTransfer n i) := by
  unfold unprogrammedTransfer
  refine reaches_bind reaches_get fun s => reaches_bind (reaches_checkImplicit _) fun _ => ?_
  split
  · exact reaches_bind (reaches_softError _) fun _ => reaches_quiet fun _ => rfl
  · exact reaches_bind (reaches_memWrite _ _) fun _ => reaches_quiet fun _ => rfl

theorem reaches_conclude (i : Instr) (q b p o : Bool) : Op.Reaches sci bar out (conclude i q b p o) := by
  unfold conclude
  split
  · exact reaches_unprogrammedTransfer _ _
  · split
    · exact reaches_unprogrammedTransfer _ _
    · exact reaches_endInstr _ _

theorem reaches_stall (w : Stall) : Op.Reaches sci bar out (stall w) :=
  reaches_bind reaches_fresh fun f => reaches_bind reaches_fresh fun g => reaches_update fun s =>
    (reach_backed s f g).trans (reach_waits _ w)

theorem reaches_jump (c : Ctr) (r : SReg) : Op.Reaches sci bar out (jump c r) := reaches_update fun s => reach_jumped s c r

theorem reaches_jumpSuppressed (c : Ctr) : Op.Reaches sci bar out (jumpSuppressed c) := reaches_update fun s => reach_historied s c

/-! ### Operand forms -/

theorem reaches_isInactive (x : Group) (d : Bool) : Op.Reaches sci bar out (isInactive x d) := by
  unfold isInactive
  try dsimp only
  repeat' first
      | with_reducible refine reaches_bind ?_ fun _ => ?_ | with_reducible exact reaches_pure _
      | with_reducible exact reaches_get | with_reducible exact reaches_refuse _ | with_reducible exact reaches_fresh
      | with_reducible exact reaches_freshBool | split

theorem reaches_index (x : Group) : Op.Reaches sci bar out (index x) := by
  unfold index
  try dsimp only
  repeat' first
      | with_reducible refine reaches_bind ?_ fun _ => ?_ | with_reducible exact reaches_pure _
      | with_reducible exact reaches_get | with_reducible exact reaches_refuse _ | with_reducible exact reaches_fresh
      | with_reducible exact reaches_freshBool | with_reducible exact reaches_checkExplicit _

theorem reaches_registerLoc (h : BitVec 3) (i inc : BitVec 5) (t : Bool) : Op.Reaches sci bar out (registerLoc h i inc t) := by
  unfold registerLoc
  try dsimp only
  repeat' first
      | with_reducible refine reaches_bind ?_ fun _ => ?_ | with_reducible exact reaches_pure _
      | with_reducible exact reaches_get | with_reducible exact reaches_refuse _ | with_reducible exact reaches_fresh
      | with_reducible exact reaches_freshBool | with_reducible exact reaches_checkExplicit _
      | with_reducible exact reaches_stepRegister _ _ _ | split

theorem reaches_locate (x : Group) (d : Bool) : Op.Reaches sci bar out (locate x d) := by
  unfold locate
  try dsimp only
  repeat' first
      | with_reducible refine reaches_bind ?_ fun _ => ?_ | with_reducible exact reaches_pure _
      | with_reducible exact reaches_get | with_reducible exact reaches_refuse _ | with_reducible exact reaches_fresh
      | with_reducible exact reaches_freshBool | with_reducible exact reaches_isInactive _ _
      | with_reducible exact reaches_index _ | with_reducible exact reaches_registerLoc _ _ _ _ | split

theorem reaches_fetch (l : Loc) : Op.Reaches sci bar out (fetch l) := by
  unfold fetch
  try dsimp only
  repeat' first
      | with_reducible refine reaches_bind ?_ fun _ => ?_ | with_reducible exact reaches_pure _
      | with_reducible exact reaches_get | with_reducible exact reaches_refuse _ | with_reducible exact reaches_fresh
      | with_reducible exact reaches_freshBool | with_reducible exact reaches_memRead _
      | with_reducible exact reaches_stepRegister _ _ _ | split

theorem reaches_peek (l : Loc) : Op.Reaches sci bar out (peek l) := by
  unfold peek
  try dsimp only
  repeat' first
      | with_reducible refine reaches_bind ?_ fun _ => ?_ | with_reducible exact reaches_pure _
      | with_reducible exact reaches_get | with_reducible exact reaches_refuse _ | with_reducible exact reaches_fresh
      | with_reducible exact reaches_freshBool | with_reducible exact reaches_memRead _ | split

theorem reaches_store (l : Loc) (v : MWord) : Op.Reaches sci bar out (store l v) := by
  unfold store
  try dsimp only
  repeat' first
      | with_reducible refine reaches_bind ?_ fun _ => ?_ | with_reducible exact reaches_pure _
      | with_reducible exact reaches_get | with_reducible exact reaches_refuse _ | with_reducible exact reaches_fresh
      | with_reducible exact reaches_freshBool | ((with_reducible apply reaches_quiet); (intro _; rfl)) | with_reducible exact reaches_memWrite _ _
      | with_reducible exact reaches_writeReg _ _ _ | split

theorem reaches_readOperand (x : Group) (d : Bool) : Op.Reaches sci bar out (readOperand x d) := by
  unfold readOperand
  try dsimp only
  repeat' first
      | with_reducible refine reaches_bind ?_ fun _ => ?_ | with_reducible exact reaches_pure _
      | with_reducible exact reaches_get | with_reducible exact reaches_refuse _ | with_reducible exact reaches_fresh
      | with_reducible exact reaches_freshBool | with_reducible exact reaches_locate _ _ | with_reducible exact reaches_fetch _

theorem reaches_writeResult (x : Group) (d : Bool) (v : MWord) : Op.Reaches sci bar out (writeResult x d v) := by
  unfold writeResult
  try dsimp only
  repeat' first
      | with_reducible refine reaches_bind ?_ fun _ => ?_ | with_reducible exact reaches_pure _
      | with_reducible exact reaches_get | with_reducible exact reaches_refuse _ | with_reducible exact reaches_fresh
      | with_reducible exact reaches_freshBool | with_reducible exact reaches_locate _ _
      | with_reducible exact reaches_store _ _

theorem reaches_readExtended (x : Group) (d : Bool) : Op.Reaches sci bar out (readExtended x d) := by
  unfold readExtended
  try dsimp only
  repeat' first
      | with_reducible refine reaches_bind ?_ fun _ => ?_ | with_reducible exact reaches_pure _
      | with_reducible exact reaches_get | with_reducible exact reaches_refuse _ | with_reducible exact reaches_fresh
      | with_reducible exact reaches_freshBool | with_reducible exact reaches_locate _ _ | with_reducible exact reaches_fetch _
      | with_reducible exact reaches_stepRegister _ _ _ | split

theorem reaches_writeExtended (x : Group) (d : Bool) (v : MWord) : Op.Reaches sci bar out (writeExtended x d v) := by
  unfold writeExtended
  try dsimp only
  repeat' first
      | with_reducible refine reaches_bind ?_ fun _ => ?_ | with_reducible exact reaches_pure _
      | with_reducible exact reaches_get | with_reducible exact reaches_refuse _ | with_reducible exact reaches_fresh
      | with_reducible exact reaches_freshBool | with_reducible exact reaches_locate _ _
      | with_reducible exact reaches_store _ _ | with_reducible exact reaches_writeReg _ _ _ | split

theorem reaches_plainAddress (x : Group) : Op.Reaches sci bar out (plainAddress x) := by
  unfold plainAddress
  try dsimp only
  repeat' first
      | with_reducible refine reaches_bind ?_ fun _ => ?_ | with_reducible exact reaches_pure _
      | with_reducible exact reaches_get | with_reducible exact reaches_refuse _ | with_reducible exact reaches_fresh
      | with_reducible exact reaches_freshBool | with_reducible exact reaches_index _ | split

theorem reaches_loadMask (f : SReg → Nat) : Op.Reaches sci bar out (loadMask f) := by
  unfold loadMask
  try dsimp only
  repeat' first
      | with_reducible refine reaches_bind ?_ fun _ => ?_ | with_reducible exact reaches_pure _
      | with_reducible exact reaches_get | with_reducible exact reaches_refuse _ | with_reducible exact reaches_fresh
      | with_reducible exact reaches_freshBool | ((with_reducible apply reaches_quiet); (intro _; rfl))
      | with_reducible exact reaches_checkImplicit _ | with_reducible exact reaches_memRead _

theorem reaches_spoilZero (l : Loc) : Op.Reaches sci bar out (spoilZero l) := by
  unfold spoilZero
  split
  · exact reaches_bind reaches_tick fun _ => reaches_update fun s => reach_zeroSpoiled s _
  · exact reaches_pure _

theorem reaches_maskOf (k : Option (BitVec 5)) : Op.Reaches sci bar out (maskOf k) := by
  unfold maskOf
  try dsimp only
  repeat' first
      | with_reducible refine reaches_bind ?_ fun _ => ?_ | with_reducible exact reaches_pure _
      | with_reducible exact reaches_get | with_reducible exact reaches_refuse _ | with_reducible exact reaches_fresh
      | with_reducible exact reaches_freshBool | with_reducible exact reaches_loadMask _ | split

theorem reaches_deliver (m : Option MWord) (l : Loc) (w : Word) : Op.Reaches sci bar out (deliver m l w) := by
  unfold deliver
  try dsimp only
  repeat' first
      | with_reducible refine reaches_bind ?_ fun _ => ?_ | with_reducible exact reaches_pure _
      | with_reducible exact reaches_get | with_reducible exact reaches_refuse _ | with_reducible exact reaches_fresh
      | with_reducible exact reaches_freshBool | with_reducible exact reaches_store _ _ | with_reducible exact reaches_peek _
      | split

theorem reaches_needActive (x : Group) (d : Bool) : Op.Reaches sci bar out (needActive x d) := by
  unfold needActive
  try dsimp only
  repeat' first
      | with_reducible refine reaches_bind ?_ fun _ => ?_ | with_reducible exact reaches_pure _
      | with_reducible exact reaches_get | with_reducible exact reaches_refuse _ | with_reducible exact reaches_fresh
      | with_reducible exact reaches_freshBool | with_reducible exact reaches_isInactive _ _ | split

theorem reaches_counterFrom (h : BitVec 3) (i inc : BitVec 5) (c : Ctr) : Op.Reaches sci bar out (counterFrom h i inc c) := by
  unfold counterFrom
  try dsimp only
  repeat' first
      | with_reducible refine reaches_bind ?_ fun _ => ?_ | with_reducible exact reaches_pure _
      | with_reducible exact reaches_get | with_reducible exact reaches_refuse _ | with_reducible exact reaches_fresh
      | with_reducible exact reaches_freshBool | with_reducible exact reaches_checkExplicit _
      | with_reducible exact reaches_stepRegister _ _ _ | split

theorem reaches_sequenceTarget (x : Group) (d : Bool) (c : Ctr) : Op.Reaches sci bar out (sequenceTarget x d c) := by
  unfold sequenceTarget
  try dsimp only
  repeat' first
      | with_reducible refine reaches_bind ?_ fun _ => ?_ | with_reducible exact reaches_pure _
      | with_reducible exact reaches_get | with_reducible exact reaches_refuse _ | with_reducible exact reaches_fresh
      | with_reducible exact reaches_freshBool | with_reducible exact reaches_isInactive _ _
      | with_reducible exact reaches_index _ | with_reducible exact reaches_counterFrom _ _ _ _ | split

theorem reaches_concludeJump (i : Instr) (q : Bool) (c : Group) (d m b h : Bool) : Op.Reaches sci bar out (concludeJump i q c d m b h) := by
  unfold concludeJump
  try dsimp only
  repeat' first
      | with_reducible refine reaches_bind ?_ fun _ => ?_ | with_reducible exact reaches_pure _
      | with_reducible exact reaches_get | with_reducible exact reaches_refuse _ | with_reducible exact reaches_fresh
      | with_reducible exact reaches_freshBool | with_reducible exact reaches_isInactive _ _
      | with_reducible exact reaches_endInstr _ _ | with_reducible exact reaches_unprogrammedTransfer _ _
      | with_reducible exact reaches_sequenceTarget _ _ _ | with_reducible exact reaches_jump _ _
      | with_reducible exact reaches_jumpSuppressed _ | split

theorem reaches_auInit (x : Group) (d : Bool) : Op.Reaches sci bar out (auInit x d) := by
  unfold auInit
  try dsimp only
  repeat' first
      | with_reducible refine reaches_bind ?_ fun _ => ?_ | with_reducible exact reaches_pure _
      | with_reducible exact reaches_get | with_reducible exact reaches_refuse _ | with_reducible exact reaches_fresh
      | with_reducible exact reaches_freshBool | with_reducible exact reaches_isInactive _ _
      | with_reducible exact reaches_index _ | with_reducible exact reaches_checkExplicit _
      | with_reducible exact reaches_stepRegister _ _ _ | split

theorem reaches_loadAu (i : BitVec 5) (r : SReg) : Op.Reaches sci bar out (loadAu i r) := reaches_setOwn i r

theorem reaches_nextAu (i : BitVec 5) : Op.Reaches sci bar out (nextAu i) := by
  unfold nextAu
  try dsimp only
  repeat' first
      | with_reducible refine reaches_bind ?_ fun _ => ?_ | with_reducible exact reaches_pure _
      | with_reducible exact reaches_get | with_reducible exact reaches_refuse _ | with_reducible exact reaches_fresh
      | with_reducible exact reaches_freshBool | with_reducible exact reaches_stepCounter _ _
      | with_reducible exact reaches_setOwn _ _

theorem reaches_auLoc (b : Bool) (i : BitVec 5) : Op.Reaches sci bar out (auLoc b i) := by
  unfold auLoc
  try dsimp only
  repeat' first
      | with_reducible refine reaches_bind ?_ fun _ => ?_ | with_reducible exact reaches_pure _
      | with_reducible exact reaches_get | with_reducible exact reaches_refuse _ | with_reducible exact reaches_fresh
      | with_reducible exact reaches_freshBool | with_reducible exact reaches_checkImplicit _
      | with_reducible exact reaches_registerLoc _ _ _ _ | split

/-! ### Arithmetic -/

theorem reaches_retrieve (k : AcKind) (m : Option MWord) : Op.Reaches sci bar out (retrieve k m) := by
  unfold retrieve
  try dsimp only
  repeat' first
      | with_reducible refine reaches_bind ?_ fun _ => ?_ | with_reducible exact reaches_pure _
      | with_reducible exact reaches_get | with_reducible exact reaches_refuse _ | with_reducible exact reaches_fresh
      | with_reducible exact reaches_freshBool | split

theorem reaches_operand (e : Bool) (m : Option MWord) (x : Group) (d : Bool) : Op.Reaches sci bar out (operand e m x d) := by
  unfold operand
  try dsimp only
  repeat' first
      | with_reducible refine reaches_bind ?_ fun _ => ?_ | with_reducible exact reaches_pure _
      | with_reducible exact reaches_get | with_reducible exact reaches_refuse _ | with_reducible exact reaches_fresh
      | with_reducible exact reaches_freshBool | with_reducible exact reaches_readExtended _ _
      | with_reducible exact reaches_readOperand _ _ | split

theorem reaches_firstOperand (k : AcKind) (e : Bool) (m : Option MWord) (x : Group) (d i : Bool) :
    Op.Reaches sci bar out (firstOperand k e m x d i) := by
  unfold firstOperand
  try dsimp only
  repeat' first
      | with_reducible refine reaches_bind ?_ fun _ => ?_ | with_reducible exact reaches_pure _
      | with_reducible exact reaches_get | with_reducible exact reaches_refuse _ | with_reducible exact reaches_fresh
      | with_reducible exact reaches_freshBool | with_reducible exact reaches_retrieve _ _
      | with_reducible exact reaches_operand _ _ _ _ | split

theorem reaches_resolve (x : Alu) : Op.Reaches sci bar out (resolve x) := by
  unfold resolve
  try dsimp only
  repeat' first
      | with_reducible refine reaches_bind ?_ fun _ => ?_ | with_reducible exact reaches_pure _
      | with_reducible exact reaches_get | with_reducible exact reaches_refuse _ | with_reducible exact reaches_fresh
      | with_reducible exact reaches_freshBool | with_reducible exact reaches_offError _ | split

theorem reaches_leave (k : AcKind) (m : Option MWord) (r : Sum) (d : Bool) : Op.Reaches sci bar out (leave k m r d) := by
  exact reaches_quiet fun _ => rfl

theorem reaches_deliverSum (k : AcKind) (e : Bool) (m : Option MWord) (l : Loc) (w : Word) :
    Op.Reaches sci bar out (deliverSum k e m l w) := by
  unfold deliverSum
  try dsimp only
  repeat' first
      | with_reducible refine reaches_bind ?_ fun _ => ?_ | with_reducible exact reaches_pure _
      | with_reducible exact reaches_get | with_reducible exact reaches_refuse _ | with_reducible exact reaches_fresh
      | with_reducible exact reaches_freshBool | with_reducible exact reaches_writeReg _ _ _
      | with_reducible exact reaches_deliver _ _ _ | split

theorem reaches_addOp (i : Instr) (k : Adder) (e : Bool) (f : Form) : Op.Reaches sci bar out (addOp i k e f) := by
  unfold addOp
  try dsimp only
  repeat' first
      | with_reducible refine reaches_bind ?_ fun _ => ?_ | with_reducible exact reaches_pure _
      | with_reducible exact reaches_get | with_reducible exact reaches_refuse _ | with_reducible exact reaches_fresh
      | with_reducible exact reaches_freshBool | with_reducible exact reaches_begin | with_reducible exact reaches_beginForm _
      | with_reducible exact reaches_isInactive _ _ | with_reducible exact reaches_offError _
      | with_reducible exact reaches_maskOf _ | with_reducible exact reaches_firstOperand _ _ _ _ _ _
      | with_reducible exact reaches_operand _ _ _ _ | with_reducible exact reaches_resolve _
      | with_reducible exact reaches_leave _ _ _ _ | with_reducible exact reaches_conclude _ _ _ _ _
      | with_reducible exact reaches_locate _ _ | with_reducible exact reaches_deliverSum _ _ _ _ _ | split

theorem reaches_extendedOp (i : Instr) (k : Adder) (f : Gen) : Op.Reaches sci bar out (extendedOp i k f) := by
  unfold extendedOp
  try dsimp only
  repeat' first
      | with_reducible refine reaches_bind ?_ fun _ => ?_ | with_reducible exact reaches_pure _
      | with_reducible exact reaches_get | with_reducible exact reaches_refuse _ | with_reducible exact reaches_fresh
      | with_reducible exact reaches_freshBool | with_reducible exact reaches_addOp _ _ _ _
      | with_reducible exact reaches_offError _ | split

theorem kept_product (s : State) (ac : Word) (g : Bool) (st : AcState) (lop : Word) (h : Bool) (k : Option Word) (mr : Word) (n : Nat) :
    ({ s with ac := ac, acSign := g, acState := st, lop := lop, lopHeld := h, heldMask := k, mr := mr, free := n } : State).kept =
      s.kept := rfl

theorem kept_multiplied (s : State) (g : Bool) (hi lo : Nat) : (s.multiplied g hi lo).kept = s.kept :=
  kept_product s _ _ _ _ _ _ _ _

theorem reaches_tabulate (w : Nat → Word) (n : Nat) (hn : n ≤ 16) : Op.Reaches sci bar out (tabulate w n) := by
  induction n with
  | zero => exact reaches_pure _
  | succ n ih =>
    exact reaches_bind (ih (by omega)) fun _ => reaches_bind reaches_tick fun _ => reaches_update fun s =>
      reach_multiple s w n (by omega)

theorem reaches_scratch (w : Nat → Word) (n : Nat) (hn : n ≤ 16) : Op.Reaches sci bar out (scratch w n) :=
  reaches_bind (reaches_tabulate w n hn) fun _ => reaches_setOwn _ _

theorem reaches_multiply (i : Instr) (f : Gen) (z : Nat) (hz : z ≤ 16) (a b : MWord) (w : Nat → Word) (g : Bool) (hi lo : Nat) :
    Op.Reaches sci bar out (multiply i f z a b w g hi lo) :=
  reaches_bind (reaches_scratch w z hz) fun _ => reaches_bind (reaches_locate _ _) fun _ =>
    reaches_bind (reaches_store _ _) fun _ => reaches_bind (reaches_quiet fun s => kept_multiplied s _ _ _) fun _ =>
      reaches_conclude _ _ _ _ _

theorem reaches_multiplyOperands (f : Gen) : Op.Reaches sci bar out (multiplyOperands f) := by
  unfold multiplyOperands
  try dsimp only
  repeat' first
      | with_reducible refine reaches_bind ?_ fun _ => ?_ | with_reducible exact reaches_pure _
      | with_reducible exact reaches_get | with_reducible exact reaches_refuse _ | with_reducible exact reaches_fresh
      | with_reducible exact reaches_freshBool | with_reducible exact reaches_begin | with_reducible exact reaches_beginForm _
      | with_reducible exact reaches_needActive _ _ | with_reducible exact reaches_offError _
      | with_reducible exact reaches_readOperand _ _ | split

theorem reaches_multiplyBinary (i : Instr) (f : Gen) : Op.Reaches sci bar out (multiplyBinary i f) := by
  unfold multiplyBinary
  try dsimp only
  repeat' first
      | with_reducible refine reaches_bind ?_ fun _ => ?_ | with_reducible exact reaches_pure _
      | with_reducible exact reaches_get | with_reducible exact reaches_refuse _ | with_reducible exact reaches_fresh
      | with_reducible exact reaches_freshBool | with_reducible exact reaches_multiplyOperands _
      | with_reducible exact reaches_multiply _ _ _ (by omega) _ _ _ _ _ _

theorem reaches_multiplyDecimal (i : Instr) (f : Gen) : Op.Reaches sci bar out (multiplyDecimal i f) := by
  unfold multiplyDecimal
  try dsimp only
  repeat' first
      | with_reducible refine reaches_bind ?_ fun _ => ?_ | with_reducible exact reaches_pure _
      | with_reducible exact reaches_get | with_reducible exact reaches_refuse _ | with_reducible exact reaches_fresh
      | with_reducible exact reaches_freshBool | ((with_reducible apply reaches_quiet); (intro _; rfl))
      | with_reducible exact reaches_multiplyOperands _ | with_reducible exact reaches_multiply _ _ _ (by omega) _ _ _ _ _ _
      | split

theorem reaches_accumulateStep (d : Bool) (t : Total) (w : Word) : Op.Reaches sci bar out (accumulateStep d t w) := by
  unfold accumulateStep
  try dsimp only
  repeat' first
      | with_reducible refine reaches_bind ?_ fun _ => ?_ | with_reducible exact reaches_pure _
      | with_reducible exact reaches_get | with_reducible exact reaches_refuse _ | with_reducible exact reaches_fresh
      | with_reducible exact reaches_freshBool | with_reducible exact reaches_offError _ | split

theorem reaches_accumulateRest (dec : Bool) (x : Group) (d : Bool) (n : Nat) (t : Total) (b : Bool) :
    Op.Reaches sci bar out (accumulateRest dec x d n t b) := by
  induction n generalizing t b with
  | zero => exact reaches_pure _
  | succ n ih =>
    exact reaches_bind (reaches_readOperand _ _) fun _ => reaches_bind (reaches_accumulateStep _ _ _) fun _ => ih _ _

theorem reaches_accumulate (i : Instr) (d : Bool) (f : Gen) : Op.Reaches sci bar out (accumulate i d f) := by
  unfold accumulate
  try dsimp only
  repeat' first
      | with_reducible refine reaches_bind ?_ fun _ => ?_ | with_reducible exact reaches_pure _
      | with_reducible exact reaches_get | with_reducible exact reaches_refuse _ | with_reducible exact reaches_fresh
      | with_reducible exact reaches_freshBool | ((with_reducible apply reaches_quiet); (intro _; rfl))
      | with_reducible exact reaches_begin | with_reducible exact reaches_beginForm _ | with_reducible exact reaches_intervene | with_reducible exact reaches_endInstr _ _
      | with_reducible exact reaches_needActive _ _ | with_reducible exact reaches_readOperand _ _
      | with_reducible exact reaches_accumulateRest _ _ _ _ _ _ | with_reducible exact reaches_locate _ _
      | with_reducible exact reaches_store _ _ | with_reducible exact reaches_conclude _ _ _ _ _ | split

/-! ### Logical, shift, transfer and decision instructions -/

theorem reaches_leaveLogical (a l : Word) (h : Bool) : Op.Reaches sci bar out (leaveLogical a l h) := by
  unfold leaveLogical
  try dsimp only
  repeat' first
      | with_reducible refine reaches_bind ?_ fun _ => ?_ | with_reducible exact reaches_pure _
      | with_reducible exact reaches_get | with_reducible exact reaches_refuse _ | with_reducible exact reaches_fresh
      | with_reducible exact reaches_freshBool | ((with_reducible apply reaches_quiet); (intro _; rfl))

theorem reaches_logicalOp (i : Instr) (c : Word → Word → Word) (f : Form) : Op.Reaches sci bar out (logicalOp i c f) := by
  unfold logicalOp
  try dsimp only
  repeat' first
      | with_reducible refine reaches_bind ?_ fun _ => ?_ | with_reducible exact reaches_pure _
      | with_reducible exact reaches_get | with_reducible exact reaches_refuse _ | with_reducible exact reaches_fresh
      | with_reducible exact reaches_freshBool | with_reducible exact reaches_begin | with_reducible exact reaches_beginForm _
      | with_reducible exact reaches_needActive _ _ | with_reducible exact reaches_maskOf _
      | with_reducible exact reaches_readOperand _ _ | ((with_reducible apply reaches_quiet); (intro _; rfl))
      | with_reducible exact reaches_locate _ _ | with_reducible exact reaches_deliver _ _ _
      | with_reducible exact reaches_conclude _ _ _ _ _

theorem reaches_extractSource (f : Gen) : Op.Reaches sci bar out (extractSource f) := by
  unfold extractSource
  repeat' first
      | with_reducible refine reaches_bind ?_ fun _ => ?_ | with_reducible exact reaches_pure _
      | with_reducible exact reaches_fresh | with_reducible exact reaches_isInactive _ _
      | with_reducible exact reaches_readOperand _ _ | split

theorem reaches_extractMask (f : Gen) : Op.Reaches sci bar out (extractMask f) := by
  unfold extractMask
  repeat' first
      | with_reducible refine reaches_bind ?_ fun _ => ?_ | with_reducible exact reaches_pure _
      | with_reducible exact reaches_get | with_reducible exact reaches_isInactive _ _
      | with_reducible exact reaches_readOperand _ _ | split

theorem reaches_extractOp (i : Instr) (f : Gen) : Op.Reaches sci bar out (extractOp i f) := by
  unfold extractOp
  try dsimp only
  repeat' first
      | with_reducible refine reaches_bind ?_ fun _ => ?_ | with_reducible exact reaches_pure _
      | with_reducible exact reaches_get | with_reducible exact reaches_refuse _ | with_reducible exact reaches_fresh
      | with_reducible exact reaches_freshBool | ((with_reducible apply reaches_quiet); (intro _; rfl))
      | with_reducible exact reaches_extractSource _ | with_reducible exact reaches_extractMask _
      | with_reducible exact reaches_begin | with_reducible exact reaches_beginForm _ | with_reducible exact reaches_isInactive _ _
      | with_reducible exact reaches_readOperand _ _ | with_reducible exact reaches_leaveLogical _ _ _
      | with_reducible exact reaches_conclude _ _ _ _ _ | with_reducible exact reaches_locate _ _
      | with_reducible exact reaches_store _ _ | with_reducible exact reaches_spoilZero _ | split

theorem reaches_substituteOp (i : Instr) (f : Gen) : Op.Reaches sci bar out (substituteOp i f) := by
  unfold substituteOp
  try dsimp only
  repeat' first
      | with_reducible refine reaches_bind ?_ fun _ => ?_ | with_reducible exact reaches_pure _
      | with_reducible exact reaches_get | with_reducible exact reaches_refuse _ | with_reducible exact reaches_fresh
      | with_reducible exact reaches_freshBool | ((with_reducible apply reaches_quiet); (intro _; rfl))
      | with_reducible exact reaches_begin | with_reducible exact reaches_beginForm _ | with_reducible exact reaches_needActive _ _
      | with_reducible exact reaches_readOperand _ _ | with_reducible exact reaches_leaveLogical _ _ _
      | with_reducible exact reaches_conclude _ _ _ _ _ | with_reducible exact reaches_locate _ _
      | with_reducible exact reaches_store _ _ | with_reducible exact reaches_peek _ | with_reducible exact reaches_spoilZero _

theorem reaches_shiftOperands (f : Gen) : Op.Reaches sci bar out (shiftOperands f) := by
  unfold shiftOperands
  try dsimp only
  repeat' first
      | with_reducible refine reaches_bind ?_ fun _ => ?_ | with_reducible exact reaches_pure _
      | with_reducible exact reaches_get | with_reducible exact reaches_refuse _ | with_reducible exact reaches_fresh
      | with_reducible exact reaches_freshBool | with_reducible exact reaches_begin | with_reducible exact reaches_beginForm _
      | with_reducible exact reaches_needActive _ _ | with_reducible exact reaches_readOperand _ _
      | with_reducible exact reaches_loadMask _ | split

theorem reaches_shiftOp (i : Instr) (r : Word → Nat → Word) (k : Bool) (f : Gen) : Op.Reaches sci bar out (shiftOp i r k f) := by
  unfold shiftOp
  try dsimp only
  repeat' first
      | with_reducible refine reaches_bind ?_ fun _ => ?_ | with_reducible exact reaches_pure _
      | with_reducible exact reaches_get | with_reducible exact reaches_refuse _ | with_reducible exact reaches_fresh
      | with_reducible exact reaches_freshBool | with_reducible exact reaches_shiftOperands _
      | with_reducible exact reaches_leaveLogical _ _ _ | with_reducible exact reaches_conclude _ _ _ _ _
      | with_reducible exact reaches_locate _ _ | with_reducible exact reaches_store _ _ | with_reducible exact reaches_peek _
      | with_reducible exact reaches_spoilZero _ | split

theorem reaches_selectRegister (h : BitVec 3) (t : Nat) (c : Ctr) : Op.Reaches sci bar out (selectRegister h t c) := by
  unfold selectRegister
  try dsimp only
  repeat' first
      | with_reducible refine reaches_bind ?_ fun _ => ?_ | with_reducible exact reaches_pure _
      | with_reducible exact reaches_get | with_reducible exact reaches_refuse _ | with_reducible exact reaches_fresh
      | with_reducible exact reaches_freshBool | with_reducible exact reaches_counterFrom _ _ _ _

theorem reaches_selectTarget (x : Group) (d : Bool) (k : Nat) (c : Ctr) : Op.Reaches sci bar out (selectTarget x d k c) := by
  unfold selectTarget
  try dsimp only
  repeat' first
      | with_reducible refine reaches_bind ?_ fun _ => ?_ | with_reducible exact reaches_pure _
      | with_reducible exact reaches_get | with_reducible exact reaches_refuse _ | with_reducible exact reaches_fresh
      | with_reducible exact reaches_freshBool | with_reducible exact reaches_index _
      | with_reducible exact reaches_selectRegister _ _ _ | split

theorem reaches_selectOp (i : Instr) (f : Gen) : Op.Reaches sci bar out (selectOp i f) := by
  unfold selectOp
  try dsimp only
  repeat' first
      | with_reducible refine reaches_bind ?_ fun _ => ?_ | with_reducible exact reaches_pure _
      | with_reducible exact reaches_get | with_reducible exact reaches_refuse _ | with_reducible exact reaches_fresh
      | with_reducible exact reaches_freshBool | with_reducible exact reaches_shiftOperands _
      | with_reducible exact reaches_leaveLogical _ _ _ | with_reducible exact reaches_selectTarget _ _ _ _
      | with_reducible exact reaches_unprogrammedTransfer _ _ | with_reducible exact reaches_jump _ _
      | with_reducible exact reaches_jumpSuppressed _ | split

theorem reaches_deliverCopy (m : Option MWord) (l : Loc) (w : MWord) : Op.Reaches sci bar out (deliverCopy m l w) := by
  unfold deliverCopy
  try dsimp only
  repeat' first
      | with_reducible refine reaches_bind ?_ fun _ => ?_ | with_reducible exact reaches_pure _
      | with_reducible exact reaches_get | with_reducible exact reaches_refuse _ | with_reducible exact reaches_fresh
      | with_reducible exact reaches_freshBool | with_reducible exact reaches_store _ _
      | with_reducible exact reaches_deliver _ _ _ | split

theorem reaches_transferOp (i : Instr) (f : Form) : Op.Reaches sci bar out (transferOp i f) := by
  unfold transferOp
  try dsimp only
  repeat' first
      | with_reducible refine reaches_bind ?_ fun _ => ?_ | with_reducible exact reaches_pure _
      | with_reducible exact reaches_get | with_reducible exact reaches_refuse _ | with_reducible exact reaches_fresh
      | with_reducible exact reaches_freshBool | with_reducible exact reaches_begin | with_reducible exact reaches_beginForm _
      | with_reducible exact reaches_needActive _ _ | with_reducible exact reaches_noAc | with_reducible exact reaches_maskOf _
      | with_reducible exact reaches_readOperand _ _ | with_reducible exact reaches_locate _ _
      | with_reducible exact reaches_deliverCopy _ _ _ | with_reducible exact reaches_conclude _ _ _ _ _

theorem reaches_retrieveLow (m : Option MWord) : Op.Reaches sci bar out (retrieveLow m) := by
  unfold retrieveLow
  try dsimp only
  repeat' first
      | with_reducible refine reaches_bind ?_ fun _ => ?_ | with_reducible exact reaches_pure _
      | with_reducible exact reaches_get | with_reducible exact reaches_refuse _ | with_reducible exact reaches_fresh
      | with_reducible exact reaches_freshBool | split

theorem reaches_transferPart (m : Option MWord) (f : Form) (a b : Bool) : Op.Reaches sci bar out (transferPart m f a b) := by
  unfold transferPart
  try dsimp only
  repeat' first
      | with_reducible refine reaches_bind ?_ fun _ => ?_ | with_reducible exact reaches_pure _
      | with_reducible exact reaches_get | with_reducible exact reaches_refuse _ | with_reducible exact reaches_fresh
      | with_reducible exact reaches_freshBool | ((with_reducible apply reaches_quiet); (intro _; rfl))
      | with_reducible exact reaches_noAc | with_reducible exact reaches_retrieveLow _
      | with_reducible exact reaches_readOperand _ _ | with_reducible exact reaches_locate _ _
      | with_reducible exact reaches_deliver _ _ _ | with_reducible exact reaches_deliverCopy _ _ _ | split

theorem reaches_transferJumpOp (i : Instr) (f : Form) : Op.Reaches sci bar out (transferJumpOp i f) := by
  unfold transferJumpOp
  try dsimp only
  repeat' first
      | with_reducible refine reaches_bind ?_ fun _ => ?_ | with_reducible exact reaches_pure _
      | with_reducible exact reaches_get | with_reducible exact reaches_refuse _ | with_reducible exact reaches_fresh
      | with_reducible exact reaches_freshBool | with_reducible exact reaches_begin | with_reducible exact reaches_beginForm _
      | with_reducible exact reaches_isInactive _ _ | with_reducible exact reaches_maskOf _
      | with_reducible exact reaches_transferPart _ _ _ _ | with_reducible exact reaches_concludeJump _ _ _ _ _ _ _

theorem reaches_multipleTransfers (f : Gen) (n : Nat) (b : Bool) : Op.Reaches sci bar out (multipleTransfers f n b) := by
  induction n generalizing b with
  | zero => exact reaches_pure _
  | succ n ih => exact reaches_bind (reaches_readOperand _ _) fun _ => reaches_bind (reaches_writeResult _ _ _) fun _ => ih _

theorem reaches_multipleOp (i : Instr) (f : Gen) : Op.Reaches sci bar out (multipleOp i f) := by
  unfold multipleOp
  try dsimp only
  repeat' first
      | with_reducible refine reaches_bind ?_ fun _ => ?_ | with_reducible exact reaches_pure _
      | with_reducible exact reaches_get | with_reducible exact reaches_refuse _ | with_reducible exact reaches_fresh
      | with_reducible exact reaches_freshBool | with_reducible exact reaches_begin | with_reducible exact reaches_beginForm _
      | with_reducible exact reaches_needActive _ _ | with_reducible exact reaches_noAc
      | with_reducible exact reaches_multipleTransfers _ _ _ | with_reducible exact reaches_conclude _ _ _ _ _

theorem reaches_loadCounters (f : Gen) : Op.Reaches sci bar out (loadCounters f) := by
  unfold loadCounters
  try dsimp only
  repeat' first
      | with_reducible refine reaches_bind ?_ fun _ => ?_ | with_reducible exact reaches_pure _
      | with_reducible exact reaches_get | with_reducible exact reaches_refuse _ | with_reducible exact reaches_fresh
      | with_reducible exact reaches_freshBool | with_reducible exact reaches_auInit _ _
      | with_reducible exact reaches_loadAu _ _ | split

theorem reaches_referred (o : Bool) (w : MWord) : Op.Reaches sci bar out (referred o w) := by
  unfold referred
  split
  · exact reaches_bind reaches_get fun _ => reaches_bind (reaches_quiet fun _ => rfl) fun _ => reaches_pure _
  · exact reaches_pure _

theorem reaches_auRead (b : Bool) (i : BitVec 5) : Op.Reaches sci bar out (auRead b i) :=
  reaches_bind reaches_get fun _ => reaches_bind (reaches_auLoc _ _) fun _ => reaches_bind (reaches_fetch _) fun _ => reaches_referred _ _

theorem reaches_auWrite (b : Bool) (i : BitVec 5) (w : MWord) : Op.Reaches sci bar out (auWrite b i w) :=
  reaches_bind reaches_get fun _ => reaches_bind (reaches_auLoc _ _) fun _ => reaches_bind (reaches_referred _ _) fun _ => reaches_store _ _

theorem reaches_transferWord (a c : Bool) : Op.Reaches sci bar out (transferWord a c) := by
  unfold transferWord
  try dsimp only
  repeat' first
      | with_reducible refine reaches_bind ?_ fun _ => ?_ | with_reducible exact reaches_pure _
      | with_reducible exact reaches_get | with_reducible exact reaches_refuse _ | with_reducible exact reaches_fresh
      | with_reducible exact reaches_freshBool | with_reducible exact reaches_auRead _ _
      | with_reducible exact reaches_auWrite _ _ _ | with_reducible exact reaches_nextAu _

theorem reaches_groupTransfers (a c : Bool) (n : Nat) (b : Bool) : Op.Reaches sci bar out (groupTransfers a c n b) := by
  induction n generalizing b with
  | zero => exact reaches_pure _
  | succ n ih => exact reaches_bind (reaches_transferWord _ _) fun _ => ih _

theorem reaches_groupOp (i : Instr) (f : Gen) : Op.Reaches sci bar out (groupOp i f) := by
  unfold groupOp
  try dsimp only
  repeat' first
      | with_reducible refine reaches_bind ?_ fun _ => ?_ | with_reducible exact reaches_pure _
      | with_reducible exact reaches_get | with_reducible exact reaches_refuse _ | with_reducible exact reaches_fresh
      | with_reducible exact reaches_freshBool | with_reducible exact reaches_begin | with_reducible exact reaches_beginForm _ | with_reducible exact reaches_noAc
      | with_reducible exact reaches_loadCounters _ | with_reducible exact reaches_groupTransfers _ _ _ _
      | with_reducible exact reaches_conclude _ _ _ _ _

theorem reaches_recordWord (q : SReg) (w : MWord) : Op.Reaches sci bar out (recordWord q w) :=
  reaches_bind (reaches_memWrite _ _) fun _ => reaches_bind (reaches_nextAu _) fun _ => reaches_nextAu _

theorem reaches_recordStopped (q : SReg) (w : MWord) : Op.Reaches sci bar out (recordStopped q w) := by
  unfold recordStopped
  refine reaches_bind reaches_freshBool fun _ => reaches_bind reaches_get fun _ => ?_
  split
  · exact reaches_recordWord _ _
  · exact reaches_pure _

theorem reaches_recordTransfers (p : Word → Bool) (n : Nat) : Op.Reaches sci bar out (recordTransfers p n) := by
  induction n with
  | zero => exact reaches_fail _
  | succ n ih =>
    unfold recordTransfers
    try dsimp only
    repeat' first
        | with_reducible refine reaches_bind ?_ fun _ => ?_ | with_reducible exact ih | with_reducible exact reaches_pure _
        | with_reducible exact reaches_get | with_reducible exact reaches_softError _ | with_reducible exact reaches_freshBool
        | with_reducible exact reaches_runCounter _ | with_reducible exact reaches_memRead _ | with_reducible exact reaches_recordWord _ _
        | with_reducible exact reaches_recordStopped _ _ | split

theorem reaches_recordOp (i : Instr) (l : Word) (p : Word → Bool) (f : Gen) : Op.Reaches sci bar out (recordOp i l p f) := by
  unfold recordOp
  try dsimp only
  repeat' first
      | with_reducible refine reaches_bind ?_ fun _ => ?_ | with_reducible exact reaches_pure _
      | with_reducible exact reaches_get | with_reducible exact reaches_refuse _ | with_reducible exact reaches_fresh
      | with_reducible exact reaches_freshBool | with_reducible exact reaches_begin | with_reducible exact reaches_beginForm _
      | with_reducible exact reaches_needActive _ _ | with_reducible exact reaches_noAc
      | with_reducible exact reaches_writeResult _ _ _ | with_reducible exact reaches_loadCounters _
      | with_reducible exact reaches_recordTransfers _ _ | with_reducible exact reaches_endInstr _ _
      | with_reducible exact reaches_unprogrammedTransfer _ _ | split

theorem reaches_leaveDelivered  : Op.Reaches sci bar out (leaveDelivered) := by
  unfold leaveDelivered
  try dsimp only
  repeat' first
      | with_reducible refine reaches_bind ?_ fun _ => ?_ | with_reducible exact reaches_pure _
      | with_reducible exact reaches_get | with_reducible exact reaches_refuse _ | with_reducible exact reaches_fresh
      | with_reducible exact reaches_freshBool | ((with_reducible apply reaches_quiet); (intro _; rfl))

theorem reaches_decisionOp (i : Instr) (c : Word → Word → Bool) (f : Form) : Op.Reaches sci bar out (decisionOp i c f) := by
  unfold decisionOp
  try dsimp only
  repeat' first
      | with_reducible refine reaches_bind ?_ fun _ => ?_ | with_reducible exact reaches_pure _
      | with_reducible exact reaches_get | with_reducible exact reaches_refuse _ | with_reducible exact reaches_fresh
      | with_reducible exact reaches_freshBool | with_reducible exact reaches_begin | with_reducible exact reaches_beginForm _
      | with_reducible exact reaches_needActive _ _ | with_reducible exact reaches_leaveDelivered
      | with_reducible exact reaches_maskOf _ | with_reducible exact reaches_readOperand _ _
      | with_reducible exact reaches_concludeJump _ _ _ _ _ _ _

/-! ### Channels and peripheral instructions -/

theorem reaches_setCounters' (ch : BitVec 3) (i : BitVec 5) (hi : 28 ≤ i.toNat) (r : SReg) :
    Op.Reaches sci bar out (update (·.setReg ch i r)) := reaches_update fun s => Reach.one (.counter s ch i r hi)

theorem reaches_bufferAddress (x : Group) (m : Motion) : Op.Reaches sci bar out (bufferAddress x m) := by
  unfold bufferAddress
  try dsimp only
  repeat' first
      | with_reducible refine reaches_bind ?_ fun _ => ?_ | with_reducible exact reaches_pure _
      | with_reducible exact reaches_get | with_reducible exact reaches_refuse _ | with_reducible exact reaches_fresh
      | with_reducible exact reaches_freshBool | with_reducible exact reaches_index _ | split

theorem reaches_setCounter (ch : BitVec 3) (i : BitVec 5) (hi : 28 ≤ i.toNat) (x : Group) (m : Motion) :
    Op.Reaches sci bar out (setCounter ch i x m) := by
  unfold setCounter
  try dsimp only
  repeat' first
      | with_reducible refine reaches_bind ?_ fun _ => ?_ | with_reducible exact reaches_pure _
      | with_reducible exact reaches_get | with_reducible exact reaches_refuse _ | with_reducible exact reaches_fresh
      | with_reducible exact reaches_freshBool | with_reducible exact reaches_bufferAddress _ _
      | with_reducible exact reaches_setCounters' _ _ hi _ | with_reducible exact reaches_softError _ | split

theorem reaches_setCounters (f : Per) (m : Motion) : Op.Reaches sci bar out (setCounters f m) := by
  unfold setCounters
  try dsimp only
  repeat' first
      | with_reducible refine reaches_bind ?_ fun _ => ?_ | with_reducible exact reaches_pure _
      | with_reducible exact reaches_get | with_reducible exact reaches_refuse _ | with_reducible exact reaches_fresh
      | with_reducible exact reaches_freshBool | with_reducible exact reaches_setCounter _ _ (bufferIx_high _) _ _
      | with_reducible exact reaches_setCounter _ _ (tableIx_high _) _ _ | split

theorem reaches_concludePeripheral (f : Per) : Op.Reaches sci bar out (concludePeripheral f) := by
  unfold concludePeripheral
  try dsimp only
  repeat' first
      | with_reducible refine reaches_bind ?_ fun _ => ?_ | with_reducible exact reaches_pure _
      | with_reducible exact reaches_get | with_reducible exact reaches_refuse _ | with_reducible exact reaches_fresh
      | with_reducible exact reaches_freshBool | with_reducible exact reaches_sequenceTarget _ _ _
      | with_reducible exact reaches_endSame _ | with_reducible exact reaches_jump _ _ | split

theorem reaches_forwardRecord (v : Device) (k : DevKind) : Op.Reaches sci bar out (forwardRecord v k) := by
  unfold forwardRecord
  try dsimp only
  repeat' first
      | with_reducible refine reaches_bind ?_ fun _ => ?_ | with_reducible exact reaches_pure _
      | with_reducible exact reaches_get | with_reducible exact reaches_refuse _ | with_reducible exact reaches_fresh
      | with_reducible exact reaches_freshBool | ((with_reducible apply reaches_quiet); (intro _; rfl)) | split

theorem reach_started (s : State) (f : Per) (k : DevKind) (m : Motion) (v : Device) (todo : List MWord) :
    Reach sci bar out s (s.started f k m v todo) := by
  refine reach_interlock s _ ?_ _ _
  rfl

theorem reaches_startDevice (f : Per) (k : DevKind) (m : Motion) : Op.Reaches sci bar out (startDevice f k m) := by
  unfold startDevice
  dsimp only
  refine reaches_bind reaches_get fun s => ?_
  split
  · exact reaches_bind (reaches_forwardRecord _ _) fun r => reaches_update fun s => reach_started _ _ _ _ _ _
  · split <;> exact reaches_update fun s => reach_started _ _ _ _ _ _
  · refine reaches_bind (reaches_update fun s => reach_started _ _ _ _ _ _) fun _ =>
      reaches_bind (reaches_update fun s => reach_outputBuffer _ _) fun _ => reaches_bind reaches_get fun _ => ?_
    split
    · exact reaches_finishNow
    · exact reaches_pure _

theorem reaches_deviceTransfer (i : Instr) (c : BitVec 3) {g : State → State} (h : ∀ s, (g s).kept = s.kept) :
    Op.Reaches sci bar out (deviceTransfer i c g) :=
  reaches_bind (reaches_update fun s => (Reach.quiet (h s)).trans (Reach.one (.fixedStart _ c))) fun _ =>
    reaches_unprogrammedTransfer _ _

theorem reaches_clearFixedStart : Op.Reaches sci bar out (update (·.setFixedStart 0)) :=
  reaches_update fun s => Reach.one (.fixedStart s 0)

theorem reaches_spoilTape (f : Per) (k : DevKind) (m : Motion) : Op.Reaches sci bar out (spoilTape f k m) := by
  unfold spoilTape
  try dsimp only
  repeat' first
      | with_reducible refine reaches_bind ?_ fun _ => ?_ | with_reducible exact reaches_pure _
      | with_reducible exact reaches_get | with_reducible exact reaches_refuse _ | with_reducible exact reaches_fresh
      | with_reducible exact reaches_freshBool | ((with_reducible apply reaches_quiet); (intro _; rfl)) | split

theorem reaches_moveOp (i : Instr) (k : DevKind) (m : Motion) (f : Per) : Op.Reaches sci bar out (moveOp i k m f) := by
  unfold moveOp
  try dsimp only
  repeat' first
      | with_reducible refine reaches_bind ?_ fun _ => ?_ | with_reducible exact reaches_pure _
      | with_reducible exact reaches_get | with_reducible exact reaches_refuse _ | with_reducible exact reaches_fresh
      | with_reducible exact reaches_freshBool | with_reducible exact reaches_spoilTape _ _ _
      | with_reducible exact reaches_concludePeripheral _ | with_reducible exact reaches_setCounters _ _
      | with_reducible exact reaches_startDevice _ _ _ | with_reducible exact reaches_tick | with_reducible exact reaches_unprogrammedTransfer _ _ | split

theorem reaches_peripheralOp (i : Instr) (m : Motion) (f : Per) : Op.Reaches sci bar out (peripheralOp i m f) := by
  unfold peripheralOp
  try dsimp only
  repeat' first
      | with_reducible refine reaches_bind ?_ fun _ => ?_ | with_reducible exact reaches_pure _
      | with_reducible exact reaches_get | with_reducible exact reaches_refuse _ | with_reducible exact reaches_fresh
      | with_reducible exact reaches_freshBool | with_reducible exact reaches_begin | with_reducible exact reaches_beginForm _ | with_reducible exact reaches_noAc
      | with_reducible exact reaches_clearFixedStart | with_reducible exact reaches_softError _
      | with_reducible exact reaches_setCounters _ _ | with_reducible exact reaches_concludePeripheral _
      | with_reducible exact reaches_stall _ | with_reducible exact reaches_moveOp _ _ _ _
      | with_reducible exact reaches_deviceTransfer _ _ fun _ => rfl | split

theorem reaches_rewindOp (i : Instr) (f : Per) : Op.Reaches sci bar out (rewindOp i f) := by
  unfold rewindOp
  try dsimp only
  repeat' first
      | with_reducible refine reaches_bind ?_ fun _ => ?_ | with_reducible exact reaches_pure _
      | with_reducible exact reaches_get | with_reducible exact reaches_refuse _ | with_reducible exact reaches_fresh
      | with_reducible exact reaches_freshBool | ((with_reducible apply reaches_quiet); (intro _; rfl))
      | with_reducible exact reaches_begin | with_reducible exact reaches_beginForm _ | with_reducible exact reaches_noAc | with_reducible exact reaches_clearFixedStart
      | with_reducible exact reaches_softError _ | with_reducible exact reaches_endSame _ | with_reducible exact reaches_stall _
      | with_reducible exact reaches_deviceTransfer _ _ fun _ => rfl | split

/-! ### Miscellaneous instructions -/

theorem reaches_startTyping (b : Bool) (g : Group) (w : MWord) : Op.Reaches sci bar out (startTyping b g w) :=
  reaches_bind reaches_tick fun _ => reaches_update fun s => reach_startedTyping s b g w

theorem reaches_typeWord (b : Bool) (g : Group) (w : MWord) : Op.Reaches sci bar out (typeWord b g w) := by
  unfold typeWord
  refine reaches_bind reaches_get fun s => ?_
  split
  · exact reaches_pure _
  · exact reaches_bind (reaches_startTyping _ _ _) fun _ => reaches_pure _

theorem reaches_readPart (f : Prt) (ia : Bool) : Op.Reaches sci bar out (readPart f ia) := by
  unfold readPart
  split
  · exact reaches_pure _
  · exact reaches_bind (reaches_readOperand _ _) fun _ => reaches_pure _

theorem reaches_printSource (f : Prt) (i : Bool) : Op.Reaches sci bar out (printSource f i) := by
  unfold printSource
  try dsimp only
  repeat' first
      | with_reducible refine reaches_bind ?_ fun _ => ?_ | with_reducible exact reaches_pure _
      | with_reducible exact reaches_get | with_reducible exact reaches_refuse _ | with_reducible exact reaches_fresh
      | with_reducible exact reaches_freshBool | with_reducible exact reaches_readOperand _ _ | split

theorem reaches_loadBarricade (w : Word) : Op.Reaches sci true out (loadBarricade w) := by
  unfold loadBarricade
  split
  · exact reaches_critical _
  · rename_i h
    exact reaches_update fun s => Reach.one (.load s rfl w (Classical.not_not.mp h))

theorem reaches_printPart (f : Prt) (ia : Bool) (hb : bar = true ∨ typewriterOf f.b ≠ 4) : Op.Reaches sci bar out (printPart f ia) := by
  unfold printPart
  refine reaches_bind reaches_get fun s => ?_
  split
  · exact reaches_refuse _
  · split
    · split
      · rename_i h
        cases hb with
        | inl hb => subst hb; exact reaches_bind (reaches_printSource _ _) fun _ =>
          reaches_bind (reaches_loadBarricade _) fun _ => reaches_pure _
        | inr hb => exact absurd h hb
      · exact reaches_bind (reaches_writeResult _ _ _) fun _ => reaches_pure _
    · split
      · exact reaches_refuse _
      · split
        · exact reaches_refuse _
        · exact reaches_bind (reaches_printSource _ _) fun _ => reaches_typeWord _ _ _

theorem reaches_printOp (i : Instr) (f : Prt) (hb : bar = true ∨ f.b = inactiveGroup ∨ typewriterOf f.b ≠ 4) :
    Op.Reaches sci bar out (printOp i f) := by
  have hp : f.b ≠ inactiveGroup → ∀ ia, Op.Reaches sci bar out (printPart f ia) := fun h ia =>
    reaches_printPart f ia (hb.imp_right fun h' => h'.resolve_left h)
  unfold printOp
  dsimp only
  repeat' first
      | with_reducible refine reaches_bind ?_ fun _ => ?_ | with_reducible exact reaches_pure _
      | with_reducible exact reaches_get | with_reducible exact reaches_refuse _ | with_reducible exact reaches_begin | with_reducible exact reaches_unprogrammedTransfer _ _ | with_reducible exact reaches_beginForm _
      | with_reducible exact reaches_noAc | with_reducible exact reaches_isInactive _ _ | with_reducible exact reaches_stall _
      | with_reducible exact reaches_readPart _ _ | with_reducible exact reaches_concludeJump _ _ _ _ _ _ _
      | exact hp (by assumption) _ | split

theorem reaches_deliverControl (f : Mpc) (i : Bool) : Op.Reaches sci bar out (deliverControl f i) := by
  unfold deliverControl
  try dsimp only
  repeat' first
      | with_reducible refine reaches_bind ?_ fun _ => ?_ | with_reducible exact reaches_pure _
      | with_reducible exact reaches_get | with_reducible exact reaches_refuse _ | with_reducible exact reaches_fresh
      | with_reducible exact reaches_freshBool | ((with_reducible apply reaches_quiet); (intro _; rfl))
      | with_reducible exact reaches_noAc | with_reducible exact reaches_writeResult _ _ _ | split

theorem reaches_controlFunctions (f : Mpc) (i : Bool) : Op.Reaches sci bar out (controlFunctions f i) :=
  reaches_bind (reaches_deliverControl _ _) fun _ => reaches_update fun s => reach_controlled s f

theorem reaches_proceedOp (f : Prc) : Op.Reaches sci bar out (proceedOp f) := by
  unfold proceedOp
  try dsimp only
  repeat' first
      | with_reducible refine reaches_bind ?_ fun _ => ?_ | with_reducible exact reaches_pure _
      | with_reducible exact reaches_get | with_reducible exact reaches_refuse _ | with_reducible exact reaches_fresh
      | with_reducible exact reaches_freshBool | with_reducible exact reaches_begin | with_reducible exact reaches_beginForm _ | with_reducible exact reaches_intervene
      | with_reducible exact reaches_endSame _ | split

theorem reaches_simulateOp (i : Instr) (x : Bool) (f : Sim) : Op.Reaches sci bar out (simulateOp i x f) := by
  unfold simulateOp
  try dsimp only
  repeat' first
      | with_reducible refine reaches_bind ?_ fun _ => ?_ | with_reducible exact reaches_pure _
      | with_reducible exact reaches_get | with_reducible exact reaches_refuse _ | with_reducible exact reaches_fresh
      | with_reducible exact reaches_freshBool | with_reducible exact reaches_begin | with_reducible exact reaches_beginForm _ | with_reducible exact reaches_noAc
      | with_reducible exact reaches_plainAddress _ | with_reducible exact reaches_loadAu _ _
      | with_reducible exact reaches_memWrite _ _ | with_reducible exact reaches_jump _ _
      | with_reducible exact reaches_update fun s => Reach.one (.own s _ _) | split

theorem reaches_reloadCounter (b : Bool) : Op.Reaches sci bar out (reloadCounter b) := by
  unfold reloadCounter
  try dsimp only
  repeat' first
      | with_reducible refine reaches_bind ?_ fun _ => ?_ | with_reducible exact reaches_pure _
      | with_reducible exact reaches_get | with_reducible exact reaches_refuse _ | with_reducible exact reaches_fresh
      | with_reducible exact reaches_freshBool | with_reducible exact reaches_auRead _ _
      | with_reducible exact reaches_loadAu _ _ | with_reducible exact reaches_nextAu _

theorem reaches_orthocount (p : Option Bool) (n : Nat) (o : Word × Word) : Op.Reaches sci bar out (orthocount p n o) := by
  induction n generalizing o with
  | zero => exact reaches_fail _
  | succ n ih =>
    unfold orthocount
    dsimp only
    repeat' first
        | with_reducible exact ih _ | with_reducible refine reaches_bind ?_ fun _ => ?_ | with_reducible exact reaches_pure _
        | with_reducible exact reaches_get | with_reducible exact reaches_softError _ | with_reducible exact reaches_runCounter _
        | with_reducible exact reaches_memRead _ | with_reducible exact reaches_nextAu _
        | with_reducible exact reaches_reloadCounter _ | split

theorem reaches_orthoTable (f : Gen) : Op.Reaches sci bar out (orthoTable f) := by
  unfold orthoTable
  try dsimp only
  repeat' first
      | with_reducible refine reaches_bind ?_ fun _ => ?_ | with_reducible exact reaches_pure _
      | with_reducible exact reaches_get | with_reducible exact reaches_refuse _ | with_reducible exact reaches_fresh
      | with_reducible exact reaches_freshBool | with_reducible exact reaches_auInit _ _
      | with_reducible exact reaches_loadAu _ _ | split

theorem reaches_orthoResult (f : Gen) (c : SReg) (o : Word × Word) : Op.Reaches sci bar out (orthoResult f c o) := by
  unfold orthoResult
  try dsimp only
  repeat' first
      | with_reducible refine reaches_bind ?_ fun _ => ?_ | with_reducible exact reaches_pure _
      | with_reducible exact reaches_get | with_reducible exact reaches_refuse _ | with_reducible exact reaches_fresh
      | with_reducible exact reaches_freshBool | ((with_reducible apply reaches_quiet); (intro _; rfl))
      | with_reducible exact reaches_memWrite _ _ | with_reducible exact reaches_loadAu _ _
      | with_reducible exact reaches_endInstr _ _

theorem reaches_orthoAddress (x : Group) (d : Bool) : Op.Reaches sci bar out (orthoAddress x d) := by
  unfold orthoAddress
  try dsimp only
  repeat' first
      | with_reducible refine reaches_bind ?_ fun _ => ?_ | with_reducible exact reaches_pure _
      | with_reducible exact reaches_get | with_reducible exact reaches_refuse _ | with_reducible exact reaches_fresh
      | with_reducible exact reaches_freshBool | with_reducible exact reaches_auInit _ _ | split

theorem reaches_orthocountOp (f : Gen) : Op.Reaches sci bar out (orthocountOp f) := by
  unfold orthocountOp
  try dsimp only
  repeat' first
      | with_reducible refine reaches_bind ?_ fun _ => ?_ | with_reducible exact reaches_pure _
      | with_reducible exact reaches_get | with_reducible exact reaches_refuse _ | with_reducible exact reaches_fresh
      | with_reducible exact reaches_freshBool | with_reducible exact reaches_begin | with_reducible exact reaches_beginForm _
      | with_reducible exact reaches_orthoAddress _ _ | with_reducible exact reaches_memWrite _ _
      | with_reducible exact reaches_loadAu _ _ | with_reducible exact reaches_orthoTable _
      | with_reducible exact reaches_orthocount _ _ _ | with_reducible exact reaches_orthoResult _ _ _
      | with_reducible exact reaches_noAc | with_reducible exact reaches_endInstr _ _ | split

theorem reaches_parityCheck (m : Option MWord) (w : MWord) : Op.Reaches sci bar out (parityCheck m w) := by
  unfold parityCheck
  try dsimp only
  repeat' first
      | with_reducible refine reaches_bind ?_ fun _ => ?_ | with_reducible exact reaches_pure _
      | with_reducible exact reaches_get | with_reducible exact reaches_refuse _ | with_reducible exact reaches_fresh
      | with_reducible exact reaches_freshBool | split

theorem reaches_checkParityOp (i : Instr) (f : Form) : Op.Reaches sci bar out (checkParityOp i f) := by
  unfold checkParityOp
  try dsimp only
  repeat' first
      | with_reducible refine reaches_bind ?_ fun _ => ?_ | with_reducible exact reaches_pure _
      | with_reducible exact reaches_get | with_reducible exact reaches_refuse _ | with_reducible exact reaches_fresh
      | with_reducible exact reaches_freshBool | with_reducible exact reaches_begin | with_reducible exact reaches_beginForm _
      | with_reducible exact reaches_needActive _ _ | with_reducible exact reaches_noAc | with_reducible exact reaches_maskOf _
      | with_reducible exact reaches_readOperand _ _ | with_reducible exact reaches_parityCheck _ _
      | with_reducible exact reaches_writeResult _ _ _ | with_reducible exact reaches_concludeJump _ _ _ _ _ _ _
      | with_reducible exact reaches_unprogrammedTransfer _ _ | split

/-! ### Scientific instructions -/

theorem reaches_float {f : State → State} (h : ∀ s, (f s).keptNoFloat = s.keptNoFloat) : Op.Reaches true bar out (update f) :=
  reaches_update fun s => Reach.one (.float rfl (h s))

theorem reaches_claim : Op.Reaches true bar out claim :=
  reaches_float fun s => by unfold State.claimed; split <;> rfl

theorem reaches_floatOperand (x : Group) (d : Bool) : Op.Reaches true bar out (floatOperand x d) := by
  unfold floatOperand
  try dsimp only
  repeat' first
      | with_reducible refine reaches_bind ?_ fun _ => ?_ | with_reducible exact reaches_pure _
      | with_reducible exact reaches_get | with_reducible exact reaches_refuse _ | with_reducible exact reaches_fresh
      | with_reducible exact reaches_freshBool | with_reducible exact reaches_claim | with_reducible exact reaches_isInactive _ _
      | with_reducible exact reaches_readOperand _ _ | split

theorem reaches_concludeFloat (i : Instr) (q t b : Bool) (k : Option ExpEvent) : Op.Reaches sci bar out (concludeFloat i q t b k) := by
  unfold concludeFloat
  try dsimp only
  repeat' first
      | with_reducible refine reaches_bind ?_ fun _ => ?_ | with_reducible exact reaches_pure _
      | with_reducible exact reaches_get | with_reducible exact reaches_refuse _ | with_reducible exact reaches_fresh
      | with_reducible exact reaches_freshBool | with_reducible exact reaches_unprogrammedTransfer _ _
      | with_reducible exact reaches_endInstr _ _ | split

theorem reaches_leaveFloat (x t : Bool) (r : FpOut) (o u : Bool) : Op.Reaches true bar out (leaveFloat x t r o u) :=
  reaches_float fun _ => rfl

theorem reaches_deliverFloat (i : Instr) (f : Gen) (a b c d : Bool) (r : FpOut) :
    Op.Reaches true bar out (deliverFloat i f a b c d r) := by
  unfold deliverFloat
  try dsimp only
  repeat' first
      | with_reducible refine reaches_bind ?_ fun _ => ?_ | with_reducible exact reaches_pure _
      | with_reducible exact reaches_get | with_reducible exact reaches_refuse _ | with_reducible exact reaches_fresh
      | with_reducible exact reaches_freshBool | with_reducible exact reaches_isInactive _ _
      | with_reducible exact reaches_claim | with_reducible exact reaches_leaveFloat _ _ _ _ _ | with_reducible exact reaches_noAc
      | with_reducible exact reaches_writeResult _ _ _ | with_reducible exact reaches_concludeFloat _ _ _ _ _ | split

theorem reaches_overcapacity (i : Instr) (b : Bool) : Op.Reaches true bar out (overcapacity i b) := by
  unfold overcapacity
  try dsimp only
  repeat' first
      | with_reducible refine reaches_bind ?_ fun _ => ?_ | ((with_reducible apply reaches_float); (intro _; rfl))
      | with_reducible exact reaches_pure _ | with_reducible exact reaches_get | with_reducible exact reaches_refuse _
      | with_reducible exact reaches_fresh | with_reducible exact reaches_freshBool | with_reducible exact reaches_noAc
      | with_reducible exact reaches_claim | with_reducible exact reaches_unprogrammedTransfer _ _

theorem reaches_optionGate (f : Gen) {m : Op Unit} (h : Op.Reaches true bar out m) : Op.Reaches true bar out (optionGate f m) := by
  unfold optionGate
  refine reaches_bind reaches_begin fun _ => reaches_bind reaches_get fun s => ?_
  split
  · exact reaches_bind (reaches_checkDesignators _) fun _ => h
  · exact reaches_offError _

theorem reaches_freeResult  : Op.Reaches true bar out (freeResult) := by
  unfold freeResult
  try dsimp only
  repeat' first
      | with_reducible refine reaches_bind ?_ fun _ => ?_ | with_reducible exact reaches_pure _
      | with_reducible exact reaches_get | with_reducible exact reaches_refuse _ | with_reducible exact reaches_fresh
      | with_reducible exact reaches_freshBool

theorem reaches_floatOp (i : Instr) (d : Bool) (c : Word → Bool → Fp → Fp → FpOut) (f : Gen) :
    Op.Reaches true bar out (floatOp i d c f) := by
  unfold floatOp
  refine reaches_optionGate _ ?_
  try dsimp only
  repeat' first
      | with_reducible refine reaches_bind ?_ fun _ => ?_ | with_reducible exact reaches_pure _
      | with_reducible exact reaches_get | with_reducible exact reaches_refuse _ | with_reducible exact reaches_fresh
      | with_reducible exact reaches_freshBool | with_reducible exact reaches_floatOperand _ _
      | with_reducible exact reaches_freeResult | with_reducible exact reaches_deliverFloat _ _ _ _ _ _ _ | split

theorem reaches_floatDivideOp (i : Instr) (d : Bool) (f : Gen) : Op.Reaches true bar out (floatDivideOp i d f) := by
  unfold floatDivideOp
  refine reaches_optionGate _ ?_
  try dsimp only
  repeat' first
      | with_reducible refine reaches_bind ?_ fun _ => ?_ | with_reducible exact reaches_pure _
      | with_reducible exact reaches_get | with_reducible exact reaches_refuse _ | with_reducible exact reaches_fresh
      | with_reducible exact reaches_freshBool | with_reducible exact reaches_floatOperand _ _
      | with_reducible exact reaches_freeResult | with_reducible exact reaches_deliverFloat _ _ _ _ _ _ _
      | with_reducible exact reaches_overcapacity _ _ | split

theorem reaches_fixedDivideOp (i : Instr) (d : Bool) (f : Gen) : Op.Reaches true bar out (fixedDivideOp i d f) := by
  unfold fixedDivideOp
  refine reaches_optionGate _ ?_
  try dsimp only
  repeat' first
      | with_reducible refine reaches_bind ?_ fun _ => ?_ | with_reducible exact reaches_pure _
      | with_reducible exact reaches_get | with_reducible exact reaches_refuse _ | with_reducible exact reaches_fresh
      | with_reducible exact reaches_freshBool | with_reducible exact reaches_floatOperand _ _
      | with_reducible exact reaches_deliverFloat _ _ _ _ _ _ _ | with_reducible exact reaches_overcapacity _ _ | split

theorem reaches_normalizeOp (i : Instr) (f : Gen) : Op.Reaches true bar out (normalizeOp i f) := by
  unfold normalizeOp
  refine reaches_optionGate _ ?_
  try dsimp only
  repeat' first
      | with_reducible refine reaches_bind ?_ fun _ => ?_ | with_reducible exact reaches_pure _
      | with_reducible exact reaches_get | with_reducible exact reaches_refuse _ | with_reducible exact reaches_fresh
      | with_reducible exact reaches_freshBool | with_reducible exact reaches_floatOperand _ _
      | with_reducible exact reaches_deliverFloat _ _ _ _ _ _ _ | split

theorem reaches_turnOffNow (c : BitVec 5) : Op.Reaches sci bar out (fun s => .error (.done (s.turnOff s.cur c)) : Op Unit) :=
  fun s t _ h => by cases h; exact reach_turnOff _ _ _

theorem reaches_conversionFails (f : Gen) (b : FpOperand) : Op.Reaches true bar out (conversionFails f b) := by
  unfold conversionFails
  try dsimp only
  repeat' first
      | with_reducible refine reaches_bind ?_ fun _ => ?_ | with_reducible exact reaches_pure _
      | with_reducible exact reaches_get | with_reducible exact reaches_refuse _ | with_reducible exact reaches_fresh
      | with_reducible exact reaches_freshBool | ((with_reducible apply reaches_quiet); (intro _; rfl))
      | with_reducible exact reaches_claim | with_reducible exact reaches_isInactive _ _ | with_reducible exact reaches_leaveFloat _ _ _ _ _
      | with_reducible exact reaches_noAc | with_reducible exact reaches_endInstr _ _
      | with_reducible exact reaches_writeResult _ _ _ | with_reducible exact reaches_turnOffNow _ | split

theorem reaches_convertOp (i : Instr) (f : Gen) : Op.Reaches true bar out (convertOp i f) := by
  unfold convertOp
  refine reaches_optionGate _ ?_
  try dsimp only
  repeat' first
      | with_reducible refine reaches_bind ?_ fun _ => ?_ | with_reducible exact reaches_pure _
      | with_reducible exact reaches_get | with_reducible exact reaches_refuse _ | with_reducible exact reaches_fresh
      | with_reducible exact reaches_freshBool | with_reducible exact reaches_isInactive _ _
      | with_reducible exact reaches_floatOperand _ _ | with_reducible exact reaches_freeResult
      | with_reducible exact reaches_deliverFloat _ _ _ _ _ _ _ | with_reducible exact reaches_conversionFails _ _
      | with_reducible exact reaches_critical _ | split

theorem reaches_unloadOp (i : Instr) (f : Gen) : Op.Reaches true bar out (unloadOp i f) := by
  unfold unloadOp
  try dsimp only
  repeat' first
      | with_reducible refine reaches_bind ?_ fun _ => ?_ | ((with_reducible apply reaches_float); (intro _; rfl))
      | with_reducible exact reaches_pure _ | with_reducible exact reaches_get | with_reducible exact reaches_refuse _
      | with_reducible exact reaches_fresh | with_reducible exact reaches_freshBool | with_reducible exact reaches_offError _
      | with_reducible exact reaches_isInactive _ _ | with_reducible exact reaches_claim | with_reducible exact reaches_noAc
      | with_reducible exact reaches_writeResult _ _ _ | with_reducible exact reaches_concludeFloat _ _ _ _ _ | split

/-! ### Instructions -/

/-- What a state an error left becomes once the instruction is undone: nothing but the count of free values where no event happened. -/
theorem reach_caught {s u : State} (c : BitVec 5) (hs : out = true ∨ s.env = []) (hu : out = true ∨ u.env = []) :
    Reach sci bar out s (s.caught u c) := by
  refine Relation.ReflTransGen.trans ?_ (reach_turnOff _ _ _)
  rcases hs with ho | hs
  · exact Reach.one (.between ho fun hi => undone_inv hi u)
  · rcases hu with ho | hu
    · exact Reach.one (.between ho fun hi => undone_inv hi u)
    · unfold State.undone
      rw [if_pos (by rw [hs, hu])]
      exact Reach.quiet rfl

/-- What an operation's elementary changes make of a step. -/
theorem reach_perform {m : Op Unit} (h : Op.Reaches sci bar out m) {s t : State} (hs : out = true ∨ s.env = [])
    (e : perform m s = .next t) : Reach sci bar out s t := by
  rcases perform_next e with hm | hm | ⟨l, c, u, hm, ht⟩
  · exact h s t hs (by rw [hm]; rfl)
  · exact h s t hs (by rw [hm]; rfl)
  · have hu : Reach sci bar out s u := h s u hs (by rw [hm]; rfl)
    rcases ht with ⟨_, _, ht⟩ | ⟨_, ht⟩
    · rw [ht]; exact reach_caught c hs (hu.still hs)
    · rw [ht]; exact hu.trans (reach_halt u c)

/-- The state once the processor has been handed to another group (R472). -/
def State.givenTo (u : State) (g : BitVec 3) : State := { u.dropHeld.setCur g with scan := none }

/-- An operation that, when it answers, may at the end have handed the processor to another group. -/
def Op.Hands (sci bar out : Bool) (m : Op Unit) : Prop :=
  ∀ s t, (out = true ∨ s.env = []) →
    (m s = .ok ((), t) → ∃ u, Reach sci bar out s u ∧ (t = u ∨ ∃ g, t = u.givenTo g)) ∧
    (∀ e, m s = .error e → leftIn (m s) = some t → Reach sci bar out s t)

theorem hands_of_reaches {m : Op Unit} (h : Op.Reaches sci bar out m) : Op.Hands sci bar out m := fun s t hs =>
  ⟨fun hm => ⟨t, h s t hs (by rw [hm]; rfl), .inl rfl⟩, fun _ _ ht => h s t hs ht⟩

theorem hands_bind {α : Type} {m : Op α} {f : α → Op Unit} (h : Op.Reaches sci bar out m) (h' : ∀ a, Op.Hands sci bar out (f a)) :
    Op.Hands sci bar out (m >>= f) := by
  intro s t hs
  rw [Op.bind_run]
  match hm : m s with
  | .ok (a, u) =>
    have hu : Reach sci bar out s u := h s u hs (by rw [hm]; rfl)
    refine ⟨fun e => ?_, fun e he ht => hu.trans ((h' a u t (hu.still hs)).2 e he ht)⟩
    obtain ⟨v, hv, hw⟩ := (h' a u t (hu.still hs)).1 e
    exact ⟨v, hu.trans hv, hw⟩
  | .error e =>
    refine ⟨fun he => (nomatch he), fun e' _ ht => h s t hs ?_⟩
    rw [hm]; cases e <;> exact ht

theorem hands_handOver (f : Mpc) (ic : Bool) (g : BitVec 3) : Op.Hands sci bar out (handOver f ic g) := by
  refine hands_bind (reaches_deliverControl _ _) fun _ s t _ => ⟨fun h => ?_, fun e h => ?_⟩
  · rw [Op.update_run] at h
    have ht := (Prod.mk.inj (Except.ok.inj h)).2
    unfold State.handed at ht
    split at ht
    · exact ⟨_, reach_handing s f g, .inr ⟨g, ht.symm⟩⟩
    · refine ⟨t, (reach_handing s f g).trans ?_, .inl rfl⟩
      rw [← ht]; exact Reach.quiet rfl
  · exact nomatch h


/-- What an MPC makes of a step (R472). -/
theorem reach_controlOp (f : Mpc) {s t : State} (hs : out = true ∨ s.env = []) (e : perform (controlOp f) s = .next t) :
    ∃ u, Reach sci bar out s u ∧ (t = u ∨ ∃ g, t = u.givenTo g) := by
  have h : Op.Hands sci bar out (controlOp f) := by
    unfold controlOp
    refine hands_bind reaches_begin fun _ => hands_bind (reaches_isInactive _ _) fun _ => hands_bind reaches_get fun _ => ?_
    split
    · exact hands_of_reaches (reaches_refuse _)
    · split
      · split
        · exact hands_of_reaches (reaches_refuse _)
        · split
          · exact hands_of_reaches (reaches_refuse _)
          · split
            · exact hands_of_reaches (reaches_stall _)
            · exact hands_handOver _ _ _
      · split
        · exact hands_of_reaches (reaches_refuse _)
        · exact hands_of_reaches (reaches_controlFunctions _ _)
  rcases perform_next e with hm | hm | ⟨l, c, u, hm, ht⟩
  · exact (h s t hs).1 hm
  · exact ⟨t, (h s t hs).2 _ hm (by rw [hm]; rfl), .inl rfl⟩
  · have hu : Reach sci bar out s u := (h s u hs).2 _ hm (by rw [hm]; rfl)
    refine ⟨t, ?_, .inl rfl⟩
    rcases ht with ⟨_, _, ht⟩ | ⟨_, ht⟩
    · rw [ht]; exact reach_caught c hs (hu.still hs)
    · rw [ht]; exact hu.trans (reach_halt u c)

/-- A print that is no barricade load. -/
theorem loadsBarricade_print {i : Instr} {f : Prt} (h : printRow i = some f) :
    loadsBarricade i = true ∨ f.b = inactiveGroup ∨ typewriterOf f.b ≠ 4 := by
  by_cases hb : f.b = inactiveGroup
  · exact .inr (.inl hb)
  · by_cases ht : typewriterOf f.b = 4
    · left; unfold loadsBarricade; rw [h]; simp [hb, ht]
    · exact .inr (.inr ht)

/-- Everything an instruction can do. -/
theorem exec_reach {i : Instr} {s t : State} (hs : out = true ∨ s.env = []) (e : exec i s = .next t) :
    ∃ u, Reach (scientific i) (loadsBarricade i) out s u ∧ (t = u ∨ ∃ g, t = u.givenTo g) := by
  cases i with
  | mpc f => exact reach_controlOp f hs e
  | ba f => exact ⟨t, reach_perform (reaches_addOp _ _ _ _) hs e, .inl rfl⟩
  | da f => exact ⟨t, reach_perform (reaches_addOp _ _ _ _) hs e, .inl rfl⟩
  | wa f => exact ⟨t, reach_perform (reaches_addOp _ _ _ _) hs e, .inl rfl⟩
  | bs f => exact ⟨t, reach_perform (reaches_addOp _ _ _ _) hs e, .inl rfl⟩
  | ds f => exact ⟨t, reach_perform (reaches_addOp _ _ _ _) hs e, .inl rfl⟩
  | wd f => exact ⟨t, reach_perform (reaches_addOp _ _ _ _) hs e, .inl rfl⟩
  | baM f => exact ⟨t, reach_perform (reaches_addOp _ _ _ _) hs e, .inl rfl⟩
  | daM f => exact ⟨t, reach_perform (reaches_addOp _ _ _ _) hs e, .inl rfl⟩
  | waM f => exact ⟨t, reach_perform (reaches_addOp _ _ _ _) hs e, .inl rfl⟩
  | bsM f => exact ⟨t, reach_perform (reaches_addOp _ _ _ _) hs e, .inl rfl⟩
  | dsM f => exact ⟨t, reach_perform (reaches_addOp _ _ _ _) hs e, .inl rfl⟩
  | wdM f => exact ⟨t, reach_perform (reaches_addOp _ _ _ _) hs e, .inl rfl⟩
  | na f => exact ⟨t, reach_perform (reaches_decisionOp _ _ _) hs e, .inl rfl⟩
  | nn f => exact ⟨t, reach_perform (reaches_decisionOp _ _ _) hs e, .inl rfl⟩
  | la f => exact ⟨t, reach_perform (reaches_decisionOp _ _ _) hs e, .inl rfl⟩
  | ln f => exact ⟨t, reach_perform (reaches_decisionOp _ _ _) hs e, .inl rfl⟩
  | naM f => exact ⟨t, reach_perform (reaches_decisionOp _ _ _) hs e, .inl rfl⟩
  | nnM f => exact ⟨t, reach_perform (reaches_decisionOp _ _ _) hs e, .inl rfl⟩
  | laM f => exact ⟨t, reach_perform (reaches_decisionOp _ _ _) hs e, .inl rfl⟩
  | lnM f => exact ⟨t, reach_perform (reaches_decisionOp _ _ _) hs e, .inl rfl⟩
  | fln f => exact ⟨t, reach_perform (reaches_decisionOp _ _ _) hs e, .inl rfl⟩
  | fnn f => exact ⟨t, reach_perform (reaches_decisionOp _ _ _) hs e, .inl rfl⟩
  | tx f => exact ⟨t, reach_perform (reaches_transferOp _ _) hs e, .inl rfl⟩
  | txM f => exact ⟨t, reach_perform (reaches_transferOp _ _) hs e, .inl rfl⟩
  | ts f => exact ⟨t, reach_perform (reaches_transferJumpOp _ _) hs e, .inl rfl⟩
  | tsM f => exact ⟨t, reach_perform (reaches_transferJumpOp _ _) hs e, .inl rfl⟩
  | ha f => exact ⟨t, reach_perform (reaches_logicalOp _ _ _) hs e, .inl rfl⟩
  | sm f => exact ⟨t, reach_perform (reaches_logicalOp _ _ _) hs e, .inl rfl⟩
  | haM f => exact ⟨t, reach_perform (reaches_logicalOp _ _ _) hs e, .inl rfl⟩
  | smM f => exact ⟨t, reach_perform (reaches_logicalOp _ _ _) hs e, .inl rfl⟩
  | cp f => exact ⟨t, reach_perform (reaches_checkParityOp _ _) hs e, .inl rfl⟩
  | cpM f => exact ⟨t, reach_perform (reaches_checkParityOp _ _) hs e, .inl rfl⟩
  | bm f => exact ⟨t, reach_perform (reaches_multiplyBinary _ _) hs e, .inl rfl⟩
  | dm f => exact ⟨t, reach_perform (reaches_multiplyDecimal _ _) hs e, .inl rfl⟩
  | bt f => exact ⟨t, reach_perform (reaches_accumulate _ _ _) hs e, .inl rfl⟩
  | dt f => exact ⟨t, reach_perform (reaches_accumulate _ _ _) hs e, .inl rfl⟩
  | mt f => exact ⟨t, reach_perform (reaches_multipleOp _ _) hs e, .inl rfl⟩
  | tn f => exact ⟨t, reach_perform (reaches_groupOp _ _) hs e, .inl rfl⟩
  | cc f => exact ⟨t, reach_perform (reaches_orthocountOp _) hs e, .inl rfl⟩
  | it f => exact ⟨t, reach_perform (reaches_recordOp _ _ _ _) hs e, .inl rfl⟩
  | rt f => exact ⟨t, reach_perform (reaches_recordOp _ _ _ _) hs e, .inl rfl⟩
  | eba f => exact ⟨t, reach_perform (reaches_extendedOp _ _ _) hs e, .inl rfl⟩
  | ebs f => exact ⟨t, reach_perform (reaches_extendedOp _ _ _) hs e, .inl rfl⟩
  | pr f => exact ⟨t, reach_perform (reaches_proceedOp _) hs e, .inl rfl⟩
  | ssl f => exact ⟨t, reach_perform (reaches_selectOp _ _) hs e, .inl rfl⟩
  | ss f => exact ⟨t, reach_perform (reaches_substituteOp _ _) hs e, .inl rfl⟩
  | ex f => exact ⟨t, reach_perform (reaches_extractOp _ _) hs e, .inl rfl⟩
  | uld f => exact ⟨t, reach_perform (reaches_unloadOp _ _) hs e, .inl rfl⟩
  | ffn f => exact ⟨t, reach_perform (reaches_normalizeOp _ _) hs e, .inl rfl⟩
  | fcon f => exact ⟨t, reach_perform (reaches_convertOp _ _) hs e, .inl rfl⟩
  | fbd f => exact ⟨t, reach_perform (reaches_floatDivideOp _ _ _) hs e, .inl rfl⟩
  | fdd f => exact ⟨t, reach_perform (reaches_floatDivideOp _ _ _) hs e, .inl rfl⟩
  | bd f => exact ⟨t, reach_perform (reaches_fixedDivideOp _ _ _) hs e, .inl rfl⟩
  | dd f => exact ⟨t, reach_perform (reaches_fixedDivideOp _ _ _) hs e, .inl rfl⟩
  | rf f => exact ⟨t, reach_perform (reaches_peripheralOp _ _ _) hs e, .inl rfl⟩
  | rb f => exact ⟨t, reach_perform (reaches_peripheralOp _ _ _) hs e, .inl rfl⟩
  | wf f => exact ⟨t, reach_perform (reaches_peripheralOp _ _ _) hs e, .inl rfl⟩
  | rw f => exact ⟨t, reach_perform (reaches_rewindOp _ _) hs e, .inl rfl⟩
  | sDir f => exact ⟨t, reach_perform (reaches_simulateOp _ _ _) hs e, .inl rfl⟩
  | sIdx f => exact ⟨t, reach_perform (reaches_simulateOp _ _ _) hs e, .inl rfl⟩
  | sws f => exact ⟨t, reach_perform (reaches_shiftOp _ _ _ _) hs e, .inl rfl⟩
  | sps f => exact ⟨t, reach_perform (reaches_shiftOp _ _ _ _) hs e, .inl rfl⟩
  | swe f => exact ⟨t, reach_perform (reaches_shiftOp _ _ _ _) hs e, .inl rfl⟩
  | spe f => exact ⟨t, reach_perform (reaches_shiftOp _ _ _ _) hs e, .inl rfl⟩
  | fba f => exact ⟨t, reach_perform (reaches_floatOp _ _ _ _) hs e, .inl rfl⟩
  | fda f => exact ⟨t, reach_perform (reaches_floatOp _ _ _ _) hs e, .inl rfl⟩
  | fbs f => exact ⟨t, reach_perform (reaches_floatOp _ _ _ _) hs e, .inl rfl⟩
  | fds f => exact ⟨t, reach_perform (reaches_floatOp _ _ _ _) hs e, .inl rfl⟩
  | fbau f => exact ⟨t, reach_perform (reaches_floatOp _ _ _ _) hs e, .inl rfl⟩
  | fdau f => exact ⟨t, reach_perform (reaches_floatOp _ _ _ _) hs e, .inl rfl⟩
  | fbsu f => exact ⟨t, reach_perform (reaches_floatOp _ _ _ _) hs e, .inl rfl⟩
  | fdsu f => exact ⟨t, reach_perform (reaches_floatOp _ _ _ _) hs e, .inl rfl⟩
  | fbm f => exact ⟨t, reach_perform (reaches_floatOp _ _ _ _) hs e, .inl rfl⟩
  | fdm f => exact ⟨t, reach_perform (reaches_floatOp _ _ _ _) hs e, .inl rfl⟩
  | fbae f => exact ⟨t, reach_perform (reaches_floatOp _ _ _ _) hs e, .inl rfl⟩
  | fbse f => exact ⟨t, reach_perform (reaches_floatOp _ _ _ _) hs e, .inl rfl⟩
  | pra f => exact ⟨t, reach_perform (reaches_printOp _ _ (loadsBarricade_print rfl)) hs e, .inl rfl⟩
  | prd f => exact ⟨t, reach_perform (reaches_printOp _ _ (loadsBarricade_print rfl)) hs e, .inl rfl⟩
  | pro f => exact ⟨t, reach_perform (reaches_printOp _ _ (loadsBarricade_print rfl)) hs e, .inl rfl⟩

end Sys2Proof.Machine
end

