-- ==== Sys2Proof/Tests/Slice0.lean ====
section
/-! SUPPORT. The model's own tests: ill-formed terms refused, words written out from the encodings, one step of each instruction on the
values of the spec's test vectors (95_test_vectors.md), and, for each statement of Obligations.lean, a state and operands that meet its
hypotheses (`witness_…`). -/
namespace Sys2Proof.Machine

set_option Elab.async false
set_option linter.all false

/-! ### States and operands -/

abbrev good (w : Word) : MWord := MWord.good w

/-- The state an operation that answers leaves. -/
def run {α : Type} (m : Op α) (s : State) : State :=
  match m s with
  | .ok (_, t) => t
  | .error _ => s

/-- Whether an operation answers `v`. -/
def check {α : Type} [DecidableEq α] (m : Op α) (s : State) (v : α) : Bool :=
  match m s with
  | .ok (w, _) => decide (w = v)
  | .error _ => false

theorem got {α : Type} [DecidableEq α] {m : Op α} {s : State} {v : α} (h : check m s v = true) : m s = .ok (v, run m s) := by
  unfold check at h
  unfold run
  split at h
  · rename_i w t hm
    rw [hm, ← of_decide_eq_true h]
  · exact absurd h (by decide)

theorem admits_mem {s : State} {a : Nat} (h : s.exists? a = true) (k : s.barsMem a = false) : s.admits (.mem a) := ⟨h, k⟩

theorem can_transfer {s : State}
    (h : (decide ((s.reg s.cur utrIx).tag = .good) && decide ((s.reg s.cur utrIx).addr % 2 = 0) &&
      s.exists? ((s.reg s.cur utrIx).full + if s.sel = .csc then 1 else 0) &&
      !s.barsMem ((s.reg s.cur utrIx).full + if s.sel = .csc then 1 else 0)) = true) : s.canTransfer := by
  simp only [Bool.and_eq_true, decide_eq_true_eq, Bool.not_eq_true'] at h
  exact ⟨h.1.1.1, h.1.1.2, h.1.2, h.2⟩

theorem reset_step : step State.reset = .next State.reset := by
  have h1 : State.reset.environment = State.reset := rfl
  have h2 : State.reset.grant = none := by decide +kernel
  have h3 : State.reset.hunt 0#3 = none := by
    have : State.reset.scanFrom 0#3 = none := by decide +kernel
    unfold State.hunt
    rw [show State.reset.firstOn = none from rfl]; exact this
  have h4 : State.reset.select = .next State.reset := by
    have e : State.reset.select = (match State.reset.hunt 0#3 with
        | none => .next State.reset.resumed
        | some g => State.reset.resumed.selectFrom g) := rfl
    rw [e, h3]; rfl
  unfold step
  rw [if_neg (by decide), h1, h2]
  dsimp only
  unfold cpuStep
  rw [h4]

/-- A good positive address. -/
def at_ (a : Nat) : SReg := SReg.mk' false true a

/-- Words put in memory. -/
def stored (l : List (Nat × Word)) (s : State) : State := l.foldl (fun s p => s.putWord p.1 (good p.2)) s

/-- Group 0 running the instruction at 513, its registers and some words of memory set. -/
def st : State :=
  stored [(2, 0x0000FFFF0000#48), (64, 0xF00000000005#48), (65, 0xF00000000003#48), (68, 0xF80000000000#48), (69, 0xF80000000001#48),
      (70, 0x00000000080F#48), (72, 0x111111111111#48), (73, eorWord), (80, 0xC12000000000#48), (81, 0xC13000000000#48),
      (82, 0xFFF000000000#48), (83, 0xFF1000000000#48), (84, 1#48), (85, 4#48), (86, 0x002000000000#48), (87, 0x800000000000#48), (513, 0x409040041042#48)]
    ((((({ State.reset with pcr := 0x80000#48, scan := none, ctl := at_ 513 }.putWord 67 ⟨7#48, 1#6⟩).setReg 0 2 (at_ 513)).setReg 0 6
      (at_ 32)).setReg 0 16 (at_ 64)))

def stHeld : State := { st with ac := 0xF00000000005#48, acSign := true, acState := .held .binary }
def stLop : State := { st with lop := 7#48, lopHeld := true }
def st1 : State := { st with pcr := 0x10040000#48 }
def st1d : State := { st with pcr := 0x100C0000#48 }
def stTyping : State := { st with typing := some ⟨true, [.char 5#6, .cr]⟩ }
def tapeDev : Device := { Device.idle with after := [[good 0#48, good eorWord]], segment := 1 }
def readerDev : Device := { Device.idle with after := [[good 0#48]], switch := 2#3 }
def stTape : State := st.setDev .input 1 0 tapeDev
def stBusy : State := st.setDev .input 1 0 { tapeDev with busy := true }
def stErr : State := st.setDev .input 1 0 { tapeDev with readErr := true }
def stSwitch : State := st.setDev .input 3 0 readerDev
def stIn : State :=
  (stTape.setXfer .input 1 (some ⟨0#3, .tape, false, false, true, [good 5#48, good eorWord], [], none, false⟩)).setReg 1 racIx (at_ 66)
def stInEnd : State :=
  (stTape.setXfer .input 1 (some ⟨0#3, .tape, false, false, false, [good eorWord], [], none, false⟩)).setReg 1 racIx (at_ 66)
def stOut : State :=
  (stTape.setXfer .output 1 (some ⟨0#3, .tape, false, false, true, [], [], none, false⟩)).setReg 1 wacIx (at_ 64)
/-- An end-of-item word that ends no record (R88). -/
def itemWord : Word := 0xAA00EEEE0005#48
def itemIn : Xfer := ⟨0#3, .tape, false, true, true, [good itemWord, good eorWord], [], none, false⟩
def itemEnd : Xfer := ⟨0#3, .tape, false, true, false, [good eorWord], [], none, false⟩
def itemOut : Xfer := ⟨0#3, .tape, false, true, true, [], [], none, false⟩
def stItemIn : State := ((stTape.setXfer .input 1 (some itemIn)).setReg 1 racIx (at_ 66)).setReg 1 dracIx (at_ 70)
def stItemEnd : State := ((stTape.setXfer .input 1 (some itemEnd)).setReg 1 racIx (at_ 66)).setReg 1 dracIx (at_ 70)
def stItemOut : State :=
  ((stored [(88, itemWord)] (stTape.setXfer .output 1 (some itemOut))).setReg 1 wacIx (at_ 88)).setReg 1 dwacIx (at_ 70)
def stOutEnd : State :=
  (stTape.setXfer .output 1 (some ⟨0#3, .tape, false, false, true, [], [], none, false⟩)).setReg 1 wacIx (at_ 73)
def stIndex : State := (st.setReg 0 10 (at_ 32751)).setReg 0 11 (SReg.mk' false false 64)
def stStop : State := st.setReg 0 16 (at_ 32767)
def stBar : State := { st with bar := 0x00F880#24 }
def stHunt : State := { st with scan := some 5#3 }
def stEntry : State := { st with utEntry := some 513 }
def stMinus : State := st.setReg 0 2 SReg.zero
def stSmall : State := { st.setReg 0 2 (at_ 8192) with cfg := { Config.standard with mem := .w8192 } }
def stBadWord : State := st.setReg 0 2 (at_ 67)
def stUnassigned : State := st.setReg 0 2 (at_ 86)

/-- Operands in main memory, all designators zero. -/
def gen (a b c : Group) : Gen := ⟨false, false, false, false, a, b, c⟩
def gABC : Gen := gen 64 65 66
def gOvf : Gen := gen 68 69 66
def gAB : Gen := gen 64 65 0xFFF
def gBC : Gen := gen 0xFFF 65 66
def gAC : Gen := gen 64 0xFFF 66
def gA : Gen := gen 64 0xFFF 0xFFF
def gB : Gen := gen 0xFFF 65 0xFFF
def gC : Gen := gen 0xFFF 0xFFF 66
def gNone : Gen := gen 0xFFF 0xFFF 0xFFF
def gCount : Gen := gen 64 128 66
def gABC0 : Gen := gen 64 0 66
def mABC : Fld := ⟨false, 2, 64, 65, 66⟩
def gShift : Gen := gen 64 0x102 66
def gOne : Gen := gen 64 64 66
def gRec : Gen := gen 65 65 66
def gBad : Gen := gen 67 65 66
def gBadAB : Gen := gen 67 65 0xFFF
def gBadShift : Gen := gen 67 0x102 66
def gOrtho : Gen := gen 72 0xFFF 66
def prt (a b c : Group) : Prt := ⟨false, false, false, false, false, false, a, b, c⟩
def pABC : Prt := prt 64 0x080 66
def pAC : Prt := prt 64 0xFFF 66
def pLoad : Prt := prt 70 0x004 66
def pStore : Prt := prt 65 0x008 66
def perA : Per := ⟨1, 0, 66, 0xFFF, 0xFFF⟩
def perI : Per := ⟨1, 0, 0xFFF, 0xFFF, 0xFFF⟩
def perR : Per := ⟨3, 0, 66, 0xFFF, 0xFFF⟩
def gFloat : Gen := gen 80 81 66
def gFloatI : Gen := gen 80 81 0xFFF
def gFloatO : Gen := gen 82 83 66
def gDiv : Gen := gen 65 64 66
def gNorm : Gen := gen 80 64 66
def gConv : Gen := gen 84 64 66
def gConv4 : Gen := gen 85 64 66
def gUnload : Gen := gen 65 0xFFF 66

def gTotal : Gen := gen 68 128 66

/-- The states before the readings of word `a`. -/
def reads (a : Group) : Nat → State
  | 0 => st.begun
  | k + 1 => run (readOperand a false) (reads a k)

/-- The state once the destination of a transfer of word 64 to word 66 is known. -/
def moved (s : State) : State := run (locate 66 false) (run (readOperand 64 false) s)

/-- The states before the transfers of word 64 to word 66. -/
def moves : Nat → State
  | 0 => st.begun.noAc
  | k + 1 => (moved (moves k)).stored (.mem 66) (good 0xF00000000005#48)

/-- The states before the words of a group transfer of one word, from word 64 to word 66. -/
def groups : Nat → State
  | 0 => (run (auInit 66 false) ((run (auInit 64 false) st.begun.noAc).setReg 0#3 au1 (at_ 64))).setReg 0#3 au2 (at_ 66)
  | k + 1 => run (nextAu au2) (run (nextAu au1) ((run (auLoc false au2) (run (auRead false au1) (groups k))).stored (.mem 66)
      (good 0xF00000000005#48)))

/-- The states before the words of a record of one word, the end-of-record word, transferred from word 65 to word 66. -/
def records : Nat → State
  | 0 => (run (auInit 66 false) ((run (auInit 65 false) ((run (locate 65 false) st.begun.noAc).stored (.mem 65) (good
      eorWord))).setReg 0#3 au1 (at_ 65))).setReg 0#3 au2 (at_ 66)
  | k + 1 => run (nextAu au2) (run (nextAu au1) ((records k).putWord 66 (good eorWord)))

/-- The states before the words of an orthocount of word 72 and the end-of-record word after it. -/
def counts : Nat → State
  | 0 => run (orthoTable gOrtho) (((run (auInit 66 false) (run (auInit 72 false) st.begun)).putWord 66 (good eorWord)).setReg 0#3 au1
      (at_ 72))
  | k + 1 => run (nextAu au1) (counts k)

def product : FpOut := ⟨0xC16000000000#48, 0xB70000000000#48, 65, 55⟩
def sumOut : FpOut := ⟨0x801000000000#48, Config.freeWord (run (floatOperand 83 false) (run (floatOperand 82 false) st.begun)).free, 128, 0⟩
def stFlop : State := { st with flopHeld := true, fpuGroup := some 0#3 }
def stCrossed : State := st.setReg 0 2 ⟨false, 0x8000#16, .crossed⟩
def stBadSim : State := (st.setReg 0 2 (at_ 88)).putWord 88 ⟨0x007000000000#48, 1#6⟩
def stBadCounter : State := st.setReg 0 2 { at_ 513 with tag := .bad }
def stIndirect : State := (st.setReg 0 10 ⟨false, 0x8870#16, .good⟩).setReg 1 16 (at_ 77)
def stNamed : State := st.setReg 0 10 ⟨false, 0x8850#16, .good⟩
def stBarNamed : State := stBar.setReg 0 10 ⟨false, 0x8850#16, .good⟩
def stBarIndirect : State := stBar.setReg 0 10 ⟨false, 0x8870#16, .good⟩
def stLast : State := st.setReg 0 16 (at_ 32766)
def stOne : State := st.setReg 0 16 (SReg.mk' false false 1)
def stQueue : State := { stIn with env := [.demands [(.input, 1)]] }
def stLocked : State := { stTape with pcr := setBitAt stTape.pcr (interlockBit .input 1) true }
def stShared : State :=
  ({ stTape with cfg := { Config.standard with multiples := [[(.input, 1#3, 1#3), (.input, 1#3, 0#3)]] } })
def stRecord : State := st.setDev .input 1 0 { tapeDev with before := [List.replicate 8 (good 0#48)], after := [] }
def stSim : State := st.setReg 0 8 (at_ 512)
def pBC : Prt := prt 0xFFF 0x081 66
def gBad2 : Gen := gen 65 67 66
def gDivZero : Gen := gen 80 87 66
def gDivK : Gen := gen 64 65 0xFFF
def gNormZero : Gen := gen 80 90 66

/-! ### Ill-formed terms -/

theorem test_wellFormed_pra : WellFormed (.pra (prt 64 0x0C0 66)) = false := by decide
theorem test_wellFormed_prd : WellFormed (.prd (prt 64 0x080 66)) = false := by decide
theorem test_wellFormed_pro : WellFormed (.pro (prt 64 0x0C0 66)) = false := by decide

/-! ### Words written out from the operation codes of R146 and the layouts of R133 to R140 -/

theorem test_decode_ba : decode .default 0b010000_001001_000001000000_000001000001_000001000010#48 = .ok (.ba gABC) := rfl
theorem test_decode_baM : decode .default 0b000010_101001_000001000000_000001000001_000001000010#48 = .ok (.baM mABC) := rfl
theorem test_decode_ha : decode .default 0b010000_001000_000001000000_000001000001_000001000010#48 = .ok (.ha gABC) := rfl
theorem test_decode_tx : decode .default 0b010101_000011_000000000100_111111111111_000000000010#48 =
    .ok (.tx ⟨false, true, false, true, 4, 0xFFF, 2⟩) := rfl
theorem test_decode_na : decode .default 0b010000_000100_000001000000_000001000001_000001000010#48 = .ok (.na gABC) := rfl
theorem test_decode_sws : decode .default 0b010000_000110_000001000000_000100000010_000001000010#48 = .ok (.sws gShift) := rfl
theorem test_decode_mpc : decode .default 0b010010_000101_000000000000_001001000000_000001000010#48 =
    .ok (.mpc ⟨false, false, true, false, 0, 0x240, 66⟩) := rfl
theorem test_decode_rf : decode .default 0b001000_110010_000001000010_111111111111_111111111111#48 = .ok (.rf perA) := rfl
theorem test_decode_pra : decode .default 0b000000_110110_000001000000_000010000000_000001000010#48 = .ok (.pra pABC) := rfl
theorem test_decode_s : decode .default 0b000001_000111_000010000000_000000000000_000011000000#48 = .ok (.sDir ⟨8, 0x080, 0, 0x0C0⟩) := rfl
theorem test_decode_fba : decode .default 0b001000_000001_000001010000_000001010001_000001000010#48 = .ok (.fba gFloat) := rfl
theorem test_decode_unassigned : decode .default 0x002000000000#48 = .error .unassigned := rfl
theorem test_decodeTableWord : decodeTableWord 48 0x409040041042 = some (.ba gABC) := rfl

/-! ### Reset -/

theorem test_reset_memory : State.reset.mem.wf = true := rfl

/-- A proceed instruction placed where the machine fetches is the first one run. -/
theorem test_withFetchWord : (match step (State.reset.withFetchWord 48 0x000000000FFF) with
    | .next t => decide (t.reg 0 2 = at_ 513) && t.inDemand 0 && !t.halted
    | _ => false) = true := by decide +kernel

/-! ### One step of each instruction -/

/-- The state an instruction leaves; the state before it where it has none. -/
def after (i : Instr) (s : State) : State :=
  match exec i s with
  | .next t => t
  | _ => s

/-- The state with A, B and C in words 64, 65 and 66. -/
def abc (a b c : Word) : State := stored [(64, a), (65, b), (66, c)] st

/-- Group 0 with nothing in memory but words 64 and 65. -/
def small (a b : Word) : State := stored [(64, a), (65, b)] { State.reset with pcr := 0x80000#48, scan := none, ctl := at_ 513 }

/-- What an instruction leaves in word 66. -/
def result (i : Instr) (a b c : Word) : Word := ((after i (abc a b c)).mem.word 66).bits

/-- Where the sequence counter stands after an instruction. -/
def goes (i : Instr) (a b : Word) : Nat := ((after i (abc a b 0)).reg 0 2).addr

/-- FLAC and FLOP after an instruction with an inactive C. -/
def floats (i : Gen → Instr) (a b : Word) : Word × Word :=
  ((after (i gAB) (abc a b 0)).flac, (after (i gAB) (abc a b 0)).flop)

-- Arithmetic: vectors B2, B6, B9, B15, B18, B26, B28, B31, B12, B40; the masked ones by R243 and R230 on the operands of B40.
theorem test_ba : result (.ba gABC) 0x000000000005 0xF00000000003 0 = 0x000000000002#48 := by decide +kernel
theorem test_ba_overflow : (after (.ba gABC) (abc 0xF80000000000 0xF80000000001 0)).utEntry = some 40 := by decide +kernel
theorem test_bs : result (.bs gABC) 0xF00000000005 0xF00000000007 0 = 0x000000000002#48 := by decide +kernel
theorem test_da : result (.da gABC) 0xF00000012500 0x000000001750 0 = 0xF00000010750#48 := by decide +kernel
theorem test_da_digit : result (.da gABC) 0xF00000000008 0xF0000000000A 0 = 0xF00000000018#48 := by decide +kernel
theorem test_ds : result (.ds gABC) 0xF00000000001 0xF00000000002 0 = 0x000000000001#48 := by decide +kernel
theorem test_wa : result (.wa gABC) 0xFFFFFFFFFFFF 0x000000000001 7 = 0#48 := by decide +kernel
theorem test_wd : result (.wd gABC) 0x000000000003 0x000000000005 0 = 2#48 := by decide +kernel
theorem test_baM : result (.baM mABC) 0xAAAA1234BBBB 0xCCCC0111DDDD 0xEEEEEEEEEEEE = 0xEEEE1345EEEE#48 := by decide +kernel
theorem test_daM : result (.daM mABC) 0xAAAA1239BBBB 0xCCCC0111DDDD 0xEEEEEEEEEEEE = 0xEEEE1350EEEE#48 := by decide +kernel
theorem test_waM : result (.waM mABC) 0xAAAAFFFFBBBB 0xCCCC0001DDDD 0xEEEEEEEEEEEE = 0xEEEE0000EEEE#48 := by decide +kernel
theorem test_bsM : result (.bsM mABC) 0xAAAA1234BBBB 0xCCCC0111DDDD 0xEEEEEEEEEEEE = 0xEEEE1123EEEE#48 := by decide +kernel
theorem test_dsM : result (.dsM mABC) 0xAAAA1230BBBB 0xCCCC0111DDDD 0xEEEEEEEEEEEE = 0xEEEE1119EEEE#48 := by decide +kernel
theorem test_wdM : result (.wdM mABC) 0xAAAA0111BBBB 0xCCCC1234DDDD 0xEEEEEEEEEEEE = 0xEEEE1123EEEE#48 := by decide +kernel
theorem test_bm : (after (.bm gABC) (small 0xF10000000000 0xF10000000000)).ac = 0xF01000000000#48 := by decide +kernel
theorem test_bm_low : (after (.bm gABC) (small 0xF00000000003 0x000000000005)).lop = 0x00000000000F#48 := by decide +kernel
theorem test_dm : (after (.dm gABC) (small 0xF50000000000 0x020000000000)).ac = 0x010000000000#48 := by decide +kernel
theorem test_bt : result (.bt gCount) 0x000000000009 0 0 = 0x000000000012#48 := by decide +kernel
theorem test_dt : result (.dt gCount) 0x000000000009 0 0 = 0x000000000018#48 := by decide +kernel
theorem test_eba : (after (.eba ⟨false, true, false, true, 16, 65, 16⟩) ((abc 0 1 0).setReg 0 16 (at_ 32767))).reg 0 16 =
    SReg.mk' true true 0 := by decide +kernel
theorem test_ebs : (after (.ebs ⟨false, true, false, true, 16, 65, 16⟩) ((abc 0 1 0).setReg 0 16 (SReg.mk' true true 0))).reg 0 16 =
    at_ 32767 := by decide +kernel

-- Logical and shift: vectors L1 to L4, B42, H5 to H11, H14.
theorem test_ha : result (.ha gABC) 0xFFFF0000FFFF 0x0F0F0F0F0F0F 0 = 0xF0F00F0FF0F0#48 := by decide +kernel
theorem test_sm : result (.sm gABC) 0xF0F000000000 0x0F0F00000001 0 = 0xFFFF00000001#48 := by decide +kernel
theorem test_haM : result (.haM mABC) 0xAAAA1234BBBB 0xCCCC0111DDDD 0xEEEEEEEEEEEE = 0xEEEE1325EEEE#48 := by decide +kernel
theorem test_smM : result (.smM mABC) 0xAAAA1234BBBB 0xCCCC0111DDDD 0xEEEEEEEEEEEE = 0xEEEE1335EEEE#48 := by decide +kernel
theorem test_ex : result (.ex gABC) 0x123456789ABC 0x000000FFF000 0xFFFFFFFFFFFF = 0x000000789000#48 := by decide +kernel
theorem test_ss : result (.ss gABC) 0x123456789ABC 0x000000FFF000 0xFFFFFFFFFFFF = 0xFFFFFF789FFF#48 := by decide +kernel

/-- What a shift by `n` under the mask `m` leaves in word 66. -/
def shifted (i : Gen → Instr) (n : Nat) (a m c : Word) : Word :=
  ((after (i (gen 64 (BitVec.ofNat 12 (64 * n + 2)) 66)) (stored [(2, m)] (abc a 0 c))).mem.word 66).bits

theorem test_sws : shifted .sws 24 0x123456789ABC 0xFF00000000FF 0xAAAAAAAAAAAA = 0x78AAAAAAAA56#48 := by decide +kernel
theorem test_sps : shifted .sps 4 0xF00000000012 0x0000FFFF0000 0xAAAAAAAAAAAA = 0xAAAA0000AAAA#48 := by decide +kernel
theorem test_sps_sign : shifted .sps 48 0xF23456789ABC 0xFFFFFFFFFFFF 0 = 0xFC23456789AB#48 := by decide +kernel
theorem test_swe : shifted .swe 12 0x123456789ABC 0x000000000FFF 7 = 0x000000000789#48 := by decide +kernel
theorem test_spe : shifted .spe 4 0xF00000000012 0x00000000000F 7 = 0x000000000001#48 := by decide +kernel
theorem test_ssl : ((after (.ssl (gen 64 2 0o3777)) (stored [(2, 0x7FF)] (abc 0x7FF 0 0))).reg 0 2).addr = 0o3776 := by decide +kernel

-- Transfer: vectors T1 to T16, M10, M13.
theorem test_tx : result (.tx gABC) 0x123456789ABC 0 0 = 0x123456789ABC#48 := by decide +kernel
theorem test_tx_toRegister : (after (.tx ⟨false, false, false, true, 64, 0xFFF, 17⟩) (abc 0x123456789ABC 0 0)).reg 0 17 =
    SReg.mk' false true 0o15274 := by decide +kernel
theorem test_txM : result (.txM mABC) 0xAAAA1234BBBB 0 0xEEEEEEEEEEEE = 0xEEEE1234EEEE#48 := by decide +kernel
theorem test_ts : ((after (.ts { gABC with seq := true }) (abc 77 0 0)).mem.word 65).bits = 77#48 := by decide +kernel
theorem test_ts_history : (after (.ts { gABC with seq := true }) (abc 77 0 0)).reg 0 5 = at_ 513 := by decide +kernel
theorem test_tsM : ((after (.tsM mABC) (abc 0xAAAA1234BBBB 0xCCCC0111DDDD 0)).mem.word 65).bits = 0xCCCC1234DDDD#48 := by decide +kernel
theorem test_mt : (after (.mt ⟨false, true, false, false, 0x070, 128, 66⟩) (abc 1 2 0)).mem.word 66 = good 2#48 := by decide +kernel
theorem test_tn : (after (.tn (gen 64 128 80)) (abc 1 2 0)).mem.word 81 = good 2#48 := by decide +kernel
theorem test_rt : (after (.rt (gen 64 66 80)) (abc 1 2 0)).mem.word 82 = good eorWord := by decide +kernel
theorem test_it : (after (.it (gen 64 90 80)) (abc 1 0xAA00EEEE1234 3)).mem.word 82 = good 0xFFF000000000#48 := by decide +kernel
theorem test_cp : (after (.cp gBad) st).mem.word 65 = good 7#48 := by decide +kernel
theorem test_cp_jumps : ((after (.cp gBad) st).reg 0 2).addr = 66 := by decide +kernel
theorem test_cpM : ((after (.cpM { mABC with a := 67 }) st).reg 0 2).addr = 513 := by decide +kernel
theorem test_cc : let s := after (.cc (gen 64 0xFFF 67)) (abc 0x111111111111 0x222222222222 0x444444444444)
    (s.mem.word 67 = good 0xDDDDDDDDDDDD#48) ∧ s.mem.word 68 = good 0xAAAAAAAAAAAA#48 := by decide +kernel

-- Decision: R351, R352, F22, F23.
theorem test_na : goes (.na gABC) 0xF00000000000 0 = 66 := by decide +kernel
theorem test_nn : goes (.nn gABC) 0xF00000000000 0 = 513 := by decide +kernel
theorem test_la : goes (.la gABC) 0x000000000005 0x000000000003 = 513 := by decide +kernel
theorem test_ln : goes (.ln gABC) 0x000000000005 0x000000000003 = 66 := by decide +kernel
theorem test_naM : goes (.naM mABC) 0xAAAA1234BBBB 0xCCCC1234DDDD = 513 := by decide +kernel
theorem test_nnM : goes (.nnM mABC) 0xAAAA1234BBBB 0xCCCC1235DDDD = 66 := by decide +kernel
theorem test_laM : goes (.laM mABC) 0xAAAA1235BBBB 0xCCCC1234DDDD = 513 := by decide +kernel
theorem test_lnM : goes (.lnM mABC) 0xAAAA1235BBBB 0xCCCC1234DDDD = 66 := by decide +kernel
theorem test_fln : goes (.fln gABC) 0x411000000000 0x412000000000 = 513 := by decide +kernel
theorem test_fnn : goes (.fnn gABC) 0x800000000000 0 = 66 := by decide +kernel

-- Control, proceed, simulator: P4, R480, M8.
theorem test_mpc : let s := after (.mpc ⟨false, false, true, false, 0, 0o1100, 66⟩) st
    s.inDemand 1 = true ∧ s.mem.word 66 = good 0x80000#48 := by decide +kernel
theorem test_pr : (after (.pr ⟨false, false, false, false, 0, 0, 0⟩) st).scan = some 1#3 := by decide +kernel
theorem test_sDir : let s := after (.sDir ⟨8, 128, 0, 192⟩) st
    s.mem.word 71 = good 0x0470800000C0#48 ∧ s.reg 0 3 = at_ 72 := by decide +kernel
theorem test_sIdx : let s := after (.sIdx ⟨8, 128, 0, 192⟩) (st.setReg 0 8 (at_ 512))
    s.reg 0 0 = at_ 128 ∧ s.reg 0 3 = at_ 584 := by decide +kernel

-- Print: M14, R461, R462, R464.
theorem test_pra : (after (.pra pABC) (abc 0x041041041041 0 0)).typing.map (·.left) =
    some ([.group 0#3] ++ List.replicate 8 (.char 1#6) ++ [.cr]) := by decide +kernel
theorem test_prd : (after (.prd (prt 64 0x0C0 66)) (abc 0x111111111111 0 0)).typing.map (·.left.take 5) =
    some [.group 0#3, .hex 1#4, .hex 1#4, .hex 1#4, .space] := by decide +kernel
theorem test_pro : (after (.pro (prt 64 0x040 66)) (abc 0xFFFFFFFFFFFF 0 0)).typing.map (·.left.take 6) =
    some [.group 0#3, .oct 7#3, .oct 7#3, .oct 7#3, .oct 7#3, .space] := by decide +kernel

-- Peripheral: D-vectors, R404, R431, R440.
theorem test_rf : let s := after (.rf perA) stTape
    s.reg 1 28 = at_ 66 ∧ bitAt s.pcr 10 = true := by decide +kernel
theorem test_rb : (after (.rb perA) (st.setDev .input 1 0 { tapeDev with before := tapeDev.after ++ tapeDev.after ++ tapeDev.after })).reg 1 28 =
    SReg.mk' false false 66 := by decide +kernel
theorem test_wf : let s := after (.wf { perA with a := 64 }) stTape
    s.reg 1 30 = at_ 65 ∧ bitAt s.pcr 42 = true := by decide +kernel
theorem test_rw : let v := (after (.rw perA) stTape).dev .input 1 0
    v.busy = true ∧ v.lockOnRewind = true := by decide +kernel

-- Scientific: vectors F1 to F18 and the examples of R540 to R558.
theorem test_fba : (floats .fba 0xC08000000000 0xC08000000000).1 = 0xC11000000000#48 := by decide +kernel
theorem test_fba_overflow : (after (.fba gFloatO) st).utEntry = some 46 := by decide +kernel
theorem test_fda : (floats .fda 0xC19000000000 0xC11000000000).1 = 0xC21000000000#48 := by decide +kernel
theorem test_fbs : (floats .fbs 0xC11000000000 0xC0F000000000).1 = 0xC01000000000#48 := by decide +kernel
theorem test_fds : (floats .fds 0xC11000000000 0xC09999999999).1 = 0xB81000000000#48 := by decide +kernel
theorem test_fbau : (floats .fbau 0xC10100000000 0xC10200000000).1 = 0xC10300000000#48 := by decide +kernel
theorem test_fdau : (floats .fdau 0xC19000000000 0xC12000000000).1 = 0xC21100000000#48 := by decide +kernel
theorem test_fbsu : (floats .fbsu 0xC10300000000 0xC10100000000).1 = 0xC10200000000#48 := by decide +kernel
theorem test_fdsu : (floats .fdsu 0xC11200000000 0xC10500000000).1 = 0xC10700000000#48 := by decide +kernel
theorem test_fbae : floats .fbae 0xC11000000000 0xB71000000000 = (0xC11000000000#48, 0xB71000000000#48) := by decide +kernel
theorem test_fbse : floats .fbse 0xC11000000000 0xC11000000000 = (0x800000000000#48, 0x800000000000#48) := by decide +kernel
theorem test_fbm : floats .fbm 0xC12000000000 0x413000000000 = (0x416000000000#48, 0x370000000000#48) := by decide +kernel
theorem test_fdm : floats .fdm 0xC11234567890 0xC19876543210 = (0xC21219326311#48, 0xB81263526900#48) := by decide +kernel
theorem test_fbd : floats .fbd 0xC13000000000 0xC11000000000 = (0xC05555555555#48, 0xB71000000000#48) := by decide +kernel
theorem test_fbd_zero : (after (.fbd gAB) (abc 0xC00000000000 0xC11000000000 0)).utEntry = some 42 := by decide +kernel
theorem test_fdd : floats .fdd 0xC13000000000 0xC11000000000 = (0xC03333333333#48, 0xB71000000000#48) := by decide +kernel
theorem test_bd : floats .bd 0xF00000000004 0xF00000000001 = (0xF40000000000#48, 0xF00000000000#48) := by decide +kernel
theorem test_dd : floats .dd 0xF00000000003 0xF00000000001 = (0xF33333333333#48, 0xF00000000001#48) := by decide +kernel
theorem test_ffn : floats .ffn 0xCB0000000000 0xF00000000125 = (0xC31250000000#48, 0xB90000000000#48) := by decide +kernel
theorem test_fcon_binary : (floats .fcon 1 0xF50000000000).1 = 0xC08000000000#48 := by decide +kernel
theorem test_fcon_decimal : (floats .fcon 4 0xC08000000000).1 = 0xF50000000000#48 := by decide +kernel
theorem test_uld : let s := after (.uld gUnload) { st with flac := 5#48, flop := 6#48, flopHeld := true, fpuGroup := some 0#3 }
    s.mem.word 65 = good 5#48 ∧ s.mem.word 66 = good 6#48 := by decide +kernel

-- The barricade (vector X12): a store above the boundary is suppressed and the error kept for the next selection.
theorem test_barricade : let s := after (.tx (gen 64 0xFFF 66)) { stBar with bar := 0x000080#24, ctl := at_ 4096 }
    s.limited = some ⟨0b10000#5, 0#3, false⟩ ∧ s.mem = stBar.mem := by decide +kernel

-- R215 and R662: neither a stopper nor the boundary is stepped off, whatever the sign; R322 and log 33: an indexed C outside 15 bits.
theorem test_counter_frozen : check (stepCounter true (SReg.mk' false false 2047)) { st with bar := 0x000080#24 } (SReg.mk' false false 2047) = true ∧
    check (stepCounter false (at_ 32767)) st (at_ 32767) = true := by decide +kernel
theorem test_sequence_outside : ((after (.ts (gen 64 65 0xA11)) stIndex).reg 0 2).tag = .lost := by decide +kernel
-- R610 and R333: a bad word that is read and not printed, or moved to a destination that cannot be used, makes the transfer to U + 2.
theorem test_print_parity : (after (.pra (prt 67 0xFFF 66)) st).utEntry = some 34 := by decide +kernel
theorem test_rt_parity : (after (.rt (gen 67 66 0xA11)) stIndex).utEntry = some 34 := by decide +kernel
-- R460: A is read, and an indexed special register address steps its register, before a busy typewriter stalls the print.
theorem test_print_stall : let s := after (.pra { prt 0x801 0x080 66 with dA := true }) (stTyping.setReg 0 8 (at_ 0o717))
    s.reg 0 16 = at_ 71 ∧ s.stalls[0] = .io := by decide +kernel
-- R460 and R311: a print with an inactive A takes the word that TS with an inactive B left in the accumulator.
theorem test_print_accumulator : (match printSource (prt 0xFFF 0x080 66) true (after (.ts (gen 64 0xFFF 0xFFF)) st) with
    | .ok (w, _) => some w
    | .error _ => none) = some (good 0xF00000000005#48) := by decide +kernel
-- R205: an index register of bad parity that a record transfer uses is control error 00001, with the barricade a limited one.
theorem test_rt_badIndex : (after (.rt { gen 0xA11 66 80 with dA := true })
    (st.setReg 0 10 { at_ 0 with tag := .bad })).limited.map (·.code) = some 1#5 := by
  decide +kernel
-- R445 and U43: the first record beyond the recorded tape stores the read error.
theorem test_beyond : ((after (.rf perA) (st.setDev .input 1 0 { tapeDev with before := tapeDev.after, after := [] })).dev .input 1 0).readErr =
    true := by decide +kernel
-- R452 and R420: a paper tape punch punches the low-order bits of the word, and nothing when an error has been sensed.
theorem test_punch : (Device.idle.finish ⟨0#3, .paperPunch, false, false, false, [], [], none, false⟩ [good 0x100000000053#48] 0).stopped.before =
    [[good 0x53#48]] := by decide +kernel
theorem test_punch_error : (((Device.idle.finish ⟨0#3, .paperPunch, false, false, false, [], [], none, false⟩ [good 0x53#48] 0).failed
    (some .paperPunch) .output).stopped.before, (Device.idle.finish ⟨0#3, .paperPunch, false, false, false, [], [], none, true⟩
    [good 0x53#48] 0).stopped.before) = ([], []) := by decide +kernel
-- R447: a card without errors, the mode switch at full-card, is its ten words and a control word whose bits 15 and 16 are ones.
theorem test_card : (delivered .cardReader Device.idle (List.replicate 10 (good 5#48))).drop 10 = [good 0x000300000000#48] := by decide +kernel

/-! ### The hypotheses of the statements can be met -/

theorem witness_AddInstructions : ∃ (i : Instr) (k : Adder) (f : Form) (s s1 s2 s3 : State) (a b : MWord) (r : Sum) (l : Loc),
    addRow i = some (k, f) ∧
    s.env = [] ∧
    s.mem.wf = true ∧
    f.a ≠ inactiveGroup ∧
    f.b ≠ inactiveGroup ∧
    f.c ≠ inactiveGroup ∧
    s.begun.maskReady f.mask ∧
    readOperand f.a f.dA (s.begun.masking f.mask) = .ok (a, s1) ∧
    MWord.bad a = false ∧
    readOperand f.b f.dB s1 = .ok (b, s2) ∧
    MWord.bad b = false ∧
    k.combine (loadedSign k.kind s.acSign (gate (s.maskWord f.mask) a.bits)) (gate (s.maskWord f.mask) a.bits) (gate (s.maskWord f.mask) b.bits)
      = .sum r ∧
    r.ovf = false ∧
    locate f.c f.dC (s2.summed k.kind (s.maskWord f.mask) r true) = .ok (l, s3) ∧
    s3.admits l ∧
    (f.mask.isSome = true → MWord.bad (s3.contents l) = false) ∧
    (k.kind = .decimal → l.regs = []) :=
  ⟨.ba gABC, adderBA, genForm gABC, st, _, _, _, good 0xF00000000005#48, good 0xF00000000003#48, ⟨0xF00000000008#48, true, false⟩, .mem 66, by
    and_intros <;> first
      | exact got (by decide +kernel) | decide +kernel | exact admits_mem (by decide +kernel) (by decide +kernel)
      | exact can_transfer (by decide +kernel) | exact trivial | exact rfl⟩

theorem witness_AdderValues_decimal : ∃ a b : Word, isDecimal 11 (mag a) = true ∧ isDecimal 11 (mag b) = true :=
  ⟨0xF99999999999#48, 0x099999999999#48, by decide +kernel⟩

theorem witness_AdderValues_digits : (∀ p ∈ [(10, 0, 0), (15, 15, 1)], p.1 < 16 ∧ p.2.1 < 16 ∧ p.2.2 ≤ 1 ∧ 10 ≤ p.1) ∧
    (∀ p ∈ [(0, 0, 0), (9, 0, 0), (8, 0, 1)], p.1 < 10 ∧ p.1 + p.2.1 + p.2.2 < 10) ∧
    (∀ p ∈ [(9, 1, 0), (9, 9, 0), (9, 9, 1), (8, 10, 0)], p.1 < 10 ∧ 10 ≤ p.1 + p.2.1 + p.2.2 ∧ (p.1 + p.2.1 + p.2.2 ≤ 18 ∨ p.2.1 < 10)) ∧
    (∀ p ∈ [(9, 10, 0), (9, 10, 1), (4, 15, 0), (9, 11, 0)], p.1 < 10 ∧ 10 ≤ p.2.1 ∧ (p.1 + p.2.1 + p.2.2 = 19 ∨ p.1 + p.2.1 + p.2.2 = 20)) ∧
    (∀ p ∈ [(9, 11, 1), (9, 15, 1)], p.1 < 10 ∧ 10 ≤ p.2.1 ∧ p.2.1 < 16 ∧ p.2.2 ≤ 1 ∧ 20 < p.1 + p.2.1 + p.2.2) := by decide +kernel

theorem witness_AddTransfers : ∃ (i : Instr) (k : Adder) (f : Form) (s s1 s2 s3 : State) (a b : MWord) (r : Sum) (l : Loc),
    addRow i = some (k, f) ∧
    s.env = [] ∧
    s.mem.wf = true ∧
    f.a ≠ inactiveGroup ∧
    f.b ≠ inactiveGroup ∧
    f.c ≠ inactiveGroup ∧
    s.begun.maskReady f.mask ∧
    readOperand f.a f.dA (s.begun.masking f.mask) = .ok (a, s1) ∧
    readOperand f.b f.dB s1 = .ok (b, s2) ∧
    k.combine (loadedSign k.kind s.acSign (gate (s.maskWord f.mask) a.bits)) (gate (s.maskWord f.mask) a.bits) (gate (s.maskWord f.mask) b.bits)
      = .sum r ∧
    (MWord.bad a || MWord.bad b || r.ovf) = true ∧
    locate f.c f.dC (s2.summed k.kind (s.maskWord f.mask) r true) = .ok (l, s3) ∧
    s3.admits l ∧
    (f.mask.isSome = true → MWord.bad (s3.contents l) = false) ∧
    (k.kind = .decimal → l.regs = []) ∧
    (s3.stored l (MWord.good (merged (s.maskWord f.mask) (s3.contents l) (storeForm k.kind r)))).canTransfer :=
  ⟨.ba gOvf, adderBA, genForm gOvf, st, _, _, _, good 0xF80000000000#48, good 0xF80000000001#48, ⟨0xF00000000001#48, true, true⟩, .mem 66, by
    and_intros <;> first
      | exact got (by decide +kernel) | decide +kernel | exact admits_mem (by decide +kernel) (by decide +kernel)
      | exact can_transfer (by decide +kernel) | exact trivial | exact rfl⟩

theorem witness_AddToAccumulator : ∃ (i : Instr) (k : Adder) (f : Form) (s s1 s2 : State) (a : Word) (q r : Sum),
    addRow i = some (k, f) ∧
    s.env = [] ∧
    f.c = inactiveGroup ∧
    f.dC = false ∧
    s.begun.maskReady f.mask ∧
    s.firstAdded k.kind f a q s1 ∧
    k.secondAdded (s.maskWord f.mask) f a q r s1 s2 ∧
    r.ovf = false :=
  ⟨.ba gAB, adderBA, genForm gAB, st, _, _, 0xF00000000005#48, ⟨0xF00000000005#48, true, false⟩, ⟨0xF00000000008#48, true, false⟩, by
    and_intros <;> first
      | exact .inl ⟨by decide +kernel, good 0xF00000000005#48, got (by decide +kernel), by decide +kernel, by decide +kernel, by decide +kernel⟩
      | exact .inl ⟨by decide +kernel, good 0xF00000000003#48, got (by decide +kernel), by decide +kernel, by decide +kernel⟩
      | exact got (by decide +kernel) | decide +kernel | exact admits_mem (by decide +kernel) (by decide +kernel)
      | exact can_transfer (by decide +kernel) | exact trivial | exact rfl⟩

theorem witness_AddToAccumulator_first : ∃ (i : Instr) (k : Adder) (f : Form) (s s1 s2 : State) (a : Word) (q r : Sum),
    addRow i = some (k, f) ∧
    s.env = [] ∧
    f.c = inactiveGroup ∧
    f.dC = false ∧
    s.begun.maskReady f.mask ∧
    s.firstAdded k.kind f a q s1 ∧
    k.secondAdded (s.maskWord f.mask) f a q r s1 s2 ∧
    r.ovf = false ∧
    f.b = inactiveGroup :=
  ⟨.ba gA, adderBA, genForm gA, st, _, _, 0xF00000000005#48, ⟨0xF00000000005#48, true, false⟩, ⟨0xF00000000005#48, true, false⟩, by
    and_intros <;> first
      | exact .inl ⟨by decide +kernel, good 0xF00000000005#48, got (by decide +kernel), by decide +kernel, by decide +kernel, by decide +kernel⟩
      | exact .inr ⟨rfl, rfl, rfl, rfl⟩
      | exact got (by decide +kernel) | decide +kernel | exact admits_mem (by decide +kernel) (by decide +kernel)
      | exact can_transfer (by decide +kernel) | exact trivial | exact rfl⟩

theorem witness_AddToAccumulator_second : ∃ (i : Instr) (k : Adder) (f : Form) (s s1 s2 : State) (a : Word) (q r : Sum),
    addRow i = some (k, f) ∧
    s.env = [] ∧
    f.c = inactiveGroup ∧
    f.dC = false ∧
    s.begun.maskReady f.mask ∧
    s.firstAdded k.kind f a q s1 ∧
    k.secondAdded (s.maskWord f.mask) f a q r s1 s2 ∧
    r.ovf = false ∧
    f.a = inactiveGroup ∧
    f.b ≠ inactiveGroup :=
  ⟨.ba gB, adderBA, genForm gB, stHeld, _, _, 0xF00000000005#48, ⟨0xF00000000005#48, true, false⟩, ⟨0xF00000000008#48, true, false⟩, by
    and_intros <;> first
      | exact .inr ⟨rfl, rfl, rfl, .inl rfl, rfl, rfl, by decide +kernel⟩
      | exact .inl ⟨by decide +kernel, good 0xF00000000003#48, got (by decide +kernel), by decide +kernel, by decide +kernel⟩
      | exact got (by decide +kernel) | decide +kernel | exact admits_mem (by decide +kernel) (by decide +kernel)
      | exact can_transfer (by decide +kernel) | exact trivial | exact rfl⟩

theorem witness_AddToAccumulator_none : ∃ (i : Instr) (k : Adder) (f : Form) (s s1 s2 : State) (a : Word) (q r : Sum),
    addRow i = some (k, f) ∧
    s.env = [] ∧
    f.c = inactiveGroup ∧
    f.dC = false ∧
    s.begun.maskReady f.mask ∧
    s.firstAdded k.kind f a q s1 ∧
    k.secondAdded (s.maskWord f.mask) f a q r s1 s2 ∧
    r.ovf = false ∧
    f.a = inactiveGroup ∧
    f.b = inactiveGroup :=
  ⟨.ba gNone, adderBA, genForm gNone, stHeld, _, _, 0xF00000000005#48, ⟨0xF00000000005#48, true, false⟩, ⟨0xF00000000005#48, true, false⟩, by
    and_intros <;> first
      | exact .inr ⟨rfl, rfl, rfl, .inl rfl, rfl, rfl, by decide +kernel⟩
      | exact .inr ⟨rfl, rfl, rfl, rfl⟩
      | exact got (by decide +kernel) | decide +kernel | exact admits_mem (by decide +kernel) (by decide +kernel)
      | exact can_transfer (by decide +kernel) | exact trivial | exact rfl⟩

theorem witness_AddFromAccumulator : ∃ (i : Instr) (k : Adder) (f : Form) (s s2 s3 : State) (b : MWord) (r : Sum) (l : Loc),
    addRow i = some (k, f) ∧
    s.env = [] ∧
    s.mem.wf = true ∧
    f.a = inactiveGroup ∧
    f.dA = false ∧
    f.b ≠ inactiveGroup ∧
    f.c ≠ inactiveGroup ∧
    s.begun.maskReady f.mask ∧
    s.acState = .held k.kind ∧
    (f.mask = none ∨ s.heldMask = (s.maskWord f.mask).map (·.bits)) ∧
    readOperand f.b f.dB (s.begun.masking f.mask) = .ok (b, s2) ∧
    MWord.bad b = false ∧
    k.combine s.acSign (storeForm k.kind ⟨s.ac, s.acSign, false⟩) (gate (s.maskWord f.mask) b.bits) = .sum r ∧
    r.ovf = false ∧
    locate f.c f.dC (s2.summed k.kind (s.maskWord f.mask) r true) = .ok (l, s3) ∧
    s3.admits l ∧
    (f.mask.isSome = true → MWord.bad (s3.contents l) = false) ∧
    (k.kind = .decimal → l.regs = []) :=
  ⟨.ba gBC, adderBA, genForm gBC, stHeld, _, _, good 0xF00000000003#48, ⟨0xF00000000008#48, true, false⟩, .mem 66, by
    and_intros <;> first
      | exact .inl rfl
      | exact got (by decide +kernel) | decide +kernel | exact admits_mem (by decide +kernel) (by decide +kernel)
      | exact can_transfer (by decide +kernel) | exact trivial | exact rfl⟩

theorem witness_AddFromAccumulator_delivered : ∃ (i : Instr) (k : Adder) (f : Form) (s : State),
    addRow i = some (k, f) ∧
    s.env = [] ∧
    f.a = inactiveGroup ∧
    f.dA = false ∧
    (f.b = inactiveGroup → f.dB = false) ∧
    (f.c = inactiveGroup → f.dC = false) ∧
    (s.acState = .delivered ∨ s.acState = .spent) ∧
    s.limited = none :=
  ⟨.ba gBC, adderBA, genForm gBC, { stHeld with acState := .delivered }, by
    and_intros <;> first
      | exact .inl rfl
      | exact got (by decide +kernel) | decide +kernel | exact admits_mem (by decide +kernel) (by decide +kernel)
      | exact can_transfer (by decide +kernel) | exact trivial | exact rfl⟩

theorem witness_AddOneOperand : ∃ (i : Instr) (k : Adder) (f : Form) (s s1 s3 : State) (a : Word) (r : Sum) (l : Loc),
    addRow i = some (k, f) ∧
    s.env = [] ∧
    s.mem.wf = true ∧
    f.b = inactiveGroup ∧
    f.dB = false ∧
    f.c ≠ inactiveGroup ∧
    s.begun.maskReady f.mask ∧
    s.firstAdded k.kind f a r s1 ∧
    locate f.c f.dC (s1.summed k.kind (s.maskWord f.mask) r true) = .ok (l, s3) ∧
    s3.admits l ∧
    (f.mask.isSome = true → MWord.bad (s3.contents l) = false) ∧
    (k.kind = .decimal → l.regs = []) :=
  ⟨.ba gAC, adderBA, genForm gAC, st, _, _, 0xF00000000005#48, ⟨0xF00000000005#48, true, false⟩, .mem 66, by
    and_intros <;> first
      | exact .inl ⟨by decide +kernel, good 0xF00000000005#48, got (by decide +kernel), by decide +kernel, by decide +kernel, by decide +kernel⟩
      | exact got (by decide +kernel) | decide +kernel | exact admits_mem (by decide +kernel) (by decide +kernel)
      | exact can_transfer (by decide +kernel) | exact trivial | exact rfl⟩

theorem witness_AddOneOperand_accumulator : ∃ (i : Instr) (k : Adder) (f : Form) (s s1 s3 : State) (a : Word) (r : Sum) (l : Loc),
    addRow i = some (k, f) ∧
    s.env = [] ∧
    s.mem.wf = true ∧
    f.b = inactiveGroup ∧
    f.dB = false ∧
    f.c ≠ inactiveGroup ∧
    s.begun.maskReady f.mask ∧
    s.firstAdded k.kind f a r s1 ∧
    locate f.c f.dC (s1.summed k.kind (s.maskWord f.mask) r true) = .ok (l, s3) ∧
    s3.admits l ∧
    (f.mask.isSome = true → MWord.bad (s3.contents l) = false) ∧
    (k.kind = .decimal → l.regs = []) ∧
    f.a = inactiveGroup :=
  ⟨.ba gC, adderBA, genForm gC, stHeld, _, _, 0xF00000000005#48, ⟨0xF00000000005#48, true, false⟩, .mem 66, by
    and_intros <;> first
      | exact .inr ⟨rfl, rfl, rfl, .inl rfl, rfl, rfl, by decide +kernel⟩
      | exact got (by decide +kernel) | decide +kernel | exact admits_mem (by decide +kernel) (by decide +kernel)
      | exact can_transfer (by decide +kernel) | exact trivial | exact rfl⟩

theorem witness_ExtendedAddInstructions : ∃ (sub : Bool) (f : Gen) (s s1 s2 s3 : State) (a b : MWord) (r : Sum) (l : Loc),
    s.env = [] ∧
    s.mem.wf = true ∧
    s.cfg.extended = true ∧
    f.a ≠ inactiveGroup ∧
    f.b ≠ inactiveGroup ∧
    f.c ≠ inactiveGroup ∧
    readExtended f.a f.dA s.begun = .ok (a, s1) ∧
    MWord.bad a = false ∧
    readExtended f.b f.dB s1 = .ok (b, s2) ∧
    MWord.bad b = false ∧
    binarySum sub a.bits b.bits = .sum r ∧
    r.ovf = false ∧
    locate f.c f.dC (s2.summed .binary none r true) = .ok (l, s3) ∧
    s3.admits l :=
  ⟨false, gABC, st, _, _, _, good 0xF00000000005#48, good 0xF00000000003#48, ⟨0xF00000000008#48, true, false⟩, .mem 66, by
    and_intros <;> first
      | exact got (by decide +kernel) | decide +kernel | exact admits_mem (by decide +kernel) (by decide +kernel)
      | exact can_transfer (by decide +kernel) | exact trivial | exact rfl⟩

theorem witness_BinaryMultiply : ∃ (f : Gen) (s s1 s2 s3 : State) (a b : MWord) (l : Loc) (hi lo : Nat) (sign : Bool),
    s.env = [] ∧
    s.mem.wf = true ∧
    f.a ≠ inactiveGroup ∧
    f.b ≠ inactiveGroup ∧
    f.c ≠ inactiveGroup ∧
    readOperand f.a f.dA s.begun = .ok (a, s1) ∧
    MWord.bad a = false ∧
    readOperand f.b f.dB s1 = .ok (b, s2) ∧
    MWord.bad b = false ∧
    s2.namesRegister f.c f.dC = false ∧
    hi * 2 ^ 44 + lo = mag a.bits * mag b.bits ∧
    lo < 2 ^ 44 ∧
    sign = (posSign a.bits == posSign b.bits) ∧
    locate f.c f.dC (s2.scratched (fun k => BitVec.ofNat 48 (k * mag a.bits)) 16) = .ok (l, s3) ∧
    s3.admits l :=
  ⟨gABC, st, _, _, _, good 0xF00000000005#48, good 0xF00000000003#48, .mem 66, 0, 15, true, by
    and_intros <;> first
      | exact got (by decide +kernel) | decide +kernel | exact admits_mem (by decide +kernel) (by decide +kernel)
      | exact can_transfer (by decide +kernel) | exact trivial | exact rfl⟩

theorem witness_DecimalMultiply : ∃ (f : Gen) (s s1 s2 s3 : State) (a b : MWord) (l : Loc) (hi lo va vb : Nat) (sign : Bool),
    s.env = [] ∧
    s.mem.wf = true ∧
    f.a ≠ inactiveGroup ∧
    f.b ≠ inactiveGroup ∧
    f.c ≠ inactiveGroup ∧
    readOperand f.a f.dA s.begun = .ok (a, s1) ∧
    MWord.bad a = false ∧
    readOperand f.b f.dB s1 = .ok (b, s2) ∧
    MWord.bad b = false ∧
    s2.namesRegister f.c f.dC = false ∧
    isDecimal 11 (mag a.bits) = true ∧
    isDecimal 11 (mag b.bits) = true ∧
    va = decimalValue 11 (mag a.bits) ∧
    vb = decimalValue 11 (mag b.bits) ∧
    hi * 10 ^ 11 + lo = va * vb ∧
    lo < 10 ^ 11 ∧
    sign = (posSign a.bits == posSign b.bits) ∧
    locate f.c f.dC (s2.scratched (fun k => BitVec.ofNat 48 (toDecimal 12 (k * va))) 10) = .ok (l, s3) ∧
    s3.admits l :=
  ⟨gABC, st, _, _, _, good 0xF00000000005#48, good 0xF00000000003#48, .mem 66, 0, 15, 5, 3, true, by
    and_intros <;> first
      | exact got (by decide +kernel) | decide +kernel | exact admits_mem (by decide +kernel) (by decide +kernel)
      | exact can_transfer (by decide +kernel) | exact trivial | exact rfl⟩

theorem witness_AccumulateInstructions : ∃ (dec : Bool) (f : Gen) (s s3 u : State) (n : Nat) (σ : Nat → State) (w : Nat → MWord) (T : Nat → Nat)
  (V : Nat → Bool) (l : Loc),
    s.env = [] ∧
    s.mem.wf = true ∧
    f.a ≠ inactiveGroup ∧
    f.c ≠ inactiveGroup ∧
    (f.b = inactiveGroup → f.dB = false) ∧
    (fld f.b 1 6).toNat = n ∧
    0 < n ∧
    σ 0 = s.begun ∧
    (∀ k, k < n → readOperand f.a f.dA (σ k) = .ok (w k, σ (k + 1)) ∧ MWord.bad (w k) = false) ∧
    T 1 = mag (w 0).bits ∧
    V 1 = false ∧
    (∀ k, 0 < k → k < n → if dec then ∃ ds c, decimalAdd (T k) (mag (w k).bits) = .sum ds c ∧ T (k + 1) = ofDigits ds ∧ V (k + 1) = (V k ||
      decide (0 < c)) else T (k + 1) = (T k + mag (w k).bits) % 2 ^ 44 ∧ V (k + 1) = (V k || decide (2 ^ 44 ≤ T k + mag (w k).bits))) ∧
    locate f.c f.dC ((σ n).totalled (posSign (w 0).bits) (T n)) = .ok (l, s3) ∧
    s3.admits l ∧
    u = s3.stored l (MWord.good (signedWord (posSign (w 0).bits) (T n))) ∧
    V n = false :=
  ⟨false, gCount, st, _, _, 2, reads 64, fun _ => good 0xF00000000005#48, fun k => 5 * k, fun _ => false, .mem 66, by
    and_intros <;> first
      | (intro k hk; interval_cases k <;> exact ⟨got (by decide +kernel), by decide +kernel⟩)
      | (intro k h1 h2; interval_cases k; exact ⟨by decide +kernel, by decide +kernel⟩)
      | exact got (by decide +kernel) | decide +kernel | exact admits_mem (by decide +kernel) (by decide +kernel)
      | exact can_transfer (by decide +kernel) | exact trivial | exact rfl⟩

theorem witness_AccumulateInstructions_overflow : ∃ (dec : Bool) (f : Gen) (s s3 u : State) (n : Nat) (σ : Nat → State) (w : Nat → MWord) (T :
  Nat → Nat) (V : Nat → Bool) (l : Loc),
    s.env = [] ∧
    s.mem.wf = true ∧
    f.a ≠ inactiveGroup ∧
    f.c ≠ inactiveGroup ∧
    (f.b = inactiveGroup → f.dB = false) ∧
    (fld f.b 1 6).toNat = n ∧
    0 < n ∧
    σ 0 = s.begun ∧
    (∀ k, k < n → readOperand f.a f.dA (σ k) = .ok (w k, σ (k + 1)) ∧ MWord.bad (w k) = false) ∧
    T 1 = mag (w 0).bits ∧
    V 1 = false ∧
    (∀ k, 0 < k → k < n → if dec then ∃ ds c, decimalAdd (T k) (mag (w k).bits) = .sum ds c ∧ T (k + 1) = ofDigits ds ∧ V (k + 1) = (V k ||
      decide (0 < c)) else T (k + 1) = (T k + mag (w k).bits) % 2 ^ 44 ∧ V (k + 1) = (V k || decide (2 ^ 44 ≤ T k + mag (w k).bits))) ∧
    locate f.c f.dC ((σ n).totalled (posSign (w 0).bits) (T n)) = .ok (l, s3) ∧
    s3.admits l ∧
    u = s3.stored l (MWord.good (signedWord (posSign (w 0).bits) (T n))) ∧
    V n = true ∧
    u.canTransfer :=
  ⟨false, gTotal, st, _, _, 2, reads 68, fun _ => good 0xF80000000000#48, fun k => if k = 1 then 2 ^ 43 else 0, fun k => decide (k = 2), .mem 66,
    by
    and_intros <;> first
      | (intro k hk; interval_cases k <;> exact ⟨got (by decide +kernel), by decide +kernel⟩)
      | (intro k h1 h2; interval_cases k; exact ⟨by decide +kernel, by decide +kernel⟩)
      | exact got (by decide +kernel) | decide +kernel | exact admits_mem (by decide +kernel) (by decide +kernel)
      | exact can_transfer (by decide +kernel) | exact trivial | exact rfl⟩

theorem witness_AccumulateNothing : ∃ (dec : Bool) (f : Gen) (s : State),
    f.a ≠ inactiveGroup ∧
    f.c ≠ inactiveGroup ∧
    (fld f.b 1 6).toNat = 0 :=
  ⟨true, gABC0, st, by
    and_intros <;> first
      | exact got (by decide +kernel) | decide +kernel | exact admits_mem (by decide +kernel) (by decide +kernel)
      | exact can_transfer (by decide +kernel) | exact trivial | exact rfl⟩

theorem witness_LogicalInstructions : ∃ (i : Instr) (g : Word → Word → Word) (f : Form) (s s1 s2 s3 : State) (a b : MWord) (l : Loc) (w : Word),
    logicalRow i = some (g, f) ∧
    s.env = [] ∧
    s.mem.wf = true ∧
    f.a ≠ inactiveGroup ∧
    f.b ≠ inactiveGroup ∧
    f.c ≠ inactiveGroup ∧
    s.begun.maskReady f.mask ∧
    readOperand f.a f.dA (s.begun.masking f.mask) = .ok (a, s1) ∧
    MWord.bad a = false ∧
    readOperand f.b f.dB s1 = .ok (b, s2) ∧
    MWord.bad b = false ∧
    w = g (gate (s.maskWord f.mask) a.bits) (gate (s.maskWord f.mask) b.bits) ∧
    locate f.c f.dC (s2.combined (s.maskWord f.mask) w) = .ok (l, s3) ∧
    s3.admits l ∧
    (f.mask.isSome = true → MWord.bad (s3.contents l) = false) :=
  ⟨.ha gABC, fun a b => a ^^^ b, genForm gABC, st, _, _, _, good 0xF00000000005#48, good 0xF00000000003#48, .mem 66, 0x000000000006#48, by
    and_intros <;> first
      | exact (rfl : logicalRow _ = _)
      | exact got (by decide +kernel) | decide +kernel | exact admits_mem (by decide +kernel) (by decide +kernel)
      | exact can_transfer (by decide +kernel) | exact trivial | exact rfl⟩

theorem witness_LogicalAndShiftBits : ∃ (f : Gen) (m : Fld) (a b : Word) (k : Nat),
    1 ≤ k ∧
    k ≤ 48 :=
  ⟨gABC, mABC, 1#48, 1#48, 48, by
    and_intros <;> first
      | exact got (by decide +kernel) | decide +kernel | exact admits_mem (by decide +kernel) (by decide +kernel)
      | exact can_transfer (by decide +kernel) | exact trivial | exact rfl⟩

theorem witness_ExtractInstruction_store : ∃ (f : Gen) (s s1 s2 : State) (a m : MWord) (l : Loc) (s3 : State),
    s.env = [] ∧
    s.mem.wf = true ∧
    extractSource f s.begun = .ok (a, s1) ∧
    MWord.bad a = false ∧
    extractMask f s1 = .ok (m, s2) ∧
    MWord.bad m = false ∧
    f.c ≠ inactiveGroup ∧
    locate f.c f.dC (State.logical { s2 with mr := m.bits } a.bits (a.bits &&& m.bits) true) = .ok (l, s3) ∧
    s3.admits l :=
  ⟨gABC, st, _, _, good 0xF00000000005#48, good 0xF00000000003#48, .mem 66, _, by
    and_intros <;> first
      | exact got (by decide +kernel) | decide +kernel | exact admits_mem (by decide +kernel) (by decide +kernel)
      | exact can_transfer (by decide +kernel) | exact trivial | exact rfl⟩

theorem witness_ExtractInstruction_keep : ∃ (f : Gen) (s s1 s2 : State) (a m : MWord),
    s.env = [] ∧
    s.mem.wf = true ∧
    extractSource f s.begun = .ok (a, s1) ∧
    MWord.bad a = false ∧
    extractMask f s1 = .ok (m, s2) ∧
    MWord.bad m = false ∧
    f.c = inactiveGroup ∧
    f.dC = false :=
  ⟨gAB, st, _, _, good 0xF00000000005#48, good 0xF00000000003#48, by
    and_intros <;> first
      | exact got (by decide +kernel) | decide +kernel | exact admits_mem (by decide +kernel) (by decide +kernel)
      | exact can_transfer (by decide +kernel) | exact trivial | exact rfl⟩

theorem witness_ExtractInstruction_mask : ∃ (f : Gen) (s s1 s2 : State) (a m : MWord),
    s.env = [] ∧
    s.mem.wf = true ∧
    extractSource f s.begun = .ok (a, s1) ∧
    MWord.bad a = false ∧
    extractMask f s1 = .ok (m, s2) ∧
    MWord.bad m = false ∧
    f.b = inactiveGroup :=
  ⟨gAC, st, _, _, good 0xF00000000005#48, good st.mr, by
    and_intros <;> first
      | exact got (by decide +kernel) | decide +kernel | exact admits_mem (by decide +kernel) (by decide +kernel)
      | exact can_transfer (by decide +kernel) | exact trivial | exact rfl⟩

theorem witness_SubstituteInstruction : ∃ (f : Gen) (s s1 s2 s3 : State) (a m : MWord) (l : Loc),
    s.env = [] ∧
    s.mem.wf = true ∧
    f.a ≠ inactiveGroup ∧
    f.b ≠ inactiveGroup ∧
    f.c ≠ inactiveGroup ∧
    readOperand f.a f.dA s.begun = .ok (a, s1) ∧
    MWord.bad a = false ∧
    readOperand f.b f.dB s1 = .ok (m, s2) ∧
    MWord.bad m = false ∧
    locate f.c f.dC { s2 with mr := m.bits } = .ok (l, s3) ∧
    s3.admits l ∧
    MWord.bad (s3.contents l) = false :=
  ⟨gABC, st, _, _, _, good 0xF00000000005#48, good 0xF00000000003#48, .mem 66, by
    and_intros <;> first
      | exact got (by decide +kernel) | decide +kernel | exact admits_mem (by decide +kernel) (by decide +kernel)
      | exact can_transfer (by decide +kernel) | exact trivial | exact rfl⟩

theorem witness_ShiftInstructions : ∃ (i : Instr) (rot : Word → Nat → Word) (keep : Bool) (f : Gen) (s s1 s3 : State) (a : MWord) (l : Loc) (w :
  Word),
    shiftRow i = some (rot, keep, f) ∧
    s.env = [] ∧
    s.mem.wf = true ∧
    f.a ≠ inactiveGroup ∧
    f.b ≠ inactiveGroup ∧
    f.dB = false ∧
    f.c ≠ inactiveGroup ∧
    readOperand f.a f.dA s.begun = .ok (a, s1) ∧
    MWord.bad a = false ∧
    s1.shiftMaskReady f.b ∧
    locate f.c f.dC { s1 with mr := s1.shiftMask f.b } = .ok (l, s3) ∧
    s3.admits l ∧
    (keep = true → MWord.bad (s3.contents l) = false) ∧
    w = protect (rot a.bits (shiftCount f.b)) (s1.shiftMask f.b) (if keep then (s3.contents l).bits else 0#48) :=
  ⟨.sws gShift, rotr48, true, gShift, st, _, _, good 0xF00000000005#48, .mem 66, 0#48, by
    and_intros <;> first
      | exact ⟨by decide +kernel, by decide +kernel, by decide +kernel⟩
      | exact got (by decide +kernel) | decide +kernel | exact admits_mem (by decide +kernel) (by decide +kernel)
      | exact can_transfer (by decide +kernel) | exact trivial | exact rfl⟩

theorem witness_ShiftAndSelect : ∃ (f : Gen) (s s1 s3 : State) (a : MWord) (r : SReg) (k : Nat),
    s.env = [] ∧
    f.a ≠ inactiveGroup ∧
    f.b ≠ inactiveGroup ∧
    f.dB = false ∧
    f.c ≠ inactiveGroup ∧
    readOperand f.a f.dA s.begun = .ok (a, s1) ∧
    MWord.bad a = false ∧
    s1.shiftMaskReady f.b ∧
    k = (fld (rotr48 a.bits (shiftCount f.b) &&& s1.shiftMask f.b) 38 48).toNat ∧
    selectTarget f.c f.dC k (ctrOf f.seq) (State.logical { s1 with mr := s1.shiftMask f.b, free := s1.free + 1 } (rotr48 a.bits (shiftCount f.b))
      (Config.freeWord s1.free) false) = .ok (r, s3) :=
  ⟨gShift, st, _, _, good 0xF00000000005#48, at_ 66, 0, by
    and_intros <;> first
      | exact ⟨by decide +kernel, by decide +kernel, by decide +kernel⟩
      | exact got (by decide +kernel) | decide +kernel | exact admits_mem (by decide +kernel) (by decide +kernel)
      | exact can_transfer (by decide +kernel) | exact trivial | exact rfl⟩

theorem witness_ShiftAndSelect_parity : ∃ (f : Gen) (s s1 s2 s3 : State) (a m : MWord) (r : SReg) (k : Nat),
    s.env = [] ∧
    f.a ≠ inactiveGroup ∧
    f.b ≠ inactiveGroup ∧
    f.dB = false ∧
    f.c ≠ inactiveGroup ∧
    readOperand f.a f.dA s.begun = .ok (a, s1) ∧
    loadMask (fun x => shiftMaskAddress x f.b) s1 = .ok (m, s2) ∧
    (MWord.bad a || MWord.bad m) = true ∧
    k = (fld (rotr48 a.bits (shiftCount f.b) &&& m.bits) 38 48).toNat ∧
    selectTarget f.c f.dC k (ctrOf f.seq) (State.logical { s2 with free := s2.free + 1 } (rotr48 a.bits (shiftCount f.b))
      (Config.freeWord s2.free) false) = .ok (r, s3) ∧
    (s3.historied (ctrOf f.seq)).canTransfer :=
  ⟨gBadShift, st, _, _, _, ⟨7#48, 1#6⟩, good 0x0000FFFF0000#48, at_ 66, 0, by
    and_intros <;> first
      | exact got (by decide +kernel) | decide +kernel | exact admits_mem (by decide +kernel) (by decide +kernel)
      | exact can_transfer (by decide +kernel) | exact trivial | exact rfl⟩

theorem witness_TransferInstruction : ∃ (i : Instr) (f : Form) (s s1 s3 : State) (w : MWord) (l : Loc),
    transferRow i = some f ∧
    s.env = [] ∧
    s.mem.wf = true ∧
    f.a ≠ inactiveGroup ∧
    f.c ≠ inactiveGroup ∧
    (f.b = inactiveGroup → f.dB = false) ∧
    s.begun.noAc.maskReady f.mask ∧
    readOperand f.a f.dA (s.begun.noAc.masking f.mask) = .ok (w, s1) ∧
    MWord.bad w = false ∧
    locate f.c f.dC s1 = .ok (l, s3) ∧
    s3.admits l ∧
    (f.mask.isSome = true → MWord.bad (s3.contents l) = false) :=
  ⟨.tx gABC, genForm gABC, st, _, _, good 0xF00000000005#48, .mem 66, by
    and_intros <;> first
      | exact got (by decide +kernel) | decide +kernel | exact admits_mem (by decide +kernel) (by decide +kernel)
      | exact can_transfer (by decide +kernel) | exact trivial | exact rfl⟩

theorem witness_TransferAndSequence : ∃ (i : Instr) (f : Form) (s s1 s2 s3 : State) (w : MWord) (l : Loc) (r : Option SReg),
    sequenceRow i = some f ∧
    s.env = [] ∧
    s.mem.wf = true ∧
    f.a ≠ inactiveGroup ∧
    f.b ≠ inactiveGroup ∧
    s.begun.maskReady f.mask ∧
    readOperand f.a f.dA (s.begun.masking f.mask).noAc = .ok (w, s1) ∧
    MWord.bad w = false ∧
    locate f.b f.dB s1 = .ok (l, s2) ∧
    s2.admits l ∧
    (f.mask.isSome = true → MWord.bad (s2.contents l) = false) ∧
    sequenceTarget f.c f.dC (ctrOf f.seq) (s2.stored l (MWord.good (merged (s.maskWord f.mask) (s2.contents l) w.bits))) = .ok (r, s3) :=
  ⟨.ts gABC, genForm gABC, st, _, _, _, good 0xF00000000005#48, .mem 65, some (at_ 66), by
    and_intros <;> first
      | exact got (by decide +kernel) | decide +kernel | exact admits_mem (by decide +kernel) (by decide +kernel)
      | exact can_transfer (by decide +kernel) | exact trivial | exact rfl⟩

theorem witness_TransferAndSequence_parity : ∃ (i : Instr) (f : Form) (s s0 s1 s2 u : State) (m : Option MWord) (w : MWord) (l : Loc) (r : Option SReg) (s3 : State),
    sequenceRow i = some f ∧
    s.env = [] ∧
    s.mem.wf = true ∧
    f.a ≠ inactiveGroup ∧
    f.b ≠ inactiveGroup ∧
    maskOf f.mask s.begun = .ok (m, s0) ∧
    readOperand f.a f.dA s0.noAc = .ok (w, s1) ∧
    locate f.b f.dB s1 = .ok (l, s2) ∧
    s2.admits l ∧
    u = s2.stored l (copied m (s2.contents l) w) ∧
    (maskBad m || MWord.bad w || (m.isSome && MWord.bad (s2.contents l))) = true ∧
    f.c ≠ inactiveGroup ∧
    sequenceTarget f.c f.dC (ctrOf f.seq) u = .ok (r, s3) ∧
    (s3.historied (ctrOf f.seq)).canTransfer :=
  ⟨.ts gBad, genForm gBad, st, _, _, _, _, none, ⟨7#48, 1#6⟩, .mem 65, some (at_ 66), _, by
    and_intros <;> first
      | exact (rfl : _ = State.stored _ _ _)
      | exact got (by decide +kernel) | decide +kernel | exact admits_mem (by decide +kernel) (by decide +kernel)
      | exact can_transfer (by decide +kernel) | exact trivial | exact rfl⟩

theorem witness_TransferAndSequence_parityInactive : ∃ (i : Instr) (f : Form) (s s0 s1 s2 u : State) (m : Option MWord) (w : MWord) (l : Loc),
    sequenceRow i = some f ∧
    s.env = [] ∧
    s.mem.wf = true ∧
    f.a ≠ inactiveGroup ∧
    f.b ≠ inactiveGroup ∧
    maskOf f.mask s.begun = .ok (m, s0) ∧
    readOperand f.a f.dA s0.noAc = .ok (w, s1) ∧
    locate f.b f.dB s1 = .ok (l, s2) ∧
    s2.admits l ∧
    u = s2.stored l (copied m (s2.contents l) w) ∧
    (maskBad m || MWord.bad w || (m.isSome && MWord.bad (s2.contents l))) = true ∧
    f.c = inactiveGroup ∧
    f.dC = false ∧
    (u.ended f.seq false).canTransfer :=
  ⟨.ts gBadAB, genForm gBadAB, st, _, _, _, _, none, ⟨7#48, 1#6⟩, .mem 65, by
    and_intros <;> first
      | exact (rfl : _ = State.stored _ _ _)
      | exact got (by decide +kernel) | decide +kernel | exact admits_mem (by decide +kernel) (by decide +kernel)
      | exact can_transfer (by decide +kernel) | exact trivial | exact rfl⟩

theorem witness_TransferThroughRegister_in : ∃ (i : Instr) (f : Form) (s : State) (s1 s3 : State) (w : MWord) (r : Option SReg),
    sequenceRow i = some f ∧
    s.env = [] ∧
    s.mem.wf = true ∧
    s.begun.maskReady f.mask ∧
    f.a ≠ inactiveGroup ∧
    f.b = inactiveGroup ∧
    f.dB = false ∧
    readOperand f.a f.dA (s.begun.masking f.mask) = .ok (w, s1) ∧
    MWord.bad w = false ∧
    sequenceTarget f.c f.dC (ctrOf f.seq) (s1.captured (s.maskWord f.mask) (gate (s.maskWord f.mask) w.bits)) = .ok (r, s3) :=
  ⟨.ts gAC, genForm gAC, st, _, _, good 0xF00000000005#48, some (at_ 66), by
    and_intros <;> first
      | exact got (by decide +kernel) | decide +kernel | exact admits_mem (by decide +kernel) (by decide +kernel)
      | exact can_transfer (by decide +kernel) | exact trivial | exact rfl⟩

theorem witness_TransferThroughRegister_out : ∃ (i : Instr) (f : Form) (s : State) (s2 s3 : State) (l : Loc) (r : Option SReg),
    sequenceRow i = some f ∧
    s.env = [] ∧
    s.mem.wf = true ∧
    s.begun.maskReady f.mask ∧
    f.a = inactiveGroup ∧
    f.dA = false ∧
    f.b ≠ inactiveGroup ∧
    s.lopHeld = true ∧
    (f.mask = none ∨ s.heldMask = (s.maskWord f.mask).map (·.bits)) ∧
    locate f.b f.dB (s.begun.masking f.mask).noAc = .ok (l, s2) ∧
    s2.admits l ∧
    (f.mask.isSome = true → MWord.bad (s2.contents l) = false) ∧
    sequenceTarget f.c f.dC (ctrOf f.seq) (s2.stored l (MWord.good (merged (s.maskWord f.mask) (s2.contents l) s.lop))) = .ok (r, s3) :=
  ⟨.ts gBC, genForm gBC, stLop, _, _, .mem 65, some (at_ 66), by
    and_intros <;> first
      | exact .inl rfl
      | exact got (by decide +kernel) | decide +kernel | exact admits_mem (by decide +kernel) (by decide +kernel)
      | exact can_transfer (by decide +kernel) | exact trivial | exact rfl⟩

theorem witness_MultipleTransfer : ∃ (f : Gen) (s : State) (n : Nat) (σ ρ τ : Nat → State) (w : Nat → MWord) (l : Nat → Loc),
    s.env = [] ∧
    s.mem.wf = true ∧
    f.a ≠ inactiveGroup ∧
    f.c ≠ inactiveGroup ∧
    (f.b = inactiveGroup → f.dB = false) ∧
    (fld f.b 1 6).toNat = n ∧
    σ 0 = s.begun.noAc ∧
    (∀ k, k < n → readOperand f.a f.dA (σ k) = .ok (w k, ρ k) ∧ MWord.bad (w k) = false ∧ locate f.c f.dC (ρ k) = .ok (l k, τ k) ∧ (τ k).admits
      (l k) ∧ σ (k + 1) = (τ k).stored (l k) (w k)) :=
  ⟨gCount, st, 2, moves, fun k => run (readOperand 64 false) (moves k), fun k => moved (moves k), fun _ => good 0xF00000000005#48, fun _ => .mem
    66, by
    and_intros <;> first
      | (intro k hk; interval_cases k <;> exact ⟨got (by decide +kernel), by decide +kernel, got (by decide +kernel), admits_mem (by decide +kernel) (by decide +kernel), rfl⟩)
      | exact got (by decide +kernel) | decide +kernel | exact admits_mem (by decide +kernel) (by decide +kernel)
      | exact can_transfer (by decide +kernel) | exact trivial | exact rfl⟩

theorem witness_GroupTransfer : ∃ (f : Gen) (s u v : State) (n : Nat) (ra rc : Bool) (a c : SReg) (σ β γ ε δ : Nat → State) (w x : Nat → MWord)
  (lc : Nat → Loc),
    s.env = [] ∧
    s.mem.wf = true ∧
    (f.b = inactiveGroup → f.dB = false) ∧
    (fld f.b 1 6).toNat = n ∧
    auInit f.a f.dA s.begun.noAc = .ok (some (ra, a), u) ∧
    auInit f.c f.dC (u.setReg s.cur au1 a) = .ok (some (rc, c), v) ∧
    σ 0 = v.setReg s.cur au2 c ∧
    (∀ k, k < n → auRead ra au1 (σ k) = .ok (w k, β k) ∧ MWord.bad (w k) = false ∧ auLoc rc au2 (β k) = .ok (lc k, γ k) ∧ referred ((β
      k).overflowed rc au2) (w k) (γ k) = .ok (x k, ε k) ∧ (ε k).admits (lc k) ∧ nextAu au1 ((ε k).stored (lc k) (x k)) = .ok ((), δ k) ∧ nextAu
      au2 (δ k) = .ok ((), σ (k + 1))) :=
  ⟨gOne, st, _, _, 1, false, false, at_ 64, at_ 66, groups, fun k => run (auRead false au1) (groups k), fun k => run (auLoc false au2) (run
    (auRead false au1) (groups k)), fun k => run (auLoc false au2) (run (auRead false au1) (groups k)), fun k => run (nextAu au1) ((run (auLoc
    false au2) (run (auRead false au1) (groups k))).stored (.mem 66) (good 0xF00000000005#48)), fun _ => good 0xF00000000005#48, fun _ => good
    0xF00000000005#48, fun _ => .mem 66, by
    and_intros <;> first
      | exact (rfl : groups 0 = _)
      | (intro k hk; interval_cases k <;> exact ⟨got (by decide +kernel), by decide +kernel, got (by decide +kernel), rfl, admits_mem (by decide +kernel) (by decide +kernel), got (by decide +kernel), got (by decide +kernel)⟩)
      | exact got (by decide +kernel) | decide +kernel | exact admits_mem (by decide +kernel) (by decide +kernel)
      | exact can_transfer (by decide +kernel) | exact trivial | exact rfl⟩

theorem witness_RecordTransfer : ∃ (item : Bool) (f : Gen) (s s1 s2 u v : State) (lb : Loc) (n : Nat) (a c : SReg) (last : Word) (stop : Word →
  Bool) (σ δ : Nat → State) (w : Nat → MWord),
    s.env = [] ∧
    s.mem.wf = true ∧
    f.b ≠ inactiveGroup ∧
    last = (if item then 0xAA00EEEE0000#48 else eorWord) ∧
    stop = (if item then isEoi else isEor) ∧
    locate f.b f.dB s.begun.noAc = .ok (lb, s1) ∧
    s1.admits lb ∧
    s2 = s1.stored lb (MWord.good last) ∧
    auInit f.a f.dA s2 = .ok (some (false, a), u) ∧
    auInit f.c f.dC (u.setReg s.cur au1 a) = .ok (some (false, c), v) ∧
    σ 0 = v.setReg s.cur au2 c ∧
    n < recordFuel ∧
    (∀ k, k ≤ n → ((σ k).reg s.cur au1).tag = .good ∧ (σ k).exists? ((σ k).reg s.cur au1).full = true ∧ w k = (σ k).mem.word ((σ k).reg s.cur
      au1).full ∧ MWord.bad (w k) = false ∧ ((σ k).reg s.cur au2).tag = .good ∧ (σ k).admits (.mem ((σ k).reg s.cur au2).full) ∧ nextAu au1 ((σ
      k).putWord ((σ k).reg s.cur au2).full (w k)) = .ok ((), δ k) ∧ nextAu au2 (δ k) = .ok ((), σ (k + 1))) ∧
    (∀ k, k < n → stop (w k).bits = false ∧ (σ k).atStopper ((σ k).reg s.cur au1) = false ∧ (σ k).atStopper ((σ k).reg s.cur au2) = false) ∧
    stop (w n).bits = true :=
  ⟨false, gRec, st, _, _, _, _, .mem 65, 0, at_ 65, at_ 66, eorWord, isEor, records, fun k => run (nextAu au1) ((records k).putWord 66 (good
    eorWord)), fun _ => good eorWord, by
    and_intros <;> first
      | exact (rfl : isEor = _)
      | (intro k hk; interval_cases k <;> exact ⟨by decide +kernel, by decide +kernel, by decide +kernel, by decide +kernel, by decide +kernel, admits_mem (by decide +kernel) (by decide +kernel), got (by decide +kernel), got (by decide +kernel)⟩)
      | exact fun k hk => absurd hk (Nat.not_lt_zero k)
      | exact got (by decide +kernel) | decide +kernel | exact admits_mem (by decide +kernel) (by decide +kernel)
      | exact can_transfer (by decide +kernel) | exact trivial | exact rfl⟩

theorem witness_DecisionInstructions_met : ∃ (i : Instr) (cond : Word → Word → Bool) (f : Form) (s s1 s2 : State) (a b : MWord) (r : Option SReg)
  (s3 : State),
    decisionRow i = some (cond, f) ∧
    s.env = [] ∧
    f.a ≠ inactiveGroup ∧
    f.b ≠ inactiveGroup ∧
    s.begun.decided.maskReady f.mask ∧
    readOperand f.a f.dA (s.begun.decided.masking f.mask) = .ok (a, s1) ∧
    MWord.bad a = false ∧
    readOperand f.b f.dB s1 = .ok (b, s2) ∧
    MWord.bad b = false ∧
    cond (gate (s.maskWord f.mask) a.bits) (gate (s.maskWord f.mask) b.bits) = true ∧
    sequenceTarget f.c f.dC (ctrOf f.seq) s2 = .ok (r, s3) :=
  ⟨.na gABC, alphaNe, genForm gABC, st, _, _, good 0xF00000000005#48, good 0xF00000000003#48, some (at_ 66), _, by
    and_intros <;> first
      | exact (rfl : decisionRow _ = _)
      | exact got (by decide +kernel) | decide +kernel | exact admits_mem (by decide +kernel) (by decide +kernel)
      | exact can_transfer (by decide +kernel) | exact trivial | exact rfl⟩

theorem witness_DecisionInstructions_notMet : ∃ (i : Instr) (cond : Word → Word → Bool) (f : Form) (s s1 s2 : State) (a b : MWord),
    decisionRow i = some (cond, f) ∧
    s.env = [] ∧
    f.a ≠ inactiveGroup ∧
    f.b ≠ inactiveGroup ∧
    s.begun.decided.maskReady f.mask ∧
    readOperand f.a f.dA (s.begun.decided.masking f.mask) = .ok (a, s1) ∧
    MWord.bad a = false ∧
    readOperand f.b f.dB s1 = .ok (b, s2) ∧
    MWord.bad b = false ∧
    cond (gate (s.maskWord f.mask) a.bits) (gate (s.maskWord f.mask) b.bits) = false ∧
    (f.c = inactiveGroup → f.dC = false) :=
  ⟨.ln gABC, numLe, genForm gABC, st, _, _, good 0xF00000000005#48, good 0xF00000000003#48, by
    and_intros <;> first
      | exact (rfl : decisionRow _ = _)
      | exact got (by decide +kernel) | decide +kernel | exact admits_mem (by decide +kernel) (by decide +kernel)
      | exact can_transfer (by decide +kernel) | exact trivial | exact rfl⟩

theorem witness_DecisionParity_met : ∃ (i : Instr) (cond : Word → Word → Bool) (f : Form) (s s0 s1 s2 : State) (m : Option MWord) (a b : MWord)
  (r : Option SReg) (s3 : State),
    decisionRow i = some (cond, f) ∧
    s.env = [] ∧
    f.a ≠ inactiveGroup ∧
    f.b ≠ inactiveGroup ∧
    maskOf f.mask s.begun.decided = .ok (m, s0) ∧
    readOperand f.a f.dA s0 = .ok (a, s1) ∧
    readOperand f.b f.dB s1 = .ok (b, s2) ∧
    (maskBad m || MWord.bad a || MWord.bad b) = true ∧
    cond (gate m a.bits) (gate m b.bits) = true ∧
    f.c ≠ inactiveGroup ∧
    sequenceTarget f.c f.dC (ctrOf f.seq) s2 = .ok (r, s3) ∧
    (s3.historied (ctrOf f.seq)).canTransfer :=
  ⟨.na gBad, alphaNe, genForm gBad, st, _, _, _, none, ⟨7#48, 1#6⟩, good 0xF00000000003#48, some (at_ 66), _, by
    and_intros <;> first
      | exact (rfl : decisionRow _ = _)
      | exact got (by decide +kernel) | decide +kernel | exact admits_mem (by decide +kernel) (by decide +kernel)
      | exact can_transfer (by decide +kernel) | exact trivial | exact rfl⟩

theorem witness_DecisionParity_notMet : ∃ (i : Instr) (cond : Word → Word → Bool) (f : Form) (s s0 s1 s2 : State) (m : Option MWord) (a b :
  MWord),
    decisionRow i = some (cond, f) ∧
    s.env = [] ∧
    f.a ≠ inactiveGroup ∧
    f.b ≠ inactiveGroup ∧
    maskOf f.mask s.begun.decided = .ok (m, s0) ∧
    readOperand f.a f.dA s0 = .ok (a, s1) ∧
    readOperand f.b f.dB s1 = .ok (b, s2) ∧
    (maskBad m || MWord.bad a || MWord.bad b) = true ∧
    (cond (gate m a.bits) (gate m b.bits) = false ∨ f.c = inactiveGroup) ∧
    (f.c = inactiveGroup → f.dC = false) ∧
    (s2.ended f.seq false).canTransfer :=
  ⟨.la gBad2, alphaLe, genForm gBad2, st, _, _, _, none, good 0xF00000000003#48, ⟨7#48, 1#6⟩, by
    and_intros <;> first
      | exact (rfl : decisionRow _ = _)
      | exact .inl (by decide +kernel)
      | exact got (by decide +kernel) | decide +kernel | exact admits_mem (by decide +kernel) (by decide +kernel)
      | exact can_transfer (by decide +kernel) | exact trivial | exact rfl⟩

theorem witness_CheckParityInstruction_bad : ∃ (i : Instr) (f : Form) (s s1 s2 : State) (w : MWord) (l : Loc) (bad : Bool) (r : Option SReg) (s3
  : State),
    checkRow i = some f ∧
    s.env = [] ∧
    s.mem.wf = true ∧
    f.a ≠ inactiveGroup ∧
    f.b ≠ inactiveGroup ∧
    s.begun.noAc.maskReady f.mask ∧
    readOperand f.a f.dA (s.begun.noAc.masking f.mask) = .ok (w, s1) ∧
    bad = (match s.maskWord f.mask with | none => w.perr != 0#6 | some m => badFrame m.bits w.perr) ∧
    (∀ m, s.maskWord f.mask = some m → isFrameMask m.bits = true) ∧
    locate f.b f.dB s1 = .ok (l, s2) ∧
    s2.admits l ∧
    bad = true ∧
    sequenceTarget f.c f.dC (ctrOf f.seq) (s2.stored l (MWord.good w.bits)) = .ok (r, s3) :=
  ⟨.cp gBad, genForm gBad, st, _, _, ⟨7#48, 1#6⟩, .mem 65, true, some (at_ 66), _, by
    and_intros <;> first
      | exact (rfl : checkRow _ = _)
      | exact fun m h => nomatch h
      | exact (rfl : true = _)
      | exact got (by decide +kernel) | decide +kernel | exact admits_mem (by decide +kernel) (by decide +kernel)
      | exact can_transfer (by decide +kernel) | exact trivial | exact rfl⟩

theorem witness_CheckParityInstruction_good : ∃ (i : Instr) (f : Form) (s s1 s2 : State) (w : MWord) (l : Loc) (bad : Bool),
    checkRow i = some f ∧
    s.env = [] ∧
    s.mem.wf = true ∧
    f.a ≠ inactiveGroup ∧
    f.b ≠ inactiveGroup ∧
    s.begun.noAc.maskReady f.mask ∧
    readOperand f.a f.dA (s.begun.noAc.masking f.mask) = .ok (w, s1) ∧
    bad = (match s.maskWord f.mask with | none => w.perr != 0#6 | some m => badFrame m.bits w.perr) ∧
    (∀ m, s.maskWord f.mask = some m → isFrameMask m.bits = true) ∧
    locate f.b f.dB s1 = .ok (l, s2) ∧
    s2.admits l ∧
    bad = false ∧
    (f.c = inactiveGroup → f.dC = false) :=
  ⟨.cp gABC, genForm gABC, st, _, _, good 0xF00000000005#48, .mem 65, false, by
    and_intros <;> first
      | exact (rfl : checkRow _ = _)
      | exact fun m h => nomatch h
      | exact (rfl : false = _)
      | exact got (by decide +kernel) | decide +kernel | exact admits_mem (by decide +kernel) (by decide +kernel)
      | exact can_transfer (by decide +kernel) | exact trivial | exact rfl⟩

theorem witness_ProceedInstruction : ∃ (f : Prc) (s : State),
    f.bit4 = false :=
  ⟨⟨false, false, false, false, 0#12, 0#12, 0#12⟩, st, by
    and_intros <;> first
      | exact got (by decide +kernel) | decide +kernel | exact admits_mem (by decide +kernel) (by decide +kernel)
      | exact can_transfer (by decide +kernel) | exact trivial | exact rfl⟩

theorem witness_ControlFunctions : ∃ (f : Mpc) (s u : State) (words : List Nat),
    controlAddressOk f = true ∧
    bitAt f.b 1 = false ∧
    s.env = [] ∧
    s.controlDelivered f u words ∧
    s.mem.wf = true :=
  ⟨⟨false, false, true, false, 0#12, 0o1100#12, 66#12⟩, st, _, [66], by
    and_intros <;> first
      | exact .inr ⟨by decide +kernel, 66, run (locate 66 false) st.begun.noAc, got (by decide +kernel), admits_mem (by decide +kernel) (by decide +kernel), rfl, rfl⟩
      | exact got (by decide +kernel) | decide +kernel | exact admits_mem (by decide +kernel) (by decide +kernel)
      | exact can_transfer (by decide +kernel) | exact trivial | exact rfl⟩

theorem witness_ControlFunctions_keep : ∃ (f : Mpc) (s u : State) (words : List Nat),
    controlAddressOk f = true ∧
    bitAt f.b 1 = false ∧
    s.env = [] ∧
    s.controlDelivered f u words ∧
    s.mem.wf = true :=
  ⟨⟨false, false, false, false, 0#12, 0o1100#12, 0xFFF#12⟩, st, _, [], by
    and_intros <;> first
      | exact .inl ⟨rfl, rfl, rfl, rfl⟩
      | exact got (by decide +kernel) | decide +kernel | exact admits_mem (by decide +kernel) (by decide +kernel)
      | exact can_transfer (by decide +kernel) | exact trivial | exact rfl⟩

theorem witness_ControlHandOver : ∃ (f : Mpc) (s u : State) (words : List Nat) (g : BitVec 3),
    controlAddressOk f = true ∧
    fld f.b 1 4 = 0b1000#4 ∧
    controlTarget f.b = some g ∧
    s.cur ≠ 0#3 ∧
    s.cur ≠ 2#3 ∧
    s.inDemand g = false ∧
    s.env = [] ∧
    s.controlDelivered f u words ∧
    s.mem.wf = true ∧
    u.limited = none :=
  ⟨⟨false, false, true, false, 0#12, 0x880#12, 66#12⟩, st1, (run (locate 66 false) st1.begun.noAc).putWord 66 (good st1.pcr), [66], 0#3, by
    and_intros <;> first
      | exact .inr ⟨by decide +kernel, 66, run (locate 66 false) st1.begun.noAc, got (by decide +kernel), admits_mem (by decide +kernel) (by decide +kernel), rfl, rfl⟩
      | exact got (by decide +kernel) | decide +kernel | exact admits_mem (by decide +kernel) (by decide +kernel)
      | exact can_transfer (by decide +kernel) | exact trivial | exact rfl⟩

theorem witness_SimulatorInstruction : ∃ (indexed : Bool) (f : Sim) (s s1 s2 s3 : State) (p a c : SReg),
    s.env = [] ∧
    s.mem.wf = true ∧
    s.byUtr = false ∧
    plainAddress (simGroup indexed f.addr) s.begun.noAc = .ok (p, s1) ∧
    plainAddress f.a s1 = .ok (a, s2) ∧
    plainAddress f.c s2 = .ok (c, s3) ∧
    p.tag = .good ∧
    p.addr + 1 < 32768 ∧
    s3.admits (.mem p.full) :=
  ⟨false, ⟨8#8, 64#12, 0#12, 66#12⟩, st, _, _, _, at_ 71, at_ 64, at_ 66, by
    and_intros <;> first
      | exact got (by decide +kernel) | decide +kernel | exact admits_mem (by decide +kernel) (by decide +kernel)
      | exact can_transfer (by decide +kernel) | exact trivial | exact rfl⟩

theorem witness_SimulatorInstruction_indexed : ∃ (indexed : Bool) (f : Sim) (s s1 s2 s3 : State) (p a c : SReg),
    s.env = [] ∧
    s.mem.wf = true ∧
    s.byUtr = false ∧
    plainAddress (simGroup indexed f.addr) s.begun.noAc = .ok (p, s1) ∧
    plainAddress f.a s1 = .ok (a, s2) ∧
    plainAddress f.c s2 = .ok (c, s3) ∧
    p.tag = .good ∧
    p.addr + 1 < 32768 ∧
    s3.admits (.mem p.full) :=
  ⟨true, ⟨8#8, 64#12, 0#12, 66#12⟩, stSim, _, _, _, at_ 583, at_ 64, at_ 66, by
    and_intros <;> first
      | exact got (by decide +kernel) | decide +kernel | exact admits_mem (by decide +kernel) (by decide +kernel)
      | exact can_transfer (by decide +kernel) | exact trivial | exact rfl⟩

theorem witness_OrthocountInstruction : ∃ (f : Gen) (s s1 s2 : State) (a0 c0 a c : SReg) (n : Nat) (table : Option Bool) (σ δ : Nat → State) (w :
  Nat → MWord) (o : Nat → Word × Word),
    s.env = [] ∧
    s.mem.wf = true ∧
    ¬ (f.dC = true ∧ bitAt f.c 1 = false ∧ bitAt f.c 7 = true ∧ fld f.c 2 6 ≠ 0#5) ∧
    auInit f.a f.dA s.begun = .ok (some (false, a0), s1) ∧
    a = { a0 with bits := setBitAt a0.bits 1 true } ∧
    auInit f.c f.dC s1 = .ok (some (false, c0), s2) ∧
    c = { c0 with bits := setBitAt c0.bits 1 true } ∧
    c.tag = .good ∧
    c.addr + 2 < 32768 ∧
    (∀ k, k ≤ 2 → s2.admits (.mem (c.full + k))) ∧
    orthoTable f ((s2.putWord c.full (MWord.good eorWord)).setReg s.cur au1 a) = .ok (table, σ 0) ∧
    n < orthoFuel ∧
    (∀ k, k ≤ n → ((σ k).reg s.cur au1).tag = .good ∧ (σ k).exists? ((σ k).reg s.cur au1).full = true ∧ w k = (σ k).mem.word ((σ k).reg s.cur
      au1).full ∧ nextAu au1 (σ k) = .ok ((), δ k)) ∧
    (∀ k, k < n → isEor (w k).bits = false ∧
      (match table, isEoi (w k).bits with
        | some r, true => reloadCounter r (δ k) = .ok ((), σ (k + 1))
        | _, _ => σ (k + 1) = δ k ∧ (σ k).atStopper ((σ k).reg s.cur au1) = false)) ∧
    isEor (w n).bits = true ∧
    o 0 = (BitVec.allOnes 48, BitVec.allOnes 48) ∧
    (∀ k, k < n → o (k + 1) = ((o k).2, (o k).1 ^^^ (w k).bits)) :=
  ⟨gOrtho, st, _, _, at_ 72, at_ 66, at_ 72, at_ 66, 1, none, counts, fun k => run (nextAu au1) (counts k), fun k => if k = 0 then good
    0x111111111111#48 else good eorWord, fun k => if k = 0 then (BitVec.allOnes 48, BitVec.allOnes 48) else (BitVec.allOnes 48,
    0xEEEEEEEEEEEE#48), by
    and_intros <;> first
      | (intro k hk; interval_cases k <;> exact ⟨by decide +kernel, by decide +kernel, by decide +kernel, got (by decide +kernel)⟩)
      | (intro k hk; interval_cases k <;> exact admits_mem (by decide +kernel) (by decide +kernel))
      | (intro k hk; interval_cases k <;> exact ⟨by decide +kernel, rfl, by decide +kernel⟩)
      | (intro k hk; interval_cases k; decide +kernel)
      | exact got (by decide +kernel) | decide +kernel | exact admits_mem (by decide +kernel) (by decide +kernel)
      | exact can_transfer (by decide +kernel) | exact trivial | exact rfl⟩

theorem witness_PrintInstructions_word : ∃ (i : Instr) (f : Prt) (s s1 s2 : State) (w : MWord) (r : Option SReg) (slave : Bool),
    printRow i = some f ∧
    s.env = [] ∧
    f.b ≠ inactiveGroup ∧
    bitAt f.b 1 = false ∧
    printMode f.b ≠ 0#2 ∧
    typewriterOf f.b = (if slave then 1 else 0) ∧
    (slave = true → s.cfg.slave = true) ∧
    s.typewriterBusy slave = false ∧
    (f.a = inactiveGroup ∧ f.dA = false ∧ s.acState ≠ .undefined ∧ s.acState ≠ .spent ∧ w = MWord.good s.ac ∧ s1 = s.begun ∨ f.a ≠ inactiveGroup
      ∧ printIncremented f = false ∧ readOperand f.a f.dA s.begun = .ok (w, s1)) ∧
    sequenceTarget f.c f.dC (ctrOf f.seq) (s1.startedTyping slave f.b w).noAc = .ok (r, s2) :=
  ⟨.pra pABC, pABC, st, _, _, good 0xF00000000005#48, some (at_ 66), false, by
    and_intros <;> first
      | exact .inr ⟨by decide +kernel, by decide +kernel, got (by decide +kernel)⟩
      | exact (rfl : printRow _ = _)
      | exact got (by decide +kernel) | decide +kernel | exact admits_mem (by decide +kernel) (by decide +kernel)
      | exact can_transfer (by decide +kernel) | exact trivial | exact rfl⟩

theorem witness_PrintInstructions_accumulator : ∃ (i : Instr) (f : Prt) (s s1 s2 : State) (w : MWord) (r : Option SReg) (slave : Bool),
    printRow i = some f ∧
    s.env = [] ∧
    f.b ≠ inactiveGroup ∧
    bitAt f.b 1 = false ∧
    printMode f.b ≠ 0#2 ∧
    typewriterOf f.b = (if slave then 1 else 0) ∧
    (slave = true → s.cfg.slave = true) ∧
    s.typewriterBusy slave = false ∧
    (f.a = inactiveGroup ∧ f.dA = false ∧ s.acState ≠ .undefined ∧ s.acState ≠ .spent ∧ w = MWord.good s.ac ∧ s1 = s.begun ∨ f.a ≠ inactiveGroup
      ∧ printIncremented f = false ∧ readOperand f.a f.dA s.begun = .ok (w, s1)) ∧
    sequenceTarget f.c f.dC (ctrOf f.seq) (s1.startedTyping slave f.b w).noAc = .ok (r, s2) :=
  ⟨.pra pBC, pBC, stHeld, _, _, good 0xF00000000005#48, some (at_ 66), true, by
    and_intros <;> first
      | exact .inl ⟨rfl, rfl, by decide +kernel, by decide +kernel, rfl, rfl⟩
      | exact (rfl : printRow _ = _)
      | exact got (by decide +kernel) | decide +kernel | exact admits_mem (by decide +kernel) (by decide +kernel)
      | exact can_transfer (by decide +kernel) | exact trivial | exact rfl⟩

theorem witness_PrintInstructions_parity : ∃ (i : Instr) (f : Prt) (s s1 s2 : State) (w : MWord) (r : Option SReg),
    printRow i = some f ∧
    s.env = [] ∧
    f.b = inactiveGroup ∧
    f.a ≠ inactiveGroup ∧
    printIncremented f = false ∧
    (f.c = inactiveGroup → f.dC = false) ∧
    readOperand f.a f.dA s.begun = .ok (w, s1) ∧
    MWord.bad w = true ∧
    s1.noAc.canTransfer :=
  ⟨.pra (prt 67 0xFFF 66), prt 67 0xFFF 66, st, _, st, ⟨7#48, 1#6⟩, none, by
    and_intros <;> first
      | exact (rfl : printRow _ = _)
      | exact got (by decide +kernel) | decide +kernel | exact admits_mem (by decide +kernel) (by decide +kernel)
      | exact can_transfer (by decide +kernel) | exact trivial | exact rfl⟩

theorem witness_PrintInstructions_nothing : ∃ (i : Instr) (f : Prt) (s s1 s2 : State) (w : MWord) (r : Option SReg),
    printRow i = some f ∧
    s.env = [] ∧
    f.b = inactiveGroup ∧
    (f.a = inactiveGroup ∧ f.dA = false ∧ s1 = s.begun ∨ f.a ≠ inactiveGroup ∧ printIncremented f = false ∧ readOperand f.a f.dA s.begun = .ok
      (w, s1) ∧ MWord.bad w = false) ∧
    sequenceTarget f.c f.dC (ctrOf f.seq) s1.noAc = .ok (r, s2) :=
  ⟨.pra pAC, pAC, st, _, _, good 0xF00000000005#48, some (at_ 66), by
    and_intros <;> first
      | exact .inr ⟨by decide +kernel, by decide +kernel, got (by decide +kernel), by decide +kernel⟩
      | exact (rfl : printRow _ = _)
      | exact got (by decide +kernel) | decide +kernel | exact admits_mem (by decide +kernel) (by decide +kernel)
      | exact can_transfer (by decide +kernel) | exact trivial | exact rfl⟩

theorem witness_TypewriterCycle : ∃ (s : State) (slave : Bool) (x : Sym) (rest : List Sym),
    s.typing = some ⟨slave, x :: rest⟩ ∧
    s.typeSpoiled = false :=
  ⟨stTyping, true, .char 5#6, [.cr], by
    and_intros <;> first
      | exact got (by decide +kernel) | decide +kernel | exact admits_mem (by decide +kernel) (by decide +kernel)
      | exact can_transfer (by decide +kernel) | exact trivial | exact rfl⟩

theorem witness_TypewriterCycle_last : ∃ (s : State) (slave : Bool) (x : Sym) (rest : List Sym),
    s.typing = some ⟨slave, x :: rest⟩ ∧
    s.typeSpoiled = false :=
  ⟨{ stTyping with typing := some ⟨false, [.cr]⟩ }, false, .cr, [], by
    and_intros <;> first
      | exact got (by decide +kernel) | decide +kernel | exact admits_mem (by decide +kernel) (by decide +kernel)
      | exact can_transfer (by decide +kernel) | exact trivial | exact rfl⟩

theorem witness_BarricadeAccess_load : ∃ (i : Instr) (f : Prt) (s s1 s2 : State) (w : MWord) (r : Option SReg),
    printRow i = some f ∧
    s.env = [] ∧
    f.b ≠ inactiveGroup ∧
    bitAt f.b 1 = false ∧
    typewriterOf f.b = 0o4 ∧
    s.cfg.barricade = true ∧
    (f.a = inactiveGroup ∧ f.dA = false ∧ s.acState ≠ .undefined ∧ s.acState ≠ .spent ∧ w = MWord.good s.ac ∧ s1 = s.begun ∨ f.a ≠ inactiveGroup
      ∧ printIncremented f = false ∧ readOperand f.a f.dA s.begun = .ok (w, s1)) ∧
    fld w.bits 38 40 = 0#3 ∧
    MWord.bad w = false ∧
    sequenceTarget f.c f.dC (ctrOf f.seq) (s1.loadedBar w.bits).noAc = .ok (r, s2) :=
  ⟨.pro pLoad, pLoad, st, _, _, good 0x00000000080F#48, some (at_ 66), by
    and_intros <;> first
      | exact .inr ⟨by decide +kernel, by decide +kernel, got (by decide +kernel)⟩
      | exact (rfl : printRow _ = _)
      | exact got (by decide +kernel) | decide +kernel | exact admits_mem (by decide +kernel) (by decide +kernel)
      | exact can_transfer (by decide +kernel) | exact trivial | exact rfl⟩

theorem witness_BarricadeAccess_accumulator : ∃ (i : Instr) (f : Prt) (s s1 s2 : State) (w : MWord) (r : Option SReg),
    printRow i = some f ∧
    s.env = [] ∧
    f.b ≠ inactiveGroup ∧
    bitAt f.b 1 = false ∧
    typewriterOf f.b = 0o4 ∧
    s.cfg.barricade = true ∧
    (f.a = inactiveGroup ∧ f.dA = false ∧ s.acState ≠ .undefined ∧ s.acState ≠ .spent ∧ w = MWord.good s.ac ∧ s1 = s.begun ∨ f.a ≠ inactiveGroup
      ∧ printIncremented f = false ∧ readOperand f.a f.dA s.begun = .ok (w, s1)) ∧
    fld w.bits 38 40 = 0#3 ∧
    MWord.bad w = false ∧
    sequenceTarget f.c f.dC (ctrOf f.seq) (s1.loadedBar w.bits).noAc = .ok (r, s2) :=
  ⟨.pro (prt 0xFFF 0x004 66), prt 0xFFF 0x004 66, stHeld, _, _, good 0xF00000000005#48, some (at_ 66), by
    and_intros <;> first
      | exact .inl ⟨rfl, rfl, by decide +kernel, by decide +kernel, rfl, rfl⟩
      | exact (rfl : printRow _ = _)
      | exact got (by decide +kernel) | decide +kernel | exact admits_mem (by decide +kernel) (by decide +kernel)
      | exact can_transfer (by decide +kernel) | exact trivial | exact rfl⟩

theorem witness_BarricadeAccess_parity : ∃ (i : Instr) (f : Prt) (s s1 s2 : State) (w : MWord) (r : Option SReg),
    printRow i = some f ∧
    s.env = [] ∧
    f.b ≠ inactiveGroup ∧
    bitAt f.b 1 = false ∧
    typewriterOf f.b = 0o4 ∧
    s.cfg.barricade = true ∧
    (f.a = inactiveGroup ∧ f.dA = false ∧ s.acState ≠ .undefined ∧ s.acState ≠ .spent ∧ w = MWord.good s.ac ∧ s1 = s.begun ∨ f.a ≠ inactiveGroup
      ∧ printIncremented f = false ∧ readOperand f.a f.dA s.begun = .ok (w, s1)) ∧
    fld w.bits 38 40 = 0#3 ∧
    MWord.bad w = true ∧
    (f.c = inactiveGroup → f.dC = false) ∧
    (s1.loadedBar w.bits).noAc.canTransfer :=
  ⟨.pro (prt 67 0x004 66), prt 67 0x004 66, st, _, st, ⟨7#48, 1#6⟩, none, by
    and_intros <;> first
      | exact .inr ⟨by decide +kernel, by decide +kernel, got (by decide +kernel)⟩
      | exact (rfl : printRow _ = _)
      | exact got (by decide +kernel) | decide +kernel | exact admits_mem (by decide +kernel) (by decide +kernel)
      | exact can_transfer (by decide +kernel) | exact trivial | exact rfl⟩

theorem witness_BarricadeAccess_store : ∃ (i : Instr) (f : Prt) (s s1 s2 : State) (l : Loc) (r : Option SReg),
    printRow i = some f ∧
    s.env = [] ∧
    f.b ≠ inactiveGroup ∧
    bitAt f.b 1 = false ∧
    typewriterOf f.b = 0o10 ∧
    s.cfg.barricade = true ∧
    s.mem.wf = true ∧
    f.a ≠ inactiveGroup ∧
    printIncremented f = false ∧
    locate f.a f.dA s.begun = .ok (l, s1) ∧
    s1.admits l ∧
    sequenceTarget f.c f.dC (ctrOf f.seq) (s1.stored l (MWord.good (s.bar.setWidth 48))).noAc = .ok (r, s2) :=
  ⟨.pro pStore, pStore, st, _, _, .mem 65, some (at_ 66), by
    and_intros <;> first
      | exact got (by decide +kernel) | decide +kernel | exact admits_mem (by decide +kernel) (by decide +kernel)
      | exact can_transfer (by decide +kernel) | exact trivial | exact rfl⟩

theorem witness_BusyStalls_print : ∃ (i : Instr) (f : Prt) (s s1 : State) (slave : Bool) (w : MWord),
    printRow i = some f ∧
    s.env = [] ∧
    f.b ≠ inactiveGroup ∧
    bitAt f.b 1 = false ∧
    printMode f.b ≠ 0#2 ∧
    typewriterOf f.b = (if slave then 1 else 0) ∧
    (slave = true → s.cfg.slave = true) ∧
    s.typewriterBusy slave = true ∧
    (f.a = inactiveGroup ∧ f.dA = false ∧ s1 = s.begun ∨
      f.a ≠ inactiveGroup ∧ printIncremented f = false ∧ readOperand f.a f.dA s.begun = .ok (w, s1)) ∧
    (f.c = inactiveGroup → f.dC = false) ∧
    s.byUtr = false ∧
    s1.limited = none :=
  ⟨.pra pABC, pABC, stTyping, _, false, good 0xF00000000005#48, by
    and_intros <;> first
      | exact .inr ⟨by decide +kernel, by decide +kernel, got (by decide +kernel)⟩
      | exact (rfl : printRow _ = _)
      | exact got (by decide +kernel) | decide +kernel | exact admits_mem (by decide +kernel) (by decide +kernel)
      | exact can_transfer (by decide +kernel) | exact trivial | exact rfl⟩

theorem witness_BusyStalls_control : ∃ (f : Mpc) (s : State) (g : BitVec 3),
    controlAddressOk f = true ∧
    (f.c = inactiveGroup → f.dC = false) ∧
    fld f.b 1 4 = 0b1000#4 ∧
    controlTarget f.b = some g ∧
    s.cur ≠ 0#3 ∧
    s.cur ≠ 2#3 ∧
    s.inDemand g = true ∧
    s.byUtr = false ∧
    s.limited = none :=
  ⟨⟨false, false, true, false, 0#12, 0x880#12, 66#12⟩, st1d, 0#3, by
    and_intros <;> first
      | exact got (by decide +kernel) | decide +kernel | exact admits_mem (by decide +kernel) (by decide +kernel)
      | exact can_transfer (by decide +kernel) | exact trivial | exact rfl⟩

theorem witness_BusyStalls_device : ∃ (i : Instr) (m : Motion) (f : Per) (k : DevKind) (s : State),
    motionRow i = some (m, f) ∧
    Config.kind s.cfg m.dir f.ch f.dev = some k ∧
    canMove k m = true ∧
    ((s.dev m.dir f.ch f.dev).unavailable k m (f.a != inactiveGroup) = true ∨ s.multipleBusy m.dir f.ch f.dev = true ∨ (f.a ≠ inactiveGroup ∧
      bitAt s.pcr (interlockBit m.dir f.ch) = true)) ∧
    s.byUtr = false ∧
    s.limited = none :=
  ⟨.rf perA, .forward, perA, .tape, stBusy, by
    and_intros <;> first
      | exact .inl (by decide +kernel)
      | exact got (by decide +kernel) | decide +kernel | exact admits_mem (by decide +kernel) (by decide +kernel)
      | exact can_transfer (by decide +kernel) | exact trivial | exact rfl⟩

theorem witness_BusyStalls_multiple : ∃ (i : Instr) (m : Motion) (f : Per) (k : DevKind) (s : State),
    motionRow i = some (m, f) ∧
    Config.kind s.cfg m.dir f.ch f.dev = some k ∧
    canMove k m = true ∧
    ((s.dev m.dir f.ch f.dev).unavailable k m (f.a != inactiveGroup) = true ∨ s.multipleBusy m.dir f.ch f.dev = true ∨ (f.a ≠ inactiveGroup ∧
      bitAt s.pcr (interlockBit m.dir f.ch) = true)) ∧
    s.byUtr = false ∧
    s.limited = none :=
  ⟨.rf perA, .forward, perA, .tape, stShared, by
    and_intros <;> first
      | exact .inr (.inl (by decide +kernel))
      | exact got (by decide +kernel) | decide +kernel | exact admits_mem (by decide +kernel) (by decide +kernel)
      | exact can_transfer (by decide +kernel) | exact trivial | exact rfl⟩

theorem witness_BusyStalls_channel : ∃ (i : Instr) (m : Motion) (f : Per) (k : DevKind) (s : State),
    motionRow i = some (m, f) ∧
    Config.kind s.cfg m.dir f.ch f.dev = some k ∧
    canMove k m = true ∧
    ((s.dev m.dir f.ch f.dev).unavailable k m (f.a != inactiveGroup) = true ∨ s.multipleBusy m.dir f.ch f.dev = true ∨ (f.a ≠ inactiveGroup ∧
      bitAt s.pcr (interlockBit m.dir f.ch) = true)) ∧
    s.byUtr = false ∧
    s.limited = none :=
  ⟨.rf perA, .forward, perA, .tape, stLocked, by
    and_intros <;> first
      | exact .inr (.inr (by decide +kernel))
      | exact got (by decide +kernel) | decide +kernel | exact admits_mem (by decide +kernel) (by decide +kernel)
      | exact can_transfer (by decide +kernel) | exact trivial | exact rfl⟩

theorem witness_BusyStalls_rewind : ∃ (f : Per) (d : Dir) (s : State),
    d = rewindDir s.cfg f.ch f.dev ∧
    Config.kind s.cfg d f.ch f.dev = some .tape ∧
    ((s.dev d f.ch f.dev).busy || (s.dev d f.ch f.dev).locked || (s.dev d f.ch f.dev).out) = true ∧
    s.byUtr = false ∧
    s.limited = none :=
  ⟨perA, .input, stBusy, by
    and_intros <;> first
      | exact got (by decide +kernel) | decide +kernel | exact admits_mem (by decide +kernel) (by decide +kernel)
      | exact can_transfer (by decide +kernel) | exact trivial | exact rfl⟩

theorem witness_ReadStart : ∃ (i : Instr) (m : Motion) (f : Per) (k : DevKind) (s u : State) (v : Device) (r : Record) (rest : List Record) (e :
  Bool),
    motionRow i = some (m, f) ∧
    s.env = [] ∧
    m ≠ .write ∧
    f.a ≠ inactiveGroup ∧
    v = s.dev .input f.ch f.dev ∧
    s.Available f m k ∧
    v.readErr = false ∧
    v.switch = 0#3 ∧
    (m = .forward → v.after = r :: rest) ∧
    (m = .backward → v.before = r :: rest) ∧
    s.buffersOk f m ∧
    s.targetOk f.c ∧
    u = ({ s.prepared f m with free := (s.prepared f m).free + 1 }).started f k m (if m = Motion.backward then v.moving (v.readBad k rest.length r)
      rest (r :: v.after) .read else v.moving (v.readBad k v.before.length r) (r :: v.before) rest .read) (if m = Motion.backward then r.reverse else delivered k v r) ∧
    e = v.atEnd k m ((s.prepared f m).oddWrite f) (Config.freeBool (s.prepared f m).free) ∧
    (e = true → u.canTransfer) :=
  ⟨.rf perA, .forward, perA, .tape, stTape, _, tapeDev, [good 0#48, good eorWord], [], false, by
    and_intros <;> first
      | exact ⟨by decide +kernel, by decide +kernel, by decide +kernel, by decide +kernel, by decide +kernel⟩
      | exact ⟨by intro h; exact absurd h (by decide), by decide +kernel, by intro h; exact absurd rfl h⟩
      | exact fun h => absurd rfl h
      | exact fun _ => rfl
      | exact fun h => absurd h (by decide +kernel)
      | exact (rfl : _ = State.started _ _ _ _ _ _)
      | exact got (by decide +kernel) | decide +kernel | exact admits_mem (by decide +kernel) (by decide +kernel)
      | exact can_transfer (by decide +kernel) | exact trivial | exact rfl⟩

theorem witness_ReadStart_end : ∃ (i : Instr) (m : Motion) (f : Per) (k : DevKind) (s u : State) (v : Device) (r : Record) (rest : List Record)
  (e : Bool),
    motionRow i = some (m, f) ∧
    s.env = [] ∧
    m ≠ .write ∧
    f.a ≠ inactiveGroup ∧
    v = s.dev .input f.ch f.dev ∧
    s.Available f m k ∧
    v.readErr = false ∧
    v.switch = 0#3 ∧
    (m = .forward → v.after = r :: rest) ∧
    (m = .backward → v.before = r :: rest) ∧
    s.buffersOk f m ∧
    s.targetOk f.c ∧
    u = ({ s.prepared f m with free := (s.prepared f m).free + 1 }).started f k m (if m = Motion.backward then v.moving (v.readBad k rest.length r)
      rest (r :: v.after) .read else v.moving (v.readBad k v.before.length r) (r :: v.before) rest .read) (if m = Motion.backward then r.reverse else delivered k v r) ∧
    e = v.atEnd k m ((s.prepared f m).oddWrite f) (Config.freeBool (s.prepared f m).free) ∧
    (e = true → u.canTransfer) :=
  ⟨.rb perA, .backward, perA, .tape, stRecord, _, { tapeDev with before := [List.replicate 8 (good 0#48)], after := [] }, List.replicate 8 (good
    0#48), [], true, by
    and_intros <;> first
      | exact ⟨by decide +kernel, by decide +kernel, by decide +kernel, by decide +kernel, by decide +kernel⟩
      | exact ⟨by intro h; exact absurd h (by decide), by decide +kernel, by intro h; exact absurd rfl h⟩
      | exact fun h => absurd rfl h
      | exact fun _ => rfl
      | exact fun h => absurd h (by decide +kernel)
      | exact (rfl : _ = State.started _ _ _ _ _ _)
      | exact fun _ => can_transfer (by decide +kernel)
      | exact got (by decide +kernel) | decide +kernel | exact admits_mem (by decide +kernel) (by decide +kernel)
      | exact can_transfer (by decide +kernel) | exact trivial | exact rfl⟩

theorem witness_WriteStart : ∃ (f : Per) (k : DevKind) (s u v : State) (d : Device) (e : Bool),
    s.env = [] ∧
    f.a ≠ inactiveGroup ∧
    d = s.dev .output f.ch f.dev ∧
    s.Available f .write k ∧
    d.writeErr = false ∧
    d.switch = 0#3 ∧
    s.buffersOk f .write ∧
    s.targetOk f.c ∧
    u = ({ s.prepared f .write with free := (s.prepared f .write).free + 1 }).started f k .write (d.moving false d.before d.after .write) [] ∧
    v = u.bufferCycle .output f.ch ∧
    v.halted = false ∧
    e = d.atEnd k .write ((s.prepared f .write).oddWrite f) (Config.freeBool (s.prepared f .write).free) ∧
    (e = true → v.canTransfer) :=
  ⟨perA, .tape, stTape, _, _, tapeDev, false, by
    and_intros <;> first
      | exact ⟨by decide +kernel, by decide +kernel, by decide +kernel, by decide +kernel, by decide +kernel⟩
      | exact ⟨by intro h; exact absurd h (by decide), by decide +kernel, by intro h; exact absurd rfl h⟩
      | exact fun h => absurd rfl h
      | exact fun h => absurd h (by decide +kernel)
      | exact (rfl : _ = State.started _ _ _ _ _ _)
      | exact (rfl : _ = State.bufferCycle _ _ _)
      | exact got (by decide +kernel) | decide +kernel | exact admits_mem (by decide +kernel) (by decide +kernel)
      | exact can_transfer (by decide +kernel) | exact trivial | exact rfl⟩

theorem witness_PeripheralTest_noTransfer : ∃ (i : Instr) (m : Motion) (f : Per) (k : DevKind) (s u : State) (v : Device),
    motionRow i = some (m, f) ∧
    s.env = [] ∧
    v = s.dev m.dir f.ch f.dev ∧
    s.Available f m k ∧
    u = s.begun.noAc.setFixedStart 0#3 ∧
    f.a = inactiveGroup ∧
    v.stored m.dir = false ∧
    v.switch = 0#3 ∧
    s.targetOk f.c ∧
    (k = .tape → v.last = .none ∨ v.last = (if m = .write then .write else .read)) :=
  ⟨.rf perI, .forward, perI, .tape, stTape, _, tapeDev, by
    and_intros <;> first
      | exact ⟨by decide +kernel, by decide +kernel, by decide +kernel, by decide +kernel, by decide +kernel⟩
      | exact fun h => absurd rfl h
      | exact fun _ => .inl rfl
      | exact (rfl : _ = State.setFixedStart _ _)
      | exact got (by decide +kernel) | decide +kernel | exact admits_mem (by decide +kernel) (by decide +kernel)
      | exact can_transfer (by decide +kernel) | exact trivial | exact rfl⟩

theorem witness_PeripheralTest_error : ∃ (i : Instr) (m : Motion) (f : Per) (k : DevKind) (s u : State) (v : Device),
    motionRow i = some (m, f) ∧
    s.env = [] ∧
    v = s.dev m.dir f.ch f.dev ∧
    s.Available f m k ∧
    u = s.begun.noAc.setFixedStart 0#3 ∧
    v.stored m.dir = true ∧
    u.canTransfer :=
  ⟨.rf perA, .forward, perA, .tape, stErr, _, { tapeDev with readErr := true }, by
    and_intros <;> first
      | exact ⟨by decide +kernel, by decide +kernel, by decide +kernel, by decide +kernel, by decide +kernel⟩
      | exact (rfl : _ = State.setFixedStart _ _)
      | exact got (by decide +kernel) | decide +kernel | exact admits_mem (by decide +kernel) (by decide +kernel)
      | exact can_transfer (by decide +kernel) | exact trivial | exact rfl⟩

theorem witness_PeripheralTest_switch : ∃ (i : Instr) (m : Motion) (f : Per) (k : DevKind) (s u : State) (v : Device),
    motionRow i = some (m, f) ∧
    s.env = [] ∧
    v = s.dev m.dir f.ch f.dev ∧
    s.Available f m k ∧
    u = s.begun.noAc.setFixedStart 0#3 ∧
    v.stored m.dir = false ∧
    v.switch ≠ 0#3 ∧
    u.canTransfer :=
  ⟨.rf perR, .forward, perR, .cardReader, stSwitch, _, readerDev, by
    and_intros <;> first
      | exact ⟨by decide +kernel, by decide +kernel, by decide +kernel, by decide +kernel, by decide +kernel⟩
      | exact (rfl : _ = State.setFixedStart _ _)
      | exact got (by decide +kernel) | decide +kernel | exact admits_mem (by decide +kernel) (by decide +kernel)
      | exact can_transfer (by decide +kernel) | exact trivial | exact rfl⟩

theorem witness_Rewind : ∃ (f : Per) (d : Dir) (s : State) (v : Device),
    d = rewindDir s.cfg f.ch f.dev ∧
    Config.kind s.cfg d f.ch f.dev = some .tape ∧
    v = s.dev d f.ch f.dev ∧
    v.busy = false ∧
    v.locked = false ∧
    v.out = false :=
  ⟨perA, .input, stTape, tapeDev, by
    and_intros <;> first
      | exact got (by decide +kernel) | decide +kernel | exact admits_mem (by decide +kernel) (by decide +kernel)
      | exact can_transfer (by decide +kernel) | exact trivial | exact rfl⟩

theorem witness_BufferCycles_input : ∃ (s : State) (d : Dir) (ch : BitVec 3) (x : Xfer) (r : SReg) (w : MWord) (rest : List MWord),
    s.mem.wf = true ∧
    s.xfer d ch = some x ∧
    r = s.reg ch (bufferIx d) ∧
    r.tag = .good ∧
    s.exists? r.full = true ∧
    MWord.bad w = false ∧
    s.atStopper r = false ∧
    (if r.sign then r.addr + 1 < 32768 else 0 < r.addr) ∧
    x.reloads d w.bits = false ∧
    d = .input ∧
    x.err = false ∧
    x.todo = w :: rest ∧
    rest ≠ [] :=
  ⟨stIn, .input, 1#3, ⟨0#3, .tape, false, false, true, [good 5#48, good eorWord], [], none, false⟩, at_ 66, good 5#48, [good eorWord], by
    and_intros <;> first
      | exact got (by decide +kernel) | decide +kernel | exact admits_mem (by decide +kernel) (by decide +kernel)
      | exact can_transfer (by decide +kernel) | exact trivial | exact rfl⟩

theorem witness_BufferCycles_inputEnd : ∃ (s : State) (d : Dir) (ch : BitVec 3) (x : Xfer) (r : SReg) (w : MWord) (rest : List MWord),
    s.mem.wf = true ∧
    s.xfer d ch = some x ∧
    r = s.reg ch (bufferIx d) ∧
    r.tag = .good ∧
    s.exists? r.full = true ∧
    MWord.bad w = false ∧
    s.atStopper r = false ∧
    (if r.sign then r.addr + 1 < 32768 else 0 < r.addr) ∧
    x.reloads d w.bits = false ∧
    d = .input ∧
    x.err = false ∧
    x.todo = w :: rest ∧
    rest = [] :=
  ⟨stInEnd, .input, 1#3, ⟨0#3, .tape, false, false, false, [good eorWord], [], none, false⟩, at_ 66, good eorWord, [], by
    and_intros <;> first
      | exact got (by decide +kernel) | decide +kernel | exact admits_mem (by decide +kernel) (by decide +kernel)
      | exact can_transfer (by decide +kernel) | exact trivial | exact rfl⟩

theorem witness_BufferCycles_output : ∃ (s : State) (d : Dir) (ch : BitVec 3) (x : Xfer) (r : SReg) (w : MWord),
    s.mem.wf = true ∧
    s.xfer d ch = some x ∧
    r = s.reg ch (bufferIx d) ∧
    r.tag = .good ∧
    s.exists? r.full = true ∧
    MWord.bad w = false ∧
    s.atStopper r = false ∧
    (if r.sign then r.addr + 1 < 32768 else 0 < r.addr) ∧
    x.reloads d w.bits = false ∧
    d = .output ∧
    x.kind = .tape ∧
    s.mem.word r.full = w ∧
    isEor w.bits = false ∧
    x.count = none :=
  ⟨stOut, .output, 1#3, ⟨0#3, .tape, false, false, true, [], [], none, false⟩, at_ 64, good 0xF00000000005#48, by
    and_intros <;> first
      | exact got (by decide +kernel) | decide +kernel | exact admits_mem (by decide +kernel) (by decide +kernel)
      | exact can_transfer (by decide +kernel) | exact trivial | exact rfl⟩

theorem witness_BufferCycles_outputEnd : ∃ (s : State) (d : Dir) (ch : BitVec 3) (x : Xfer) (r : SReg) (w : MWord),
    s.mem.wf = true ∧
    s.xfer d ch = some x ∧
    r = s.reg ch (bufferIx d) ∧
    r.tag = .good ∧
    s.exists? r.full = true ∧
    MWord.bad w = false ∧
    s.atStopper r = false ∧
    (if r.sign then r.addr + 1 < 32768 else 0 < r.addr) ∧
    x.reloads d w.bits = false ∧
    d = .output ∧
    x.kind = .tape ∧
    s.mem.word r.full = w ∧
    isEor w.bits = true ∧
    Config.kind s.cfg d ch x.dev = some .tape ∧
    (s.dev d ch x.dev).protect = false :=
  ⟨stOutEnd, .output, 1#3, ⟨0#3, .tape, false, false, true, [], [], none, false⟩, at_ 73, good eorWord, by
    and_intros <;> first
      | exact got (by decide +kernel) | decide +kernel | exact admits_mem (by decide +kernel) (by decide +kernel)
      | exact can_transfer (by decide +kernel) | exact trivial | exact rfl⟩

theorem witness_BufferCycles_itemInput : ∃ (s : State) (d : Dir) (ch : BitVec 3) (x : Xfer) (r q : SReg) (w v : MWord) (rest : List MWord),
    s.mem.wf = true ∧
    s.xfer d ch = some x ∧
    r = s.reg ch (bufferIx d) ∧
    r.tag = .good ∧
    s.exists? r.full = true ∧
    MWord.bad w = false ∧
    x.reloads d w.bits = true ∧
    q = s.reg ch (tableIx d) ∧
    q.tag = .good ∧
    s.exists? q.full = true ∧
    s.atStopper q = false ∧
    (if q.sign then q.addr + 1 < 32768 else 0 < q.addr) ∧
    MWord.bad v = false ∧
    d = .input ∧
    x.err = false ∧
    v = (s.putWord r.full w).mem.word q.full ∧
    x.todo = w :: rest ∧
    rest ≠ [] :=
  ⟨stItemIn, .input, 1#3, itemIn, at_ 66, at_ 70, good itemWord, good 0x00000000080F#48, [good eorWord], by
    and_intros <;> first
      | exact got (by decide +kernel) | decide +kernel | exact admits_mem (by decide +kernel) (by decide +kernel)
      | exact can_transfer (by decide +kernel) | exact trivial | exact rfl⟩

theorem witness_BufferCycles_itemInputEnd : ∃ (s : State) (d : Dir) (ch : BitVec 3) (x : Xfer) (r q : SReg) (w v : MWord) (rest : List MWord),
    s.mem.wf = true ∧
    s.xfer d ch = some x ∧
    r = s.reg ch (bufferIx d) ∧
    r.tag = .good ∧
    s.exists? r.full = true ∧
    MWord.bad w = false ∧
    x.reloads d w.bits = true ∧
    q = s.reg ch (tableIx d) ∧
    q.tag = .good ∧
    s.exists? q.full = true ∧
    s.atStopper q = false ∧
    (if q.sign then q.addr + 1 < 32768 else 0 < q.addr) ∧
    MWord.bad v = false ∧
    d = .input ∧
    x.err = false ∧
    v = (s.putWord r.full w).mem.word q.full ∧
    x.todo = w :: rest ∧
    rest = [] :=
  ⟨stItemEnd, .input, 1#3, itemEnd, at_ 66, at_ 70, good eorWord, good 0x00000000080F#48, [], by
    and_intros <;> first
      | exact got (by decide +kernel) | decide +kernel | exact admits_mem (by decide +kernel) (by decide +kernel)
      | exact can_transfer (by decide +kernel) | exact trivial | exact rfl⟩

theorem witness_BufferCycles_itemOutput : ∃ (s : State) (d : Dir) (ch : BitVec 3) (x : Xfer) (r q : SReg) (w v : MWord),
    s.mem.wf = true ∧
    s.xfer d ch = some x ∧
    r = s.reg ch (bufferIx d) ∧
    r.tag = .good ∧
    s.exists? r.full = true ∧
    MWord.bad w = false ∧
    x.reloads d w.bits = true ∧
    q = s.reg ch (tableIx d) ∧
    q.tag = .good ∧
    s.exists? q.full = true ∧
    s.atStopper q = false ∧
    (if q.sign then q.addr + 1 < 32768 else 0 < q.addr) ∧
    MWord.bad v = false ∧
    d = .output ∧
    x.kind = .tape ∧
    x.count = none ∧
    s.mem.word r.full = w ∧
    v = s.mem.word q.full :=
  ⟨stItemOut, .output, 1#3, itemOut, at_ 88, at_ 70, good itemWord, good 0x00000000080F#48, by
    and_intros <;> first
      | exact got (by decide +kernel) | decide +kernel | exact admits_mem (by decide +kernel) (by decide +kernel)
      | exact can_transfer (by decide +kernel) | exact trivial | exact rfl⟩

theorem witness_BufferCycles_between : ∃ (s u : State) (e : Event) (rest : List Event) (p : Dir × BitVec 3),
    s.halted = false ∧
    s.env = e :: rest ∧
    s.within.grant = some p ∧
    u = s.within.bufferCycle p.1 p.2 ∧
    u.halted = false ∧
    u.within.grant = none ∧
    u.within.halted = false :=
  ⟨stQueue, stQueue.within.bufferCycle .input 1#3, .demands [(.input, 1#3)], [], (.input, 1#3), by
    and_intros <;> first
      | exact (rfl : stQueue.within.bufferCycle _ _ = _)
      | exact got (by decide +kernel) | decide +kernel | exact admits_mem (by decide +kernel) (by decide +kernel)
      | exact can_transfer (by decide +kernel) | exact trivial | exact rfl⟩

theorem witness_FloatInstructions_store : ∃ (i : Instr) (dec : Bool) (compute : Word → Bool → Fp → Fp → FpOut) (f : Gen) (s s1 s2 u : State) (a b
  : FpOperand) (r : FpOut) (ovf unf : Bool) (words : List Nat) (x : State),
    floatRow i = some (dec, compute, f) ∧
    s.env = [] ∧
    s.mem.wf = true ∧
    s.cfg.fpu = true ∧
    floatOperand f.a f.dA s.begun = .ok (a, s1) ∧
    a.bad = false ∧
    floatOperand f.b f.dB s1 = .ok (b, s2) ∧
    b.bad = false ∧
    operandsOk dec a b = true ∧
    r = compute (Config.freeWord s2.free) (Config.freeBool (s2.free + 1)) (fpOf dec a.word a.e) (fpOf dec b.word b.e) ∧
    x = State.claimed { s2 with free := s2.free + 2 } ∧
    settle x.pending (a.flac || b.flac) (f.c != inactiveGroup) false r.e = (ovf, unf, none) ∧
    (x.floated false (f.c != inactiveGroup) r ovf unf).noAc.floatDelivered f.c f.dC r.flac u words :=
  ⟨.fbm gFloat, false, fun _ _ a b => floatMultiply false a b, gFloat, st, _, _, _, ⟨0xC12000000000#48, 65, false, false⟩, ⟨0xC13000000000#48,
    65, false, false⟩, product, false, false, [66], _, by
    and_intros <;> first
      | exact (rfl : floatRow _ = _)
      | exact (rfl : product = _)
      | exact (rfl : _ = State.claimed _)
      | exact .inr ⟨by decide +kernel, .mem 66, _, got (by decide +kernel), admits_mem (by decide +kernel) (by decide +kernel), rfl, rfl⟩
      | exact got (by decide +kernel) | decide +kernel | exact admits_mem (by decide +kernel) (by decide +kernel)
      | exact can_transfer (by decide +kernel) | exact trivial | exact rfl⟩

theorem witness_FloatInstructions_keep : ∃ (i : Instr) (dec : Bool) (compute : Word → Bool → Fp → Fp → FpOut) (f : Gen) (s s1 s2 u : State) (a b
  : FpOperand) (r : FpOut) (ovf unf : Bool) (words : List Nat) (x : State),
    floatRow i = some (dec, compute, f) ∧
    s.env = [] ∧
    s.mem.wf = true ∧
    s.cfg.fpu = true ∧
    floatOperand f.a f.dA s.begun = .ok (a, s1) ∧
    a.bad = false ∧
    floatOperand f.b f.dB s1 = .ok (b, s2) ∧
    b.bad = false ∧
    operandsOk dec a b = true ∧
    r = compute (Config.freeWord s2.free) (Config.freeBool (s2.free + 1)) (fpOf dec a.word a.e) (fpOf dec b.word b.e) ∧
    x = State.claimed { s2 with free := s2.free + 2 } ∧
    settle x.pending (a.flac || b.flac) (f.c != inactiveGroup) false r.e = (ovf, unf, none) ∧
    (x.floated false (f.c != inactiveGroup) r ovf unf).noAc.floatDelivered f.c f.dC r.flac u words :=
  ⟨.fbm gFloatI, false, fun _ _ a b => floatMultiply false a b, gFloatI, st, _, _, _, ⟨0xC12000000000#48, 65, false, false⟩, ⟨0xC13000000000#48,
    65, false, false⟩, product, false, false, [], _, by
    and_intros <;> first
      | exact (rfl : floatRow _ = _)
      | exact (rfl : product = _)
      | exact (rfl : _ = State.claimed _)
      | exact .inl ⟨rfl, rfl, rfl, rfl⟩
      | exact got (by decide +kernel) | decide +kernel | exact admits_mem (by decide +kernel) (by decide +kernel)
      | exact can_transfer (by decide +kernel) | exact trivial | exact rfl⟩

theorem witness_FloatValues_add : ∃ (dec sub z : Bool) (free : Word) (a b : Fp) (R : Nat) (r : FpOut) (E S : Int),
    R = radix dec ∧
    a.m < R ^ 10 ∧
    b.m < R ^ 10 ∧
    r = floatAddPlain dec sub free z a b ∧
    E = max a.e b.e ∧
    S = a.signed (a.m / R ^ (E - a.e).toNat) + (b.negateIf sub).signed (b.m / R ^ (E - b.e).toNat) :=
  ⟨false, true, true, 0#48, ⟨false, 63, 16 ^ 10 - 1⟩, ⟨true, 127, 0⟩, 16, _, 127, _, by
    and_intros <;> first
      | exact (rfl : 16 = _)
      | exact got (by decide +kernel) | decide +kernel | exact admits_mem (by decide +kernel) (by decide +kernel)
      | exact can_transfer (by decide +kernel) | exact trivial | exact rfl⟩

theorem witness_FloatValues_extended : ∃ (dec sub z : Bool) (free : Word) (a b : Fp) (R : Nat) (r : FpOut),
    R = radix dec ∧
    a.m < R ^ 10 ∧
    b.m < R ^ 10 ∧
    dec = false ∧
    r = floatAddExtended sub a b :=
  ⟨false, true, true, 0#48, ⟨false, 63, 16 ^ 10 - 1⟩, ⟨false, 63, 16 ^ 10 - 1⟩, 16, _, by
    and_intros <;> first
      | exact (rfl : 16 = _)
      | exact got (by decide +kernel) | decide +kernel | exact admits_mem (by decide +kernel) (by decide +kernel)
      | exact can_transfer (by decide +kernel) | exact trivial | exact rfl⟩

theorem witness_FloatValues_zero : ∃ (dec sub z : Bool) (free : Word) (a b : Fp) (R : Nat) (r : FpOut),
    R = radix dec ∧
    a.m < R ^ 10 ∧
    b.m < R ^ 10 ∧
    r = floatMultiply dec a b ∧
    (a.m = 0 ∨ b.m = 0) :=
  ⟨true, true, true, 0#48, ⟨false, 63, 10 ^ 10 - 1⟩, ⟨true, 127, 0⟩, 10, _, by
    and_intros <;> first
      | exact (rfl : 10 = _)
      | exact got (by decide +kernel) | decide +kernel | exact admits_mem (by decide +kernel) (by decide +kernel)
      | exact can_transfer (by decide +kernel) | exact trivial | exact rfl⟩

theorem witness_FloatValues_multiply : ∃ (dec sub z : Bool) (free : Word) (a b : Fp) (R : Nat) (r : FpOut),
    R = radix dec ∧
    a.m < R ^ 10 ∧
    b.m < R ^ 10 ∧
    r = floatMultiply dec a b ∧
    a.m ≠ 0 ∧
    b.m ≠ 0 :=
  ⟨true, true, true, 0#48, ⟨false, 63, 10 ^ 10 - 1⟩, ⟨true, 0, 1⟩, 10, _, by
    and_intros <;> first
      | exact (rfl : 10 = _)
      | exact got (by decide +kernel) | decide +kernel | exact admits_mem (by decide +kernel) (by decide +kernel)
      | exact can_transfer (by decide +kernel) | exact trivial | exact rfl⟩

theorem witness_FloatTransfers : ∃ (i : Instr) (dec : Bool) (compute : Word → Bool → Fp → Fp → FpOut) (f : Gen) (s s1 s2 u : State) (a b :
  FpOperand) (r : FpOut) (ovf unf : Bool) (k : Option ExpEvent) (words : List Nat) (x : State),
    floatRow i = some (dec, compute, f) ∧
    s.env = [] ∧
    s.mem.wf = true ∧
    s.cfg.fpu = true ∧
    floatOperand f.a f.dA s.begun = .ok (a, s1) ∧
    floatOperand f.b f.dB s1 = .ok (b, s2) ∧
    operandsOk dec a b = true ∧
    r = compute (Config.freeWord s2.free) (Config.freeBool (s2.free + 1)) (fpOf dec a.word a.e) (fpOf dec b.word b.e) ∧
    x = State.claimed { s2 with free := s2.free + 2 } ∧
    settle x.pending (a.flac || b.flac) (f.c != inactiveGroup) false r.e = (ovf, unf, k) ∧
    (a.bad || b.bad || k.isSome) = true ∧
    (x.floated false (f.c != inactiveGroup) r ovf unf).noAc.floatDelivered f.c f.dC r.flac u words ∧
    u.canTransfer :=
  ⟨.fba gFloatO, false, fun w _ a b => floatAdd false false w a b, gFloatO, st, _, _, _, ⟨0xFFF000000000#48, 127, false, false⟩,
    ⟨0xFF1000000000#48, 127, false, false⟩, sumOut, false, false, some .overflow, [66], _, by
    and_intros <;> first
      | exact (rfl : floatRow _ = _)
      | exact (rfl : _ = State.claimed _)
      | exact (rfl : sumOut = _)
      | exact .inr ⟨by decide +kernel, .mem 66, _, got (by decide +kernel), admits_mem (by decide +kernel) (by decide +kernel), rfl, rfl⟩
      | exact got (by decide +kernel) | decide +kernel | exact admits_mem (by decide +kernel) (by decide +kernel)
      | exact can_transfer (by decide +kernel) | exact trivial | exact rfl⟩

theorem witness_DivideInstructions_zero : ∃ (i : Instr) (fixed dec : Bool) (f : Gen) (s s1 s2 u : State) (a b : FpOperand) (r : FpOut) (ovf unf :
  Bool) (words : List Nat) (A B k : Nat),
    divideRow i = some (fixed, dec, f) ∧
    s.env = [] ∧
    s.mem.wf = true ∧
    s.cfg.fpu = true ∧
    floatOperand f.a f.dA s.begun = .ok (a, s1) ∧
    a.bad = false ∧
    floatOperand f.b f.dB s1 = .ok (b, s2) ∧
    b.bad = false ∧
    divisible fixed dec a b = true ∧
    tooLarge fixed dec a b = false ∧
    r = quotient fixed dec a b ∧
    settle s2.claimed.pending (a.flac || b.flac) (f.c != inactiveGroup) true r.e = (ovf, unf, none) ∧
    (s2.claimed.floated fixed (f.c != inactiveGroup) r ovf unf).noAc.floatDelivered f.c f.dC r.flac u words ∧
    fixed = false ∧
    A = (fpOf dec a.word a.e).m ∧
    B = (fpOf dec b.word b.e).m ∧
    k = (if B < A then 10 else 9) ∧
    B = 0 :=
  ⟨.fbd gDivZero, false, false, gDivZero, st, _, _, _, ⟨0xC12000000000#48, 65, false, false⟩, ⟨0x800000000000#48, 0, false, false⟩, quotient
    false false (⟨0xC12000000000#48, 65, false, false⟩) (⟨0x800000000000#48, 0, false, false⟩), false, false, [66], mantissa 0xC12000000000#48,
    0, 10, by
    and_intros <;> first
      | exact (rfl : divideRow _ = _)
      | exact .inr ⟨by decide +kernel, .mem 66, _, got (by decide +kernel), admits_mem (by decide +kernel) (by decide +kernel), rfl, rfl⟩
      | exact got (by decide +kernel) | decide +kernel | exact admits_mem (by decide +kernel) (by decide +kernel)
      | exact can_transfer (by decide +kernel) | exact trivial | exact rfl⟩

theorem witness_DivideInstructions_float : ∃ (i : Instr) (fixed dec : Bool) (f : Gen) (s s1 s2 u : State) (a b : FpOperand) (r : FpOut) (ovf unf
  : Bool) (words : List Nat) (A B k : Nat),
    divideRow i = some (fixed, dec, f) ∧
    s.env = [] ∧
    s.mem.wf = true ∧
    s.cfg.fpu = true ∧
    floatOperand f.a f.dA s.begun = .ok (a, s1) ∧
    a.bad = false ∧
    floatOperand f.b f.dB s1 = .ok (b, s2) ∧
    b.bad = false ∧
    divisible fixed dec a b = true ∧
    tooLarge fixed dec a b = false ∧
    r = quotient fixed dec a b ∧
    settle s2.claimed.pending (a.flac || b.flac) (f.c != inactiveGroup) true r.e = (ovf, unf, none) ∧
    (s2.claimed.floated fixed (f.c != inactiveGroup) r ovf unf).noAc.floatDelivered f.c f.dC r.flac u words ∧
    fixed = false ∧
    A = (fpOf dec a.word a.e).m ∧
    B = (fpOf dec b.word b.e).m ∧
    k = (if B < A then 10 else 9) ∧
    B ≠ 0 :=
  ⟨.fbd gFloat, false, false, gFloat, st, _, _, _, ⟨0xC12000000000#48, 65, false, false⟩, ⟨0xC13000000000#48, 65, false, false⟩, quotient false
    false (⟨0xC12000000000#48, 65, false, false⟩) (⟨0xC13000000000#48, 65, false, false⟩), false, false, [66], mantissa 0xC12000000000#48,
    mantissa 0xC13000000000#48, 9, by
    and_intros <;> first
      | exact (rfl : divideRow _ = _)
      | exact .inr ⟨by decide +kernel, .mem 66, _, got (by decide +kernel), admits_mem (by decide +kernel) (by decide +kernel), rfl, rfl⟩
      | exact got (by decide +kernel) | decide +kernel | exact admits_mem (by decide +kernel) (by decide +kernel)
      | exact can_transfer (by decide +kernel) | exact trivial | exact rfl⟩

theorem witness_DivideInstructions_fixed : ∃ (i : Instr) (fixed dec : Bool) (f : Gen) (s s1 s2 u : State) (a b : FpOperand) (r : FpOut) (ovf unf
  : Bool) (words : List Nat),
    divideRow i = some (fixed, dec, f) ∧
    s.env = [] ∧
    s.mem.wf = true ∧
    s.cfg.fpu = true ∧
    floatOperand f.a f.dA s.begun = .ok (a, s1) ∧
    a.bad = false ∧
    floatOperand f.b f.dB s1 = .ok (b, s2) ∧
    b.bad = false ∧
    divisible fixed dec a b = true ∧
    tooLarge fixed dec a b = false ∧
    r = quotient fixed dec a b ∧
    settle s2.claimed.pending (a.flac || b.flac) (f.c != inactiveGroup) true r.e = (ovf, unf, none) ∧
    (s2.claimed.floated fixed (f.c != inactiveGroup) r ovf unf).noAc.floatDelivered f.c f.dC r.flac u words ∧
    fixed = true :=
  ⟨.bd gDivK, true, false, gDivK, st, _, _, _, ⟨0xF00000000005#48, 112, false, false⟩, ⟨0xF00000000003#48, 112, false, false⟩, quotient true
    false (⟨0xF00000000005#48, 112, false, false⟩) (⟨0xF00000000003#48, 112, false, false⟩), false, false, [], by
    and_intros <;> first
      | exact (rfl : divideRow _ = _)
      | exact .inl ⟨rfl, rfl, rfl, rfl⟩
      | exact got (by decide +kernel) | decide +kernel | exact admits_mem (by decide +kernel) (by decide +kernel)
      | exact can_transfer (by decide +kernel) | exact trivial | exact rfl⟩

theorem witness_DivideOvercapacity_fixed : ∃ (i : Instr) (fixed dec : Bool) (f : Gen) (s s1 s2 : State) (a b : FpOperand),
    divideRow i = some (fixed, dec, f) ∧
    s.env = [] ∧
    s.cfg.fpu = true ∧
    (f.c = inactiveGroup → f.dC = false) ∧
    floatOperand f.a f.dA s.begun = .ok (a, s1) ∧
    floatOperand f.b f.dB s1 = .ok (b, s2) ∧
    (if fixed then divisible fixed dec a b = true else True) ∧
    tooLarge fixed dec a b = true ∧
    s2.canTransfer :=
  ⟨.bd gDiv, true, false, gDiv, st, _, _, ⟨0xF00000000003#48, 112, false, false⟩, ⟨0xF00000000005#48, 112, false, false⟩, by
    and_intros <;> first
      | exact (rfl : divideRow _ = _)
      | exact got (by decide +kernel) | decide +kernel | exact admits_mem (by decide +kernel) (by decide +kernel)
      | exact can_transfer (by decide +kernel) | exact trivial | exact rfl⟩

theorem witness_DivideOvercapacity_float : ∃ (i : Instr) (fixed dec : Bool) (f : Gen) (s s1 s2 : State) (a b : FpOperand),
    divideRow i = some (fixed, dec, f) ∧
    s.env = [] ∧
    s.cfg.fpu = true ∧
    (f.c = inactiveGroup → f.dC = false) ∧
    floatOperand f.a f.dA s.begun = .ok (a, s1) ∧
    floatOperand f.b f.dB s1 = .ok (b, s2) ∧
    (if fixed then divisible fixed dec a b = true else True) ∧
    tooLarge fixed dec a b = true ∧
    s2.canTransfer :=
  ⟨.fdd gDiv, false, true, gDiv, st, _, _, ⟨0xF00000000003#48, 112, false, false⟩, ⟨0xF00000000005#48, 112, false, false⟩, by
    and_intros <;> first
      | exact (rfl : divideRow _ = _)
      | exact got (by decide +kernel) | decide +kernel | exact admits_mem (by decide +kernel) (by decide +kernel)
      | exact can_transfer (by decide +kernel) | exact trivial | exact rfl⟩

theorem witness_NormalizeInstruction_zero : ∃ (f : Gen) (s s1 s2 u : State) (a b : FpOperand) (float sign : Bool) (V : Nat) (r : FpOut) (ovf unf
  : Bool) (words : List Nat),
    s.env = [] ∧
    s.mem.wf = true ∧
    s.cfg.fpu = true ∧
    ¬ (f.a = inactiveGroup ∧ f.b = inactiveGroup) ∧
    floatOperand f.a f.dA s.begun = .ok (a, s1) ∧
    a.bad = false ∧
    floatOperand f.b f.dB s1 = .ok (b, s2) ∧
    b.bad = false ∧
    float = (b.flac && !s2.flacFixed) ∧
    sign = (if float then bitAt b.word 1 else posSign b.word) ∧
    V = (if float then mantissa b.word else mag b.word) ∧
    r = floatNormalize sign a.e V ∧
    settle s2.claimed.pending (a.flac || b.flac) (f.c != inactiveGroup) false r.e = (ovf, unf, none) ∧
    (s2.claimed.floated false (f.c != inactiveGroup) r ovf unf).noAc.floatDelivered f.c f.dC r.flac u words ∧
    V = 0 :=
  ⟨gNormZero, st, _, _, _, ⟨0xC12000000000#48, 65, false, false⟩, ⟨0#48, 0, false, false⟩, false, false, 0, floatNormalize false 65 0, false,
    false, [66], by
    and_intros <;> first
      | exact .inr ⟨by decide +kernel, .mem 66, _, got (by decide +kernel), admits_mem (by decide +kernel) (by decide +kernel), rfl, rfl⟩
      | exact got (by decide +kernel) | decide +kernel | exact admits_mem (by decide +kernel) (by decide +kernel)
      | exact can_transfer (by decide +kernel) | exact trivial | exact rfl⟩

theorem witness_NormalizeInstruction_digits : ∃ (f : Gen) (s s1 s2 u : State) (a b : FpOperand) (float sign : Bool) (V : Nat) (r : FpOut) (ovf
  unf : Bool) (words : List Nat),
    s.env = [] ∧
    s.mem.wf = true ∧
    s.cfg.fpu = true ∧
    ¬ (f.a = inactiveGroup ∧ f.b = inactiveGroup) ∧
    floatOperand f.a f.dA s.begun = .ok (a, s1) ∧
    a.bad = false ∧
    floatOperand f.b f.dB s1 = .ok (b, s2) ∧
    b.bad = false ∧
    float = (b.flac && !s2.flacFixed) ∧
    sign = (if float then bitAt b.word 1 else posSign b.word) ∧
    V = (if float then mantissa b.word else mag b.word) ∧
    r = floatNormalize sign a.e V ∧
    settle s2.claimed.pending (a.flac || b.flac) (f.c != inactiveGroup) false r.e = (ovf, unf, none) ∧
    (s2.claimed.floated false (f.c != inactiveGroup) r ovf unf).noAc.floatDelivered f.c f.dC r.flac u words ∧
    V ≠ 0 :=
  ⟨gNorm, st, _, _, _, ⟨0xC12000000000#48, 65, false, false⟩, ⟨0xF00000000005#48, 112, false, false⟩, false, true, 5, floatNormalize true 65 5,
    false, false, [66], by
    and_intros <;> first
      | exact .inr ⟨by decide +kernel, .mem 66, _, got (by decide +kernel), admits_mem (by decide +kernel) (by decide +kernel), rfl, rfl⟩
      | exact got (by decide +kernel) | decide +kernel | exact admits_mem (by decide +kernel) (by decide +kernel)
      | exact can_transfer (by decide +kernel) | exact trivial | exact rfl⟩

theorem witness_ConvertInstruction_binary : ∃ (f : Gen) (s s1 s2 u : State) (a b : FpOperand) (r : FpOut) (ovf unf toDec : Bool) (words : List
  Nat) (x : State),
    s.env = [] ∧
    s.mem.wf = true ∧
    s.cfg.fpu = true ∧
    f.a ≠ inactiveGroup ∧
    floatOperand f.a f.dA s.begun = .ok (a, s1) ∧
    a.bad = false ∧
    floatOperand f.b f.dB s1 = .ok (b, s2) ∧
    b.bad = false ∧
    a.word.toNat % 3 = 1 ∧
    conversionType a.word = (if toDec then 4 else 1) ∧
    (toDec = false → isDecimal 11 (mag b.word) = true) ∧
    r = (if toDec then convertToDecimal (Config.freeWord s2.free) b.word else convertToBinary (Config.freeWord s2.free) b.word) ∧
    x = State.claimed { s2 with free := s2.free + 1 } ∧
    settle x.pending b.flac (f.c != inactiveGroup) false 64 = (ovf, unf, none) ∧
    (x.floated toDec (f.c != inactiveGroup) r ovf unf).noAc.floatDelivered f.c f.dC r.flac u words :=
  ⟨gConv, st, _, _, _, ⟨1#48, 0, false, false⟩, ⟨0xF00000000005#48, 112, false, false⟩, _, false, false, false, [66], _, by
    and_intros <;> first
      | exact (rfl : _ = State.claimed _)
      | exact .inr ⟨by decide +kernel, .mem 66, _, got (by decide +kernel), admits_mem (by decide +kernel) (by decide +kernel), rfl, rfl⟩
      | exact fun _ => by decide +kernel
      | exact got (by decide +kernel) | decide +kernel | exact admits_mem (by decide +kernel) (by decide +kernel)
      | exact can_transfer (by decide +kernel) | exact trivial | exact rfl⟩

theorem witness_ConvertInstruction_decimal : ∃ (f : Gen) (s s1 s2 u : State) (a b : FpOperand) (r : FpOut) (ovf unf toDec : Bool) (words : List
  Nat) (x : State),
    s.env = [] ∧
    s.mem.wf = true ∧
    s.cfg.fpu = true ∧
    f.a ≠ inactiveGroup ∧
    floatOperand f.a f.dA s.begun = .ok (a, s1) ∧
    a.bad = false ∧
    floatOperand f.b f.dB s1 = .ok (b, s2) ∧
    b.bad = false ∧
    a.word.toNat % 3 = 1 ∧
    conversionType a.word = (if toDec then 4 else 1) ∧
    (toDec = false → isDecimal 11 (mag b.word) = true) ∧
    r = (if toDec then convertToDecimal (Config.freeWord s2.free) b.word else convertToBinary (Config.freeWord s2.free) b.word) ∧
    x = State.claimed { s2 with free := s2.free + 1 } ∧
    settle x.pending b.flac (f.c != inactiveGroup) false 64 = (ovf, unf, none) ∧
    (x.floated toDec (f.c != inactiveGroup) r ovf unf).noAc.floatDelivered f.c f.dC r.flac u words :=
  ⟨gConv4, st, _, _, _, ⟨4#48, 0, false, false⟩, ⟨0xF00000000005#48, 112, false, false⟩, _, false, false, true, [66], _, by
    and_intros <;> first
      | exact (rfl : _ = State.claimed _)
      | exact .inr ⟨by decide +kernel, .mem 66, _, got (by decide +kernel), admits_mem (by decide +kernel) (by decide +kernel), rfl, rfl⟩
      | exact fun h => nomatch h
      | exact got (by decide +kernel) | decide +kernel | exact admits_mem (by decide +kernel) (by decide +kernel)
      | exact can_transfer (by decide +kernel) | exact trivial | exact rfl⟩

theorem witness_UnloadInstruction : ∃ (f : Gen) (s v s2 u : State) (low : Word) (wordsA wordsC : List Nat),
    s.env = [] ∧
    s.mem.wf = true ∧
    s.cfg.fpu = true ∧
    f.b = inactiveGroup ∧
    f.dB = false ∧
    v = s.claimed ∧
    unloadEvent v = none ∧
    low = (if v.flopHeld then v.flop else Config.freeWord v.free) ∧
    (State.noAc { v with free := if v.flopHeld then v.free else v.free + 1 }).floatDelivered f.a f.dA v.flac s2 wordsA ∧
    s2.floatDelivered f.c f.dC low u wordsC :=
  ⟨gUnload, stFlop, stFlop, _, _, stFlop.flop, [65], [66], by
    and_intros <;> first
      | exact (rfl : stFlop = _)
      | exact .inr ⟨by decide +kernel, .mem 65, _, got (by decide +kernel), admits_mem (by decide +kernel) (by decide +kernel), rfl, rfl⟩
      | exact .inr ⟨by decide +kernel, .mem 66, _, got (by decide +kernel), admits_mem (by decide +kernel) (by decide +kernel), rfl, rfl⟩
      | exact got (by decide +kernel) | decide +kernel | exact admits_mem (by decide +kernel) (by decide +kernel)
      | exact can_transfer (by decide +kernel) | exact trivial | exact rfl⟩

theorem witness_UnloadInstruction_free : ∃ (f : Gen) (s v s2 u : State) (low : Word) (wordsA wordsC : List Nat),
    s.env = [] ∧
    s.mem.wf = true ∧
    s.cfg.fpu = true ∧
    f.b = inactiveGroup ∧
    f.dB = false ∧
    v = s.claimed ∧
    unloadEvent v = none ∧
    low = (if v.flopHeld then v.flop else Config.freeWord v.free) ∧
    (State.noAc { v with free := if v.flopHeld then v.free else v.free + 1 }).floatDelivered f.a f.dA v.flac s2 wordsA ∧
    s2.floatDelivered f.c f.dC low u wordsC :=
  ⟨gUnload, st, st, _, _, Config.freeWord st.free, [65], [66], by
    and_intros <;> first
      | exact (rfl : st = _)
      | exact (rfl : Config.freeWord _ = _)
      | exact .inr ⟨by decide +kernel, .mem 65, _, got (by decide +kernel), admits_mem (by decide +kernel) (by decide +kernel), rfl, rfl⟩
      | exact .inr ⟨by decide +kernel, .mem 66, _, got (by decide +kernel), admits_mem (by decide +kernel) (by decide +kernel), rfl, rfl⟩
      | exact got (by decide +kernel) | decide +kernel | exact admits_mem (by decide +kernel) (by decide +kernel)
      | exact can_transfer (by decide +kernel) | exact trivial | exact rfl⟩

theorem witness_AddressTypes_direct : ∃ (x : Group) (s : State),
    x ≠ inactiveGroup ∧
    bitAt x 1 = false :=
  ⟨64#12, st, by
    and_intros <;> first
      | exact got (by decide +kernel) | decide +kernel | exact admits_mem (by decide +kernel) (by decide +kernel)
      | exact can_transfer (by decide +kernel) | exact trivial | exact rfl⟩

theorem witness_AddressTypes_plus : ∃ (x : Group) (s : State) (r : SReg) (k : Nat),
    x ≠ inactiveGroup ∧
    bitAt x 1 = true ∧
    r = s.reg s.cur (BitVec.ofNat 5 (8 + (fld x 2 4).toNat)) ∧
    r.tag ≠ .bad ∧
    k = (fld x 5 12).toNat ∧
    r.sign = true ∧
    r.addr + k < 32768 :=
  ⟨0xA10#12, stIndex, at_ 32751, 16, by
    and_intros <;> first
      | exact got (by decide +kernel) | decide +kernel | exact admits_mem (by decide +kernel) (by decide +kernel)
      | exact can_transfer (by decide +kernel) | exact trivial | exact rfl⟩

theorem witness_AddressTypes_minus : ∃ (x : Group) (s : State) (r : SReg) (k : Nat),
    x ≠ inactiveGroup ∧
    bitAt x 1 = true ∧
    r = s.reg s.cur (BitVec.ofNat 5 (8 + (fld x 2 4).toNat)) ∧
    r.tag ≠ .bad ∧
    k = (fld x 5 12).toNat ∧
    r.sign = false ∧
    k ≤ r.addr :=
  ⟨0xB40#12, stIndex, SReg.mk' false false 64, 64, by
    and_intros <;> first
      | exact got (by decide +kernel) | decide +kernel | exact admits_mem (by decide +kernel) (by decide +kernel)
      | exact can_transfer (by decide +kernel) | exact trivial | exact rfl⟩

theorem witness_AddressTypes_indexedRegister : ∃ (x : Group) (s : State) (r : SReg) (k : Nat) (v : Nat) (h : BitVec 3) (i inc : BitVec 5),
    x ≠ inactiveGroup ∧
    bitAt x 1 = true ∧
    r = s.reg s.cur (BitVec.ofNat 5 (8 + (fld x 2 4).toNat)) ∧
    r.tag ≠ .bad ∧
    k = (fld x 5 12).toNat ∧
    v = (if r.sign then r.addr + k else r.addr + 32768 - k) % 32768 ∧
    h = BitVec.ofNat 3 (v / 2048) ∧
    i = BitVec.ofNat 5 v ∧
    inc = BitVec.ofNat 5 (v / 64) ∧
    v / 32 % 2 = 0 :=
  ⟨0xA00#12, stNamed, ⟨false, 0x8850#16, .good⟩, 0, 2128, 1#3, 16#5, 1#5, by
    and_intros <;> first
      | exact got (by decide +kernel) | decide +kernel | exact admits_mem (by decide +kernel) (by decide +kernel)
      | exact can_transfer (by decide +kernel) | exact trivial | exact rfl⟩

theorem witness_AddressTypes_indexedIndirect : ∃ (x : Group) (s : State) (r : SReg) (k : Nat) (v : Nat) (h : BitVec 3) (i inc : BitVec 5) (t :
  State),
    x ≠ inactiveGroup ∧
    bitAt x 1 = true ∧
    r = s.reg s.cur (BitVec.ofNat 5 (8 + (fld x 2 4).toNat)) ∧
    r.tag ≠ .bad ∧
    k = (fld x 5 12).toNat ∧
    v = (if r.sign then r.addr + k else r.addr + 32768 - k) % 32768 ∧
    h = BitVec.ofNat 3 (v / 2048) ∧
    i = BitVec.ofNat 5 v ∧
    inc = BitVec.ofNat 5 (v / 64) ∧
    v / 32 % 2 = 1 ∧
    (s.reg h i).tag = .good ∧
    s.Increments h i inc.toNat t :=
  ⟨0xA00#12, stIndirect, ⟨false, 0x8870#16, .good⟩, 0, 2160, 1#3, 16#5, 1#5, _, by
    and_intros <;> first
      | exact .inr ⟨by decide +kernel, by decide +kernel, by decide +kernel, .inl ⟨by decide +kernel, by decide +kernel, rfl⟩⟩
      | exact got (by decide +kernel) | decide +kernel | exact admits_mem (by decide +kernel) (by decide +kernel)
      | exact can_transfer (by decide +kernel) | exact trivial | exact rfl⟩

theorem witness_AddressTypes_register : ∃ (x : Group) (s : State),
    x ≠ inactiveGroup ∧
    bitAt x 1 = false ∧
    bitAt x 7 = false :=
  ⟨16#12, st, by
    and_intros <;> first
      | exact got (by decide +kernel) | decide +kernel | exact admits_mem (by decide +kernel) (by decide +kernel)
      | exact can_transfer (by decide +kernel) | exact trivial | exact rfl⟩

theorem witness_AddressTypes_stepped : ∃ (x : Group) (s : State) (t : State),
    x ≠ inactiveGroup ∧
    bitAt x 1 = false ∧
    bitAt x 7 = true ∧
    (s.reg s.cur (fld x 8 12)).tag = .good ∧
    s.Increments s.cur (fld x 8 12) (fld x 2 6).toNat t :=
  ⟨0x070#12, stLast, _, by
    and_intros <;> first
      | exact .inr ⟨by decide +kernel, by decide +kernel, by decide +kernel, .inl ⟨by decide +kernel, by decide +kernel, rfl⟩⟩
      | exact got (by decide +kernel) | decide +kernel | exact admits_mem (by decide +kernel) (by decide +kernel)
      | exact can_transfer (by decide +kernel) | exact trivial | exact rfl⟩

theorem witness_AddressTypes_steppedBack : ∃ (x : Group) (s : State) (t : State),
    x ≠ inactiveGroup ∧
    bitAt x 1 = false ∧
    bitAt x 7 = true ∧
    (s.reg s.cur (fld x 8 12)).tag = .good ∧
    s.Increments s.cur (fld x 8 12) (fld x 2 6).toNat t :=
  ⟨0x070#12, stOne, _, by
    and_intros <;> first
      | exact .inr ⟨by decide +kernel, by decide +kernel, by decide +kernel, .inr ⟨by decide +kernel, by decide +kernel, rfl⟩⟩
      | exact got (by decide +kernel) | decide +kernel | exact admits_mem (by decide +kernel) (by decide +kernel)
      | exact can_transfer (by decide +kernel) | exact trivial | exact rfl⟩

theorem witness_AddressTypes_stopper : ∃ (x : Group) (s : State) (t : State),
    x ≠ inactiveGroup ∧
    bitAt x 1 = false ∧
    bitAt x 7 = true ∧
    (s.reg s.cur (fld x 8 12)).tag = .good ∧
    s.Increments s.cur (fld x 8 12) (fld x 2 6).toNat t :=
  ⟨0x070#12, stStop, _, by
    and_intros <;> first
      | exact .inl ⟨.inr (.inl (by decide +kernel)), rfl⟩
      | exact got (by decide +kernel) | decide +kernel | exact admits_mem (by decide +kernel) (by decide +kernel)
      | exact can_transfer (by decide +kernel) | exact trivial | exact rfl⟩

theorem witness_AddressTypes_unstepped : ∃ (x : Group) (s : State) (t : State),
    x ≠ inactiveGroup ∧
    bitAt x 1 = false ∧
    bitAt x 7 = true ∧
    (s.reg s.cur (fld x 8 12)).tag = .good ∧
    s.Increments s.cur (fld x 8 12) (fld x 2 6).toNat t :=
  ⟨0x030#12, st, _, by
    and_intros <;> first
      | exact .inl ⟨.inl (by decide +kernel), rfl⟩
      | exact got (by decide +kernel) | decide +kernel | exact admits_mem (by decide +kernel) (by decide +kernel)
      | exact can_transfer (by decide +kernel) | exact trivial | exact rfl⟩

theorem witness_AddressTypes_protected : ∃ (x : Group) (s : State) (h : BitVec 3) (i inc : BitVec 5) (t u : State) (v : MWord),
    x ≠ inactiveGroup ∧
    locate x true s = .ok (.reg h i inc, u) ∧
    s.Increments h i inc.toNat t :=
  ⟨0xA00#12, stBarNamed, 1#3, 16#5, 1#5, _, _, good 5#48, by
    and_intros <;> first
      | exact .inl ⟨.inr (.inr (by decide +kernel)), rfl⟩
      | exact got (by decide +kernel) | decide +kernel | exact admits_mem (by decide +kernel) (by decide +kernel)
      | exact can_transfer (by decide +kernel) | exact trivial | exact rfl⟩

theorem witness_AddressTypes_result : ∃ (x : Group) (s : State) (h : BitVec 3) (i inc : BitVec 5) (t u : State) (v : MWord),
    x ≠ inactiveGroup ∧
    locate x true s = .ok (.reg h i inc, u) ∧
    s.Increments h i inc.toNat t ∧
    MWord.bad v = false ∧
    s.barsReg h i = false :=
  ⟨0x050#12, st, 0#3, 16#5, 1#5, _, _, good 5#48, by
    and_intros <;> first
      | exact .inr ⟨by decide +kernel, by decide +kernel, by decide +kernel, .inl ⟨by decide +kernel, by decide +kernel, rfl⟩⟩
      | exact got (by decide +kernel) | decide +kernel | exact admits_mem (by decide +kernel) (by decide +kernel)
      | exact can_transfer (by decide +kernel) | exact trivial | exact rfl⟩

theorem witness_ProtectedIncrements_register : ∃ (s : State) (h : BitVec 3) (i inc : BitVec 5),
    s.barsReg h i = true ∧
    (s.reg h i).tag ≠ .bad :=
  ⟨stBar, 1#3, 27#5, 31#5, by
    and_intros <;> first
      | exact got (by decide +kernel) | decide +kernel | exact admits_mem (by decide +kernel) (by decide +kernel)
      | exact can_transfer (by decide +kernel) | exact trivial | exact rfl⟩

theorem witness_ProtectedIncrements_operand : ∃ (s : State) (h : BitVec 3) (i inc : BitVec 5) (x : Group) (r : SReg) (v : SReg),
    s.barsReg h i = true ∧
    x ≠ inactiveGroup ∧
    bitAt x 1 = true ∧
    r = s.reg s.cur (indexReg x) ∧
    r.tag ≠ .bad ∧
    v = (augment r (fld x 5 12).toNat).1 ∧
    fld v.bits 3 5 = h ∧
    fld v.bits 12 16 = i ∧
    fld v.bits 6 10 = inc ∧
    bitAt v.bits 11 = false :=
  ⟨stBarNamed, 1#3, 16#5, 1#5, 0xA00#12, ⟨false, 0x8850#16, .good⟩, ⟨false, 0x8850#16, .good⟩, by
    and_intros <;> first
      | exact got (by decide +kernel) | decide +kernel | exact admits_mem (by decide +kernel) (by decide +kernel)
      | exact can_transfer (by decide +kernel) | exact trivial | exact rfl⟩

theorem witness_ProtectedIncrements_indirect : ∃ (s : State) (h : BitVec 3) (i inc : BitVec 5) (x : Group) (r : SReg) (v : SReg),
    s.barsReg h i = true ∧
    x ≠ inactiveGroup ∧
    bitAt x 1 = true ∧
    r = s.reg s.cur (indexReg x) ∧
    r.tag ≠ .bad ∧
    v = (augment r (fld x 5 12).toNat).1 ∧
    fld v.bits 3 5 = h ∧
    fld v.bits 12 16 = i ∧
    fld v.bits 6 10 = inc ∧
    bitAt v.bits 11 = true ∧
    (s.reg h i).tag ≠ .bad :=
  ⟨stBarIndirect, 1#3, 16#5, 1#5, 0xA00#12, ⟨false, 0x8870#16, .good⟩, ⟨false, 0x8870#16, .good⟩, by
    and_intros <;> first
      | exact got (by decide +kernel) | decide +kernel | exact admits_mem (by decide +kernel) (by decide +kernel)
      | exact can_transfer (by decide +kernel) | exact trivial | exact rfl⟩

theorem witness_DecodeEncode : ∃ (m : OpMap) (i : Instr),
    m.wf = true ∧
    WellFormed i = true :=
  ⟨.default, .pra pABC, by
    and_intros <;> first
      | exact got (by decide +kernel) | decide +kernel | exact admits_mem (by decide +kernel) (by decide +kernel)
      | exact can_transfer (by decide +kernel) | exact trivial | exact rfl⟩

theorem witness_EncodeDecode : ∃ (m : OpMap) (w : Word) (i : Instr),
    m.wf = true ∧
    decode m w = .ok i :=
  ⟨.default, 0x409040041042#48, .ba gABC, by
    and_intros <;> first
      | exact (rfl : decode _ _ = _)
      | exact got (by decide +kernel) | decide +kernel | exact admits_mem (by decide +kernel) (by decide +kernel)
      | exact can_transfer (by decide +kernel) | exact trivial | exact rfl⟩

theorem witness_StepInvariant : ∃ (s t : State),
    s.Inv ∧
    step s = .next t :=
  ⟨State.reset, State.reset, by
    and_intros <;> first
      | exact reset_step
      | exact ⟨by decide +kernel, by decide +kernel, by decide +kernel, by decide +kernel, by decide +kernel⟩
      | exact got (by decide +kernel) | decide +kernel | exact admits_mem (by decide +kernel) (by decide +kernel)
      | exact can_transfer (by decide +kernel) | exact trivial | exact rfl⟩

theorem witness_BarricadeProtects : ∃ (i : Instr) (s t : State),
    s.env = [] ∧
    exec i s = .next t ∧
    loadsBarricade i = false ∧
    s.restricted s.cur = true :=
  ⟨.pr ⟨false, false, false, false, 0#12, 0#12, 0#12⟩, stBar, stBar.begun.intervened.hunted true, by
    and_intros <;> first
      | exact (rfl : exec _ _ = _)
      | exact got (by decide +kernel) | decide +kernel | exact admits_mem (by decide +kernel) (by decide +kernel)
      | exact can_transfer (by decide +kernel) | exact trivial | exact rfl⟩

theorem witness_StepRunsDecoded_counter : ∃ (s q : State) (g : BitVec 3) (c : Ctr) (r : SReg) (i : Instr),
    s.Selects q g c r ∧
    r.tag = .good ∧
    ¬ (r.sign = false ∧ r.addr = 0) ∧
    s.exists? r.full = true ∧
    MWord.bad (s.mem.word r.full) = false ∧
    decode s.cfg.opmap (s.mem.word r.full).bits = .ok i :=
  ⟨st, st, 0#3, .sc, at_ 513, .ba gABC, by
    and_intros <;> first
      | exact ⟨by decide +kernel, by decide +kernel, by decide +kernel, by decide +kernel, by decide +kernel, .inl ⟨by decide +kernel, by decide +kernel, rfl⟩, by decide +kernel, by decide +kernel⟩
      | exact (rfl : decode _ _ = _)
      | exact got (by decide +kernel) | decide +kernel | exact admits_mem (by decide +kernel) (by decide +kernel)
      | exact can_transfer (by decide +kernel) | exact trivial | exact rfl⟩

theorem witness_StepRunsDecoded_hunt : ∃ (s q : State) (g : BitVec 3) (c : Ctr) (r : SReg) (i : Instr),
    s.Selects q g c r ∧
    r.tag = .good ∧
    ¬ (r.sign = false ∧ r.addr = 0) ∧
    s.exists? r.full = true ∧
    MWord.bad (s.mem.word r.full) = false ∧
    decode s.cfg.opmap (s.mem.word r.full).bits = .ok i :=
  ⟨stHunt, _, 0#3, .sc, at_ 513, .ba gABC, by
    and_intros <;> first
      | exact ⟨by decide +kernel, by decide +kernel, by decide +kernel, by decide +kernel, by decide +kernel, .inr ⟨.inl rfl, 5#3, by decide +kernel, by decide +kernel, rfl⟩, by decide +kernel, by decide +kernel⟩
      | exact (rfl : decode _ _ = _)
      | exact got (by decide +kernel) | decide +kernel | exact admits_mem (by decide +kernel) (by decide +kernel)
      | exact can_transfer (by decide +kernel) | exact trivial | exact rfl⟩

theorem witness_StepRunsDecoded_table : ∃ (s : State) (j : Nat) (i : Instr),
    s.halted = false ∧
    s.env = [] ∧
    s.grant = none ∧
    s.limited = none ∧
    s.utEntry = some j ∧
    s.exists? j = true ∧
    MWord.bad (s.mem.word j) = false ∧
    decode s.cfg.opmap (s.mem.word j).bits = .ok i :=
  ⟨stEntry, 513, .ba gABC, by
    and_intros <;> first
      | exact (rfl : decode _ _ = _)
      | exact got (by decide +kernel) | decide +kernel | exact admits_mem (by decide +kernel) (by decide +kernel)
      | exact can_transfer (by decide +kernel) | exact trivial | exact rfl⟩

theorem witness_SelectionErrors_bad : ∃ (s q : State) (g : BitVec 3) (c : Ctr) (r : SReg),
    s.Selects q g c r ∧
    (r.tag = .bad ∨ r.tag = .ended ∨ (r.sign = false ∧ r.addr = 0)) :=
  ⟨stBadCounter, _, 0#3, .sc, { at_ 513 with tag := .bad }, by
    and_intros <;> first
      | exact ⟨by decide +kernel, by decide +kernel, by decide +kernel, by decide +kernel, by decide +kernel, .inl ⟨by decide +kernel, by decide +kernel, rfl⟩, by decide +kernel, by decide +kernel⟩
      | exact got (by decide +kernel) | decide +kernel | exact admits_mem (by decide +kernel) (by decide +kernel)
      | exact can_transfer (by decide +kernel) | exact trivial | exact rfl⟩

theorem witness_SelectionErrors_ended : ∃ (s q : State) (g : BitVec 3) (c : Ctr) (r : SReg),
    s.Selects q g c r ∧
    (r.tag = .bad ∨ r.tag = .ended ∨ (r.sign = false ∧ r.addr = 0)) :=
  ⟨st.setReg 0 2 ⟨false, 0xFFFF#16, .ended⟩, _, 0#3, .sc, ⟨false, 0xFFFF#16, .ended⟩, by
    and_intros <;> first
      | exact ⟨by decide +kernel, by decide +kernel, by decide +kernel, by decide +kernel, by decide +kernel, .inl ⟨by decide +kernel, by decide +kernel, rfl⟩, by decide +kernel, by decide +kernel⟩
      | exact got (by decide +kernel) | decide +kernel | exact admits_mem (by decide +kernel) (by decide +kernel)
      | exact can_transfer (by decide +kernel) | exact trivial | exact rfl⟩

theorem witness_SelectionErrors_minusZero : ∃ (s q : State) (g : BitVec 3) (c : Ctr) (r : SReg),
    s.Selects q g c r ∧
    (r.tag = .bad ∨ r.tag = .ended ∨ (r.sign = false ∧ r.addr = 0)) :=
  ⟨stMinus, _, 0#3, .sc, ⟨false, 0#16, .good⟩, by
    and_intros <;> first
      | exact ⟨by decide +kernel, by decide +kernel, by decide +kernel, by decide +kernel, by decide +kernel, .inl ⟨by decide +kernel, by decide +kernel, rfl⟩, by decide +kernel, by decide +kernel⟩
      | exact got (by decide +kernel) | decide +kernel | exact admits_mem (by decide +kernel) (by decide +kernel)
      | exact can_transfer (by decide +kernel) | exact trivial | exact rfl⟩

theorem witness_SelectionErrors_crossed : ∃ (s q : State) (g : BitVec 3) (c : Ctr) (r : SReg),
    s.Selects q g c r ∧
    r.tag ≠ .bad ∧
    r.tag ≠ .ended ∧
    ¬ (r.sign = false ∧ r.addr = 0) ∧
    (r.tag = .crossed ∨ r.tag = .lost ∨ s.exists? r.full = false) :=
  ⟨stCrossed, _, 0#3, .sc, ⟨false, 0x8000#16, .crossed⟩, by
    and_intros <;> first
      | exact ⟨by decide +kernel, by decide +kernel, by decide +kernel, by decide +kernel, by decide +kernel, .inl ⟨by decide +kernel, by decide +kernel, rfl⟩, by decide +kernel, by decide +kernel⟩
      | exact got (by decide +kernel) | decide +kernel | exact admits_mem (by decide +kernel) (by decide +kernel)
      | exact can_transfer (by decide +kernel) | exact trivial | exact rfl⟩

theorem witness_SelectionErrors_lost : ∃ (s q : State) (g : BitVec 3) (c : Ctr) (r : SReg),
    s.Selects q g c r ∧
    r.tag ≠ .bad ∧
    r.tag ≠ .ended ∧
    ¬ (r.sign = false ∧ r.addr = 0) ∧
    (r.tag = .crossed ∨ r.tag = .lost ∨ s.exists? r.full = false) :=
  ⟨st.setReg 0 2 ⟨false, 0x8000#16, .lost⟩, _, 0#3, .sc, ⟨false, 0x8000#16, .lost⟩, by
    and_intros <;> first
      | exact ⟨by decide +kernel, by decide +kernel, by decide +kernel, by decide +kernel, by decide +kernel, .inl ⟨by decide +kernel, by decide +kernel, rfl⟩, by decide +kernel, by decide +kernel⟩
      | exact got (by decide +kernel) | decide +kernel | exact admits_mem (by decide +kernel) (by decide +kernel)
      | exact can_transfer (by decide +kernel) | exact trivial | exact rfl⟩

theorem witness_SelectionErrors_absent : ∃ (s q : State) (g : BitVec 3) (c : Ctr) (r : SReg),
    s.Selects q g c r ∧
    r.tag ≠ .bad ∧
    r.tag ≠ .ended ∧
    ¬ (r.sign = false ∧ r.addr = 0) ∧
    (r.tag = .crossed ∨ r.tag = .lost ∨ s.exists? r.full = false) :=
  ⟨stSmall, _, 0#3, .sc, at_ 8192, by
    and_intros <;> first
      | exact ⟨by decide +kernel, by decide +kernel, by decide +kernel, by decide +kernel, by decide +kernel, .inl ⟨by decide +kernel, by decide +kernel, rfl⟩, by decide +kernel, by decide +kernel⟩
      | exact got (by decide +kernel) | decide +kernel | exact admits_mem (by decide +kernel) (by decide +kernel)
      | exact can_transfer (by decide +kernel) | exact trivial | exact rfl⟩

theorem witness_SelectionErrors_parity : ∃ (s q : State) (g : BitVec 3) (c : Ctr) (r : SReg),
    s.Selects q g c r ∧
    r.tag ≠ .bad ∧
    r.tag ≠ .ended ∧
    ¬ (r.sign = false ∧ r.addr = 0) ∧
    r.tag = .good ∧
    s.exists? r.full = true ∧
    MWord.bad (s.mem.word r.full) = true ∧
    fld (s.mem.word r.full).bits 10 12 ≠ 0b111#3 :=
  ⟨stBadWord, _, 0#3, .sc, at_ 67, by
    and_intros <;> first
      | exact ⟨by decide +kernel, by decide +kernel, by decide +kernel, by decide +kernel, by decide +kernel, .inl ⟨by decide +kernel, by decide +kernel, rfl⟩, by decide +kernel, by decide +kernel⟩
      | exact got (by decide +kernel) | decide +kernel | exact admits_mem (by decide +kernel) (by decide +kernel)
      | exact can_transfer (by decide +kernel) | exact trivial | exact rfl⟩

theorem witness_SelectionErrors_simulator : ∃ (s q : State) (g : BitVec 3) (c : Ctr) (r : SReg),
    s.Selects q g c r ∧
    r.tag ≠ .bad ∧
    r.tag ≠ .ended ∧
    ¬ (r.sign = false ∧ r.addr = 0) ∧
    r.tag = .good ∧
    s.exists? r.full = true ∧
    MWord.bad (s.mem.word r.full) = true ∧
    fld (s.mem.word r.full).bits 10 12 = 0b111#3 ∧
    s.cfg.barricade = false :=
  ⟨{ stBadSim with cfg := { Config.standard with barricade := false } }, _, 0#3, .sc, at_ 88, by
    and_intros <;> first
      | exact ⟨by decide +kernel, by decide +kernel, by decide +kernel, by decide +kernel, by decide +kernel, .inl ⟨by decide +kernel, by decide +kernel, rfl⟩, by decide +kernel, by decide +kernel⟩
      | exact got (by decide +kernel) | decide +kernel | exact admits_mem (by decide +kernel) (by decide +kernel)
      | exact can_transfer (by decide +kernel) | exact trivial | exact rfl⟩

theorem witness_SelectionErrors_simulatorBarricade : ∃ (s q : State) (g : BitVec 3) (c : Ctr) (r : SReg) (i : Instr),
    s.Selects q g c r ∧
    r.tag ≠ .bad ∧
    r.tag ≠ .ended ∧
    ¬ (r.sign = false ∧ r.addr = 0) ∧
    r.tag = .good ∧
    s.exists? r.full = true ∧
    MWord.bad (s.mem.word r.full) = true ∧
    fld (s.mem.word r.full).bits 10 12 = 0b111#3 ∧
    s.cfg.barricade = true ∧
    decode s.cfg.opmap (s.mem.word r.full).bits = .ok i :=
  ⟨stBadSim, _, 0#3, .sc, at_ 88, .sDir ⟨0#8, 0#12, 0#12, 0#12⟩, by
    and_intros <;> first
      | exact ⟨by decide +kernel, by decide +kernel, by decide +kernel, by decide +kernel, by decide +kernel, .inl ⟨by decide +kernel, by decide +kernel, rfl⟩, by decide +kernel, by decide +kernel⟩
      | exact (rfl : decode _ _ = _)
      | exact got (by decide +kernel) | decide +kernel | exact admits_mem (by decide +kernel) (by decide +kernel)
      | exact can_transfer (by decide +kernel) | exact trivial | exact rfl⟩

theorem witness_SelectionErrors_unassigned : ∃ (s q : State) (g : BitVec 3) (c : Ctr) (r : SReg) (e : DecodeError),
    s.Selects q g c r ∧
    r.tag ≠ .bad ∧
    r.tag ≠ .ended ∧
    ¬ (r.sign = false ∧ r.addr = 0) ∧
    r.tag = .good ∧
    s.exists? r.full = true ∧
    MWord.bad (s.mem.word r.full) = false ∧
    decode s.cfg.opmap (s.mem.word r.full).bits = .error e :=
  ⟨stUnassigned, _, 0#3, .sc, at_ 86, .unassigned, by
    and_intros <;> first
      | exact ⟨by decide +kernel, by decide +kernel, by decide +kernel, by decide +kernel, by decide +kernel, .inl ⟨by decide +kernel, by decide +kernel, rfl⟩, by decide +kernel, by decide +kernel⟩
      | exact (rfl : decode _ _ = _)
      | exact got (by decide +kernel) | decide +kernel | exact admits_mem (by decide +kernel) (by decide +kernel)
      | exact can_transfer (by decide +kernel) | exact trivial | exact rfl⟩

theorem witness_SelectionErrors_entryAbsent : ∃ (s : State) (j : Nat),
    s.halted = false ∧
    s.env = [] ∧
    s.grant = none ∧
    s.limited = none ∧
    s.utEntry = some j ∧
    s.exists? j = false :=
  ⟨{ stSmall with utEntry := some 8192 }, 8192, by
    and_intros <;> first
      | exact got (by decide +kernel) | decide +kernel | exact admits_mem (by decide +kernel) (by decide +kernel)
      | exact can_transfer (by decide +kernel) | exact trivial | exact rfl⟩

theorem witness_SelectionErrors_entry : ∃ (s : State) (j : Nat),
    s.halted = false ∧
    s.env = [] ∧
    s.grant = none ∧
    s.limited = none ∧
    s.utEntry = some j ∧
    s.exists? j = true ∧
    MWord.bad (s.mem.word j) = true :=
  ⟨{ st with utEntry := some 67 }, 67, by
    and_intros <;> first
      | exact got (by decide +kernel) | decide +kernel | exact admits_mem (by decide +kernel) (by decide +kernel)
      | exact can_transfer (by decide +kernel) | exact trivial | exact rfl⟩

theorem witness_SelectionErrors_halted : ∃ (s : State),
    s.halted = true :=
  ⟨{ State.reset with halted := true }, by
    and_intros <;> first
      | exact got (by decide +kernel) | decide +kernel | exact admits_mem (by decide +kernel) (by decide +kernel)
      | exact can_transfer (by decide +kernel) | exact trivial | exact rfl⟩

end Sys2Proof.Machine
end

section
/-! SUPPORT. The invariant under an instruction and under the processor's turn (R45, R50). -/
namespace Sys2Proof.Machine

/-- A group given control at once: the registers are dropped and the group indicator is written. -/
theorem State.Inv.givenTo {s : State} (h : s.Inv) (g : BitVec 3) : (s.givenTo g).Inv :=
  ((h.of_kept (t := s.dropHeld) rfl).setCur g).of_eq rfl rfl rfl rfl

/-- Every instruction keeps the invariant, whatever happens outside the processor meanwhile. -/
theorem exec_inv {i : Instr} {s t : State} (h : s.Inv) (e : exec i s = .next t) : t.Inv := by
  obtain ⟨u, hu, ht⟩ := exec_reach (out := true) (.inl rfl) e
  rcases ht with rfl | ⟨g, rfl⟩
  · exact hu.inv h
  · exact (hu.inv h).givenTo g

theorem runSelected_inv {i : Instr} {s t : State} (h : s.Inv) (e : runSelected i s = .next t) : t.Inv := by
  unfold runSelected at e
  split at e
  · next u hu =>
    cases e
    exact settle_inv (exec_inv h hu)
  · cases e
  · cases e

theorem cpuStep_inv {s t : State} (h : s.Inv) (e : cpuStep s = .next t) : t.Inv := by
  have hs := select_inv h
  unfold cpuStep at e
  split at e
  · next u hu =>
    cases e
    rwa [hu] at hs
  · next i u hu =>
    rw [hu] at hs
    exact runSelected_inv hs e

end Sys2Proof.Machine
end

section
/-! SUPPORT. The control program instruction: what it leaves of the list of stalled programs (R631), and of the delivery of the program control
register (R470); the handing over of control (R472). -/
namespace Sys2Proof.Machine

/-- Only the turning off of a group takes it off the list of stalled programs (R631). -/
theorem mem_stallOrder_setDemandBit (s : State) (g h : BitVec 3) (b : Bool) :
    h ∈ (s.setDemandBit g b).stallOrder ↔ h ∈ s.stallOrder ∧ (h = g → b = true) := by
  unfold State.setDemandBit
  cases b <;> simp

/-- What a change made for each group in turn leaves of the list of stalled programs: `K` says which groups stay. -/
theorem mem_stallOrder_forGroups {f : BitVec 3 → State → State} {K : BitVec 3 → Bool}
    (hf : ∀ g t h, h ∈ (f g t).stallOrder ↔ h ∈ t.stallOrder ∧ (h = g → K g = true)) (s : State) (h : BitVec 3) :
    h ∈ (s.forGroups f).stallOrder ↔ h ∈ s.stallOrder ∧ K h = true := by
  have fold : ∀ (l : List (BitVec 3)) (t : State),
      h ∈ (l.foldl (fun t g => f g t) t).stallOrder ↔ h ∈ t.stallOrder ∧ (h ∈ l → K h = true) := by
    intro l
    induction l with
    | nil => simp
    | cons g l ih =>
      intro t
      rw [List.foldl_cons, ih, hf, List.mem_cons]
      by_cases e : h = g
      · subst e; tauto
      · tauto
  have hall : h ∈ [0#3, 1#3, 2#3, 3#3, 4#3, 5#3, 6#3, 7#3] := by simpa using group_cases h
  unfold State.forGroups
  rw [fold]
  tauto

/-- A stalled group stays one of the stalled programs where Figure XII-2 would leave it in demand (R470, R631). -/
theorem mem_stallOrder_control (s : State) (b : Group) (h : BitVec 3) :
    h ∈ (s.control b).stallOrder ↔
      h ∈ s.stallOrder ∧ demandAfter (fld b 1 4).toNat (controlBit b h) (h == s.cur) true = true := by
  have stay : ∀ f : BitVec 3 → State → State, (∀ g t, (f g t).stallOrder = t.stallOrder) →
      (h ∈ (s.forGroups f).stallOrder ↔ h ∈ s.stallOrder) := fun f hf =>
    (mem_stallOrder_forGroups (K := fun _ => true) (fun g t k => by simp [hf]) s h).trans (by simp)
  unfold State.control
  dsimp only
  split
  · next e => rw [e, mem_stallOrder_setDemandBit]; simp [demandAfter]
  · next e =>
    rw [e, mem_stallOrder_forGroups (K := controlBit b) fun g t k => ?_]
    · simp [demandAfter]
    · by_cases v : controlBit b g <;> simp [v, mem_stallOrder_setDemandBit]
  · next e => rw [e, stay _ fun g t => by split <;> rfl]; simp [demandAfter]
  · next e =>
    rw [e, mem_stallOrder_forGroups (K := controlBit b) fun g t k => mem_stallOrder_setDemandBit t g k _]
    simp [demandAfter]
  · next e => rw [e]; simp [demandAfter]
  · next e => rw [e, stay _ fun g t => by split <;> rfl]; simp [demandAfter]
  · next e => rw [e, stay _ fun g t => by split <;> rfl]; simp [demandAfter]
  · rw [stay (fun g t => t.setBis g (controlBit b g)) fun g t => rfl]
    unfold demandAfter
    split <;> simp_all

theorem State.inDemand_of {s t : State} (h : t.pcr = s.pcr) (g : BitVec 3) : t.inDemand g = s.inDemand g := by
  unfold State.inDemand; rw [h]

theorem State.bis_of {s t : State} (h : t.pcr = s.pcr) (g : BitVec 3) : t.bis g = s.bis g := by
  unfold State.bis; rw [h]

/-- What an MPC leaves as its delivery of the program control register made it: all but the bits of that register, the list of stalled
programs, what may be retrieved, and the hunt to come. -/
def State.ungoverned (s : State) : State :=
  { s with
    pcr := 0, stallOrder := [], acState := .undefined, lopHeld := false, heldMask := none, flopHeld := false, scan := none }

theorem ungoverned_setDemandBit (s : State) (g : BitVec 3) (b : Bool) : (s.setDemandBit g b).ungoverned = s.ungoverned := rfl

theorem ungoverned_setBis (s : State) (g : BitVec 3) (b : Bool) : (s.setBis g b).ungoverned = s.ungoverned := rfl

theorem ungoverned_controlled (s : State) {f : Mpc} (hb : bitAt f.b 1 = false) : (s.controlled f).ungoverned = s.ungoverned := by
  obtain ⟨-, -, -, p, o, e⟩ := control_bits s f.b hb
  unfold State.controlled
  rw [e]
  dsimp only
  split <;> rfl

theorem ungoverned_handing (s : State) (f : Mpc) (g : BitVec 3) : (s.handing f g).ungoverned = s.ungoverned := by
  unfold State.handing
  dsimp only
  split <;> simp only [ungoverned_setBis, ungoverned_setDemandBit]

theorem ungoverned_handed (s : State) (g : BitVec 3) : (s.handed g).ungoverned = s.ungoverned := by
  unfold State.handed
  split <;> rfl

/-- What stays of the delivery of the program control register (R470) when the rest of the MPC has been done. -/
theorem delivered_stays {f : Mpc} {s u t : State} {words : List Nat} (hq : s.env = []) (hd : s.controlDelivered f u words)
    (hw : s.mem.wf = true) (ht : t.ungoverned = u.ungoverned) :
    (∀ a, a ∈ words → t.holds (.mem a) (MWord.good s.pcr)) ∧ (words = [] → t.ac = s.pcr ∧ t.lop = s.pcr) ∧
      t.outside = { s.outside with stallOrder := t.stallOrder } ∧ Frame s t (s.named f.c f.dC) words := by
  obtain ⟨-, -, hp, hword, hac⟩ := deliverControl_run hq hd hw
  have hmem : t.mem = u.mem := (congrArg State.mem ht :)
  have hregs : t.regs = u.regs := (congrArg State.regs ht :)
  have htyping : t.typing = u.typing := (congrArg State.typing ht :)
  refine ⟨fun a ha hr => ?_, fun e => ?_, ?_, (hp.frame.trans (Frame.same hregs hmem)).mono (by simp) (by simp)⟩
  · rw [hmem]
    refine hword a ha ?_
    unfold State.reserved at hr ⊢
    rwa [htyping] at hr
  · obtain ⟨h1, h2, -⟩ := hac e
    exact ⟨(congrArg State.ac ht :).trans h1, (congrArg State.lop ht :).trans h2⟩
  · calc t.outside = { t.ungoverned.outside with stallOrder := t.stallOrder } := rfl
      _ = { u.outside with stallOrder := t.stallOrder } := by rw [ht]; rfl
      _ = _ := by rw [hp.outside]

theorem fld_ne_handOver {b : Group} (hb : bitAt b 1 = false) : fld b 1 4 ≠ 0b1000#4 := by
  intro e
  have top : (fld b 1 4).getLsbD 3 = bitAt b 1 := by
    unfold fld bitAt
    rw [BitVec.getLsbD_extractLsb']
    rfl
  rw [e, hb] at top
  exact absurd top (by decide)

theorem exec_mpc_functions {f : Mpc} {s u : State} {words : List Nat} (ha : controlAddressOk f = true) (hb : bitAt f.b 1 = false)
    (hq : s.env = []) (hd : s.controlDelivered f u words) (hw : s.mem.wf = true) : exec (.mpc f) s = .next (u.controlled f) := by
  obtain ⟨hi, hrun, -⟩ := deliverControl_run hq hd hw
  refine perform_ok (m := controlOp f) ?_
  unfold controlOp begin
  rw [Op.bind_ok (Op.update_run _ s), Op.bind_ok hi, Op.bind_ok (Op.get_run _), if_neg (by simp [ha]),
    if_neg (fld_ne_handOver hb), if_neg (by simp [hb])]
  unfold controlFunctions
  rw [Op.bind_ok hrun]
  rfl

theorem exec_mpc_handOver {f : Mpc} {s u : State} {words : List Nat} {g : BitVec 3} (ha : controlAddressOk f = true)
    (hf : fld f.b 1 4 = 0b1000#4) (hg : controlTarget f.b = some g) (h0 : s.cur ≠ 0#3) (h2 : s.cur ≠ 2#3) (hn : s.inDemand g = false)
    (hq : s.env = []) (hd : s.controlDelivered f u words) (hw : s.mem.wf = true) :
    exec (.mpc f) s = .next ((u.handing f g).handed g) := by
  obtain ⟨hi, hrun, -⟩ := deliverControl_run hq hd hw
  refine perform_ok (m := controlOp f) ?_
  unfold controlOp begin
  rw [Op.bind_ok (Op.update_run _ s), Op.bind_ok hi, Op.bind_ok (Op.get_run _), if_neg (by simp [ha]), if_pos hf, hg]
  have hc : ¬ (s.begun.cur = 0#3 ∨ s.begun.cur = 2#3) := by simp [h0, h2]
  have hd' : s.begun.inDemand g ≠ true := by simp [State.inDemand_of (State.begun_pcr s), hn]
  dsimp only
  rw [if_neg hc, if_neg hd']
  unfold handOver
  rw [Op.bind_ok hrun]
  rfl

theorem controlled_pcr (s : State) (f : Mpc) : (s.controlled f).pcr = ((s.control f.b).setBis s.cur f.seq).pcr := by
  unfold State.controlled
  dsimp only
  split <;> rfl

theorem controlled_stallOrder (s : State) (f : Mpc) : (s.controlled f).stallOrder = (s.control f.b).stallOrder := by
  unfold State.controlled
  dsimp only
  split <;> rfl

/-! ### Function 1000 (R472) -/

theorem controlTarget_eq {b : Group} {g : BitVec 3} (h : controlTarget b = some g) : g = 0#3 ∨ g = 2#3 := by
  unfold controlTarget at h
  split at h
  · exact .inl (Option.some.inj h).symm
  · exact .inr (Option.some.inj h).symm
  · cases h

theorem handing_limited (s : State) (f : Mpc) (g : BitVec 3) : (s.handing f g).limited = s.limited :=
  (congrArg State.limited (ungoverned_handing s f g) :)

theorem handed_free {s : State} {g : BitVec 3} (h : s.limited = none) : s.handed g = s.givenTo g := by
  unfold State.handed
  rw [h]; rfl

/-- The demand bits once control has been handed to another group (R472). -/
theorem inDemand_handing {s : State} {f : Mpc} {g : BitVec 3} (hg : g ≠ s.cur) (h : BitVec 3) : (s.handing f g).inDemand h =
    if h = s.cur then controlBit f.b h && s.inDemand h else if h = g then true else s.inDemand h := by
  unfold State.handing
  dsimp only
  by_cases e : h = s.cur
  · subst e
    split <;> rename_i v <;> simp [inDemand_setBis, inDemand_setDemandBit, hg.symm, v]
  · split <;> simp [inDemand_setBis, inDemand_setDemandBit, e]

/-- The bisequence bits once control has been handed to another group (R472). -/
theorem bis_handing {s : State} {f : Mpc} {g : BitVec 3} (hg : g ≠ s.cur) (h : BitVec 3) : (s.handing f g).bis h =
    if h = s.cur then (if controlBit f.b h then f.seq else s.bis h) else if h = g then false else s.bis h := by
  unfold State.handing
  dsimp only
  by_cases e : h = s.cur
  · subst e
    split
    · simp [bis_setBis]
    · simp [bis_setDemandBit, bis_setBis, hg.symm]
  · split <;> simp [bis_setBis, bis_setDemandBit, e]

theorem bitAt_handing (s : State) (f : Mpc) (g : BitVec 3) {n : Nat} (h : 1 ≤ n ∧ n ≤ 48) (hn : n < 21 ∨ 36 < n) :
    bitAt (s.handing f g).pcr n = bitAt s.pcr n := by
  unfold State.handing
  dsimp only
  split <;> simp only [bitAt_setBis _ _ _ h hn, bitAt_setDemandBit _ _ _ h hn]

/-- Of the stalled programs only a caller that is turned off leaves the list. -/
theorem mem_stallOrder_handing (s : State) (f : Mpc) (g h : BitVec 3) :
    h ∈ (s.handing f g).stallOrder ↔ h ∈ s.stallOrder ∧ (h = s.cur → controlBit f.b h = true) := by
  unfold State.handing
  dsimp only
  split
  · next v => simp_all [State.setBis, mem_stallOrder_setDemandBit]
  · next v => rw [mem_stallOrder_setDemandBit]; simp_all [State.setBis, mem_stallOrder_setDemandBit]

/-- Giving a group control writes the group indicator only. -/
theorem bitAt_givenTo (s : State) (g : BitVec 3) {n : Nat} (h : 1 ≤ n ∧ n ≤ 48) (hn : n < 18 ∨ 20 < n) :
    bitAt (s.givenTo g).pcr n = bitAt s.pcr n :=
  bitAt_setFld (i := 18) (j := 20) s.pcr g (by omega) h hn

theorem inDemand_givenTo (s : State) (g h : BitVec 3) : (s.givenTo g).inDemand h = s.inDemand h :=
  bitAt_givenTo s g (by omega) (by omega)

theorem bis_givenTo (s : State) (g h : BitVec 3) : (s.givenTo g).bis h = s.bis h :=
  bitAt_givenTo s g (by omega) (by omega)

theorem stallOrder_givenTo (s : State) (g : BitVec 3) : (s.givenTo g).stallOrder = s.stallOrder := rfl

end Sys2Proof.Machine
end

section
/-! SUPPORT. The selection of an instruction: what it has recorded when the instruction starts, and what its control errors leave (R32, R33, R602,
R610, R666). -/
namespace Sys2Proof.Machine

/-! ### What a control error of selection leaves (R621, R666) -/

/-- A state about to extract an instruction for group `g`: what a control error found there needs of it. -/
structure State.Extracts (s u : State) (g : BitVec 3) : Prop where
  cfg : u.cfg = s.cfg
  mem : u.mem = s.mem
  running : u.halted = false
  noError : u.limited = none
  cur : u.cur = g
  demand : ∀ h, u.inDemand h = s.inDemand h

theorem halt_code (s : State) (c : BitVec 5) : fld (s.halt c).pcr 4 8 = c := by
  rw [(halt_fields s c).1]
  exact fld_setFld_self (i := 4) (j := 8) s.pcr c (by omega) (by omega)

theorem turnOff_code (s : State) (g : BitVec 3) (c : BitVec 5) : fld (s.turnOff g c).pcr 4 8 = c := by
  rw [State.turnOff_pcr]
  exact fld_setFld_self (i := 4) (j := 8) _ c (by omega) (by omega)

theorem due_none {s : State} (h : s.limited = none) : s.due = none := by
  unfold State.due; rw [h]

theorem extractionError_trapped {u : State} (h : u.limited = none) (c : BitVec 5) : u.extractionError c = u.trapped c := by
  unfold State.extractionError
  rw [due_none h]; rfl

theorem RegTag.fatal_iff (t : RegTag) : t.fatal = true ↔ t = .bad ∨ t = .ended := by
  cases t <;> simp [RegTag.fatal]

theorem RegTag.astray_iff (t : RegTag) : t.astray = true ↔ t = .crossed ∨ t = .lost := by
  cases t <;> simp [RegTag.astray]

/-- A step that ends in a control error found in extraction. -/
theorem stops_of_extractionError {s u : State} {g : BitVec 3} {c : BitVec 5} (h : s.Extracts u g)
    (e : step s = .next (u.extractionError c)) : s.Stops g c := by
  rw [extractionError_trapped h.noError] at e
  refine ⟨_, e, ?_⟩
  unfold State.trapped
  cases hb : s.cfg.barricade
  · have hb' : ¬ u.cfg.barricade = true := by rw [h.cfg, hb]; decide
    rw [if_neg hb']
    obtain ⟨-, hmem, -, hhalt⟩ := halt_fields u c
    exact ⟨halt_code u c, hmem.trans h.mem, fun _ => hhalt, fun hf => absurd hf (by decide)⟩
  · have hb' : u.cfg.barricade = true := by rw [h.cfg, hb]
    rw [if_pos hb', h.cur]
    refine ⟨turnOff_code u g c, (State.turnOff_mem u g c).trans h.mem, fun hf => absurd hf (by decide), fun _ =>
      ⟨?_, ?_, ?_, ?_, fun k hk => ?_⟩⟩
    · rw [State.turnOff_halted, h.running]
    · rw [turnOff_inDemand, if_pos rfl]
    · rw [State.turnOff_bar]
      exact fld_setFld_self (i := 1) (j := 3) u.bar g (by omega) (by omega)
    · rw [State.turnOff_scan]
    · rw [turnOff_inDemand, if_neg hk, h.demand]

/-! ### The word selected (R147, R610) -/

/-- A limited control error of class (b) where none is due is recorded, and changes nothing else. -/
theorem flag_eq {u : State} (h : u.limited = none) (c : BitVec 5) : u.flag c = { u with limited := some ⟨c, u.cur, false⟩ } := by
  unfold State.flag; rw [h]

theorem extract_good {u : State} (hl : u.limited = none) {w : MWord} (hw : MWord.bad w = false) : u.extract w = u.decoded w.bits := by
  unfold State.extract
  rw [due_none hl]
  dsimp only
  rw [if_neg (by simp [hw])]

theorem extract_bad {u : State} (hl : u.limited = none) {w : MWord} (hw : MWord.bad w = true)
    (hp : (isSimulator w.bits && !u.byUtr && u.cfg.barricade) = false) :
    u.extract w = .next (u.extractionError (if u.byUtr || isSimulator w.bits then 0b10010#5 else 0b01010#5)) := by
  unfold State.extract
  rw [due_none hl]
  dsimp only
  rw [if_pos hw, if_neg (by simp [hp])]

/-- With the barricade a simulator instruction of bad parity is performed, the error to come after it (R666). -/
theorem extract_simulator {u : State} (hl : u.limited = none) {w : MWord} (hw : MWord.bad w = true)
    (hp : (isSimulator w.bits && !u.byUtr && u.cfg.barricade) = true) :
    u.extract w = (u.flag 0b10010#5).decoded w.bits := by
  unfold State.extract
  rw [due_none hl]
  dsimp only
  rw [if_pos hw, if_pos hp]

theorem decoded_ok {u : State} {w : Word} {i : Instr} (h : decode u.cfg.opmap w = .ok i) : u.decoded w = .run i u := by
  unfold State.decoded; rw [h]

theorem decoded_error {u : State} {w : Word} {e : DecodeError} (h : decode u.cfg.opmap w = .error e) :
    u.decoded w = .next (u.extractionError u.cfg.illegalOp) := by
  unfold State.decoded; rw [h]

theorem isSimulator_iff (w : Word) : isSimulator w = true ↔ fld w 10 12 = 0b111#3 := by
  unfold isSimulator; exact beq_iff_eq

/-- An instruction before which no limited control error is due is only performed (R666). -/
theorem runSelected_unlimited {i : Instr} {u : State} (h : u.limited = none) : runSelected i u = exec i u := by
  have hs : ∀ t, State.settleLimited u t = t := fun t => by unfold State.settleLimited; rw [h]
  unfold runSelected
  split <;> simp_all

/-! ### The counter that selects (R32) -/

/-- What selection has recorded when it extracts the word a counter names. -/
structure State.Latched (s u : State) (g : BitVec 3) (c : Ctr) (r : SReg) : Prop where
  sel : u.sel = c
  ctl : u.ctl = r
  byUtr : u.byUtr = false
  scan : u.scan = none
  cur : u.cur = g
  stalls : u.stalls = s.stalls.set g.toNat .running g.isLt
  pcr : ∀ n, 1 ≤ n → n ≤ 48 → ¬ (18 ≤ n ∧ n ≤ 20) → bitAt u.pcr n = bitAt s.pcr n
  regs : ∀ h j, (h, j) ≠ (g, c.ix) → u.reg h j = s.reg h j
  rest : { u with
    pcr := s.pcr, regs := s.regs, stalls := s.stalls, scan := s.scan, sel := s.sel, ctl := s.ctl, byUtr := s.byUtr,
    free := s.free, firstOn := s.firstOn, consoleServed := s.consoleServed } = s

theorem latched_latch {s q : State} {g : BitVec 3} {c : Ctr} {r : SReg} (h : s.Selects q g c r) :
    s.Latched ((q.chosen g).latch c r) g c r := by
  obtain ⟨x, y, z, w, hch, rfl, rfl⟩ := chosen_eq h
  obtain ⟨r', n, -, hl⟩ := latch_eq (q.chosen g) c r
  have hcur : (q.chosen g).cur = g := State.cur_setCur q g
  rw [hl]
  refine ⟨rfl, rfl, rfl, rfl, hcur, ?_, fun k h1 h48 hk => ?_, fun k j hkj => ?_, rest_eq s _ _ z w _ _ _ _ _ _ _ hch⟩
  · rw [hch]; rfl
  · rw [hch]
    exact bitAt_setFld (i := 18) (j := 20) s.pcr g (by omega) ⟨h1, h48⟩ (by omega)
  · refine (State.reg_setReg_other ({ q.chosen g with free := n }) ?_ r').trans ?_
    · change ¬ (k = (q.chosen g).cur ∧ j = c.ix)
      rw [hcur]
      rintro ⟨rfl, rfl⟩
      exact hkj rfl
    · exact State.reg_of_regs (by rw [hch]) k j

/-- The step of a counter that stands neither at a stopper nor at the boundary and stays within 15 bits (R24, R25). -/
theorem stepCounter_plain {b : Bool} {r : SReg} {s : State} (ht : r.tag = .good) (hz : ¬ (r.sign = false ∧ r.addr = 0))
    (hs : s.atStopper r = false) (hr : r.addr + 1 < 32768) :
    stepCounter b r s = .ok (r.withAddr (if r.sign then r.addr + 1 else r.addr - 1), s) := by
  unfold State.atStopper at hs
  rw [Bool.or_eq_false_iff, decide_eq_false_iff_not] at hs
  obtain ⟨hstop, hbound⟩ := hs
  have hstep : stepBy r 1 s = .ok (r.withAddr (if r.sign then r.addr + 1 else r.addr - 1), s) := by
    unfold stepBy
    cases hsg : r.sign
    · have hle : 1 ≤ r.addr := by
        have hne : r.addr ≠ 0 := fun e => hz ⟨hsg, e⟩
        omega
      rw [if_neg (by decide), if_pos hle]; rfl
    · rw [if_pos rfl, if_pos hr]; rfl
  unfold stepCounter
  rw [Op.bind_ok (Op.get_run s), if_neg hstop, if_neg (by simp [hbound]), Op.bind_ok hstep, if_neg (by simp [ht, RegTag.astray])]
  rfl

/-- The counter as its selection leaves it (R32). -/
theorem reg_latch {s q : State} {g : BitVec 3} {c : Ctr} {r : SReg} (h : s.Selects q g c r) (ht : r.tag = .good)
    (hz : ¬ (r.sign = false ∧ r.addr = 0)) (hs : s.atStopper r = false) (hr : r.addr + 1 < 32768) :
    ((q.chosen g).latch c r).reg g c.ix = r.withAddr (if r.sign then r.addr + 1 else r.addr - 1) := by
  obtain ⟨x, y, z, w, hch, -, -⟩ := chosen_eq h
  have hcur : (q.chosen g).cur = g := State.cur_setCur q g
  have hs' : (q.chosen g).atStopper r = false := by rw [← hs, hch]; rfl
  unfold State.latch
  rw [stepCounter_plain ht hz hs' hr]
  change ((q.chosen g).setReg (q.chosen g).cur c.ix (r.withAddr _)).reg g c.ix = _
  rw [hcur, State.reg_setReg_self]

theorem State.Latched.extracts {s u : State} {g : BitVec 3} {c : Ctr} {r : SReg} (h : s.Latched u g c r) (hh : s.halted = false)
    (hl : s.limited = none) : s.Extracts u g where
  cfg := (congrArg State.cfg h.rest :)
  mem := (congrArg State.mem h.rest :)
  running := (congrArg State.halted h.rest :).trans hh
  noError := (congrArg State.limited h.rest :).trans hl
  cur := h.cur
  demand := fun k => h.pcr _ (by omega) (by omega) (by omega)

/-! ### The step that selects by a counter (R32, R33) -/

/-- What the processor makes of its selection. -/
def Selection.outcome : Selection → Host.Outcome State Fault Refusal
  | .next t => .next t
  | .run i t => runSelected i t

theorem Selection.outcome_next (t : State) : (Selection.next t).outcome = .next t := rfl

theorem Selection.outcome_run (i : Instr) (t : State) : (Selection.run i t).outcome = runSelected i t := rfl

theorem cpuStep_outcome (s : State) : cpuStep s = s.select.outcome := by
  unfold cpuStep Selection.outcome
  cases s.select <;> rfl

section
variable {s q : State} {g : BitVec 3} {c : Ctr} {r : SReg}

theorem step_outcome (h : s.Selects q g c r) : step s = (q.selectFrom g).outcome := by
  rw [step_select h]
  cases q.selectFrom g <;> rfl

/-- A counter that cannot be used at all stops the machine (R33). -/
theorem step_fatal (h : s.Selects q g c r) (hf : r.tag.fatal = true ∨ (r.sign = false ∧ r.addr = 0)) :
    ∃ t, step s = .next t ∧ t.halted = true ∧ fld t.pcr 4 8 = 0b00011#5 ∧ t.mem = s.mem := by
  obtain ⟨x, y, z, w, hch, -, -⟩ := chosen_eq h
  obtain ⟨-, hmem, -, hhalt⟩ := halt_fields (q.chosen g) 0b00011#5
  refine ⟨_, ?_, hhalt, halt_code _ _, hmem.trans (by rw [hch])⟩
  rw [step_outcome h, selectFrom_eq h, if_pos hf, Selection.outcome_next]

/-- A counter that names no location it may use is control error 00001 (R92, R662). -/
theorem stops_astray (h : s.Selects q g c r) (hf : ¬ (r.tag.fatal = true ∨ (r.sign = false ∧ r.addr = 0)))
    (ha : r.tag.astray = true ∨ s.exists? r.full = false) : s.Stops g 0b00001#5 := by
  refine stops_of_extractionError ((latched_latch h).extracts h.running h.noError) ?_
  rw [step_outcome h, selectFrom_eq h, if_neg hf, if_pos ha, Selection.outcome_next]

/-- A counter that can be used extracts the word it names. -/
theorem step_extract (h : s.Selects q g c r) (hf : ¬ (r.tag.fatal = true ∨ (r.sign = false ∧ r.addr = 0))) (ht : r.tag = .good)
    (hx : s.exists? r.full = true) : step s = (((q.chosen g).latch c r).extract (s.mem.word r.full)).outcome := by
  rw [step_outcome h, selectFrom_eq h, if_neg hf, if_neg (by simp [ht, RegTag.astray, hx])]

/-- A word of bad parity that is not performed (R610, R666). -/
theorem stops_badWord (h : s.Selects q g c r) (hf : ¬ (r.tag.fatal = true ∨ (r.sign = false ∧ r.addr = 0))) (ht : r.tag = .good)
    (hx : s.exists? r.full = true) (hw : MWord.bad (s.mem.word r.full) = true)
    (hp : (isSimulator (s.mem.word r.full).bits && s.cfg.barricade) = false) :
    s.Stops g (if isSimulator (s.mem.word r.full).bits then 0b10010#5 else 0b01010#5) := by
  have L := latched_latch h
  have X := L.extracts h.running h.noError
  refine stops_of_extractionError X ?_
  rw [step_extract h hf ht hx, extract_bad X.noError hw (by simp [L.byUtr, X.cfg, hp]), L.byUtr,
    Bool.false_or, Selection.outcome_next]

/-- A simulator instruction of bad parity, with the barricade: performed, the error recorded (R666, log 63). -/
theorem step_badSimulator {i : Instr} (h : s.Selects q g c r) (hf : ¬ (r.tag.fatal = true ∨ (r.sign = false ∧ r.addr = 0)))
    (ht : r.tag = .good) (hx : s.exists? r.full = true) (hw : MWord.bad (s.mem.word r.full) = true)
    (hs : isSimulator (s.mem.word r.full).bits = true) (hb : s.cfg.barricade = true)
    (hd : decode s.cfg.opmap (s.mem.word r.full).bits = .ok i) :
    ∃ u, step s = runSelected i u ∧ u.limited = some ⟨0b10010#5, g, false⟩ ∧ u.cur = g ∧ u.sel = c ∧ u.ctl = r ∧
      u.byUtr = false ∧ u.mem = s.mem := by
  have L := latched_latch h
  have X := L.extracts h.running h.noError
  refine ⟨((q.chosen g).latch c r).flag 0b10010#5, ?_, ?_⟩
  · rw [step_extract h hf ht hx, extract_simulator X.noError hw (by simp [X.cfg, hb, hs, L.byUtr]),
      decoded_ok (by rwa [flag_eq X.noError, X.cfg]), Selection.outcome_run]
  · rw [flag_eq X.noError]
    generalize (q.chosen g).latch c r = u at L X
    exact ⟨by rw [L.cur], L.cur, L.sel, L.ctl, L.byUtr, X.mem⟩

/-- A word that is no instruction is the control error of the installation (R147, log 14). -/
theorem stops_unassigned {e : DecodeError} (h : s.Selects q g c r) (hf : ¬ (r.tag.fatal = true ∨ (r.sign = false ∧ r.addr = 0)))
    (ht : r.tag = .good) (hx : s.exists? r.full = true) (hw : MWord.bad (s.mem.word r.full) = false)
    (hd : decode s.cfg.opmap (s.mem.word r.full).bits = .error e) : s.Stops g s.cfg.illegalOp := by
  have X := (latched_latch h).extracts h.running h.noError
  rw [← X.cfg]
  refine stops_of_extractionError X ?_
  rw [step_extract h hf ht hx, extract_good X.noError hw, decoded_error (by rwa [X.cfg]), Selection.outcome_next]

end

/-! ### The entry of the unprogrammed transfer table (R602, R604) -/

/-- The state in which the table entry is extracted. -/
def State.entering (s : State) : State := { s with utEntry := none, scan := none, byUtr := true, ctl := s.reg s.cur utrIx }

theorem entering_extracts {s : State} (hh : s.halted = false) (hl : s.limited = none) : s.Extracts s.entering s.cur :=
  ⟨rfl, rfl, hh, hl, rfl, fun _ => rfl⟩

theorem step_entry {s : State} {j : Nat} (hh : s.halted = false) (he : s.env = []) (hg : s.grant = none) (hj : s.utEntry = some j) :
    step s = (if s.exists? j = false then Selection.next (s.entering.extractionError 0b00001#5)
      else s.entering.extract (s.mem.word j)).outcome := by
  unfold step
  rw [if_neg (by simp [hh]), environment_quiet he, hg]
  dsimp only
  rw [cpuStep_outcome]
  unfold State.select
  rw [hj]
  rfl

end Sys2Proof.Machine
end

section
/-! PROOFS. The statements about the state: the invariant, the control program instruction, selection. -/
namespace Sys2Proof.Settled
open Sys2Proof.Machine

/-- Settles O57: a step is nothing, a buffer cycle, or the processor's turn, after at most one event. -/
theorem stepInvariant : Obligations.StepInvariant := by
  intro s t h e
  unfold step at e
  split at e
  · cases e; exact h
  · split at e
    · cases e; exact bufferCycle_inv (environment_inv h) _ _
    · exact cpuStep_inv (environment_inv h) e

/-- Settles O29: the bits follow Figure XII-2 by `control_bits`, the executing group's bisequence bit by the write after it. -/
theorem controlFunctions : Obligations.ControlFunctions := by
  intro f s u words ha hb hq hd hw
  obtain ⟨-, -, hp, -, hac⟩ := deliverControl_run hq hd hw
  obtain ⟨hdem, hbis, hrest, p, o, hcon⟩ := control_bits u f.b hb
  obtain ⟨hwords, haclop, hout, hframe⟩ := delivered_stays hq hd hw (ungoverned_controlled u hb)
  have demand : ∀ g, (u.controlled f).inDemand g =
      demandAfter (fld f.b 1 4).toNat (controlBit f.b g) (g == s.cur) (s.inDemand g) := fun g => by
    rw [State.inDemand_of (controlled_pcr u f), inDemand_setBis, hdem, hp.cur, State.inDemand_of hp.pcr]
  refine ⟨u.controlled f, exec_mpc_functions ha hb hq hd hw, demand, fun g => ?_, fun n h1 h48 hn => ?_, fun hh => ?_,
    fun hh hl => ?_, hwords, fun e => ?_, fun g hg => ?_, hout, hframe⟩
  · rw [State.bis_of (controlled_pcr u f), bis_setBis, hbis, hp.cur, State.bis_of hp.pcr]
  · rw [controlled_pcr, bitAt_setBis _ _ _ ⟨h1, h48⟩ hn, hrest n ⟨h1, h48⟩ hn, hp.pcr]
  · unfold State.controlled
    rw [hh]; rfl
  · unfold State.controlled
    rw [hh, hl, hp.cur]; exact ⟨rfl, rfl⟩
  · refine ⟨(haclop e).1, (haclop e).2, fun hh => ?_⟩
    obtain ⟨-, -, h3, h4⟩ := hac e
    unfold State.controlled
    rw [hh, hcon]; exact ⟨h3, h4⟩
  · have hst : u.stallOrder = s.stallOrder := (congrArg State.stallOrder hp.outside :)
    rw [controlled_stallOrder, mem_stallOrder_control, demand, hg, hst, hp.cur]


/-- Settles O30: control passes from the caller to group `g`, which `controlTarget` makes another than the caller. -/
theorem controlHandOver : Obligations.ControlHandOver := by
  intro f s u words g ha hf hg h0 h2 hn hq hd hw hl
  obtain ⟨-, -, hp, -, -⟩ := deliverControl_run hq hd hw
  have hgc : g ≠ s.cur := by
    rcases controlTarget_eq hg with rfl | rfl
    · exact h0.symm
    · exact h2.symm
  obtain ⟨hwords, haclop, hout, hframe⟩ :=
    delivered_stays hq hd hw ((ungoverned_handed (u.handing f g) g).trans (ungoverned_handing u f g))
  have hst : u.stallOrder = s.stallOrder := (congrArg State.stallOrder hp.outside :)
  have hnow : (u.handing f g).handed g = (u.handing f g).givenTo g := handed_free (by rw [handing_limited, hl])
  have demand : ∀ h, ((u.handing f g).givenTo g).inDemand h =
      if h = s.cur then controlBit f.b h && s.inDemand h else if h = g then true else s.inDemand h := fun h => by
    rw [inDemand_givenTo, inDemand_handing (hp.cur ▸ hgc), hp.cur, State.inDemand_of hp.pcr]
  have bisequence : ∀ h, ((u.handing f g).givenTo g).bis h =
      if h = s.cur then (if controlBit f.b h then f.seq else s.bis h) else if h = g then false else s.bis h := fun h => by
    rw [bis_givenTo, bis_handing (hp.cur ▸ hgc), hp.cur, State.bis_of hp.pcr]
  rw [hnow] at hwords haclop hout hframe
  refine ⟨(u.handing f g).givenTo g, (exec_mpc_handOver ha hf hg h0 h2 hn hq hd hw).trans (congrArg _ hnow),
    State.cur_setCur _ g, ?_, ?_, rfl, ?_, ?_, fun h h1 h3 => ⟨?_, ?_⟩, fun n h1 h48 hr => ?_, hwords, haclop, rfl, fun h hh => ?_,
    hout, hframe⟩
  · rw [demand, if_neg hgc, if_pos rfl]
  · rw [bisequence, if_neg hgc, if_pos rfl]
  · rw [demand, if_pos rfl]
  · rw [bisequence, if_pos rfl]
  · rw [demand, if_neg h3, if_neg h1]
  · rw [bisequence, if_neg h3, if_neg h1]
  · rw [bitAt_givenTo _ _ ⟨h1, h48⟩ (by omega), bitAt_handing _ _ _ ⟨h1, h48⟩ (by omega), hp.pcr]
  · have hne : h ≠ g := fun e => by rw [e, hn] at hh; cases hh
    rw [stallOrder_givenTo, mem_stallOrder_handing, demand, hst, hp.cur, hh, if_neg hne]
    by_cases e : h = s.cur <;> simp [e]

/-- Settles O60: each clause is a branch of the selection or of the extraction, and what `extractionError` leaves is a control error stop or
the turning off of the group. -/
theorem selectionErrors : Obligations.SelectionErrors := by
  refine ⟨fun s q g c r h => ⟨fun hr => ?_, fun hbad hend hz => ?_⟩, fun s j hh he hg hl hj => ?_, fun s hh => ?_⟩
  · exact step_fatal h (by rwa [RegTag.fatal_iff, or_assoc])
  · have hf : ¬ (r.tag.fatal = true ∨ (r.sign = false ∧ r.addr = 0)) := by rw [RegTag.fatal_iff]; tauto
    refine ⟨fun hr => ?_, fun ht hx hw => ⟨fun hs => ?_, fun hs hb => ?_, fun i hs hb hd => ?_⟩, fun e ht hx hw hd => ?_⟩
    · exact stops_astray h hf (by rwa [RegTag.astray_iff, or_assoc])
    · rw [Ne, ← isSimulator_iff, Bool.not_eq_true] at hs
      simpa [hs] using stops_badWord h hf ht hx hw (by simp [hs])
    · rw [← isSimulator_iff] at hs
      simpa [hs] using stops_badWord h hf ht hx hw (by simp [hb])
    · exact step_badSimulator h hf ht hx hw ((isSimulator_iff _).mpr hs) hb hd
    · exact stops_unassigned h hf ht hx hw hd
  · have X := entering_extracts hh hl
    refine ⟨fun hx => stops_of_extractionError X ?_, fun hx hw => stops_of_extractionError X ?_⟩
    · rw [step_entry hh he hg hj, if_pos hx, Selection.outcome_next]
    · rw [step_entry hh he hg hj, if_neg (by simp [hx]), extract_bad X.noError hw (by simp [State.entering]), Selection.outcome_next]
      rfl
  · unfold step
    rw [if_pos hh]

/-- Settles O59: selection is the latch of the counter, which `State.Latched` describes, or the entering of the table; with no limited
error due nothing follows the instruction. -/
theorem stepRunsDecoded : Obligations.StepRunsDecoded := by
  refine ⟨fun s q g c r i h ht hz hx hw hd => ?_, fun s j i hh he hg hl hj hx hw hd => ?_⟩
  · have L := latched_latch h
    have X := L.extracts h.running h.noError
    refine ⟨(q.chosen g).latch c r, ?_, L.sel, L.ctl, L.byUtr, L.scan, L.cur, L.stalls, L.pcr, L.regs, reg_latch h ht hz, L.rest⟩
    rw [step_extract h (by simp [ht, RegTag.fatal, hz]) ht hx, extract_good X.noError hw, decoded_ok (by rwa [X.cfg]),
      Selection.outcome_run]
    exact runSelected_unlimited X.noError
  · rw [step_entry hh he hg hj, if_neg (by simp [hx]), extract_good (u := s.entering) hl hw, decoded_ok (u := s.entering) hd,
      Selection.outcome_run]
    exact runSelected_unlimited (u := s.entering) hl

end Sys2Proof.Settled
end

section
/-! SUPPORT. A buffer cycle as a whole (R410, R411, R412): the word moved, the counter stepped or replaced, the transfer ended by its last word; and
the cycles that fall before a memory cycle of the processor (R105, R106). -/
namespace Sys2Proof.Machine

/-! ### The end of a transfer (R412) -/

theorem State.xfer_setXfer_self (s : State) (d : Dir) (ch : BitVec 3) (x : Option Xfer) : (s.setXfer d ch x).xfer d ch = x := by
  rw [xfer_setXfer, if_pos ⟨rfl, rfl⟩]

theorem State.setXfer_xfer {s : State} {d : Dir} {ch : BitVec 3} {x : Option Xfer} (h : s.xfer d ch = x) : s.setXfer d ch x = s := by
  subst h
  simp [State.setXfer, State.xfer]

theorem State.xfer_of {s t : State} (h : t.xfers = s.xfers) (d : Dir) (ch : BitVec 3) : t.xfer d ch = s.xfer d ch := by
  simp only [State.xfer, h]

@[simp] theorem State.endTransfer_cfg (s : State) (d : Dir) (ch : BitVec 3) : (s.endTransfer d ch).cfg = s.cfg := by
  unfold State.endTransfer State.release State.setPcrBit State.setDemand State.setXfer
  with_reducible rfl

@[simp] theorem State.endTransfer_devs (s : State) (d : Dir) (ch : BitVec 3) : (s.endTransfer d ch).devs = s.devs := by
  unfold State.endTransfer State.release State.setPcrBit State.setDemand State.setXfer
  with_reducible rfl

theorem State.dev_endTransfer (s : State) (d e : Dir) (c ch dev : BitVec 3) : (s.endTransfer d c).dev e ch dev = s.dev e ch dev :=
  dev_of (State.endTransfer_devs s d c) (State.endTransfer_cfg s d c) e ch dev

theorem xfer_endTransfer_self (s : State) (d : Dir) (ch : BitVec 3) : (s.endTransfer d ch).xfer d ch = none :=
  (State.xfer_of (State.endTransfer_xfers s d ch) d ch).trans (State.xfer_setXfer_self s d ch none)

theorem interlock_endTransfer (s : State) (d : Dir) (ch : BitVec 3) : bitAt (s.endTransfer d ch).pcr (interlockBit d ch) = false := by
  obtain ⟨h9, h48, -⟩ := interlock_bounds d ch
  rw [State.endTransfer_pcr, bitAt_setBitAt _ _ (by omega) (by omega), if_pos rfl]

theorem stalls_endTransfer (s : State) (d : Dir) (ch : BitVec 3) (g : Fin 8) (h : s.stalls[g] = .io) :
    (s.endTransfer d ch).stalls[g] = .running := by
  have e : (s.endTransfer d ch).stalls = s.stalls.map fun x => match x with | .io => .running | y => y := rfl
  rw [e]
  simp_all

/-! ### The counter stepped (R24) -/

theorem reg_of_stepped {u t : State} {ch : BitVec 3} {i : BitVec 5} {r : SReg} (h : t.regs = (u.setReg ch i r).regs) :
    t.reg ch i = r ∧ ∀ g j, (g, j) ∉ [(ch, i)] → t.reg g j = u.reg g j := by
  refine ⟨(State.reg_of_regs h ch i).trans (State.reg_setReg_self u ch i r), fun g j hn => ?_⟩
  exact (State.reg_of_regs h g j).trans (State.reg_setReg_other u (by simpa using hn) r)

/-! ### Input (R410) -/

/-- The state in which an input cycle stores its word: the demand used up, the word taken from those to come. -/
def State.taken (s : State) (ch : BitVec 3) (x : Xfer) (rest : List MWord) : State :=
  { s with
    demands := (s.setDemand .input ch false).demands, xfers := (s.setXfer .input ch (some { x with todo := rest, first := false })).xfers }

theorem deliverInput_good {u : State} {ch : BitVec 3} {y : Xfer} (ht : (u.reg ch racIx).tag = .good)
    (he : u.exists? (u.reg ch racIx).full = true) (w : MWord) : u.deliverInput ch y w = u.storeInput ch y w := by
  unfold State.deliverInput
  rw [counterFails_good ht he]

/-- An input cycle takes a word, stores it, and ends the transfer if that was the last one. -/
theorem bufferCycle_input {s : State} {ch : BitVec 3} {x : Xfer} {w : MWord} {rest : List MWord} (hx : s.xfer .input ch = some x)
    (ht : (s.reg ch racIx).tag = .good) (he : s.exists? (s.reg ch racIx).full = true) (herr : x.err = false)
    (htodo : x.todo = w :: rest) (hb : MWord.bad w = false) :
    s.bufferCycle .input ch = ((s.taken ch x rest).storeInput ch { x with todo := rest, err := false } w).concludeInput ch := by
  have hgo : x.transmits w (Config.freeBool (s.setDemand .input ch false).free) = true := by
    unfold Xfer.transmits
    rw [herr, hb]
    simp
  have hdeliver := deliverInput_good (u := s.taken ch x rest) (y := { x with todo := rest, err := false }) ht he w
  unfold State.bufferCycle
  dsimp only
  rw [hx]
  dsimp only
  unfold State.inputCycle
  rw [htodo]
  dsimp only
  rw [if_pos hgo, takeWord_good _ _ _ _ hb, herr, hb, Bool.or_false, ← hdeliver]
  unfold State.taken
  rw [herr]
  rfl

/-- A word that ends no item is stored, and the counter stepped. -/
theorem storeInput_step {u : State} {ch : BitVec 3} {y : Xfer} {r : SReg} {w : MWord} (hr : u.reg ch racIx = r)
    (hrel : y.reloads .input w.bits = false) (ht : r.tag = .good) (hs : u.atStopper r = false)
    (hin : if r.sign then r.addr + 1 < 32768 else 0 < r.addr) :
    u.storeInput ch y w = (u.putWord r.full w).setReg ch racIx (r.withAddr (if r.sign then r.addr + 1 else r.addr - 1)) := by
  unfold State.storeInput
  rw [hr]
  exact (if_neg (Bool.eq_false_iff.mp hrel)).trans (stepBuffer_good hr ht hs hin)

theorem concludeInput_eq {t : State} {ch : BitVec 3} {y : Xfer} (h : t.xfer .input ch = some y) (hf : y.first = false) :
    t.concludeInput ch = if y.todo = [] then t.endTransfer .input ch else t := by
  have hy : { y with first := false } = y := by rw [← hf]
  unfold State.concludeInput
  rw [h]
  dsimp only
  rw [hy, State.setXfer_xfer h]
  simp only [List.isEmpty_iff]

/-- What an input cycle leaves that has stored its word at `a`: of the state `m` then, the registers are what its counters made them. -/
theorem concludeInput_stored {s m t : State} {ch : BitVec 3} {x : Xfer} {w : MWord} {rest : List MWord} {a : Nat} (hw : s.mem.wf = true)
    (hm : m = { (s.taken ch x rest).putWord a w with regs := m.regs, free := m.free }) (ht : t = m.concludeInput ch) :
    t.regs = m.regs ∧ t.holds (.mem a) w ∧ (∀ k, k / 8 ∉ [a] → t.mem.byte k = s.mem.byte k) ∧
      (rest ≠ [] → t.xfer .input ch = some { x with todo := rest, first := false } ∧ t.pcr = s.pcr) ∧
      (rest = [] → t.xfer .input ch = none ∧ bitAt t.pcr (interlockBit .input ch) = false ∧
        ∀ g : Fin 8, s.stalls[g] = .io → t.stalls[g] = .running) := by
  generalize m.regs = R, m.free = n at hm ⊢
  have hx : m.xfer .input ch = some { x with todo := rest, first := false } := by
    rw [hm]
    exact State.xfer_setXfer_self _ _ _ _
  have hword : s.reserved a = false → (s.putWord a w).mem.word a = w := fun h => State.word_putWord_self hw h w
  have hbyte : ∀ k, k / 8 ∉ [a] → (s.putWord a w).mem.byte k = s.mem.byte k := fun k h =>
    State.byte_putWord_other s (by simpa using h) w
  rw [concludeInput_eq hx rfl] at ht
  by_cases hrest : rest = []
  · rw [if_pos hrest] at ht
    subst ht hm
    exact ⟨rfl, hword, hbyte, fun h => absurd hrest h, fun _ => ⟨xfer_endTransfer_self _ _ _, interlock_endTransfer _ _ _,
      fun g h => stalls_endTransfer _ _ _ g h⟩⟩
  · rw [if_neg hrest] at ht
    subst ht hm
    exact ⟨rfl, hword, hbyte, fun _ => ⟨hx, rfl⟩, fun h => absurd h hrest⟩

/-! ### Output to a tape (R411) -/

/-- A transfer to a tape after one more word. -/
def Xfer.sending (x : Xfer) (w : MWord) : Xfer :=
  { x with first := false, sent := w :: x.sent, count := if x.first then none else x.count.map (· - 1) }

/-- The state in which an output cycle has sent its word: the demand used up, the word one of those sent. -/
def State.sending (s : State) (ch : BitVec 3) (x : Xfer) (w : MWord) : State :=
  { s with
    demands := (s.setDemand .output ch false).demands, xfers := (s.setXfer .output ch (some (x.sending w))).xfers, free := s.free + 2 }

theorem sending_uncounted {x : Xfer} (hc : x.count = none) (w : MWord) : x.sending w = { x with first := false, sent := w :: x.sent } := by
  unfold Xfer.sending
  rw [hc, Option.map_none, ite_self]

theorem ends_sending {x : Xfer} (hk : x.kind = .tape) (w : MWord) (enough : Bool) :
    (x.sending w).ends w.bits enough = (isEor w.bits || (x.sending w).count == some 0) := by
  have hkind : (x.sending w).kind = .tape := hk
  unfold Xfer.ends
  rw [hkind]
  simp

/-- What sending a word makes of the transfer: a tape takes words without a count (R432). -/
theorem sending_tape {x : Xfer} {w : MWord} (hk : x.kind = .tape) (hb : MWord.bad w = false) (either : Bool) :
    { x with first := false, sent := w :: x.sent, count := countAfter x w.bits either, err := x.err || MWord.bad w } = x.sending w := by
  have hcount : countAfter x w.bits either = if x.first then none else x.count.map (· - 1) := by
    unfold countAfter
    rw [hk]
    split <;> rfl
  rw [hcount, hb, Bool.or_false]
  rfl

/-- An output cycle steps the counter, sends the word, changes the item and ends the transfer as the word says. -/
theorem bufferCycle_output {s : State} {ch : BitVec 3} {x : Xfer} {w : MWord} {q : SReg} {n : Nat} (hx : s.xfer .output ch = some x)
    (ht : (s.reg ch wacIx).tag = .good) (he : s.exists? (s.reg ch wacIx).full = true) (hw : s.mem.word (s.reg ch wacIx).full = w)
    (hk : x.kind = .tape) (hb : MWord.bad w = false)
    (hq : (s.setDemand .output ch false).stepBuffer ch wacIx = ({ s.setDemand .output ch false with free := n } : State).setReg ch wacIx q) :
    s.bufferCycle .output ch =
      (((s.sending ch x w).setReg ch wacIx q).itemSent ch (x.sending w) w.bits).concludeOutput ch w.bits
        (Config.freeBool (s.free + 1)) := by
  have hgood := counterFails_good (s := s.setDemand .output ch false) (d := .output) (ch := ch) (x := x)
    (r := (s.setDemand .output ch false).reg ch wacIx) ht he
  unfold State.bufferCycle
  dsimp only
  rw [hx]
  dsimp only
  unfold State.outputCycle
  rw [hgood]
  change (s.setDemand .output ch false).sendWord ch x (s.mem.word (s.reg ch wacIx).full) = _
  rw [hw]
  unfold State.sendWord
  dsimp only
  rw [hq, sending_tape hk hb, hb, if_neg (by decide)]
  rfl

/-- The end-of-record word takes no table word on output (D41). -/
theorem isEor_of_reloads {x : Xfer} {w : Word} (h : x.reloads .output w = true) : isEor w = false := by
  simp only [Xfer.reloads, Bool.and_eq_true, Bool.not_eq_true'] at h
  exact h.2

theorem itemSent_keeps {u : State} {ch : BitVec 3} {y : Xfer} {w : Word} (h : y.reloads .output w = false) : u.itemSent ch y w = u := by
  unfold State.itemSent
  exact if_neg (Bool.eq_false_iff.mp h)

theorem itemSent_reloads {u : State} {ch : BitVec 3} {y : Xfer} {w : Word} (h : y.reloads .output w = true) :
    u.itemSent ch y w = u.tableCycle .output ch y := by
  unfold State.itemSent
  exact if_pos h

/-- The word that ends an item sent, and the counter, which the step has left as `z`, replaced (R411). -/
theorem itemSent_sending {s : State} {ch : BitVec 3} {x : Xfer} {w v : MWord} {q : SReg} (z : SReg) (hrel : x.reloads .output w.bits = true)
    (hq : s.reg ch dwacIx = q) (ht : q.tag = .good) (he : s.exists? q.full = true) (hs : s.atStopper q = false)
    (hin : if q.sign then q.addr + 1 < 32768 else 0 < q.addr) (hv : s.mem.word q.full = v) (hb : MWord.bad v = false) :
    ∃ m, ((s.sending ch x w).setReg ch wacIx z).itemSent ch (x.sending w) w.bits = m ∧ m.reg ch wacIx = s.tableReg v.bits ∧
      m.reg ch dwacIx = q.withAddr (if q.sign then q.addr + 1 else q.addr - 1) ∧
      (∀ g j, (g, j) ∉ [(ch, wacIx), (ch, dwacIx)] → m.reg g j = s.reg g j) ∧ m = { s.sending ch x w with regs := m.regs } := by
  have hother : ∀ g j, ¬ (g = ch ∧ j = wacIx) → ((s.sending ch x w).setReg ch wacIx z).reg g j = s.reg g j :=
    fun g j hn => State.reg_setReg_other (s.sending ch x w) hn z
  obtain ⟨m, htable, hwac, hdwac, hothers, R, hm⟩ := reloaded_fields (u := (s.sending ch x w).setReg ch wacIx z) (d := .output)
    (y := x.sending w) ((hother ch dwacIx fun h => absurd h.2 (by decide)).trans hq) ht he hs hin hv hb
  refine ⟨m, (itemSent_reloads (y := x.sending w) hrel).trans htable, hwac, hdwac, fun g j hn => ?_, by rw [hm]; rfl⟩
  refine (hothers g j hn).trans (hother g j ?_)
  rintro ⟨rfl, rfl⟩
  exact hn (by simp)

theorem concludeOutput_eq {t : State} {ch : BitVec 3} {y : Xfer} (h : t.xfer .output ch = some y) (w : Word) (enough : Bool) :
    t.concludeOutput ch w enough = if y.ends w enough = true then t.endOutput ch y y.sent.reverse else t := by
  unfold State.concludeOutput
  rw [h]

@[simp] theorem State.regs_endOutput (s : State) (ch : BitVec 3) (x : Xfer) (r : Record) : (s.endOutput ch x r).regs = s.regs := by
  unfold State.endOutput
  rw [State.endTransfer_regs]
  rfl

@[simp] theorem State.mem_endOutput (s : State) (ch : BitVec 3) (x : Xfer) (r : Record) : (s.endOutput ch x r).mem = s.mem := by
  unfold State.endOutput
  rw [State.endTransfer_mem]
  rfl

theorem xfer_endOutput (s : State) (ch : BitVec 3) (x : Xfer) (r : Record) : (s.endOutput ch x r).xfer .output ch = none := by
  unfold State.endOutput
  exact xfer_endTransfer_self _ _ _

theorem interlock_endOutput (s : State) (ch : BitVec 3) (x : Xfer) (r : Record) :
    bitAt (s.endOutput ch x r).pcr (interlockBit .output ch) = false := by
  unfold State.endOutput
  exact interlock_endTransfer _ _ _

theorem stalls_endOutput (s : State) (ch : BitVec 3) (x : Xfer) (r : Record) (g : Fin 8) (h : s.stalls[g] = .io) :
    (s.endOutput ch x r).stalls[g] = .running := by
  unfold State.endOutput
  exact stalls_endTransfer _ _ _ g h

/-- The tape holds the record its transfer ends with (R432). -/
theorem before_endOutput {t : State} {ch : BitVec 3} {y : Xfer} (r : Record) (hk : y.kind = .tape) (hp : (t.dev .output ch y.dev).protect = false) :
    ((t.endOutput ch y r).dev .output ch y.dev).before = r :: (t.dev .output ch y.dev).before := by
  unfold State.endOutput
  rw [State.dev_endTransfer]
  unfold State.modifyDev
  rw [dev_setDev_self]
  change ((t.dev .output ch y.dev).finish y r t.free).before = _
  unfold Device.finish Device.recorded
  rw [hk]
  dsimp only
  rw [hp, if_neg (by decide)]

/-- What an output cycle leaves that has sent its word to a tape: of the state `m` then, the registers are what its counters made them. -/
theorem concludeOutput_sent {s m t : State} {ch : BitVec 3} {x : Xfer} {w : MWord} {enough : Bool} (hk : x.kind = .tape)
    (hm : m = { s.sending ch x w with regs := m.regs }) (ht : t = m.concludeOutput ch w.bits enough) :
    t.regs = m.regs ∧ t.mem = s.mem ∧
      (isEor w.bits = false → x.count = none →
        t.xfer .output ch = some { x with first := false, sent := w :: x.sent } ∧ t.pcr = s.pcr) ∧
      (isEor w.bits = true → (s.dev .output ch x.dev).protect = false →
        t.xfer .output ch = none ∧ bitAt t.pcr (interlockBit .output ch) = false ∧
        (t.dev .output ch x.dev).before = (w :: x.sent).reverse :: (s.dev .output ch x.dev).before ∧
        ∀ g : Fin 8, s.stalls[g] = .io → t.stalls[g] = .running) := by
  generalize m.regs = R at hm ⊢
  have hx : m.xfer .output ch = some (x.sending w) := by
    rw [hm]
    exact State.xfer_setXfer_self _ _ _ _
  rw [concludeOutput_eq hx, ends_sending hk] at ht
  by_cases hend : (isEor w.bits || (x.sending w).count == some 0) = true
  · rw [if_pos hend] at ht
    subst ht hm
    have hbefore := before_endOutput (t := { s.sending ch x w with regs := R }) (ch := ch) (y := x.sending w) (x.sending w).sent.reverse hk
    refine ⟨State.regs_endOutput _ _ _ _, State.mem_endOutput _ _ _ _, fun heor hc => ?_, fun _ hp => ⟨xfer_endOutput _ _ _ _,
      interlock_endOutput _ _ _ _, hbefore hp, fun g h => stalls_endOutput _ _ _ _ g h⟩⟩
    rw [heor, sending_uncounted hc, hc] at hend
    exact absurd hend (by decide)
  · rw [if_neg hend] at ht
    subst ht hm
    refine ⟨rfl, rfl, fun _ hc => ⟨?_, rfl⟩, fun heor => absurd (by rw [heor]; rfl) hend⟩
    rw [hx, sending_uncounted hc]

/-! ### Cycles before a memory cycle of the processor (R105, R106) -/

/-- A demand served, then the processor's own cycle: the channel has the first. -/
theorem serve_once {s : State} {p : Dir × BitVec 3} (n : Nat) (hh : s.halted = false) (hp : s.within.grant = some p)
    (hu : (s.within.bufferCycle p.1 p.2).halted = false) (hg : (s.within.bufferCycle p.1 p.2).within.grant = none) :
    State.serve (n + 2) s = (s.within.bufferCycle p.1 p.2).within := by
  have hcpu : State.serve (n + 1) (s.within.bufferCycle p.1 p.2) = (s.within.bufferCycle p.1 p.2).within := by
    unfold State.serve
    rw [if_neg (by simp [hu]), hg]
  unfold State.serve
  rw [if_neg (by simp [hh]), hp]
  exact hcpu

theorem tick_served {s u : State} (he : s.env ≠ []) (hs : s.serve s.scans = u) (hh : u.halted = false) : tick s = .ok ((), u) := by
  unfold tick
  rw [if_neg he, hs, if_neg (by simp [hh])]

theorem memRead_ticked {s u : State} {a : Nat} (h : tick s = .ok ((), u)) (he : u.exists? a = true) :
    memRead a s = .ok (u.mem.word a, u) := by
  unfold memRead
  rw [Op.bind_ok h, Op.bind_ok (Op.get_run u), if_pos he]
  rfl

theorem memWrite_ticked {s u : State} {a : Nat} (h : tick s = .ok ((), u)) (ha : u.admits (.mem a)) (v : MWord) :
    memWrite a v s = .ok ((), u.putWord a v) := by
  obtain ⟨he, hb⟩ := ha
  unfold memWrite
  rw [Op.bind_ok h, Op.bind_ok (Op.get_run u), if_neg (by simp [he]), if_neg (by simp [hb])]
  rfl

end Sys2Proof.Machine
end

section
/-! PROOFS. The statement about the cycles of the channels. -/
namespace Sys2Proof.Settled
open Sys2Proof.Machine

/-- Settles O42: a cycle that moves a word is `bufferCycle_input` or `bufferCycle_output`; what it leaves follows from the registers its counter
step, or its item change, has left. -/
theorem bufferCycles : Obligations.BufferCycles := by
  refine ⟨fun s d ch x r w hw hx hr ht he hb hs hin hrel => ⟨fun hd herr rest htodo => ?_, fun hd hk hword => ?_⟩,
    fun s d ch x r q w v hw hx hr ht he hb hrel hq hqt hqe hqs hqin hv =>
      ⟨(tableReg_fields s v.bits).1, (tableReg_fields s v.bits).2, fun hd herr hvw rest htodo => ?_, fun hd hk hc hword hvw => ?_⟩,
    fun s u e rest p hh henv hp hu hhu hg hhw => ?_⟩
  · subst hd hr
    have hstore := storeInput_step (u := s.taken ch x rest) (y := { x with todo := rest, err := false }) rfl hrel ht hs hin
    have hcycle := bufferCycle_input hx ht he herr htodo hb
    rw [hstore] at hcycle
    obtain ⟨hregs, hholds, hbytes, hmore, hlast⟩ := concludeInput_stored hw (by rfl) hcycle
    obtain ⟨hself, hothers⟩ := reg_of_stepped hregs
    exact ⟨hholds, hself, ⟨hothers, hbytes⟩, hmore, hlast⟩
  · subst hd hr
    have hcycle := bufferCycle_output (n := s.free) hx ht he hword hk hb (stepBuffer_good rfl ht hs hin)
    rw [itemSent_keeps (y := x.sending w) hrel] at hcycle
    obtain ⟨hregs, hmem, hmore, hlast⟩ := concludeOutput_sent hk (by rfl) hcycle
    obtain ⟨hself, hothers⟩ := reg_of_stepped hregs
    exact ⟨hself, ⟨hothers, fun n _ => by rw [hmem]⟩, hmore, fun heor _ hp => hlast heor hp⟩
  · subst hd hr hq
    obtain ⟨m, hstore, hrac, hdrac, hothers, R, n, hm⟩ := storeInput_reload (u := s.taken ch x rest)
      (y := { x with todo := rest, err := false }) rfl rfl hrel hqt hqe hqs hqin hvw.symm hv
    have hcycle := bufferCycle_input hx ht he herr htodo hb
    rw [hstore] at hcycle
    obtain ⟨hregs, hholds, hbytes, hmore, hlast⟩ := concludeInput_stored hw (by rw [hm]) hcycle
    have hreg := State.reg_of_regs hregs
    exact ⟨hholds, (hreg _ _).trans hrac, (hreg _ _).trans hdrac, ⟨fun g i hn => (hreg g i).trans (hothers g i hn), hbytes⟩, hmore,
      fun e => ⟨(hlast e).1, (hlast e).2.1⟩⟩
  · subst hd hr hq
    obtain ⟨z, n, hz⟩ := stepBuffer_eq (s.setDemand .output ch false) ch wacIx
    obtain ⟨m, hsent, hwac, hdwac, hothers, hm⟩ := itemSent_sending z hrel rfl hqt hqe hqs hqin hvw.symm hv
    have hcycle := bufferCycle_output hx ht he hword hk hb hz
    rw [hsent] at hcycle
    obtain ⟨hregs, hmem, hmore, -⟩ := concludeOutput_sent hk hm hcycle
    have hreg := State.reg_of_regs hregs
    exact ⟨(hreg _ _).trans hwac, (hreg _ _).trans hdwac, ⟨fun g i hn => (hreg g i).trans (hothers g i hn), fun k _ => by rw [hmem]⟩,
      hmore (isEor_of_reloads hrel) hc⟩
  · subst hu
    have hserve := serve_once (s.env.length + 15) hh hp hhu hg
    have htick := tick_served (by simp [henv]) hserve hhw
    exact ⟨fun a ha => memRead_ticked htick ha, fun a v ha => memWrite_ticked htick ha v⟩

end Sys2Proof.Settled
end

section
/-! SUPPORT. The encoder and the decoder together, layout by layout: a layout's word is decoded to the instruction it encodes, and the
instruction a code reads from a word is encoded as that word. -/
namespace Sys2Proof

/-! ### Print words (R137) -/

theorem wellFormed_pro_iff (f : Prt) :
    WellFormed (.pro f) = true ↔ printMode f.b = 0b01#2 ∨ printMode f.b = 0b00#2 := by
  simp only [WellFormed, Bool.or_eq_true, beq_iff_eq]

theorem decodePrint_pra {w : Word} (h : WellFormed (.pra (prtOf w)) = true) : decodePrint w = .pra (prtOf w) := by
  have hmode : printMode (fld w 25 36) = 0b10#2 := beq_iff_eq.mp h
  unfold decodePrint
  rw [hmode]; rfl

theorem decodePrint_prd {w : Word} (h : WellFormed (.prd (prtOf w)) = true) : decodePrint w = .prd (prtOf w) := by
  have hmode : printMode (fld w 25 36) = 0b11#2 := beq_iff_eq.mp h
  unfold decodePrint
  rw [hmode]; rfl

theorem decodePrint_pro {w : Word} (h : WellFormed (.pro (prtOf w)) = true) : decodePrint w = .pro (prtOf w) := by
  have hmode : printMode (fld w 25 36) = 0b01#2 ∨ printMode (fld w 25 36) = 0b00#2 := (wellFormed_pro_iff (prtOf w)).mp h
  unfold decodePrint
  obtain hmode | hmode := hmode
  · rw [hmode]; rfl
  · rw [hmode]; rfl

/-- The four modes share out the print words among the three names (R461 to R463, log 13). -/
theorem decodePrint_cases (w : Word) :
    (decodePrint w = .pra (prtOf w) ∨ decodePrint w = .prd (prtOf w) ∨ decodePrint w = .pro (prtOf w)) ∧
      WellFormed (decodePrint w) = true := by
  have hmodes : ∀ b : BitVec 2, b = 0b10#2 ∨ b = 0b11#2 ∨ b = 0b01#2 ∨ b = 0b00#2 := by decide
  obtain hmode | hmode | hmode := hmodes (printMode (fld w 25 36))
  · have h : WellFormed (.pra (prtOf w)) = true := beq_iff_eq.mpr hmode
    rw [decodePrint_pra h]; exact ⟨.inl rfl, h⟩
  · have h : WellFormed (.prd (prtOf w)) = true := beq_iff_eq.mpr hmode
    rw [decodePrint_prd h]; exact ⟨.inr (.inl rfl), h⟩
  · have h : WellFormed (.pro (prtOf w)) = true := (wellFormed_pro_iff (prtOf w)).mpr hmode
    rw [decodePrint_pro h]; exact ⟨.inr (.inr rfl), h⟩

theorem encode_decodePrint (m : OpMap) (w : Word) :
    encode m (decodePrint w) = encodePrt (m.sixCode .print).toNat (prtOf w) := by
  obtain ⟨e | e | e, -⟩ := decodePrint_cases w <;> rw [e] <;> rfl

/-! ### The word of a layout, decoded -/

section
variable {m : OpMap} (h : m.wf = true)
include h

theorem decode_general {o : EightOp} {k : Gen → Instr} (hk : ∀ w, o.read w = k (genOf w)) (f : Gen) :
    decode m (m.general o f) = .ok (k f) := by
  obtain ⟨hhi, hop⟩ := m.eight_lt o
  obtain ⟨h7, h2, -⟩ := encodeGen_code hhi hop f
  unfold OpMap.general
  rw [decode_eight h h2 h7, hk, genOf_encodeGen hhi hop]

theorem decode_field {o : SixOp} {k : Fld → Instr} (hk : ∀ w, o.read w = k (fldOf w)) (f : Fld) :
    decode m (m.field o f) = .ok (k f) := by
  unfold OpMap.field
  rw [decode_six h (encodeFld_code (m.six_lt o) f).1, hk, fldOf_encodeFld (m.six_lt o)]

theorem decode_peripheral {o : SixOp} {k : Per → Instr} (hk : ∀ w, o.read w = k (perOf w)) (f : Per) :
    decode m (m.peripheral o f) = .ok (k f) := by
  unfold OpMap.peripheral
  rw [decode_six h (encodePer_code (m.six_lt o) f).1, hk, perOf_encodePer (m.six_lt o)]

/-- A print word is decoded to the one of PRA, PRD and PRO that is well-formed with its mode bits. -/
theorem decode_encodePrt {k : Prt → Instr} {f : Prt} (hf : WellFormed (k f) = true)
    (hk : ∀ w, WellFormed (k (prtOf w)) = true → decodePrint w = k (prtOf w)) :
    decode m (encodePrt (m.sixCode .print).toNat f) = .ok (k f) := by
  have e := prtOf_encodePrt (m.six_lt .print) f
  have hread := hk (encodePrt (m.sixCode .print).toNat f)
  rw [e] at hread
  rw [decode_six h (encodePrt_code (m.six_lt .print) f).1]
  exact congrArg Except.ok (hread hf)

end

theorem decode_simulator {m : OpMap} {w : Word} (h : fld w 10 12 = 0b111#3) :
    decode m w = .ok (if bitAt w 1 then .sIdx (simOf w) else .sDir (simOf w)) := by
  unfold decode
  rw [if_pos h]

theorem decode_encodeSim (m : OpMap) (x : Bool) (f : Sim) :
    decode m (encodeSim x f) = .ok (if x then .sIdx f else .sDir f) := by
  obtain ⟨hf, hx, h7⟩ := simOf_encodeSim x f
  rw [decode_simulator h7, hf, hx]

/-! ### A word that is decoded -/

/-- What the decoder can answer (R132). -/
theorem decode_cases {m : OpMap} {w : Word} {i : Instr} (h : decode m w = .ok i) :
    (fld w 10 12 = 0b111#3 ∧ i = if bitAt w 1 then .sIdx (simOf w) else .sDir (simOf w)) ∨
    (∃ o, m.sixOp (fld w 7 12) = some o ∧ i = o.read w) ∨
    (∃ o, m.eightOp (eightBits w) = some o ∧ i = o.read w) := by
  unfold decode at h
  split at h
  next h7 => exact .inl ⟨h7, (Except.ok.inj h).symm⟩
  next =>
    split at h
    next o ho => exact .inr (.inl ⟨o, ho, (Except.ok.inj h).symm⟩)
    next =>
      split at h
      next o ho => exact .inr (.inr ⟨o, ho, (Except.ok.inj h).symm⟩)
      next => contradiction

theorem eightBits_toNat (w : Word) :
    (eightBits w).toNat / 64 = (fld w 2 3).toNat ∧ (eightBits w).toNat % 64 = (fld w 7 12).toNat := by
  have hhi : (fld w 2 3).toNat < 4 := (fld w 2 3).isLt
  have hop : (fld w 7 12).toNat < 64 := (fld w 7 12).isLt
  unfold eightBits
  rw [BitVec.toNat_ofNat]
  omega

section
variable {m : OpMap} {w : Word}

theorem general_genOf {o : EightOp} (e : m.eightCode o = eightBits w) : m.general o (genOf w) = w := by
  obtain ⟨hhi, hop⟩ := eightBits_toNat w
  unfold OpMap.general
  rw [e, hhi, hop, encodeGen_genOf]

theorem field_fldOf {o : SixOp} (e : m.sixCode o = fld w 7 12) : m.field o (fldOf w) = w := by
  unfold OpMap.field
  rw [e, encodeFld_fldOf]

theorem peripheral_perOf {o : SixOp} (e : m.sixCode o = fld w 7 12) : m.peripheral o (perOf w) = w := by
  unfold OpMap.peripheral
  rw [e, encodePer_perOf]

/-- The word of an operation of table `EIGHT`; the fields of MPC and PR are those of the general layout under other names. -/
theorem encode_readEight {o : EightOp} (e : m.eightCode o = eightBits w) : encode m (o.read w) = w := by
  cases o <;> exact general_genOf e

theorem encode_readSix {o : SixOp} (e : m.sixCode o = fld w 7 12) : encode m (o.read w) = w := by
  cases o with
  | ba | da | wa | bs | ds | wd | na | nn | la | ln | tx | ts | ha | sm | cp => exact field_fldOf e
  | rf | rb | wf | rw => exact peripheral_perOf e
  | print => exact (encode_decodePrint m w).trans (by rw [e, encodePrt_prtOf])

theorem wellFormed_readEight (o : EightOp) (w : Word) : WellFormed (o.read w) = true := by
  cases o <;> rfl

theorem wellFormed_readSix (o : SixOp) (w : Word) : WellFormed (o.read w) = true := by
  cases o with
  | print => exact (decodePrint_cases w).2
  | _ => rfl

end

end Sys2Proof
end

section
/-! PROOFS. The statements about the encoder and the decoder. -/
namespace Sys2Proof.Settled

/-- Settles O53: the instructions by their layouts, whose fields and operation code the decoder finds where the encoder has put them. -/
theorem decodeEncode : Obligations.DecodeEncode := by
  intro m i hm hi
  cases i with
  | ba f | da f | wa f | bs f | ds f | wd f | na f | nn f | la f | ln f | tx f | ts f | ha f | sm f | cp f | bm f | dm f | bt f | dt f
  | mt f | tn f | cc f | it f | eba f | ebs f | rt f | sws f | sps f | swe f | spe f | ssl f | ss f | ex f | fba f | fda f | fbs f | fds f
  | fbd f | fdd f | fbau f | fdau f | fbsu f | fdsu f | fbm f | fdm f | uld f | fbae f | fbse f | bd f | dd f | ffn f | fcon f | fln f
  | fnn f => exact decode_general hm (fun _ => rfl) f
  | mpc f =>
    exact decode_general hm (o := .mpc) (k := fun g => .mpc ⟨g.seq, g.dA, g.dB, g.dC, g.a, g.b, g.c⟩) (fun _ => rfl) _
  | pr f =>
    exact decode_general hm (o := .pr) (k := fun g => .pr ⟨g.seq, g.dA, g.dB, g.dC, g.a, g.b, g.c⟩) (fun _ => rfl) _
  | baM f | daM f | waM f | bsM f | dsM f | wdM f | naM f | nnM f | laM f | lnM f | txM f | tsM f | haM f | smM f | cpM f =>
    exact decode_field hm (fun _ => rfl) f
  | rf f | rb f | wf f | rw f => exact decode_peripheral hm (fun _ => rfl) f
  | pra f => exact decode_encodePrt hm hi fun _ => decodePrint_pra
  | prd f => exact decode_encodePrt hm hi fun _ => decodePrint_prd
  | pro f => exact decode_encodePrt hm hi fun _ => decodePrint_pro
  | sDir f => exact decode_encodeSim m false f
  | sIdx f => exact decode_encodeSim m true f

/-- Settles O54: by the three places of the decode order; in a well-formed map the operation a code names has that code. -/
theorem encodeDecode : Obligations.EncodeDecode := by
  intro m w i hm h
  obtain ⟨h7, rfl⟩ | ⟨o, ho, rfl⟩ | ⟨o, ho, rfl⟩ := decode_cases h
  · have e := encodeSim_simOf w h7
    cases hx : bitAt w 1 <;> rw [hx] at e <;> exact ⟨e, rfl⟩
  · exact ⟨encode_readSix (OpMap.sixCode_of hm ho), wellFormed_readSix o w⟩
  · exact ⟨encode_readEight (OpMap.eightCode_of hm ho), wellFormed_readEight o w⟩

/-- Settles O55: each word is evaluated by the decoder with the default map. -/
theorem decodeWords : Obligations.DecodeWords :=
  ⟨rfl, rfl, rfl, rfl, rfl, rfl, rfl, rfl, rfl, rfl, rfl, rfl, rfl, rfl⟩

end Sys2Proof.Settled
end

section
/-! SUPPORT. Address groups located (R182 to R184, R190 to R194): the register an indexed address forms, and what a programmed increment leaves. -/
namespace Sys2Proof.Machine

/-! ### Fields of a register made of its parts -/

/-- Group, subaddress, increment and tabular bit of a special register address held as a number (R192, R193). -/
theorem SReg.mk'_fields (a s : Bool) {n : Nat} (hn : n < 32768) :
    fld (SReg.mk' a s n).bits 3 5 = BitVec.ofNat 3 (n / 2048) ∧ fld (SReg.mk' a s n).bits 12 16 = BitVec.ofNat 5 n ∧
    fld (SReg.mk' a s n).bits 6 10 = BitVec.ofNat 5 (n / 64) ∧ bitAt (SReg.mk' a s n).bits 11 = decide (n / 32 % 2 = 1) := by
  have hs := Bool.toNat_lt s
  have hb : (SReg.mk' a s n).bits.toNat = s.toNat * 32768 + n := by
    unfold SReg.mk'
    rw [BitVec.toNat_ofNat]; omega
  refine ⟨BitVec.eq_of_toNat_eq ?_, BitVec.eq_of_toNat_eq ?_, BitVec.eq_of_toNat_eq ?_, ?_⟩
  · rw [toNat_fld, hb, BitVec.toNat_ofNat]; omega
  · rw [toNat_fld, hb, BitVec.toNat_ofNat]; omega
  · rw [toNat_fld, hb, BitVec.toNat_ofNat]; omega
  · rw [bitAt_toNat, hb, decide_eq_decide]; omega

/-- The augmented index register, by its sign (R184). -/
theorem augment_fst (r : SReg) (k : Nat) :
    (augment r k).1 = SReg.mk' r.arr r.sign (if r.sign then r.addr + k else r.addr + 32768 - k) := by
  unfold augment SReg.withAddr
  split <;> rfl

theorem augment_up {r : SReg} {k : Nat} (hs : r.sign = true) (h : r.addr + k < 32768) :
    augment r k = (SReg.mk' r.arr true (r.addr + k), true) := by
  unfold augment SReg.withAddr
  rw [hs, if_pos rfl, decide_eq_true h]

theorem augment_down {r : SReg} {k : Nat} (hs : r.sign = false) (h : k ≤ r.addr) :
    augment r k = (SReg.mk' r.arr false (r.addr - k), true) := by
  have hmod : (r.addr + 32768 - k) % 32768 = (r.addr - k) % 32768 := by omega
  unfold augment SReg.withAddr
  rw [hs, if_neg (by decide), decide_eq_true h, ← SReg.mk'_mod, hmod, SReg.mk'_mod]

/-! ### Programmed increments (R26, R91, R194, R664) -/

theorem State.setReg_reg (s : State) (h : BitVec 3) (i : BitVec 5) : s.setReg h i (s.reg h i) = s := by
  unfold State.setReg State.reg
  rw [Vector.set_getElem_self]

/-- A zero increment, and the stopper and the boundary (R91, R662), leave a register as it is. -/
theorem stepProgrammed_stays {s : State} {r : SReg} {k : Nat} (h : k = 0 ∨ s.atStopper r = true) :
    stepProgrammed r k s = .ok (r, s) := by
  unfold stepProgrammed
  rw [Op.bind_ok (Op.get_run s), if_pos]
  · rfl
  · simpa [State.atStopper] using h

theorem stepProgrammed_moves {s : State} {r : SReg} {k : Nat} (hk : k ≠ 0) (h : s.atStopper r = false) :
    stepProgrammed r k s = stepBy r k s := by
  unfold stepProgrammed
  rw [Op.bind_ok (Op.get_run s), if_neg]
  simpa [State.atStopper, hk] using h

theorem stepBy_up {s : State} {r : SReg} {k : Nat} (hs : r.sign = true) (h : r.addr + k < 32768) :
    stepBy r k s = .ok (SReg.mk' r.arr true (r.addr + k), s) := by
  unfold stepBy SReg.withAddr
  rw [hs, if_pos rfl, if_pos h]; rfl

theorem stepBy_down {s : State} {r : SReg} {k : Nat} (hs : r.sign = false) (h : k ≤ r.addr) :
    stepBy r k s = .ok (SReg.mk' r.arr false (r.addr - k), s) := by
  unfold stepBy SReg.withAddr
  rw [hs, if_neg (by decide), if_pos h]; rfl

theorem stepRegister_barred {s : State} {h : BitVec 3} {i : BitVec 5} (hb : s.barsReg h i = true) (inc : BitVec 5) :
    stepRegister h i inc s = .ok ((), s) := by
  unfold stepRegister
  rw [Op.bind_ok (Op.get_run s), if_pos hb]; rfl

theorem stepRegister_unbarred {s : State} {h : BitVec 3} {i inc : BitVec 5} {r : SReg} (hb : s.barsReg h i = false)
    (hr : stepProgrammed (s.reg h i) inc.toNat s = .ok (r, s)) : stepRegister h i inc s = .ok ((), s.setReg h i r) := by
  unfold stepRegister
  rw [Op.bind_ok (Op.get_run s), if_neg (by rw [hb]; decide), Op.bind_ok hr]; rfl

/-- `State.Increments` says what a programmed increment answers. -/
theorem stepRegister_increments {s t : State} {h : BitVec 3} {i inc : BitVec 5} (hi : s.Increments h i inc.toNat t) :
    stepRegister h i inc s = .ok ((), t) := by
  cases hb : s.barsReg h i with
  | true =>
    obtain ⟨-, rfl⟩ | ⟨-, -, hfree, -⟩ := hi
    · exact stepRegister_barred hb inc
    · rw [hb] at hfree; cases hfree
  | false =>
    obtain ⟨hstay, rfl⟩ | ⟨hk, hst, -, ⟨hs, hin, rfl⟩ | ⟨hs, hin, rfl⟩⟩ := hi
    · have hk : inc.toNat = 0 ∨ t.atStopper (t.reg h i) = true := by simpa [hb] using hstay
      rw [stepRegister_unbarred hb (stepProgrammed_stays hk), State.setReg_reg]
    · exact stepRegister_unbarred hb ((stepProgrammed_moves hk hst).trans (stepBy_up hs hin))
    · exact stepRegister_unbarred hb ((stepProgrammed_moves hk hst).trans (stepBy_down hs hin))

/-! ### The location of each address type -/

/-- An indirect reference through a good register, which is stepped after use (R191, R193). -/
theorem registerLoc_indirect {s t : State} {h : BitVec 3} {i inc : BitVec 5} (hg : (s.reg h i).tag = .good)
    (hi : s.Increments h i inc.toNat t) : registerLoc h i inc true s = .ok (.mem (s.reg h i).full, t) := by
  unfold registerLoc
  rw [if_pos rfl, Op.bind_ok (Op.get_run s), Op.bind_ok (checkExplicit_good (by rw [hg]; decide) s), Op.bind_ok (stepRegister_increments hi)]; rfl

/-- A special register is named without a change of the state. -/
theorem registerLoc_reg {s u : State} {g h : BitVec 3} {j i k inc : BitVec 5} {tab : Bool}
    (e : registerLoc g j k tab s = .ok (.reg h i inc, u)) : u = s := by
  unfold registerLoc at e
  cases tab with
  | false => cases e; rfl
  | true =>
    rw [if_pos rfl, Op.bind_ok (Op.get_run s), Op.bind_run] at e
    split at e
    · rw [Op.bind_run] at e
      split at e <;> cases e
    · cases e

/-- A direct memory location address: 11 bits in the bank of the controlling counter (R183). -/
theorem locate_direct {x : Group} {s : State} (hx : x ≠ inactiveGroup) (h1 : bitAt x 1 = false) :
    locate x false s =
      .ok (.mem ((if s.ctl.arr then 32768 else 0) + (fld s.ctl.bits 2 5).toNat * 2048 + (fld x 2 12).toNat), s) := by
  have hbank := (fld s.ctl.bits 2 5).isLt
  have hsub := (fld x 2 12).isLt
  have hfull : (s.direct x).full = (if s.ctl.arr then 32768 else 0) + (fld s.ctl.bits 2 5).toNat * 2048 + (fld x 2 12).toNat := by
    unfold State.direct
    rw [SReg.mk'_full _ _ (by omega), Nat.add_assoc]
  unfold locate
  rw [Op.bind_ok (isInactive_active hx _ _), if_neg (by decide), Op.bind_ok (Op.get_run s), h1, ← hfull]; rfl

/-- An indexed memory location address, the augmenter added (R184). -/
theorem locate_indexedUp {x : Group} {s : State} {r : SReg} (hx : x ≠ inactiveGroup) (h1 : bitAt x 1 = true)
    (hr : r = s.reg s.cur (indexReg x)) (hg : r.tag ≠ .bad) (hs : r.sign = true) (hin : r.addr + (fld x 5 12).toNat < 32768) :
    locate x false s = .ok (.mem (r.full + (fld x 5 12).toNat), s) := by
  have hfull : (SReg.mk' r.arr true (r.addr + (fld x 5 12).toNat)).full = r.full + (fld x 5 12).toNat := by
    rw [SReg.mk'_full _ _ hin, ← Nat.add_assoc]; rfl
  subst hr
  rw [locate_indexed hx h1 hg, augment_up hs hin, if_pos rfl, hfull]

/-- An indexed memory location address, the augmenter subtracted (R184). -/
theorem locate_indexedDown {x : Group} {s : State} {r : SReg} (hx : x ≠ inactiveGroup) (h1 : bitAt x 1 = true)
    (hr : r = s.reg s.cur (indexReg x)) (hg : r.tag ≠ .bad) (hs : r.sign = false) (hin : (fld x 5 12).toNat ≤ r.addr) :
    locate x false s = .ok (.mem (r.full - (fld x 5 12).toNat), s) := by
  have hlt := r.addr_lt
  have hfull : (SReg.mk' r.arr false (r.addr - (fld x 5 12).toNat)).full = r.full - (fld x 5 12).toNat := by
    rw [SReg.mk'_full _ _ (by omega), ← Nat.add_sub_assoc hin]; rfl
  subst hr
  rw [locate_indexed hx h1 hg, augment_down hs hin, if_pos rfl, hfull]

/-- A special register address without indexing, direct or indirect (R190, R191). -/
theorem locate_register {x : Group} {s : State} (hx : x ≠ inactiveGroup) (h1 : bitAt x 1 = false) :
    locate x true s = registerLoc s.cur (fld x 8 12) (fld x 2 6) (bitAt x 7) s := by
  unfold locate
  rw [Op.bind_ok (isInactive_active hx _ _), if_neg (by decide), Op.bind_ok (Op.get_run s), h1]

/-- An indexed special register address: group, subaddress, increment and tabular bit are those of the sum (R192, R193, D35). -/
theorem locate_indexedRegister {x : Group} {s : State} {v : Nat} {r : SReg} (hx : x ≠ inactiveGroup) (h1 : bitAt x 1 = true)
    (hr : r = s.reg s.cur (indexReg x)) (hg : r.tag ≠ .bad)
    (hv : v = (if r.sign then r.addr + (fld x 5 12).toNat else r.addr + 32768 - (fld x 5 12).toNat) % 32768) :
    locate x true s =
      registerLoc (BitVec.ofNat 3 (v / 2048)) (BitVec.ofNat 5 v) (BitVec.ofNat 5 (v / 64)) (decide (v / 32 % 2 = 1)) s := by
  have hsum : (augment r (fld x 5 12).toNat).1 = SReg.mk' r.arr r.sign v := by rw [augment_fst, hv, SReg.mk'_mod]
  obtain ⟨hgroup, hsub, hinc, htab⟩ := SReg.mk'_fields r.arr r.sign (n := v) (hv ▸ Nat.mod_lt _ (by decide))
  subst hr
  unfold locate
  rw [Op.bind_ok (isInactive_active hx _ _), if_neg (by decide), Op.bind_ok (Op.get_run s), h1]
  dsimp only
  rw [Op.bind_ok (index_ok hg)]
  dsimp only
  rw [if_pos rfl, hsum, hgroup, hsub, hinc, htab]

/-- A register of good parity is checked without a change of the state. -/
theorem checkExplicit_still {r : SReg} {s u : State} (e : checkExplicit r s = .ok (true, u)) : u = s := by
  unfold checkExplicit at e
  split at e
  · rw [Op.bind_run] at e
    split at e <;> cases e
  · cases e; rfl

theorem index_still {x : Group} {v : SReg × Bool × Bool} {s u : State} (e : index x s = .ok (v, u)) (hv : v.2.1 = true) : u = s := by
  unfold index at e
  rw [Op.bind_ok (Op.get_run s), Op.bind_run] at e
  split at e
  · next b w hcheck =>
    cases e
    obtain rfl : b = true := hv
    exact checkExplicit_still hcheck
  · cases e

/-- An address group is found to name a special register without a change of the state. -/
theorem locate_reg {x : Group} {h : BitVec 3} {i inc : BitVec 5} {s u : State} (hx : x ≠ inactiveGroup)
    (e : locate x true s = .ok (.reg h i inc, u)) : u = s := by
  cases h1 : bitAt x 1 with
  | false =>
    rw [locate_register hx h1] at e
    exact registerLoc_reg e
  | true =>
    unfold locate at e
    rw [Op.bind_ok (isInactive_active hx _ _), if_neg (by decide), Op.bind_ok (Op.get_run s), h1] at e
    dsimp only at e
    rw [Op.bind_run] at e
    split at e
    · next v w hindex =>
      split at e
      · next hgood => exact (registerLoc_reg e).trans (index_still hindex hgood)
      · cases e
    · cases e

/-! ### A special register as an operand and as a result (R190, R194) -/

/-- Read as an operand, the register is stepped after use. -/
theorem readOperand_register {x : Group} {h : BitVec 3} {i inc : BitVec 5} {s t : State}
    (hl : locate x true s = .ok (.reg h i inc, s)) (hi : s.Increments h i inc.toNat t) :
    readOperand x true s = .ok (MWord.good (srToWord (s.reg h i)), t) := by
  unfold readOperand fetch
  rw [Op.bind_ok hl]
  dsimp only
  rw [Op.bind_ok (Op.get_run s), Op.bind_ok (stepRegister_increments hi)]; rfl

/-- Written as a result, it is not. -/
theorem writeResult_register {x : Group} {h : BitVec 3} {i inc : BitVec 5} {s : State} {v : MWord}
    (hl : locate x true s = .ok (.reg h i inc, s)) (hv : MWord.bad v = false) (hb : s.barsReg h i = false) :
    writeResult x true v s = .ok ((), s.setReg h i (s.toSr v)) := by
  have hfree : ({ s with free := if MWord.bad v then s.free + 1 else s.free } : State) = s := by rw [hv]; rfl
  unfold writeResult store
  rw [Op.bind_ok hl]
  dsimp only
  rw [Op.bind_ok (Op.get_run s), Op.bind_ok (Op.update_run _ s), hfree]
  exact writeReg_admitted hb (s.toSr v)

end Sys2Proof.Machine
end

section
/-! SUPPORT. Instructions with an inactive address (R220 to R223): the add family from and to the accumulator, TS through the low-order product
register. -/
namespace Sys2Proof.Machine

theorem named_undesignated (s : State) (x : Group) : s.named x false = [] := rfl

/-- A form in which no inactive address has its designator one. -/
theorem designated_of {f : Form} (ha : f.a = inactiveGroup → f.dA = false) (hb : f.b = inactiveGroup → f.dB = false)
    (hc : f.c = inactiveGroup → f.dC = false) : f.designated = true := by
  unfold Form.designated
  simp only [Bool.not_and, Bool.and_eq_true, Bool.or_eq_true, Bool.not_eq_eq_eq_not, Bool.not_true, beq_eq_false_iff_ne]
  tauto

theorem isInactive_of {x : Group} {d : Bool} (hx : x = inactiveGroup) (hd : d = false) (s : State) :
    isInactive x d s = .ok (true, s) := by
  rw [hx, hd]; rfl

/-- An address group that is evaluated has no designator where it is inactive (R220, U1). -/
theorem undesignated_of_isInactive {x : Group} {d b : Bool} {s t : State} (h : isInactive x d s = .ok (b, t)) (hx : x = inactiveGroup) :
    d = false := by
  subst hx
  cases d with
  | false => rfl
  | true => cases h

theorem undesignated_of_sequenceTarget {x : Group} {d : Bool} {c : Ctr} {r : Option SReg} {s t : State}
    (h : sequenceTarget x d c s = .ok (r, t)) : x = inactiveGroup → d = false := by
  unfold sequenceTarget at h
  rw [Op.bind_run] at h
  split at h
  · next e => exact undesignated_of_isInactive e
  · cases h

/-! ### The add family -/

/-- The add family with an inactive C: the result stays in the accumulator (R221, R244). -/
theorem addOp_kept {i : Instr} {k : Adder} {f : Form} {s s1 s2 : State} {a : Word} {q r : Sum} (hq : s.env = [])
    (hc : f.c = inactiveGroup) (hdc : f.dC = false) (hm : s.begun.maskReady f.mask) (hf : s.firstAdded k.kind f a q s1)
    (hs : k.secondAdded (s.maskWord f.mask) f a q r s1 s2) (ho : r.ovf = false) :
    addOp i k false f s = .ok ((), (s2.summed k.kind (s.maskWord f.mask) r false).ended f.seq false) := by
  rw [addOp_operands hq (fun _ => hdc) hm hf hs, hc, hdc, Op.bind_ok (isInactive_inactive s2), if_pos rfl]
  unfold leave
  rw [Op.bind_ok (Op.update_run _ s2), ho]
  exact conclude_ends i f.seq false _

/-- The add family with an active C: the result is delivered there (R244). -/
theorem addOp_delivered {i : Instr} {k : Adder} {f : Form} {s s1 s2 s3 : State} {a : Word} {q r : Sum} {l : Loc} (hq : s.env = [])
    (hc : f.c ≠ inactiveGroup) (hm : s.begun.maskReady f.mask) (hf : s.firstAdded k.kind f a q s1)
    (hs : k.secondAdded (s.maskWord f.mask) f a q r s1 s2) (ho : r.ovf = false)
    (hl : locate f.c f.dC (s2.summed k.kind (s.maskWord f.mask) r true) = .ok (l, s3)) (hadm : s3.admits l)
    (hold : f.mask.isSome = true → MWord.bad (s3.contents l) = false) (hdec : k.kind = .decimal → l.regs = []) :
    addOp i k false f s = .ok ((), (s3.stored l
      (MWord.good (merged (s.maskWord f.mask) (s3.contents l) (storeForm k.kind r)))).ended f.seq true) := by
  have hq3 : s3.env = [] := (steps_locate hl).1.env.trans ((passes_added hq hf hs).1.env.trans hq)
  rw [addOp_operands hq (fun e => absurd e hc) hm hf hs, Op.bind_ok (isInactive_active hc _ s2), if_neg (by decide)]
  unfold leave
  rw [Op.bind_ok (Op.update_run _ s2), Op.bind_ok hl,
    Op.bind_ok (deliverSum_admitted hq3 hadm (fun h => hold (isSome_maskWord h)) hdec _), ho]
  exact conclude_ends i f.seq true _

/-- An accumulator that has been delivered cannot be retrieved (R221, D22): nothing of the instruction is performed (D55). -/
theorem addOp_spent {i : Instr} {k : Adder} {f : Form} {s : State} (hd : f.designated = true) (ha : f.a = inactiveGroup)
    (hda : f.dA = false) (hst : s.acState = .delivered ∨ s.acState = .spent) :
    addOp i k false f s = .error (.error true 0b00100#5 s.begun) := by
  unfold addOp
  rw [Op.bind_ok (beginForm_run hd s), ha, hda, Op.bind_ok (isInactive_inactive s.begun), Op.bind_ok (Op.get_run s.begun),
    if_pos ⟨rfl, hst⟩]
  rfl

/-- A control error at the start of an instruction (R621, R666 class (a)). -/
theorem perform_trapped {m : Op Unit} {s : State} {c : BitVec 5} (h : m s = .error (.error true c s.begun)) (hl : s.limited = none) :
    perform m s = .next (s.begun.trapped c) := by
  have hundone : s.undone s.begun = s := if_pos rfl
  have hcaught : s.caught s.begun c = s.begun.turnOff s.begun.cur c := by
    unfold State.caught
    rw [hundone, show s.begun.limited = none from hl]; rfl
  unfold perform State.trapped
  rw [h]
  dsimp only
  rw [Bool.true_and, hcaught]
  exact (apply_ite Host.Outcome.next _ _ _).symm

/-- What such an error leaves. -/
theorem trapped_leaves (s : State) (c : BitVec 5) :
    fld (s.trapped c).pcr 4 8 = c ∧ (s.trapped c).mem = s.mem ∧ (s.trapped c).regs = s.regs ∧
      (s.cfg.barricade = false → (s.trapped c).halted = true) := by
  obtain ⟨-, hmem, hregs, hhalted⟩ := halt_fields s c
  unfold State.trapped
  cases hb : s.cfg.barricade with
  | true => exact ⟨turnOff_code s s.cur c, State.turnOff_mem s s.cur c, State.turnOff_regs s s.cur c, nofun⟩
  | false => exact ⟨halt_code s c, hmem, hregs, fun _ => hhalted⟩

/-! ### TS -/

/-- The low-order product register as the instruction just before left it (R223). -/
theorem retrieveLow_held {s : State} {m : Option MWord} (hl : s.lopHeld = true) (hm : m = none ∨ s.heldMask = m.map (·.bits)) :
    retrieveLow m s = .ok (s.lop, s) := by
  unfold retrieveLow
  rw [Op.bind_ok (Op.get_run s), if_pos ⟨hl, hm⟩]; rfl

/-- TS once its transfer has been made (R311, R322). -/
theorem transferJumpOp_sequenced {i : Instr} {f : Form} {ia ib : Bool} {s u t : State} {r : Option SReg} (hq : s.env = [])
    (hia : isInactive f.a f.dA s.begun = .ok (ia, s.begun)) (hib : isInactive f.b f.dB s.begun = .ok (ib, s.begun))
    (hm : s.begun.maskReady f.mask) (hp : transferPart (s.maskWord f.mask) f ia ib (s.begun.masking f.mask) = .ok (false, u))
    (ht : sequenceTarget f.c f.dC (ctrOf f.seq) u = .ok (r, t)) : transferJumpOp i f s = .ok ((), t.sequenced f.seq r) := by
  have hdg := designated_of (undesignated_of_isInactive hia) (undesignated_of_isInactive hib) (undesignated_of_sequenceTarget ht)
  have hmask : maskOf f.mask s.begun = .ok (s.maskWord f.mask, s.begun.masking f.mask) := maskOf_ready hq hm
  have hbad : maskBad (s.maskWord f.mask) = false := maskBad_ready (s := s.begun) hm
  unfold transferJumpOp
  rw [Op.bind_ok (beginForm_run hdg s), Op.bind_ok hia, Op.bind_ok hib, Op.bind_ok hmask, Op.bind_ok hp, hbad]
  exact concludeJump_sequenced ht

/-- The transfer of TS with an inactive B: the word is left in the low-order product register (R311). -/
theorem transferPart_captured {f : Form} {m : Option MWord} {s t : State} {w : MWord} (h : readOperand f.a f.dA s = .ok (w, t)) :
    transferPart m f false true s = .ok (MWord.bad w, t.captured m (gate m w.bits)) := by
  unfold transferPart
  dsimp only
  rw [Op.bind_ok h]; rfl

/-- The transfer of TS with an inactive A: the low-order product register goes to B (R311). -/
theorem transferPart_retrieved {f : Form} {m : Option MWord} {s t : State} {l : Loc} (hq : s.env = []) (hlow : s.lopHeld = true)
    (hm : m = none ∨ s.heldMask = m.map (·.bits)) (hl : locate f.b f.dB s.noAc = .ok (l, t)) (hadm : t.admits l)
    (hold : m.isSome = true → MWord.bad (t.contents l) = false) :
    transferPart m f true false s = .ok (false, t.stored l (MWord.good (merged m (t.contents l) s.lop))) := by
  have hqt : t.env = [] := (steps_locate hl).1.env.trans hq
  unfold transferPart noAc
  dsimp only
  rw [Op.bind_ok (retrieveLow_held hlow hm), Op.bind_ok (Op.update_run _ s), Op.bind_ok hl]
  exact deliver_admitted hqt hadm hold s.lop

theorem passes_captured (s : State) (m : Option MWord) (w : Word) : Passes s (s.captured m w) [] [] := Passes.quiet rfl rfl rfl rfl

theorem masked_held (s : State) (k : Option (BitVec 5)) : (s.begun.masking k).lop = s.lop ∧ (s.begun.masking k).lopHeld = s.lopHeld ∧
    (s.begun.masking k).heldMask = s.heldMask := by
  obtain ⟨m, e⟩ := State.masking_eq s.begun k
  rw [e]; exact ⟨rfl, rfl, rfl⟩

/-- A word of main memory goes on being held while C is evaluated and the sequence changed. -/
theorem holds_sequenced {s t : State} {R : List (BitVec 3 × BitVec 5)} {a : Nat} {v : MWord} (h : s.holds (.mem a) v) (hst : Steps s t R)
    (q : Bool) (r : Option SReg) : (t.sequenced q r).holds (.mem a) v := by
  have hty : (t.sequenced q r).typing = s.typing := by
    have e : t.typing = s.typing := (congrArg State.typing hst.bare :)
    cases r <;> exact e
  intro hres
  have hfree : s.reserved a = false := by
    unfold State.reserved at hres ⊢
    rwa [hty] at hres
  rw [mem_sequenced, hst.mem]
  exact h hfree

/-- What a sequence change leaves of the arithmetic registers. -/
theorem sequenced_arithmetic (s : State) (q : Bool) (r : Option SReg) :
    (s.sequenced q r).lop = s.lop ∧ (s.sequenced q r).lopHeld = s.lopHeld ∧ (s.sequenced q r).ac = s.ac ∧
      (s.sequenced q r).acState = s.acState ∧ (s.sequenced q r).heldMask = s.heldMask := by
  cases r with
  | none => exact ⟨rfl, Bool.true_and _, rfl, rfl, rfl⟩
  | some r => exact ⟨rfl, rfl, rfl, rfl, rfl⟩

end Sys2Proof.Machine
end

section
/-! SUPPORT. A decision whose mask or operands fail their parity (R323, R353). -/
namespace Sys2Proof.Machine

/-- A decision up to its end, whatever the parity of its mask and operands. -/
theorem decisionOp_operands {i : Instr} {cond : Word → Word → Bool} {f : Form} {s s0 s1 s2 : State} {m : Option MWord} {a b : MWord}
    (ha : f.a ≠ inactiveGroup) (hb : f.b ≠ inactiveGroup) (hdc : f.c = inactiveGroup → f.dC = false)
    (hm : maskOf f.mask s.begun.decided = .ok (m, s0)) (hra : readOperand f.a f.dA s0 = .ok (a, s1))
    (hrb : readOperand f.b f.dB s1 = .ok (b, s2)) :
    decisionOp i cond f s = concludeJump i f.seq f.c f.dC (cond (gate m a.bits) (gate m b.bits))
      (maskBad m || MWord.bad a || MWord.bad b) true s2 := by
  have hdg := designated_of (f := f) (fun e => absurd e ha) (fun e => absurd e hb) hdc
  unfold decisionOp leaveDelivered
  rw [Op.bind_ok (beginForm_run hdg s), Op.bind_ok (needActive_active ha _ _), Op.bind_ok (needActive_active hb _ _),
    Op.bind_ok (Op.update_run _ _), Op.bind_ok hm, Op.bind_ok hra, Op.bind_ok hrb]

/-- What taking the operands of a decision leaves alone. -/
theorem passes_decision {f : Form} {s s0 s1 s2 : State} {m : Option MWord} {a b : MWord} (hq : s.env = [])
    (hm : maskOf f.mask s.begun.decided = .ok (m, s0)) (hra : readOperand f.a f.dA s0 = .ok (a, s1))
    (hrb : readOperand f.b f.dB s1 = .ok (b, s2)) :
    Passes s s2 (s.named f.a f.dA ++ s1.named f.b f.dB) [] ∧ s2.sel = s.sel := by
  obtain ⟨p0, -, hsel⟩ := passes_maskOf (s := s.begun.decided) hq hm
  have p0' : Passes s s0 [] [] := ((passes_begun s).trans (passes_decided _)).trans p0
  have q0 : s0.env = [] := p0'.env.trans hq
  have st1 := steps_readOperand q0 hra
  have st2 := steps_readOperand (st1.env.trans q0) hrb
  have p := (p0'.trans (Passes.steps st1)).trans (Passes.steps st2)
  rw [named_passes p0'] at p
  exact ⟨p, st2.sel.trans (st1.sel.trans hsel)⟩

/-- A parity failure where C is not used (R353): no sequence change, the bisequence bit only. -/
theorem concludeJump_parityUnused {i : Instr} {seq met : Bool} {c : Group} {d hunt : Bool} {s : State} (hq : s.env = [])
    (hu : met = false ∨ c = inactiveGroup) (hd : c = inactiveGroup → d = false) (hct : (s.ended seq false).canTransfer) :
    concludeJump i seq c d met true hunt s = .ok ((), (s.ended seq false).transferred utParity i) := by
  by_cases hc : c = inactiveGroup
  · rw [hd hc, hc]
    exact concludeJump_parityInactive hq hct
  · obtain rfl : met = false := hu.resolve_right hc
    unfold concludeJump endInstr
    rw [Op.bind_ok (isInactive_active hc d s), if_neg (by decide), if_neg (by decide), if_pos rfl, Op.bind_ok (Op.update_run _ s)]
    exact unprogrammedTransfer_ready hq hct

end Sys2Proof.Machine
end

section
/-! PROOFS. The statements about addresses: their types, the inactive address, the parity of what a decision reads. -/
namespace Sys2Proof.Settled
open Sys2Proof.Machine

/-- Settles O51: each clause is the branch of `locate` for its address type; a programmed increment is `stepRegister_increments`. -/
theorem addressTypes : Obligations.AddressTypes := by
  intro x s hx
  refine ⟨locate_direct hx, fun r k h1 hr hg hk => ⟨fun hs hin => ?_, fun hs hin => ?_, fun v h i inc hv hh hi hinc => ?_⟩,
    fun h1 h7 => ?_, fun h1 h7 hg t ht => ?_, fun h i inc t u hl ht => ?_⟩
  · subst hk
    exact locate_indexedUp hx h1 hr hg hs hin
  · subst hk
    exact locate_indexedDown hx h1 hr hg hs hin
  · subst hk hh hi hinc
    rw [locate_indexedRegister hx h1 hr hg hv]
    refine ⟨fun h0 => ?_, fun h1 hgood t ht => ?_⟩
    · rw [h0]; rfl
    · rw [h1]; exact registerLoc_indirect hgood ht
  · rw [locate_register hx h1, h7]; rfl
  · rw [locate_register hx h1, h7]
    exact registerLoc_indirect hg ht
  · obtain rfl := locate_reg hx hl
    exact ⟨readOperand_register hl ht, fun v hv hb => writeResult_register hl hv hb⟩

/-- Settles O4: the operands are taken as `addOp_operands` says, and an inactive C leaves the result where it is. -/
theorem addToAccumulator : Obligations.AddToAccumulator := by
  intro i k f s s1 s2 a q r hrow hq hc hdc hm hf hs ho
  have hp := (passes_added hq hf hs).1.trans (passes_summed s2 k.kind (s.maskWord f.mask) r false)
  refine ⟨_, (add_run hrow).trans (perform_ok (addOp_kept hq hc hdc hm hf hs ho)), rfl, rfl, rfl, rfl, rfl, rfl, ?_⟩
  simpa only [List.append_nil] using hp.ends f.seq false

/-- Settles O5: the first operand is the accumulator as `firstAdded` takes it; a delivered one is the control error that `perform_trapped`
makes a state of. -/
theorem addFromAccumulator : Obligations.AddFromAccumulator := by
  intro i k f s hrow hq ha hda
  refine ⟨fun s2 s3 b r l hw hb hc hm hst hmask hrb hbad hcomb ho hl hadm hold hdec => ?_, fun hdb hdc hst hlim => ?_⟩
  · have hf : s.firstAdded k.kind f (storeForm k.kind ⟨s.ac, s.acSign, false⟩) ⟨s.ac, s.acSign, false⟩ (s.begun.masking f.mask) :=
      .inr ⟨ha, hda, hst, hmask, rfl, rfl, rfl⟩
    have hs : k.secondAdded (s.maskWord f.mask) f _ ⟨s.ac, s.acSign, false⟩ r (s.begun.masking f.mask) s2 :=
      .inl ⟨hb, b, hrb, hbad, hcomb⟩
    obtain ⟨hp, hmem⟩ := passes_added hq hf hs
    rw [hda, named_undesignated, named_masked, List.nil_append] at hp
    obtain ⟨hpass, hholds, hac, -⟩ := stored_summed hp (by rw [hmem]; exact hw) hl
    exact ⟨_, (add_run hrow).trans (perform_ok (addOp_delivered hq hc hm hf hs ho hl hadm hold hdec)), rfl, holds_ended hholds _ _, hac,
      hpass.ends f.seq true⟩
  · have hdg := designated_of (fun _ => hda) hdb hdc
    obtain ⟨hcode, hmem, hregs, hhalted⟩ := trapped_leaves s.begun 0b00100#5
    exact ⟨_, (add_run hrow).trans (perform_trapped (addOp_spent hdg ha hda hst) hlim), rfl, hcode, hmem, hregs, hhalted⟩

/-- Settles O20: the transfer is the branch of `transferPart` for the inactive operand; the sequence change follows. -/
theorem transferThroughRegister : Obligations.TransferThroughRegister := by
  intro i f s hrow hq hw hm
  have q0 : (s.begun.masking f.mask).env = [] := (passes_masked s f.mask).env.trans hq
  refine ⟨fun ha hb hdb s1 s3 w r hr hbad ht => ?_, fun ha hda hb hlow hmask s2 s3 l r hl hadm hold ht => ?_⟩
  · have hpart := transferPart_captured (m := s.maskWord f.mask) hr
    rw [hbad] at hpart
    have hrun := transferJumpOp_sequenced (i := i) hq (isInactive_active ha _ _) (isInactive_of hb hdb _) hm hpart ht
    have st1 := steps_readOperand q0 hr
    have st3 := steps_sequenceTarget ht
    have hp := (((passes_masked s f.mask).trans (Passes.steps st1)).trans (passes_captured s1 _ _)).trans (Passes.steps st3)
    obtain ⟨h1, h2, h3, h4, h5⟩ := sequenced_arithmetic s3 f.seq r
    refine ⟨_, (sequence_run hrow).trans (perform_ok hrun), rfl, scan_sequenced _ _ _, h1.trans st3.lop, h2.trans st3.lopHeld,
      h3.trans st3.ac, h4.trans st3.acState, h5.trans st3.heldMask, ?_⟩
    rw [named_masked, named_passes (passes_captured s1 _ _)] at hp
    simpa only [List.append_nil, List.nil_append] using hp.sequenced f.seq r
  · obtain ⟨elop, eheld, emask⟩ := masked_held s f.mask
    have hpart := transferPart_retrieved (f := f) q0 (eheld.trans hlow) (hmask.imp (fun e => by rw [e]; rfl) emask.trans) hl hadm
      fun h => hold (isSome_maskWord h)
    rw [elop] at hpart
    have hrun := transferJumpOp_sequenced (i := i) hq (isInactive_of ha hda _) (isInactive_active hb _ _) hm hpart ht
    have hp0 := (passes_masked s f.mask).trans (passes_noAc _)
    have st2 := (steps_locate hl).1
    have hwf : s2.mem.wf = true := by rw [st2.mem]; exact (mem_masked s f.mask).symm ▸ hw
    have hp := ((hp0.trans (Passes.steps st2)).trans (Passes.stored s2 l _)).trans (Passes.steps (steps_sequenceTarget ht))
    refine ⟨_, (sequence_run hrow).trans (perform_ok hrun), rfl, scan_sequenced _ _ _, ?_, ?_⟩
    · rintro a rfl
      exact holds_sequenced (State.holds_stored hwf _ _) (steps_sequenceTarget ht) _ _
    · rw [named_passes hp0] at hp
      simpa only [List.append_nil, List.nil_append] using hp.sequenced f.seq r

/-- Settles O26: the operands are taken whatever their parity, and `concludeJump` ends with the unprogrammed transfer. -/
theorem decisionParity : Obligations.DecisionParity := by
  intro i cond f s s0 s1 s2 m a b hrow hq ha hb hm hra hrb hbad
  obtain ⟨hp, hsel⟩ := passes_decision hq hm hra hrb
  have q2 : s2.env = [] := hp.env.trans hq
  refine ⟨fun hmet hc r s3 ht hct => ?_, fun hu hdc hct => ?_⟩
  · have st3 := steps_sequenceTarget ht
    have hrun : decisionOp i cond f s = .ok ((), (s3.historied (ctrOf f.seq)).transferred utParity i) := by
      rw [decisionOp_operands ha hb (fun e => absurd e hc) hm hra hrb, hmet, hbad]
      exact concludeJump_parity hc ht hct (st3.env.trans q2)
    obtain ⟨hhist, hix, hpcr, hframe⟩ := passes_historied_transferred (i := i) (seq := f.seq) (hp.trans (Passes.steps st3)) (st3.sel.trans hsel)
    exact ⟨_, (decision_run hrow).trans (perform_ok hrun), rfl, hhist, hix, hpcr, hframe.regs⟩
  · have hrun : decisionOp i cond f s = .ok ((), (s2.ended f.seq false).transferred utParity i) := by
      rw [decisionOp_operands ha hb hdc hm hra hrb, hbad]
      exact concludeJump_parityUnused q2 hu hdc hct
    have hends := hp.ends f.seq false
    exact ⟨_, (decision_run hrow).trans (perform_ok hrun), rfl, hends.pcr, hends.frame.regs⟩

end Sys2Proof.Settled
end

section
/-! SUPPORT. The numbers of the add family (R241, R242, R245): a word of sign and magnitude, decimal digits, and the signed sum that the binary and
the decimal adder have in common. -/
namespace Sys2Proof.Machine

/-! ### Sign and magnitude -/

theorem posSign_eq (w : Word) : posSign w = decide (2 ^ 44 ≤ w.toNat) := by
  have hw := w.isLt
  have hf : (fld w 1 4).toNat = w.toNat / 2 ^ 44 := by
    simp only [fld, BitVec.extractLsb'_toNat, Nat.shiftRight_eq_div_pow]
    omega
  rw [posSign, bne, Bool.eq_iff_iff, Bool.not_eq_true', beq_eq_false_iff_ne, ne_eq, ← BitVec.toNat_inj, hf, decide_eq_true_eq]
  simp only [BitVec.toNat_ofNat]
  omega

theorem mag_eq (w : Word) : mag w = w.toNat % 2 ^ 44 := by
  simp only [mag, fld, BitVec.extractLsb'_toNat, Nat.sub_self, Nat.shiftRight_zero]

theorem mag_lt (w : Word) : mag w < 2 ^ 44 := by
  rw [mag_eq]; omega

theorem signedWord_toNat (p : Bool) (m : Nat) : (signedWord p m).toNat = (if p then 15 else 0) * 2 ^ 44 + m % 2 ^ 44 := by
  rw [signedWord, BitVec.toNat_ofNat]
  cases p <;> simp only [if_true, if_false, Bool.false_eq_true] <;> omega

@[simp] theorem posSign_signedWord (p : Bool) (m : Nat) : posSign (signedWord p m) = p := by
  rw [posSign_eq, signedWord_toNat]
  cases p <;> simp only [if_true, if_false, Bool.false_eq_true, decide_eq_true_eq, decide_eq_false_iff_not] <;> omega

@[simp] theorem mag_signedWord (p : Bool) (m : Nat) : mag (signedWord p m) = m % 2 ^ 44 := by
  rw [mag_eq, signedWord_toNat]
  omega

theorem signedWord_mod (p : Bool) (m : Nat) : signedWord p (m % 2 ^ 44) = signedWord p m := by
  rw [signedWord, signedWord, Nat.mod_mod]

/-- The word delivered of a signed accumulator: its sign made standard, its magnitude kept (R244). -/
theorem storeForm_signed {k : AcKind} (hk : k ≠ .unsigned) (r : Sum) : storeForm k r = signedWord r.sign (mag r.ac) := by
  cases k with
  | unsigned => exact absurd rfl hk
  | binary => rfl
  | decimal => rfl

/-- A magnitude with a sign. -/
def withSign (p : Bool) (n : Nat) : Int := if p then n else -n

theorem signedValue_eq (w : Word) : signedValue w = withSign (posSign w) (mag w) := rfl

theorem decimalSigned_eq (w : Word) : decimalSigned w = withSign (posSign w) (decimalValue 11 (mag w)) := rfl

/-- Subtracting is adding with the other sign (R241). -/
theorem withSign_combine (sub pa pb : Bool) (x y : Nat) :
    (if sub then withSign pa x - withSign pb y else withSign pa x + withSign pb y) = withSign pa x + withSign (pb ^^ sub) y := by
  cases sub <;> cases pb <;> simp [withSign, sub_eq_add_neg]

/-! ### The signed sum -/

/-- The sum of a first operand with the sign of `a` and a second with the sign `sb` (`signed` of R241): magnitudes of equal sign are added, carrying
at `limit`; else the smaller is taken from the greater. `enc` writes a number as a magnitude field. -/
def signedSum (limit : Nat) (enc : Nat → Nat) (a : Word) (sb : Bool) (x y : Nat) : Sum :=
  if posSign a = sb then ⟨signedWord true (enc ((x + y) % limit)), posSign a, decide (limit ≤ x + y)⟩
  else subMagnitudes (posSign a) x y (enc (if y ≤ x then x - y else y - x))

theorem withSign_same (p : Bool) (x y : Nat) : withSign p x + withSign p y = withSign p (x + y) := by
  cases p <;> simp only [withSign, if_true, if_false, Bool.false_eq_true] <;> omega

theorem natAbs_withSign (p : Bool) (n : Nat) : (withSign p n).natAbs = n := by
  cases p <;> simp [withSign]

/-- The sum of opposite signs has the sign of the greater magnitude. -/
theorem withSign_opposite (p : Bool) (x y : Nat) :
    withSign p x + withSign (!p) y = if y ≤ x then withSign p (x - y) else withSign (!p) (y - x) := by
  cases p <;> simp only [withSign, Bool.not_true, Bool.not_false, if_true, if_false, Bool.false_eq_true] <;> split <;> omega

/-- The sign a sum is left with (R241, R242): its own, or where it is zero that of the first operand. -/
theorem sign_withSign {a : Word} {p : Bool} {n : Nat} (h : n = 0 → p = posSign a) :
    p = if withSign p n = 0 then posSign a else decide (0 < withSign p n) := by
  by_cases hn : n = 0
  · rw [if_pos (by simp [withSign, hn]), h hn]
  · cases p <;> simp only [withSign, if_true, if_false, Bool.false_eq_true]
    · rw [if_neg (by omega), eq_comm, decide_eq_false_iff_not]; omega
    · rw [if_neg (by omega), eq_comm, decide_eq_true_eq]; omega

theorem subMagnitudes_eq (p : Bool) (x y d : Nat) : subMagnitudes p x y d = ⟨signedWord false d, if y ≤ x then p else !p, false⟩ := by
  have hw : BitVec.ofNat 48 (d % 2 ^ 44) = signedWord false d := by simp [signedWord]
  unfold subMagnitudes
  rw [hw]
  split <;> rfl

theorem signedSum_signed {limit x y : Nat} (enc : Nat → Nat) (a : Word) (sb : Bool) (hx : x < limit) (hy : y < limit) :
    (signedSum limit enc a sb x y).Signed a (posSign a == sb) (withSign (posSign a) x + withSign sb y) limit
      (enc ((withSign (posSign a) x + withSign sb y).natAbs % limit)) := by
  unfold signedSum
  by_cases hs : posSign a = sb
  · subst hs
    rw [if_pos rfl, beq_self_eq_true, withSign_same, natAbs_withSign]
    exact ⟨by rw [natAbs_withSign], sign_withSign fun _ => rfl, rfl⟩
  · obtain rfl : sb = !posSign a := Bool.eq_not.mpr (Ne.symm hs)
    have hdiff : (withSign (posSign a) x + withSign (!posSign a) y).natAbs = if y ≤ x then x - y else y - x := by
      rw [withSign_opposite]
      split <;> exact natAbs_withSign _ _
    have hlt : (if y ≤ x then x - y else y - x) < limit := by split <;> omega
    rw [if_neg hs, subMagnitudes_eq, beq_eq_false_iff_ne.mpr hs, hdiff, Nat.mod_eq_of_lt hlt]
    refine ⟨?_, ?_, rfl⟩
    · rw [hdiff, eq_comm, decide_eq_false_iff_not]; omega
    · rw [withSign_opposite]
      by_cases hxy : y ≤ x
      · simp only [if_pos hxy]; exact sign_withSign fun _ => rfl
      · simp only [if_neg hxy]; exact sign_withSign fun h => absurd h (by omega)

/-- The sign and the size of a signed sum together are the sum. -/
theorem Sum.Signed.withSign_sign {r : Sum} {a : Word} {added : Bool} {v : Int} {limit m : Nat} (h : r.Signed a added v limit m) :
    withSign r.sign v.natAbs = v := by
  rw [h.sign]
  split
  · next h0 => subst h0; cases posSign a <;> rfl
  · by_cases hv : 0 < v
    · rw [decide_eq_true hv]; simp only [withSign, if_true]; omega
    · rw [decide_eq_false hv]; simp only [withSign, if_false, Bool.false_eq_true]; omega

/-- The word delivered of a sum without overflow has its value; `dec` reads a magnitude field as a number. -/
theorem Sum.Signed.stored_value {r : Sum} {a : Word} {added : Bool} {v : Int} {limit : Nat} {k : AcKind} {enc dec : Nat → Nat}
    (h : r.Signed a added v limit (enc (v.natAbs % limit))) (hk : k ≠ .unsigned) (hlt : ∀ n, n < limit → enc n < 2 ^ 44)
    (hdec : ∀ n, n < limit → dec (enc n) = n) (ho : r.ovf = false) :
    withSign (posSign (storeForm k r)) (dec (mag (storeForm k r))) = v := by
  have hv : v.natAbs < limit := by
    have e := h.ovf
    rw [ho, eq_comm, decide_eq_false_iff_not] at e
    omega
  have hlt' := hlt _ hv
  rw [storeForm_signed hk, posSign_signedWord, mag_signedWord, h.ac, mag_signedWord, Nat.mod_mod, Nat.mod_eq_of_lt hv,
    Nat.mod_eq_of_lt hlt', hdec _ hv, h.withSign_sign]

theorem binarySum_eq (sub : Bool) (a b : Word) :
    binarySum sub a b = .sum (signedSum (2 ^ 44) (fun n => n) a (posSign b ^^ sub) (mag a) (mag b)) := by
  unfold binarySum signedSum
  dsimp only
  rw [signedWord_mod]
  exact (apply_ite Alu.sum _ _ _).symm

/-! ### Decimal digits (R245) -/

theorem toDecimal_lt (n v : Nat) : toDecimal n v < 16 ^ n := by
  induction n generalizing v with
  | zero => exact Nat.one_pos
  | succ n ih =>
    have h := ih (v / 10)
    rw [toDecimal, pow_succ]
    omega

theorem decimalValue_toDecimal (n v : Nat) : decimalValue n (toDecimal n v) = v % 10 ^ n := by
  induction n generalizing v with
  | zero => exact (Nat.mod_one v).symm
  | succ n ih =>
    have hlow : toDecimal (n + 1) v % 16 = v % 10 := by rw [toDecimal]; omega
    have hhigh : toDecimal (n + 1) v / 16 = toDecimal n (v / 10) := by rw [toDecimal]; omega
    rw [decimalValue, hlow, hhigh, ih, pow_succ', Nat.mod_mul]

theorem toDecimal_mod (n v : Nat) : toDecimal n (v % 10 ^ n) = toDecimal n v := by
  induction n generalizing v with
  | zero => rfl
  | succ n ih =>
    rw [toDecimal, toDecimal, pow_succ', Nat.mod_mul_right_mod, Nat.mod_mul_right_div_self, ih]

theorem decimalValue_lt {n m : Nat} (h : isDecimal n m = true) : decimalValue n m < 10 ^ n := by
  induction n generalizing m with
  | zero => exact Nat.one_pos
  | succ n ih =>
    rw [isDecimal, Bool.and_eq_true, decide_eq_true_eq] at h
    have hrest := ih h.2
    rw [decimalValue, pow_succ]
    omega

/-- The table of R245 where both digits are decimal. -/
theorem addDigit_decimal {x y c : Nat} (hx : x ≤ 9) (hy : y ≤ 9) (hc : c ≤ 1) :
    addDigit x y c = .sum [(x + y + c) % 10] ((x + y + c) / 10) := by
  unfold addDigit
  dsimp only
  rw [if_neg (by omega)]
  by_cases ht : x + y + c < 10
  · rw [if_pos ht, Nat.mod_eq_of_lt ht, Nat.div_eq_of_lt ht]
  · rw [if_neg ht, if_pos (.inr (by omega)), show (x + y + c) % 10 = x + y + c - 10 by omega, show (x + y + c) / 10 = 1 by omega]

/-- Decimal addition of decimal digits is addition. -/
theorem addDigits_decimal {n x y c : Nat} (hx : isDecimal n x = true) (hy : isDecimal n y = true) (hc : c ≤ 1) :
    ∃ ds, addDigits (digits n x) (digits n y) c = .sum ds ((decimalValue n x + decimalValue n y + c) / 10 ^ n) ∧
      ofDigits ds = toDecimal n (decimalValue n x + decimalValue n y + c) := by
  induction n generalizing x y c with
  | zero => exact ⟨[], by simp [digits, addDigits, decimalValue], rfl⟩
  | succ n ih =>
    rw [isDecimal, Bool.and_eq_true, decide_eq_true_eq] at hx hy
    obtain ⟨ds, hsum, hds⟩ := ih hx.2 hy.2 (c := (x % 16 + y % 16 + c) / 10) (by omega)
    have hlow : (decimalValue (n + 1) x + decimalValue (n + 1) y + c) % 10 = (x % 16 + y % 16 + c) % 10 := by
      rw [decimalValue, decimalValue]; omega
    have hhigh : (decimalValue (n + 1) x + decimalValue (n + 1) y + c) / 10 =
        decimalValue n (x / 16) + decimalValue n (y / 16) + (x % 16 + y % 16 + c) / 10 := by
      rw [decimalValue, decimalValue]; omega
    refine ⟨(x % 16 + y % 16 + c) % 10 :: ds, ?_, ?_⟩
    · rw [pow_succ', ← Nat.div_div_eq_div_mul, hhigh]
      simp only [digits, addDigits, addDigit_decimal hx.1 hy.1 hc, hsum, List.singleton_append]
    · rw [ofDigits, toDecimal, hlow, hhigh, hds]

theorem decimalSum_eq (sub : Bool) {a b : Word} (ha : isDecimal 11 (mag a) = true) (hb : isDecimal 11 (mag b) = true) :
    decimalSum sub a b =
      .sum (signedSum (10 ^ 11) (toDecimal 11) a (posSign b ^^ sub) (decimalValue 11 (mag a)) (decimalValue 11 (mag b))) := by
  obtain ⟨ds, hsum, hds⟩ := addDigits_decimal ha hb (Nat.zero_le 1)
  have hcarry : ∀ v : Nat, decide (0 < v / 10 ^ 11) = decide (10 ^ 11 ≤ v) := fun v => by
    rw [decide_eq_decide]; omega
  unfold decimalSum signedSum decimalAdd
  dsimp only
  rw [hsum, ha, hb, Bool.and_self, if_pos rfl, toDecimal_mod]
  dsimp only
  rw [hds, hcarry, Nat.add_zero]
  exact (apply_ite Alu.sum _ _ _).symm

/-- One line of the table of R245 gives one digit. -/
theorem addDigit_single {x y c e : Nat} {ds : List Nat} (h : addDigit x y c = .sum ds e) : ∃ d, ds = [d] := by
  unfold addDigit at h
  dsimp only at h
  repeat' split at h
  all_goals cases h <;> exact ⟨_, rfl⟩

theorem addDigits_cons_iff {x y c e : Nat} {xs ys ds : List Nat} :
    addDigits (x :: xs) (y :: ys) c = .sum ds e ↔
      ∃ d r k, ds = d :: r ∧ addDigit x y c = .sum [d] k ∧ addDigits xs ys k = .sum r e := by
  rw [addDigits]
  constructor
  · intro h
    split at h
    · next l k h1 =>
      obtain ⟨d, rfl⟩ := addDigit_single h1
      split at h
      · next r k' h2 => cases h; exact ⟨d, r, k, rfl, h1, h2⟩
      · next hno => exact absurd h (hno _ _)
    · next hno => exact absurd h (hno _ _)
  · rintro ⟨d, r, k, rfl, h1, h2⟩
    rw [h1]
    dsimp only
    rw [h2]; rfl

/-- Digit `k` of a sum is what the table gives for the digits `k` of the operands and the carry into them. -/
def DigitwiseSum (n x y : Nat) (ds : List Nat) (carry : Nat → Nat) : Prop :=
  ∀ k, k < n → ∃ d, ds[k]? = some d ∧ addDigit (x / 16 ^ k % 16) (y / 16 ^ k % 16) (carry k) = .sum [d] (carry (k + 1))

theorem digitwiseSum_cons {n x y d : Nat} {r : List Nat} {carry : Nat → Nat} :
    DigitwiseSum (n + 1) x y (d :: r) carry ↔
      addDigit (x % 16) (y % 16) (carry 0) = .sum [d] (carry 1) ∧ DigitwiseSum n (x / 16) (y / 16) r fun k => carry (k + 1) := by
  have hdiv (m k : Nat) : m / 16 / 16 ^ k = m / 16 ^ (k + 1) := by rw [Nat.div_div_eq_div_mul, pow_succ']
  simp only [DigitwiseSum, Nat.forall_lt_succ_left', hdiv]
  simp

/-- Decimal addition goes digit by digit from the low-order one (R245). -/
theorem addDigits_iff {n x y c e : Nat} {ds : List Nat} :
    addDigits (digits n x) (digits n y) c = .sum ds e ↔
      ds.length = n ∧ ∃ carry : Nat → Nat, carry 0 = c ∧ carry n = e ∧ DigitwiseSum n x y ds carry := by
  induction n generalizing x y c ds with
  | zero =>
    simp only [digits, addDigits, DigitSum.sum.injEq, List.length_eq_zero_iff]
    constructor
    · rintro ⟨rfl, rfl⟩
      exact ⟨rfl, fun _ => c, rfl, rfl, nofun⟩
    · rintro ⟨rfl, carry, rfl, rfl, -⟩
      exact ⟨rfl, rfl⟩
  | succ n ih =>
    simp only [digits, addDigits_cons_iff, ih]
    constructor
    · rintro ⟨d, r, k, rfl, hd, hlen, carry, rfl, hend, hrest⟩
      exact ⟨by rw [List.length_cons, hlen], (fun j => j.casesOn c carry), rfl, hend, digitwiseSum_cons.mpr ⟨hd, hrest⟩⟩
    · rintro ⟨hlen, carry, rfl, hend, h⟩
      obtain ⟨d, r, rfl⟩ := List.exists_cons_of_length_eq_add_one hlen
      obtain ⟨hd, hrest⟩ := digitwiseSum_cons.mp h
      exact ⟨d, r, carry 1, rfl, hd, Nat.succ.inj hlen, fun k => carry (k + 1), rfl, hend, hrest⟩

/-- The whole table of R245. -/
theorem addDigit_table (x y c : Nat) :
    (10 ≤ x → addDigit x y c = .sum [(x + y + c) % 16] ((x + y + c) / 16)) ∧
      (x < 10 → x + y + c < 10 → addDigit x y c = .sum [x + y + c] 0) ∧
      (x < 10 → 10 ≤ x + y + c → x + y + c ≤ 18 ∨ y < 10 → addDigit x y c = .sum [x + y + c - 10] 1) ∧
      (x < 10 → 10 ≤ y → x + y + c = 19 ∨ x + y + c = 20 → addDigit x y c = .error) ∧
      (x < 10 → 10 ≤ y → 20 < x + y + c → addDigit x y c = .unspecified) := by
  unfold addDigit
  dsimp only
  refine ⟨fun hx => if_pos hx, fun hx ht => ?_, fun hx ht h => ?_, fun hx hy h => ?_, fun hx hy h => ?_⟩
  · rw [if_neg (by omega), if_pos ht]
  · rw [if_neg (by omega), if_neg (by omega), if_pos h]
  · rw [if_neg (by omega), if_neg (by omega), if_neg (by omega), if_pos (by omega)]
  · rw [if_neg (by omega), if_neg (by omega), if_neg (by omega), if_neg (by omega)]

end Sys2Proof.Machine
end

section
/-! PROOFS. What the adders of the add family compute. -/
namespace Sys2Proof.Settled
open Sys2Proof.Machine

/-- Settles O2: both signed adders are `signedSum`, over binary magnitudes and over the values of decimal digits. -/
theorem adderValues : Obligations.AdderValues := by
  intro f m z a b
  refine ⟨fun sub => ?_, fun sub ha hb => ?_, fun ds c => addDigits_iff, fun x y c _ _ _ => addDigit_table x y c, ?_, ?_⟩
  · have hs := signedSum_signed (fun n => n) a (posSign b ^^ sub) (mag_lt a) (mag_lt b)
    simp only [signedValue_eq, withSign_combine]
    exact ⟨⟨.binary, fun _ a b => binarySum sub a b⟩, _, by cases sub <;> rfl, by cases sub <;> rfl, rfl, binarySum_eq sub a b, hs,
      hs.stored_value (dec := fun n => n) nofun (fun _ h => h) fun _ _ => rfl⟩
  · have hs := signedSum_signed (toDecimal 11) a (posSign b ^^ sub) (decimalValue_lt ha) (decimalValue_lt hb)
    simp only [decimalSigned_eq, withSign_combine]
    exact ⟨⟨.decimal, fun _ a b => decimalSum sub a b⟩, _, by cases sub <;> rfl, by cases sub <;> rfl, rfl, decimalSum_eq sub ha hb, hs,
      hs.stored_value nofun (fun n _ => (toDecimal_lt 11 n).trans_eq (by norm_num)) fun n hn =>
        (decimalValue_toDecimal 11 n).trans (Nat.mod_eq_of_lt hn)⟩
  · exact ⟨adderWA, _, rfl, rfl, rfl, rfl, BitVec.toNat_add a b, rfl, rfl⟩
  · have hd : wordDifference z a b = .sum ⟨if b.toNat ≤ a.toNat then a - b else b - a, z, decide (a.toNat < b.toNat)⟩ := by
      unfold wordDifference
      split
      · next h => rw [decide_eq_false (Nat.not_lt.mpr h)]
      · next h => rw [decide_eq_true (Nat.not_le.mp h)]
    refine ⟨adderWD, _, rfl, rfl, rfl, hd, ?_, rfl, rfl⟩
    change ((if b.toNat ≤ a.toNat then a - b else b - a : Word).toNat : Int) = _
    split
    · next h => rw [BitVec.toNat_sub_of_le h, abs_of_nonneg (by omega)]; omega
    · next h => rw [BitVec.toNat_sub_of_le (Nat.le_of_not_le h), abs_of_neg (by omega)]; omega

end Sys2Proof.Settled
end

section
/-! SUPPORT. The add family with an active C (R240): its ordinary end, the unprogrammed transfer of a parity failure or an overflow (R242, R610), and
the 24-bit form of EBA and EBS (R275). -/
namespace Sys2Proof.Machine

/-! ### The operands and the registers they leave -/

/-- The first operand read from an active A, of good parity (R221). -/
theorem firstAdded_active {k : AcKind} {f : Form} {s s1 : State} {w : MWord} (ha : f.a ≠ inactiveGroup)
    (hr : readOperand f.a f.dA (s.begun.masking f.mask) = .ok (w, s1)) (hb : MWord.bad w = false) :
    s.firstAdded k f (gate (s.maskWord f.mask) w.bits)
      ⟨gate (s.maskWord f.mask) w.bits, loadedSign k s.acSign (gate (s.maskWord f.mask) w.bits), false⟩ s1 :=
  .inl ⟨ha, w, hr, hb, rfl, rfl⟩

/-- Taking an operand alone never overflows. -/
theorem firstAdded_ovf {k : AcKind} {f : Form} {s s1 : State} {a : Word} {r : Sum} (h : s.firstAdded k f a r s1) : r.ovf = false := by
  rcases h with ⟨-, w, -, -, -, rfl⟩ | ⟨-, -, -, -, -, rfl, -⟩ <;> rfl

/-- What has been delivered is delivered, or across the hunt spent (R221). -/
theorem acState_ended {s : State} (h : s.acState = .delivered) (seq hunt : Bool) :
    (s.ended seq hunt).acState = .delivered ∨ (s.ended seq hunt).acState = .spent := by
  change (if (hunt && s.limited.isNone) = true then s.acState.dropped else s.acState) = _ ∨
    (if (hunt && s.limited.isNone) = true then s.acState.dropped else s.acState) = _
  rw [h]
  split
  · exact .inr rfl
  · exact .inl rfl

/-- Both operands read leave memory, and what they do not name. -/
theorem passes_operands {f : Form} {s s1 s2 : State} {a b : MWord} (hq : s.env = [])
    (hra : readOperand f.a f.dA (s.begun.masking f.mask) = .ok (a, s1)) (hrb : readOperand f.b f.dB s1 = .ok (b, s2)) :
    Passes s s2 (s.named f.a f.dA ++ s1.named f.b f.dB) [] ∧ s2.mem = s.mem ∧ s2.sel = s.sel ∧ s2.mr = (s.masking f.mask).mr ∧
      s2.lop = s.lop := by
  have p0 := passes_masked s f.mask
  have st1 := steps_readOperand (p0.env.trans hq) hra
  have st2 := steps_readOperand (st1.env.trans (p0.env.trans hq)) hrb
  have hp := (p0.trans (Passes.steps st1)).trans (Passes.steps st2)
  have hsel : (s.begun.masking f.mask).sel = s.sel := (congrArg State.sel p0.outside :)
  rw [named_masked] at hp
  exact ⟨hp, (st2.mem.trans st1.mem).trans (mem_masked s _), (st2.sel.trans st1.sel).trans hsel,
    (st2.mr.trans st1.mr).trans (mr_masked s _), (st2.lop.trans st1.lop).trans (lop_masked s _)⟩

/-! ### The unprogrammed transfer (R602) -/

/-- A parity failure or an overflow makes the unprogrammed transfer, the parity failure first (D52). -/
theorem conclude_transferred {i : Instr} {seq hunt bad ovf : Bool} {s : State} (h : (bad || ovf) = true) (hq : s.env = [])
    (hct : s.canTransfer) :
    conclude i seq hunt bad ovf s = .ok ((), s.transferred (if bad then utParity else utOverflow) i) := by
  cases bad with
  | true => exact unprogrammedTransfer_ready hq hct
  | false =>
    obtain rfl : ovf = true := h
    exact unprogrammedTransfer_ready hq hct

theorem holds_transferred {s : State} (hw : s.mem.wf = true) (n : Nat) (i : Instr) :
    (s.transferred n i).holds (.mem ((s.reg s.cur utrIx).full + if s.sel = .csc then 1 else 0)) (MWord.good (encode s.cfg.opmap i)) :=
  fun e => State.word_putWord_self hw e _

theorem frame_transferred (s : State) (n : Nat) (i : Instr) :
    Frame s (s.transferred n i) [] [(s.reg s.cur utrIx).full + if s.sel = .csc then 1 else 0] :=
  ⟨fun _ _ _ => rfl, fun _ h => State.byte_putWord_other s (List.mem_singleton.not.mp h) _⟩

/-! ### EBA and EBS -/

/-- EBA and EBS are the binary adders with the 24-bit form of the registers, where there is extended memory. -/
theorem exec_extended (sub : Bool) (f : Gen) {s : State} (h : s.cfg.extended = true) :
    exec (if sub then .ebs f else .eba f) s =
      perform (addOp (if sub then .ebs f else .eba f) ⟨.binary, fun _ a b => binarySum sub a b⟩ true (genForm f)) s := by
  have hop : ∀ i k, extendedOp i k f s = addOp i k true (genForm f) s := fun i k => by
    unfold extendedOp
    rw [Op.bind_ok (Op.get_run s), if_pos h]
  have hperform : ∀ i k, perform (extendedOp i k f) s = perform (addOp i k true (genForm f)) s := fun i k => by
    unfold perform; rw [hop]
  cases sub with
  | true => exact hperform _ _
  | false => exact hperform _ _

theorem operand_extended {x : Group} {d : Bool} {s t : State} {w : MWord} (h : readExtended x d s = .ok (w, t)) :
    operand true none x d s = .ok ((w.bits, MWord.bad w), t) := by
  unfold operand
  rw [if_pos rfl, Op.bind_ok h]; rfl

theorem deliverSum_extended {s : State} {l : Loc} (hq : s.env = []) (h : s.admits l) (w : Word) :
    deliverSum .binary true none l w s = .ok (false, s.storedExtended l (MWord.good w)) := by
  unfold deliverSum
  cases l with
  | inactive => exact h.elim
  | mem a => exact deliver_admitted (m := none) hq h nofun w
  | reg g j inc =>
    dsimp only
    rw [if_neg (by decide), if_pos rfl, Op.bind_ok (writeReg_admitted h _)]; rfl

theorem passes_storedExtended (s : State) (l : Loc) (v : MWord) : Passes s (s.storedExtended l v) l.regs l.words := by
  cases l with
  | inactive => exact Passes.stored s .inactive v
  | mem a => exact Passes.stored s (.mem a) v
  | reg g j inc => exact Passes.setReg s g j (extToSr v.bits)

theorem holdsExtended_ended {s : State} (hw : s.mem.wf = true) (l : Loc) (v : MWord) (seq hunt : Bool) :
    ((s.storedExtended l v).ended seq hunt).holdsExtended l v := by
  cases l with
  | inactive => trivial
  | mem a => exact holds_ended (State.holds_stored hw (.mem a) v) seq hunt
  | reg g j inc => exact State.reg_setReg_self s g j (extToSr v.bits)

theorem storedExtended_eq (s : State) (l : Loc) (v : MWord) :
    ∃ m r y n, s.storedExtended l v = { s with mem := m, regs := r, typeSpoiled := y, free := n } := by
  cases l with
  | inactive => exact State.stored_eq s .inactive v
  | mem a => exact State.stored_eq s (.mem a) v
  | reg g j inc => exact ⟨s.mem, _, s.typeSpoiled, s.free, rfl⟩

/-- EBA and EBS on operands of good parity and without overflow (R275). -/
theorem addOp_extended {i : Instr} {c : Bool → Word → Word → Alu} {f : Form} {s s1 s2 s3 : State} {a b : MWord} {r : Sum} {l : Loc}
    (hq : s.env = []) (hmask : f.mask = none) (ha : f.a ≠ inactiveGroup) (hb : f.b ≠ inactiveGroup) (hc : f.c ≠ inactiveGroup)
    (hra : readExtended f.a f.dA s.begun = .ok (a, s1)) (hpa : MWord.bad a = false)
    (hrb : readExtended f.b f.dB s1 = .ok (b, s2)) (hpb : MWord.bad b = false)
    (hcomb : c (posSign a.bits) a.bits b.bits = .sum r) (ho : r.ovf = false)
    (hl : locate f.c f.dC (s2.summed .binary none r true) = .ok (l, s3)) (hadm : s3.admits l) :
    addOp i ⟨.binary, c⟩ true f s =
      .ok ((), (s3.storedExtended l (MWord.good (storeForm .binary r))).ended f.seq true) := by
  have hq1 : s1.env = [] := (steps_readExtended (s := s.begun) hq hra).env.trans hq
  have hq3 : s3.env = [] := (steps_locate hl).1.env.trans ((steps_readExtended hq1 hrb).env.trans hq1)
  have hfirst : firstOperand .binary true none f.a f.dA false s.begun = .ok ((a.bits, ⟨a.bits, posSign a.bits, false⟩, false), s1) := by
    unfold firstOperand
    rw [if_neg (by decide), Op.bind_ok (Op.get_run _), Op.bind_ok (operand_extended hra), hpa]; rfl
  unfold addOp
  rw [hmask, Op.bind_ok (beginForm_run (designated_active ha hb hc) s), Op.bind_ok (isInactive_active ha _ _),
    Op.bind_ok (Op.get_run _), if_neg (by simp), Op.bind_ok (a := none) (t := s.begun) rfl, Op.bind_ok hfirst,
    Op.bind_ok (isInactive_active hb _ _)]
  dsimp only
  rw [if_neg (by decide), Op.bind_ok (operand_extended hrb)]
  dsimp only
  rw [hcomb, hpb]
  unfold resolve leave
  rw [Op.bind_ok (Op.pure_run _ _), Op.bind_ok (Op.pure_run _ _), Op.bind_ok (isInactive_active hc _ _), if_neg (by decide),
    Op.bind_ok (Op.update_run _ _), Op.bind_ok hl, Op.bind_ok (deliverSum_extended hq3 hadm _)]
  dsimp only
  rw [ho]
  exact conclude_ends i f.seq true _

/-- What a change of the location C names leaves, C having been located. -/
theorem passes_located {s u s3 v : State} {c : Group} {d : Bool} {l : Loc} {R : List (BitVec 3 × BitVec 5)} (hp : Passes s u R [])
    (hl : locate c d u = .ok (l, s3)) (hv : Passes s3 v l.regs l.words) : Passes s v (R ++ u.named c d) l.words := by
  obtain ⟨hsteps, hregs⟩ := steps_locate hl
  refine (hp.trans ((Passes.steps hsteps).trans hv)).mono ?_ (by simp)
  exact List.append_subset.mpr ⟨List.subset_append_left _ _, List.append_subset.mpr ⟨List.subset_append_right _ _,
    fun p h => List.subset_append_right _ _ (hregs p h)⟩⟩

end Sys2Proof.Machine
end

section
/-! PROOFS. The statements about the add family with an active C, and about EBA and EBS. -/
namespace Sys2Proof.Settled
open Sys2Proof.Machine

/-- Settles O1: `addOp_delivered` runs it, and `stored_summed` says what the store leaves. -/
theorem addInstructions : Obligations.AddInstructions := by
  intro i k f s s1 s2 s3 a b r l hrow hq hw ha hb hc hm hra hpa hrb hpb hcomb ho hl hadm hold hdec
  obtain ⟨hp, hmem, -, hmr, hlop⟩ := passes_operands hq hra hrb
  obtain ⟨hpass, hholds, hac, hsign, hst, hmr', hlop'⟩ := stored_summed hp (by rw [hmem]; exact hw) hl
  refine ⟨_, (add_run hrow).trans (perform_ok (addOp_delivered hq hc hm (firstAdded_active ha hra hpa) (.inl ⟨hb, b, hrb, hpb, hcomb⟩)
    ho hl hadm hold hdec)), rfl, holds_ended hholds _ _, hac, hsign, acState_ended hst _ _, hmr'.trans hmr, fun hmask => ?_,
    hpass.ends f.seq true⟩
  refine Eq.trans hlop' (Eq.trans ?_ hlop)
  rw [hmask]; rfl

/-- Settles O6: with an inactive B the first operand is the sum, delivered as in `addInstructions`. -/
theorem addOneOperand : Obligations.AddOneOperand := by
  intro i k f s s1 s3 a r l hrow hq hw hb hdb hc hm hf hl hadm hold hdec
  have hs : k.secondAdded (s.maskWord f.mask) f a r r s1 s1 := .inr ⟨hb, hdb, rfl, rfl⟩
  obtain ⟨hp, hmem⟩ := passes_added hq hf hs
  rw [hdb, named_undesignated, List.append_nil] at hp
  obtain ⟨hpass, hholds, hac, hsign, hst, -, -⟩ := stored_summed hp (by rw [hmem]; exact hw) hl
  exact ⟨_, (add_run hrow).trans (perform_ok (addOp_delivered hq hc hm hf hs (firstAdded_ovf hf) hl hadm hold hdec)), rfl,
    holds_ended hholds _ _, hac, hsign, acState_ended hst _ _, hpass.ends f.seq true⟩

/-- Settles O3: the store is that of `addInstructions`, and `conclude_transferred` follows it. -/
theorem addTransfers : Obligations.AddTransfers := by
  intro i k f s s1 s2 s3 a b r l hrow hq hw ha hb hc hm hra hrb hcomb hevent hl hadm hold hdec hct
  obtain ⟨hp, hmem, hsel, -, -⟩ := passes_operands hq hra hrb
  obtain ⟨hpass, -, hac, hsign, -⟩ := stored_summed (v := MWord.good (merged (s.maskWord f.mask) (s3.contents l) (storeForm k.kind r)))
    hp (by rw [hmem]; exact hw) hl
  have hfirst : firstOperand k.kind false (s.maskWord f.mask) f.a f.dA (decide (f.a = inactiveGroup)) (s.begun.masking f.mask) = .ok
      ((gate (s.maskWord f.mask) a.bits, ⟨gate (s.maskWord f.mask) a.bits, loadedSign k.kind s.acSign (gate (s.maskWord f.mask) a.bits),
        false⟩, MWord.bad a), s1) := by
    rw [decide_eq_false ha, firstOperand_active hra, acSign_masked]
  have hrun := addOp_stored (i := i) hq ((steps_readOperand ((passes_masked s f.mask).env.trans hq) hra).env.trans
    ((passes_masked s f.mask).env.trans hq)) hb hc (fun h => ha h.1) (.inl ha) hm hfirst hrb hcomb hl hadm hold hdec
  rw [conclude_transferred hevent (hpass.env.trans hq) hct] at hrun
  generalize hu : s3.stored l (MWord.good (merged (s.maskWord f.mask) (s3.contents l) (storeForm k.kind r))) = u at *
  have hwf : u.mem.wf = true := by
    rw [← hu]
    exact wf_stored (by rw [(steps_locate hl).1.mem]; exact hmem ▸ hw) l _
  have husel : u.sel = s.sel := by
    rw [← hu, sel_stored]
    exact (steps_locate hl).1.sel.trans hsel
  have hcfg : u.cfg = s.cfg := (congrArg State.cfg hpass.outside :)
  have hcur : u.cur = s.cur := hpass.cur
  have hholds := holds_transferred hwf (if MWord.bad a || MWord.bad b then utParity else utOverflow) i
  have hframe := hpass.frame.trans (frame_transferred u (if MWord.bad a || MWord.bad b then utParity else utOverflow) i)
  rw [hcur, husel] at hholds hframe
  rw [hcfg] at hholds
  rw [List.append_nil] at hframe
  exact ⟨_, (add_run hrow).trans (perform_ok hrun), rfl, hac, hsign, hpass.pcr, rfl, _, _, rfl, rfl, hholds, hframe⟩

/-- Settles O7: `addOp_extended` runs it, and the store writes its own form into a special register. -/
theorem extendedAddInstructions : Obligations.ExtendedAddInstructions := by
  intro sub f s s1 s2 s3 a b r l hq hw hext ha hb hc hra hpa hrb hpb hcomb ho hl hadm
  have st1 := steps_readExtended (s := s.begun) hq hra
  have st2 := steps_readExtended (st1.env.trans hq) hrb
  have st3 := (steps_locate hl).1
  have hp := (((passes_begun s).trans (Passes.steps st1)).trans (Passes.steps st2)).trans (passes_summed s2 .binary none r true)
  have hpass := passes_located hp hl (passes_storedExtended s3 l (MWord.good (storeForm .binary r)))
  have hwf : s3.mem.wf = true := by
    have hmem : s3.mem = s.mem := st3.mem.trans (st2.mem.trans st1.mem)
    rw [hmem]; exact hw
  obtain ⟨m, g, y, n, hstored⟩ := storedExtended_eq s3 l (MWord.good (storeForm .binary r))
  refine ⟨_, (exec_extended sub f hext).trans (perform_ok (addOp_extended hq rfl ha hb hc hra hpa hrb hpb hcomb ho hl hadm)), rfl,
    holdsExtended_ended hwf l _ _ _, ?_, ?_, ?_⟩
  · rw [hstored]; exact st3.ac
  · rw [hstored]; exact st3.acSign
  · simp only [List.append_nil, List.nil_append] at hpass
    exact hpass.ends f.seq true

end Sys2Proof.Settled
end

section
/-! SUPPORT. What a multiplication leaves (R260 to R262), and the repeated reading of an accumulation (R265, R266). -/
namespace Sys2Proof.Machine

/-! ### Multiplication -/

section
variable {u s3 : State} {w : Nat → Word} {z : Nat} {c : Group} {d : Bool} {l : Loc}

/-- The halves of a product as the multiply divides it. -/
theorem product_halves {hi lo p B : Nat} (h : hi * B + lo = p) (hlo : lo < B) : p / B = hi ∧ p % B = lo := by
  subst h
  rw [Nat.add_comm, Nat.add_mul_div_right _ _ (by omega), Nat.div_eq_of_lt hlo, Nat.zero_add, Nat.add_mul_mod_self_right,
    Nat.mod_eq_of_lt hlo]
  exact ⟨rfl, rfl⟩

/-- What the arithmetic registers hold once a multiplication has ended (R260). -/
theorem registers_multiplied (s : State) (g seq : Bool) (hi lo : Nat) :
    ((s.multiplied g hi lo).ended seq false).ac = signedWord g hi ∧ ((s.multiplied g hi lo).ended seq false).acState = .delivered ∧
      ((s.multiplied g hi lo).ended seq false).lop = signedWord g lo ∧ ((s.multiplied g hi lo).ended seq false).lopHeld = true ∧
      ((s.multiplied g hi lo).ended seq false).scan = none := by
  unfold State.multiplied
  generalize signedWord g hi = x, signedWord g lo = y
  exact ⟨rfl, rfl, rfl, rfl, rfl⟩

theorem mem_multiplied (s : State) (g seq : Bool) (hi lo : Nat) : ((s.multiplied g hi lo).ended seq false).mem = s.mem := by
  obtain ⟨x, y, e⟩ := multiplied_eq s g hi lo
  rw [e, State.ended_mem]

theorem wf_scratched (h : u.mem.wf = true) (w : Nat → Word) (z : Nat) : (u.scratched w z).mem.wf = true := wf_tabulated h w z

/-- The high-order half stands at C once the product is in the registers (R260). -/
theorem holds_multiplied (hw : u.mem.wf = true) (hl : locate c d (u.scratched w z) = .ok (l, s3)) (seq g : Bool) (hi lo : Nat) (x : Word) :
    (((s3.stored l (MWord.good x)).multiplied g hi lo).ended seq false).holds l (MWord.good x) := by
  have hwf : s3.mem.wf = true := by rw [(steps_locate hl).1.mem]; exact wf_scratched hw w z
  obtain ⟨y, v, e⟩ := multiplied_eq (s3.stored l (MWord.good x)) g hi lo
  rw [e]
  exact holds_ended (State.holds_mono (State.holds_stored hwf l (MWord.good x)) rfl rfl rfl (fun _ _ => rfl) fun _ _ _ _ => rfl) seq false

/-- The multiples of A stand in low memory with bad parity, but where the product went (R262, D24). -/
theorem word_multiplied (hw : u.mem.wf = true) (hz : z ≤ 17) (hl : locate c d (u.scratched w z) = .ok (l, s3)) (seq g : Bool)
    (hi lo : Nat) (v : MWord) {k : Nat} (hk : k < z) (hkl : k ∉ l.words) :
    ((((s3.stored l v).multiplied g hi lo).ended seq false).mem.word k).bits = w k ∧
      MWord.bad ((((s3.stored l v).multiplied g hi lo).ended seq false).mem.word k) = true := by
  have hne : l ≠ .mem k := by
    rintro rfl
    exact hkl (List.mem_singleton.mpr rfl)
  have hword : (((s3.stored l v).multiplied g hi lo).ended seq false).mem.word k = (u.tabulated w z).mem.word k := by
    rw [mem_multiplied, word_stored_other hne v, (steps_locate hl).1.mem]; rfl
  rw [hword]
  exact word_tabulated hw w z k hk hz

/-- What a multiplication leaves alone. -/
theorem ends_multiplied {s : State} {R : List (BitVec 3 × BitVec 5)} (hp : Passes s u R [])
    (hl : locate c d (u.scratched w z) = .ok (l, s3)) (seq g : Bool) (hi lo : Nat) (v : MWord) :
    Ends s (((s3.stored l v).multiplied g hi lo).ended seq false) seq
      (R ++ [(s.cur, au1)] ++ (u.scratched w z).named c d ++ l.regs) (l.words ++ List.range z) := by
  have hs := passes_scratched u w z
  rw [hp.cur] at hs
  have hpass := (((hp.trans hs).trans (Passes.steps (steps_locate hl).1)).trans (Passes.stored s3 l v)).trans
    (passes_multiplied _ g hi lo)
  refine (hpass.mono ?_ ?_).ends seq false
  · simp only [List.append_nil]
    exact List.Subset.refl _
  · simp only [List.append_nil, List.nil_append]
    exact List.append_subset.mpr ⟨List.subset_append_right _ _, List.subset_append_left _ _⟩

end

theorem multiplyBinary_run {i : Instr} {f : Gen} {s s2 : State} {a b : MWord} (h : multiplyOperands f s = .ok ((a, b), s2)) :
    multiplyBinary i f s = multiply i f 16 a b (fun k => BitVec.ofNat 48 (k * mag a.bits)) (posSign a.bits == posSign b.bits)
      (mag a.bits * mag b.bits / 2 ^ 44) (mag a.bits * mag b.bits % 2 ^ 44) s2 := by
  unfold multiplyBinary
  rw [Op.bind_ok h]

theorem decimalMultiple_decimal {a : Word} (h : isDecimal 11 (mag a) = true) (n : Nat) :
    decimalMultiple a n = fun k => BitVec.ofNat 48 (toDecimal 12 (k * decimalValue 11 (mag a))) := by
  funext k
  unfold decimalMultiple
  rw [if_pos h]

theorem multiplyDecimal_run {i : Instr} {f : Gen} {s s2 : State} {a b : MWord} (h : multiplyOperands f s = .ok ((a, b), s2))
    (ha : isDecimal 11 (mag a.bits) = true) (hb : isDecimal 11 (mag b.bits) = true) :
    multiplyDecimal i f s = multiply i f 10 a b (fun k => BitVec.ofNat 48 (toDecimal 12 (k * decimalValue 11 (mag a.bits))))
      (posSign a.bits == posSign b.bits)
      (toDecimal 11 (decimalValue 11 (mag a.bits) * decimalValue 11 (mag b.bits) / 10 ^ 11))
      (toDecimal 11 (decimalValue 11 (mag a.bits) * decimalValue 11 (mag b.bits) % 10 ^ 11)) s2 := by
  unfold multiplyDecimal
  rw [Op.bind_ok h, Op.bind_ok (Op.get_run s2)]
  dsimp only
  rw [ha, hb, Bool.and_self, if_pos rfl, decimalMultiple_decimal ha]

/-! ### Accumulation -/

/-- The total `t` and the overflow `v` of an accumulation become `t'` and `v'` with one more word (R245, R265, R266). -/
def Accumulates (dec : Bool) (t : Nat) (v : Bool) (w : Word) (t' : Nat) (v' : Bool) : Prop :=
  if dec then ∃ ds c, decimalAdd t (mag w) = .sum ds c ∧ t' = ofDigits ds ∧ v' = (v || decide (0 < c))
  else t' = (t + mag w) % 2 ^ 44 ∧ v' = (v || decide (2 ^ 44 ≤ t + mag w))

theorem accumulateStep_run {dec : Bool} {t t' : Nat} {v v' : Bool} {w : Word} (h : Accumulates dec t v w t' v') (g : Bool) (s : State) :
    accumulateStep dec ⟨t, g, v⟩ w s = .ok (⟨t', g, v'⟩, s) := by
  unfold accumulateStep
  cases dec with
  | true =>
    obtain ⟨ds, c, hsum, rfl, rfl⟩ := h
    rw [if_pos rfl]
    dsimp only
    rw [hsum]; rfl
  | false =>
    obtain ⟨rfl, rfl⟩ := h
    rfl

/-- The words of an accumulation: each of good parity, its address group evaluated in the state the one before left. -/
def ReadsWords (x : Group) (d : Bool) (n : Nat) (σ : Nat → State) (w : Nat → MWord) : Prop :=
  ∀ k, k < n → readOperand x d (σ k) = .ok (w k, σ (k + 1)) ∧ MWord.bad (w k) = false

section
variable {x : Group} {d : Bool} {n : Nat} {σ : Nat → State} {w : Nat → MWord}

/-- The repeated reading of A changes only the registers its evaluations name. -/
theorem steps_readsWords (hr : ReadsWords x d n σ w) (hq : (σ 0).env = []) :
    Steps (σ 0) (σ n) ((List.range n).flatMap fun k => (σ k).named x d) := by
  induction n with
  | zero => exact .refl _ _
  | succ n ih =>
    have hrest := ih fun k hk => hr k (Nat.lt_succ_of_lt hk)
    have hlast := steps_readOperand (hrest.env.trans hq) (hr n (Nat.lt_succ_self n)).1
    rw [List.range_succ, List.flatMap_append, List.flatMap_singleton]
    exact hrest.trans hlast

/-- The words after the first, added one by one. -/
theorem accumulateRest_run {dec : Bool} {T : Nat → Nat} {V : Nat → Bool} (hr : ReadsWords x d n σ w)
    (ht : ∀ k, 0 < k → k < n → Accumulates dec (T k) (V k) (w k).bits (T (k + 1)) (V (k + 1))) (g : Bool) (m : Nat) {k : Nat} (hk : 0 < k)
    (hn : k + m = n) : accumulateRest dec x d m ⟨T k, g, V k⟩ false (σ k) = .ok ((⟨T n, g, V n⟩, false), σ n) := by
  induction m generalizing k with
  | zero => rw [← hn]; rfl
  | succ m ih =>
    obtain ⟨hread, hgood⟩ := hr k (by omega)
    unfold accumulateRest
    rw [Op.bind_ok hread, Op.bind_ok (accumulateStep_run (ht k hk (by omega)) g _), hgood]
    exact ih (Nat.succ_pos k) (by omega)

end

theorem passes_totalled (s : State) (g : Bool) (n : Nat) : Passes s (s.totalled g n) [] [] := Passes.quiet rfl rfl rfl rfl

/-- A count of zero leaves only the end of the instruction (R265; logs 25, 26). -/
theorem accumulate_nothing {i : Instr} {dec : Bool} {f : Gen} (s : State) (ha : f.a ≠ inactiveGroup) (hc : f.c ≠ inactiveGroup)
    (hn : (fld f.b 1 6).toNat = 0) : accumulate i dec f s = .ok ((), s.begun.intervened.ended f.seq true) := by
  have hb : f.b = inactiveGroup → f.dB = false := fun e => by
    rw [e] at hn
    exact absurd hn (by decide)
  have hdg := designated_of (f := genForm f) (fun e => absurd e ha) hb fun e => absurd e hc
  unfold accumulate
  rw [Op.bind_ok (beginForm_run hdg s), Op.bind_ok (needActive_active ha _ _), Op.bind_ok (needActive_active hc _ _), hn]
  rfl

/-- BT and DT up to their end (R265). -/
theorem accumulate_stored {i : Instr} {dec : Bool} {f : Gen} {s s3 : State} {n : Nat} {σ : Nat → State} {w : Nat → MWord}
    {T : Nat → Nat} {V : Nat → Bool} {l : Loc} (hq : s.env = []) (ha : f.a ≠ inactiveGroup) (hc : f.c ≠ inactiveGroup)
    (hb : f.b = inactiveGroup → f.dB = false) (hn : (fld f.b 1 6).toNat = n) (hpos : 0 < n) (h0 : σ 0 = s.begun)
    (hr : ReadsWords f.a f.dA n σ w) (hT : T 1 = mag (w 0).bits) (hV : V 1 = false)
    (ht : ∀ k, 0 < k → k < n → Accumulates dec (T k) (V k) (w k).bits (T (k + 1)) (V (k + 1)))
    (hl : locate f.c f.dC ((σ n).totalled (posSign (w 0).bits) (T n)) = .ok (l, s3)) (hadm : s3.admits l) :
    accumulate i dec f s = conclude i f.seq true false (V n)
      (s3.stored l (MWord.good (signedWord (posSign (w 0).bits) (T n)))) := by
  obtain ⟨m, rfl⟩ : ∃ m, n = m + 1 := ⟨n - 1, by omega⟩
  have hq0 : (σ 0).env = [] := h0 ▸ hq
  have hq3 : s3.env = [] := (steps_locate hl).1.env.trans ((steps_readsWords hr hq0).env.trans hq0)
  obtain ⟨hread, hgood⟩ := hr 0 hpos
  rw [h0] at hread
  have hrest := accumulateRest_run hr ht (posSign (w 0).bits) m Nat.one_pos (Nat.add_comm 1 m)
  rw [hT, hV] at hrest
  have hdg := designated_of (f := genForm f) (fun e => absurd e ha) hb fun e => absurd e hc
  unfold accumulate
  rw [Op.bind_ok (beginForm_run hdg s), Op.bind_ok (needActive_active ha _ _), Op.bind_ok (needActive_active hc _ _), hn]
  dsimp only
  rw [Op.bind_ok hread, hgood, Op.bind_ok hrest, Op.bind_ok (Op.update_run _ _), Op.bind_ok hl, Op.bind_ok (store_admitted hq3 hadm _)]

theorem exec_accumulate (dec : Bool) (f : Gen) (s : State) :
    exec (if dec then .dt f else .bt f) s = perform (accumulate (if dec then .dt f else .bt f) dec f) s := by
  cases dec <;> rfl

end Sys2Proof.Machine
end

section
/-! PROOFS. The statements about multiplication and accumulation. -/
namespace Sys2Proof.Settled
open Sys2Proof.Machine

/-- Settles O8: `multiply_run` runs it from the operands read. -/
theorem binaryMultiply : Obligations.BinaryMultiply := by
  intro f s s1 s2 s3 a b l hi lo sign hq hw ha hb hc hra hpa hrb hpb hn hprod hlo hsign hl hadm
  obtain ⟨hp, hmem, -⟩ := passes_operands (f := genForm f) hq hra hrb
  have hw2 : s2.mem.wf = true := by rw [hmem]; exact hw
  obtain ⟨hhi, hlow⟩ := product_halves hprod hlo
  have hrun := (multiplyBinary_run (i := .bm f) (multiplyOperands_run ha hb hc hn hra hrb)).trans
    (multiply_run (hp.env.trans hq) hpa hpb hl hadm)
  rw [hhi, hlow, ← hsign] at hrun
  obtain ⟨hac, hst, hlop, hheld, hscan⟩ := registers_multiplied (s3.stored l (MWord.good (signedWord sign hi))) sign f.seq hi lo
  exact ⟨_, perform_ok hrun, rfl, holds_multiplied hw2 hl _ _ _ _ _, hac, hst, hlop, hheld, hscan,
    fun _ => word_multiplied hw2 (by decide) hl _ _ _ _ _, ends_multiplied hp hl _ _ _ _ _⟩

/-- Settles O9: as `binaryMultiply`, with the values of the digits. -/
theorem decimalMultiply : Obligations.DecimalMultiply := by
  intro f s s1 s2 s3 a b l hi lo va vb sign hq hw ha hb hc hra hpa hrb hpb hn hda hdb hva hvb hprod hlo hsign hl hadm
  obtain ⟨hp, hmem, -⟩ := passes_operands (f := genForm f) hq hra hrb
  have hw2 : s2.mem.wf = true := by rw [hmem]; exact hw
  obtain ⟨hhi, hlow⟩ := product_halves hprod hlo
  have hrun := multiplyDecimal_run (i := .dm f) (multiplyOperands_run ha hb hc hn hra hrb) hda hdb
  rw [← hva, ← hvb, hhi, hlow, ← hsign, multiply_run (hp.env.trans hq) hpa hpb hl hadm] at hrun
  obtain ⟨-, hst, hlop, hheld, hscan⟩ := registers_multiplied (s3.stored l (MWord.good (signedWord sign (toDecimal 11 hi)))) sign f.seq
    (toDecimal 11 hi) (toDecimal 11 lo)
  exact ⟨_, perform_ok hrun, rfl, holds_multiplied hw2 hl _ _ _ _ _, hst, hlop, hheld, hscan,
    fun _ => word_multiplied hw2 (by decide) hl _ _ _ _ _, ends_multiplied hp hl _ _ _ _ _⟩

/-- Settles O10: `accumulate_stored` runs it up to its end, which is `conclude` with the overflow of the total. -/
theorem accumulateInstructions : Obligations.AccumulateInstructions := by
  intro dec f s s3 u n σ w T V l hq hw ha hc hb hn hpos h0 hr hT hV ht hl hadm hu
  subst hu
  have hread : ReadsWords f.a f.dA n σ w := hr
  have hq0 : (σ 0).env = [] := h0 ▸ hq
  have hsteps := steps_readsWords hread hq0
  have hp0 : Passes s (σ 0) [] [] := h0 ▸ passes_begun s
  have hp := (hp0.trans (Passes.steps hsteps)).trans (passes_totalled (σ n) (posSign (w 0).bits) (T n))
  have hw0 : ((σ n).totalled (posSign (w 0).bits) (T n)).mem.wf = true := by
    change (σ n).mem.wf = true
    rw [hsteps.mem, h0]; exact hw
  simp only [List.append_nil, List.nil_append] at hp
  obtain ⟨hpass, hholds, hac, -⟩ := stored_located (v := MWord.good (signedWord (posSign (w 0).bits) (T n))) hp hw0 hl
  have hrun := accumulate_stored (i := if dec then .dt f else .bt f) hq ha hc hb hn hpos h0 hread hT hV ht hl hadm
  refine ⟨hholds, hac, hpass.pcr, hpass.outside, fun h j hA hC => hpass.frame.regs h j ?_, hpass.frame.bytes, fun hV0 => ?_,
    fun hV1 hct => ?_⟩
  · simp only [List.mem_append, List.mem_flatMap, List.mem_range, not_or, not_exists, not_and]
    exact ⟨hA, hC⟩
  · rw [hV0] at hrun
    exact ⟨_, (exec_accumulate dec f s).trans (perform_ok hrun), rfl⟩
  · rw [hV1, conclude_overflow, unprogrammedTransfer_ready (hpass.env.trans hq) hct] at hrun
    exact ⟨_, (exec_accumulate dec f s).trans (perform_ok hrun), rfl⟩

/-- Settles O11: with a count of zero only the end of the instruction is left. -/
theorem accumulateNothing : Obligations.AccumulateNothing := by
  intro dec f s ha hc hn
  have hp : Passes s s.begun.intervened [] [] := Passes.quiet rfl rfl rfl rfl
  exact ⟨_, (exec_accumulate dec f s).trans (perform_ok (accumulate_nothing s ha hc hn)), rfl, rfl, rfl, rfl, hp.ends f.seq true⟩

end Sys2Proof.Settled
end

section
/-! SUPPORT. The logical instructions (R290 to R293) run on operands of good parity, and what a result leaves that is stored with location 00000
spoiled (R231), as EX, SS and the shifts store theirs. -/
namespace Sys2Proof.Machine

/-! ### The store of EX, SS and the shifts -/

/-- Location 00000 is spoiled where traffic control has nothing to do (R231). -/
theorem spoilZero_quiet {s : State} (hq : s.env = []) (l : Loc) : spoilZero l s = .ok ((), s.zeroSpoiled l) := by
  cases l with
  | reg g j inc =>
    unfold spoilZero
    dsimp only
    rw [Op.bind_ok (tick_quiet hq)]; rfl
  | mem a => rfl
  | inactive => rfl

theorem spoilZero_stored {s : State} (hq : s.env = []) (l : Loc) (v : MWord) :
    spoilZero l (s.stored l v) = .ok ((), (s.stored l v).zeroSpoiled l) :=
  spoilZero_quiet ((Passes.stored s l v).env.trans hq) l

/-- The store changes memory and registers, and what the model keeps for itself. -/
theorem stored_spoiled_eq (s : State) (l : Loc) (v : MWord) :
    ∃ m r y n, (s.stored l v).zeroSpoiled l = { s with mem := m, regs := r, typeSpoiled := y, free := n } := by
  obtain ⟨m, r, y, n, estored⟩ := State.stored_eq s l v
  obtain ⟨m', y', n', espoiled⟩ := spoiled_eq (s.stored l v) l
  rw [espoiled, estored]
  exact ⟨m', r, y', n', rfl⟩

/-- What a result leaves that is stored in the state `v`, which the arithmetic has made of the state `s3` where C was located. -/
theorem stored_spoiled_leaves {s u s3 v : State} {c : Group} {d : Bool} {l : Loc} {R : List (BitVec 3 × BitVec 5)} (hp : Passes s u R [])
    (hw : u.mem.wf = true) (hl : locate c d u = .ok (l, s3)) (hv : Passes s3 v [] []) (hm : v.mem = s3.mem) (w : MWord)
    (seq hunt : Bool) :
    (((v.stored l w).zeroSpoiled l).ended seq hunt).holds l w ∧ (((v.stored l w).zeroSpoiled l).ended seq hunt).ac = v.ac ∧
      (((v.stored l w).zeroSpoiled l).ended seq hunt).lop = v.lop ∧ (((v.stored l w).zeroSpoiled l).ended seq hunt).mr = v.mr ∧
      Ends s (((v.stored l w).zeroSpoiled l).ended seq hunt) seq (R ++ u.named c d) (l.words ++ l.spoils) := by
  have hwf : v.mem.wf = true := by rw [hm, (steps_locate hl).1.mem]; exact hw
  have hpass := (passes_located hp hl (hv.trans (Passes.stored v l w))).trans (Passes.zeroSpoiled (v.stored l w) l)
  rw [List.append_nil] at hpass
  obtain ⟨m, r, y, n, e⟩ := stored_spoiled_eq v l w
  exact ⟨holds_ended (holds_spoiled (State.holds_stored hwf l w)) seq hunt, (congrArg State.ac e :), (congrArg State.lop e :),
    (congrArg State.mr e :), hpass.ends seq hunt⟩

/-! ### HA and SM -/

/-- HA and SM up to their end (R290, R291). -/
theorem logicalOp_stored {i : Instr} {g : Word → Word → Word} {f : Form} {s s1 s2 s3 : State} {a b : MWord} {l : Loc} {w : Word}
    (hq : s.env = []) (ha : f.a ≠ inactiveGroup) (hb : f.b ≠ inactiveGroup) (hc : f.c ≠ inactiveGroup) (hm : s.begun.maskReady f.mask)
    (hra : readOperand f.a f.dA (s.begun.masking f.mask) = .ok (a, s1)) (hpa : MWord.bad a = false)
    (hrb : readOperand f.b f.dB s1 = .ok (b, s2)) (hpb : MWord.bad b = false)
    (hw : w = g (gate (s.maskWord f.mask) a.bits) (gate (s.maskWord f.mask) b.bits))
    (hl : locate f.c f.dC (s2.combined (s.maskWord f.mask) w) = .ok (l, s3)) (hadm : s3.admits l)
    (hold : f.mask.isSome = true → MWord.bad (s3.contents l) = false) :
    logicalOp i g f s =
      .ok ((), (s3.stored l (MWord.good (merged (s.maskWord f.mask) (s3.contents l) w))).ended f.seq true) := by
  subst hw
  have hmw : s.begun.maskWord f.mask = s.maskWord f.mask := rfl
  have hq3 : s3.env = [] := (steps_locate hl).1.env.trans ((passes_operands hq hra hrb).1.env.trans hq)
  unfold logicalOp
  rw [Op.bind_ok (beginForm_run (designated_active ha hb hc) s), Op.bind_ok (needActive_active ha _ _),
    Op.bind_ok (needActive_active hb _ _), Op.bind_ok (needActive_active hc _ _), Op.bind_ok (maskOf_ready (s := s.begun) hq hm), hmw,
    Op.bind_ok hra, Op.bind_ok hrb, Op.bind_ok (Op.update_run _ _), Op.bind_ok hl,
    Op.bind_ok (deliver_admitted hq3 hadm (fun h => hold (isSome_maskWord h)) _), maskBad_ready (s := s) hm, hpa, hpb]
  rfl

/-- The accumulator at the end of an instruction is as it was, or, with a hunt, as a hunt leaves it (R43). -/
theorem acState_ended_cases (s : State) (seq hunt : Bool) :
    (s.ended seq hunt).acState = s.acState.dropped ∨ (s.ended seq hunt).acState = s.acState :=
  ite_eq_or_eq _ _ _

theorem acSign_operands {f : Form} {s s1 s2 : State} {a b : MWord} (hq : s.env = [])
    (hra : readOperand f.a f.dA (s.begun.masking f.mask) = .ok (a, s1)) (hrb : readOperand f.b f.dB s1 = .ok (b, s2)) :
    s2.acSign = s.acSign := by
  have st1 := steps_readOperand ((passes_masked s f.mask).env.trans hq) hra
  have st2 := steps_readOperand (st1.env.trans ((passes_masked s f.mask).env.trans hq)) hrb
  exact (st2.acSign.trans st1.acSign).trans (acSign_masked s f.mask)

/-! ### EX -/

/-- An operation that begins with an address group found active or inactive, as the operand and the mask of EX do. -/
theorem undesignated_of_bind {α : Type} {x : Group} {d : Bool} {k : Bool → Op α} {s : State} {r : α × State}
    (h : (isInactive x d >>= k) s = .ok r) (hx : x = inactiveGroup) : d = false := by
  rw [Op.bind_run] at h
  split at h
  · rename_i e; exact undesignated_of_isInactive e hx
  · cases h

section
variable {i : Instr} {f : Gen} {s s1 s2 : State} {a m : MWord}

/-- The operand and the mask of EX taken leave memory, and what they do not name. -/
theorem passes_extract (hq : s.env = []) (hsrc : extractSource f s.begun = .ok (a, s1)) (hmask : extractMask f s1 = .ok (m, s2)) :
    Passes s s2 (s.named f.a f.dA ++ s1.named f.b f.dB) [] ∧ s2.mem = s.mem ∧ (f.b = inactiveGroup → m = MWord.good s.mr) := by
  have st1 := steps_extractSource (s := s.begun) hq hsrc
  obtain ⟨st2, hreg⟩ := steps_extractMask (st1.env.trans hq) hmask
  refine ⟨((passes_begun s).trans (Passes.steps st1)).trans (Passes.steps st2), st2.mem.trans st1.mem, fun hb => ?_⟩
  have hmr : s1.mr = s.mr := st1.mr
  rw [hreg hb, hmr]

/-- EX with an active C (R293). -/
theorem extractOp_stored {s3 : State} {l : Loc} (hq : s.env = []) (hsrc : extractSource f s.begun = .ok (a, s1))
    (hpa : MWord.bad a = false) (hmask : extractMask f s1 = .ok (m, s2)) (hpm : MWord.bad m = false) (hc : f.c ≠ inactiveGroup)
    (hl : locate f.c f.dC (State.logical { s2 with mr := m.bits } a.bits (a.bits &&& m.bits) true) = .ok (l, s3))
    (hadm : s3.admits l) :
    extractOp i f s = .ok ((), ((s3.stored l (MWord.good (a.bits &&& m.bits))).zeroSpoiled l).ended f.seq true) := by
  have hq3 : s3.env = [] := (steps_locate hl).1.env.trans ((passes_extract hq hsrc hmask).1.env.trans hq)
  have hdg := designated_of (f := genForm f) (undesignated_of_bind hsrc) (undesignated_of_bind hmask)
    fun e => absurd e hc
  unfold extractOp leaveLogical
  rw [Op.bind_ok (beginForm_run hdg s), Op.bind_ok hsrc, Op.bind_ok hmask, Op.bind_ok (Op.update_run _ _),
    Op.bind_ok (Op.update_run _ _), Op.bind_ok (isInactive_active hc _ _), if_neg (by decide), Op.bind_ok hl,
    Op.bind_ok (store_admitted hq3 hadm _), Op.bind_ok (spoilZero_stored hq3 l _), hpa, hpm]
  rfl

/-- EX with an inactive C leaves its result in the low-order product register (R293). -/
theorem extractOp_kept (hsrc : extractSource f s.begun = .ok (a, s1)) (hpa : MWord.bad a = false)
    (hmask : extractMask f s1 = .ok (m, s2)) (hpm : MWord.bad m = false) (hc : f.c = inactiveGroup) (hd : f.dC = false) :
    extractOp i f s = .ok ((), (State.logical { s2 with mr := m.bits } a.bits (a.bits &&& m.bits) true).ended f.seq false) := by
  have hdg := designated_of (f := genForm f) (undesignated_of_bind hsrc) (undesignated_of_bind hmask) fun _ => hd
  unfold extractOp leaveLogical
  rw [Op.bind_ok (beginForm_run hdg s), Op.bind_ok hsrc, Op.bind_ok hmask, Op.bind_ok (Op.update_run _ _),
    Op.bind_ok (Op.update_run _ _), Op.bind_ok (isInactive_of hc hd _), if_pos rfl, hpa, hpm]
  rfl

/-! ### SS -/

/-- SS up to its end (R292): C is read where it is located, and written there. -/
theorem substituteOp_stored {s3 : State} {l : Loc} (hq : s.env = []) (ha : f.a ≠ inactiveGroup) (hb : f.b ≠ inactiveGroup)
    (hc : f.c ≠ inactiveGroup) (hra : readOperand f.a f.dA s.begun = .ok (a, s1)) (hpa : MWord.bad a = false)
    (hrm : readOperand f.b f.dB s1 = .ok (m, s2)) (hpm : MWord.bad m = false)
    (hl : locate f.c f.dC { s2 with mr := m.bits } = .ok (l, s3)) (hadm : s3.admits l) (hold : MWord.bad (s3.contents l) = false) :
    substituteOp i f s = .ok ((), (((s3.logical a.bits (protect a.bits m.bits (s3.contents l).bits) true).stored l
      (MWord.good (protect a.bits m.bits (s3.contents l).bits))).zeroSpoiled l).ended f.seq true) := by
  have hq3 : s3.env = [] := (steps_locate hl).1.env.trans ((passes_operands (f := genForm f) hq hra hrm).1.env.trans hq)
  have hql (x y : Word) : (s3.logical x y true).env = [] := hq3
  have hadml (x y : Word) : (s3.logical x y true).admits l := by cases l <;> exact hadm
  unfold substituteOp leaveLogical
  rw [Op.bind_ok (beginForm_run (designated_active (f := genForm f) ha hb hc) s), Op.bind_ok (needActive_active ha _ _),
    Op.bind_ok (needActive_active hb _ _), Op.bind_ok (needActive_active hc _ _), Op.bind_ok hra, Op.bind_ok hrm,
    Op.bind_ok (Op.update_run _ _), Op.bind_ok hl, Op.bind_ok (peek_admitted hq3 hadm), Op.bind_ok (Op.update_run _ _),
    Op.bind_ok (store_admitted (hql _ _) (hadml _ _) _), Op.bind_ok (spoilZero_stored (hql _ _) l _), hpa, hpm, hold]
  rfl

end

/-! ### The bits of a rotation (R370) -/

/-- The bits of a word rotated right, counted from its low-order end: each comes from `n` places higher, end around. -/
theorem getLsbD_rotateRight_mod {w : Nat} (x : BitVec w) (n : Nat) {k : Nat} (hk : k < w) :
    (x.rotateRight (n % w)).getLsbD k = x.getLsbD ((k + n) % w) := by
  have hn : n % w < w := Nat.mod_lt _ (by omega)
  rw [BitVec.getLsbD_rotateRight, Nat.mod_mod, ← Nat.add_mod_mod k n w]
  rcases Nat.lt_or_ge k (w - n % w) with h | h
  · rw [decide_eq_true h, cond_true, Nat.add_comm, Nat.mod_eq_of_lt (a := k + n % w) (by omega)]
  · have hmod : (k + n % w) % w = k - (w - n % w) := by
      rw [Nat.mod_eq_sub_mod (a := k + n % w) (by omega), Nat.mod_eq_of_lt (a := k + n % w - w) (by omega)]
      omega
    rw [decide_eq_false (by omega), cond_false, decide_eq_true hk, Bool.true_and, hmod]

/-- The whole word rotated (R370): bit `k` was bit `k - n`, end around. -/
theorem bitAt_rotr48 (a : Word) (n : Nat) {k : Nat} (h1 : 1 ≤ k) (h48 : k ≤ 48) :
    bitAt (rotr48 a n) k = bitAt a ((((k : Int) - 1 - n) % 48).toNat + 1) := by
  unfold bitAt rotr48
  rw [getLsbD_rotateRight_mod a n (by omega)]
  congr 1
  omega

/-- Bits 5 to 48 rotated (R370): the sign stays, and bit `k` was bit `k - n`, end around among the 44. -/
theorem bitAt_rotr44 (a : Word) (n : Nat) {k : Nat} (h1 : 1 ≤ k) (h48 : k ≤ 48) :
    bitAt (rotr44 a n) k = if k < 5 then bitAt a k else bitAt a ((((k : Int) - 5 - n) % 44).toNat + 5) := by
  unfold rotr44
  split
  · exact bitAt_setFld (i := 5) (j := 48) a _ (by omega) ⟨h1, h48⟩ (.inl ‹_›)
  · unfold bitAt
    rw [getLsbD_setFld, if_pos (by omega), getLsbD_rotateRight_mod (w := 44) (fld a 5 48) n (by omega)]
    unfold fld
    rw [BitVec.getLsbD_extractLsb', decide_eq_true (by omega), Bool.true_and]
    congr 1
    omega

end Sys2Proof.Machine
end

section
/-! PROOFS. The statements about the logical instructions, and about the bits of a rotation. -/
namespace Sys2Proof.Settled
open Sys2Proof.Machine

/-- Settles O12: `logicalOp_stored` runs it, and `stored_located` says what the store leaves. -/
theorem logicalInstructions : Obligations.LogicalInstructions := by
  intro i g f s s1 s2 s3 a b l w hrow hq hw ha hb hc hm hra hpa hrb hpb hword hl hadm hold
  obtain ⟨hp, hmem, -, hmr, hlop⟩ := passes_operands hq hra hrb
  have hsign : s2.acSign = s.acSign := acSign_operands hq hra hrb
  have hcombined := hp.trans (passes_combined s2 (s.maskWord f.mask) w)
  rw [List.append_nil] at hcombined
  obtain ⟨hpass, hholds, hac, hsign', hst, hmr', hlop', -⟩ := stored_located (v := MWord.good (merged (s.maskWord f.mask) (s3.contents l) w))
    hcombined (hmem ▸ hw) hl
  refine ⟨_, (logical_run hrow).trans (perform_ok (logicalOp_stored hq ha hb hc hm hra hpa hrb hpb hword hl hadm hold)), rfl,
    holds_ended hholds _ _, hac, hsign'.trans hsign,
    (acState_ended_cases _ _ _).imp (·.trans (congrArg AcState.dropped hst)) (·.trans hst), hmr'.trans hmr, fun hmask => ?_,
    hpass.ends f.seq true⟩
  refine Eq.trans hlop' (Eq.trans ?_ hlop)
  rw [hmask]; exact lop_combined s2 _

/-- Settles O14: EX runs by `extractOp_stored` or, with an inactive C, by `extractOp_kept`. -/
theorem extractInstruction : Obligations.ExtractInstruction := by
  intro f s s1 s2 a m hq hw hsrc hpa hmask hpm
  obtain ⟨hp, hmem, hreg⟩ := passes_extract hq hsrc hmask
  have hlogical := (hp.trans (passes_mr s2 m.bits)).trans
    (passes_logical { s2 with mr := m.bits } a.bits (a.bits &&& m.bits) true)
  simp only [List.append_nil] at hlogical
  refine ⟨hreg, fun hc l s3 hl hadm => ?_, fun hc hd => ?_⟩
  · have st3 := (steps_locate hl).1
    obtain ⟨hholds, hac, hlop, hmr, hends⟩ := stored_spoiled_leaves hlogical (hmem ▸ hw) hl (Passes.quiet rfl rfl rfl rfl) rfl
      (MWord.good (a.bits &&& m.bits)) f.seq true
    exact ⟨_, perform_ok (extractOp_stored hq hsrc hpa hmask hpm hc hl hadm), rfl, hholds, hac.trans st3.ac, hlop.trans st3.lop,
      hmr.trans st3.mr, hends⟩
  · exact ⟨_, perform_ok (extractOp_kept hsrc hpa hmask hpm hc hd), rfl, rfl, rfl, rfl, rfl, rfl, rfl, hlogical.ends f.seq false⟩

/-- Settles O15: `substituteOp_stored` runs it, and `stored_spoiled_leaves` says what its store leaves. -/
theorem substituteInstruction : Obligations.SubstituteInstruction := by
  intro f s s1 s2 s3 a m l hq hw ha hb hc hra hpa hrm hpm hl hadm hold
  obtain ⟨hp, hmem, -⟩ := passes_operands (f := genForm f) hq hra hrm
  have hmasked := hp.trans (passes_mr s2 m.bits)
  rw [List.append_nil] at hmasked
  obtain ⟨hholds, hac, hlop, hmr, hends⟩ := stored_spoiled_leaves hmasked (hmem ▸ hw) hl
    (passes_logical s3 a.bits (protect a.bits m.bits (s3.contents l).bits) true) rfl
    (MWord.good (protect a.bits m.bits (s3.contents l).bits)) f.seq true
  exact ⟨_, perform_ok (substituteOp_stored hq ha hb hc hra hpa hrm hpm hl hadm hold), hholds, hac, hmr.trans (steps_locate hl).1.mr,
    hlop, hends⟩

/-- Settles O13: the rotations by `bitAt_rotr48` and `bitAt_rotr44`. -/
theorem logicalAndShiftBits : Obligations.LogicalAndShiftBits := by
  intro f m a b k h1 h48
  refine ⟨⟨_, rfl, rfl, ?_⟩, ⟨_, rfl, rfl, ?_⟩, ⟨_, rfl, rfl, rfl, fun n => bitAt_rotr48 a n h1 h48⟩,
    ⟨_, rfl, rfl, fun n => bitAt_rotr44 a n h1 h48⟩⟩
  · exact BitVec.getLsbD_xor
  · exact BitVec.getLsbD_or

end Sys2Proof.Settled
end

section
/-! SUPPORT. TX and TS (R310, R311): the word copied, and what is left alone. -/
namespace Sys2Proof.Machine

theorem masking_noAc (s : State) (k : Option (BitVec 5)) : s.noAc.masking k = (s.masking k).noAc := by
  have hword : s.noAc.maskWord k = s.maskWord k := by cases k <;> rfl
  unfold State.masking
  rw [hword]
  cases s.maskWord k with
  | none => rfl
  | some m => rfl

/-! ### TX -/

/-- TX up to its end (R310). -/
theorem transferOp_stored {i : Instr} {f : Form} {s s1 s3 : State} {w : MWord} {l : Loc} (hq : s.env = []) (ha : f.a ≠ inactiveGroup)
    (hc : f.c ≠ inactiveGroup) (hb : f.b = inactiveGroup → f.dB = false) (hm : s.begun.noAc.maskReady f.mask)
    (hr : readOperand f.a f.dA (s.begun.noAc.masking f.mask) = .ok (w, s1)) (hbad : MWord.bad w = false)
    (hl : locate f.c f.dC s1 = .ok (l, s3)) (hadm : s3.admits l) (hold : f.mask.isSome = true → MWord.bad (s3.contents l) = false) :
    transferOp i f s =
      .ok ((), (s3.stored l (MWord.good (merged (s.maskWord f.mask) (s3.contents l) w.bits))).ended f.seq true) := by
  have hdg := designated_of (fun e => absurd e ha) hb fun e => absurd e hc
  have hq0 : (s.begun.noAc.masking f.mask).env = [] := (Passes.masking s.begun.noAc f.mask).env.trans hq
  have hq3 : s3.env = [] := (steps_locate hl).1.env.trans ((steps_readOperand hq0 hr).env.trans hq0)
  have hmask : maskOf f.mask s.begun.noAc = .ok (s.maskWord f.mask, s.begun.noAc.masking f.mask) := maskOf_ready hq hm
  have hmb : maskBad (s.maskWord f.mask) = false := maskBad_ready (s := s.begun.noAc) hm
  unfold transferOp noAc
  rw [Op.bind_ok (beginForm_run hdg s), Op.bind_ok (needActive_active ha _ _), Op.bind_ok (needActive_active hc _ _),
    Op.bind_ok (Op.update_run _ _), Op.bind_ok hmask, Op.bind_ok hr, Op.bind_ok hl,
    Op.bind_ok (deliverCopy_admitted hq3 hadm (fun h => hold (isSome_maskWord h)) hbad), hmb, hbad]
  exact conclude_ends i f.seq true _

/-- An accumulator left undefined is so after the end of the instruction (R43). -/
theorem acState_ended_undefined {s : State} (h : s.acState = .undefined) (seq hunt : Bool) :
    (s.ended seq hunt).acState = .undefined := by
  rcases acState_ended_cases s seq hunt with e | e
  · rw [e, h]; rfl
  · exact e.trans h

/-! ### TS -/

/-- A word of good parity is copied as any result is delivered (R321). -/
theorem copied_good {w : MWord} (h : MWord.bad w = false) (m : Option MWord) (old : MWord) :
    copied m old w = MWord.good (merged m old w.bits) := by
  cases m with
  | none => exact (good_of_not_bad h).symm
  | some m => rfl

section
variable {i : Instr} {f : Form} {s s0 s1 s2 : State} {m : Option MWord} {w : MWord} {l : Loc}

/-- TS with A and B active up to its sequence change, whatever the parity of its words (R311, R323). -/
theorem transferJumpOp_copied (hq : s.env = []) (ha : f.a ≠ inactiveGroup) (hb : f.b ≠ inactiveGroup)
    (hc : f.c = inactiveGroup → f.dC = false) (hm : maskOf f.mask s.begun = .ok (m, s0))
    (hr : readOperand f.a f.dA s0.noAc = .ok (w, s1)) (hl : locate f.b f.dB s1 = .ok (l, s2)) (hadm : s2.admits l) :
    transferJumpOp i f s = concludeJump i f.seq f.c f.dC true (maskBad m || MWord.bad w || (m.isSome && MWord.bad (s2.contents l)))
      false (s2.stored l (copied m (s2.contents l) w)) := by
  have hdg := designated_of (fun e => absurd e ha) (fun e => absurd e hb) hc
  have hq0 : s0.noAc.env = [] := (passes_maskOf (s := s.begun) hq hm).1.env.trans hq
  have hq2 : s2.env = [] := (steps_locate hl).1.env.trans ((steps_readOperand hq0 hr).env.trans hq0)
  have hpart : transferPart m f false false s0 =
      .ok ((m.isSome && MWord.bad (s2.contents l)) || MWord.bad w, s2.stored l (copied m (s2.contents l) w)) := by
    unfold transferPart noAc
    dsimp only
    rw [Op.bind_ok (Op.update_run _ s0), Op.bind_ok hr, Op.bind_ok hl, Op.bind_ok (deliverCopy_run hq2 hadm w)]
    rfl
  unfold transferJumpOp
  rw [Op.bind_ok (beginForm_run hdg s), Op.bind_ok (isInactive_active ha _ _), Op.bind_ok (isInactive_active hb _ _), Op.bind_ok hm,
    Op.bind_ok hpart, Bool.or_comm (m.isSome && MWord.bad (s2.contents l)), ← Bool.or_assoc]

/-- What TS leaves alone before its sequence change. -/
theorem passes_transferJump (hq : s.env = []) (hm : maskOf f.mask s.begun = .ok (m, s0))
    (hr : readOperand f.a f.dA s0.noAc = .ok (w, s1)) (hl : locate f.b f.dB s1 = .ok (l, s2)) (v : MWord) :
    Passes s (s2.stored l v) (s.named f.a f.dA ++ s1.named f.b f.dB ++ l.regs) l.words ∧ s2.mem = s.mem := by
  obtain ⟨pmask, hmem, -⟩ := passes_maskOf (s := s.begun) hq hm
  have p0 : Passes s s0.noAc [] [] := ((passes_begun s).trans pmask).trans (passes_noAc s0)
  have st1 := steps_readOperand (p0.env.trans hq) hr
  have st2 := (steps_locate hl).1
  have hp := ((p0.trans (Passes.steps st1)).trans (Passes.steps st2)).trans (Passes.stored s2 l v)
  rw [named_passes p0] at hp
  exact ⟨hp, (st2.mem.trans st1.mem).trans hmem⟩

end

/-- What a sequence change leaves in the counter and in its history register, if there is one (R36). -/
theorem registers_sequenced {t : State} {seq : Bool} {r : Option SReg} {q : SReg} (h : r = some q) :
    (t.sequenced seq r).reg t.cur (ctrOf seq).ix = q ∧
      (t.sequenced seq r).reg t.cur (ctrOf seq).hist = { t.reg t.cur t.sel.ix with tag := .good } := by
  subst h
  exact ⟨jumped_ix t _ q, jumped_hist t _ q⟩

theorem Passes.sel {s t : State} {R : List (BitVec 3 × BitVec 5)} {W : List Nat} (h : Passes s t R W) : t.sel = s.sel :=
  (congrArg State.sel h.outside :)

end Sys2Proof.Machine
end

section
/-! PROOFS. The statements about TX and TS. -/
namespace Sys2Proof.Settled
open Sys2Proof.Machine

/-- Settles O18: `transferOp_stored` runs it, and `stored_located` says what the store leaves. -/
theorem transferInstruction : Obligations.TransferInstruction := by
  intro i f s s1 s3 w l hrow hq hw ha hc hb hm hr hbad hl hadm hold
  have p0 := ((passes_begun s).trans (passes_noAc _)).trans (Passes.masking s.begun.noAc f.mask)
  have st1 := steps_readOperand (p0.env.trans hq) hr
  have hmasked : s.begun.noAc.masking f.mask = (s.begun.masking f.mask).noAc := masking_noAc s.begun f.mask
  have hp := p0.trans (Passes.steps st1)
  rw [named_passes p0] at hp
  have hw1 : s1.mem.wf = true := by
    rw [st1.mem, hmasked]
    exact (mem_masked s f.mask).symm ▸ hw
  have hst : s1.acState = .undefined := st1.acState.trans (congrArg State.acState hmasked)
  have hmr : s1.mr = (s.masking f.mask).mr := (st1.mr.trans (congrArg State.mr hmasked)).trans (mr_masked s f.mask)
  obtain ⟨hpass, hholds, -, -, hst3, hmr3, -⟩ :=
    stored_located (v := MWord.good (merged (s.maskWord f.mask) (s3.contents l) w.bits)) hp hw1 hl
  exact ⟨_, (transfer_run hrow).trans (perform_ok (transferOp_stored hq ha hc hb hm hr hbad hl hadm hold)), rfl, holds_ended hholds _ _,
    acState_ended_undefined (hst3.trans hst) _ _, hmr3.trans hmr, hpass.ends f.seq true⟩

/-- Settles O19: `transferJumpOp_copied` runs the transfer; `concludeJump` ends it with the sequence change or with the unprogrammed transfer. -/
theorem transferAndSequence : Obligations.TransferAndSequence := by
  intro i f s s1 s2 w l hrow hq hw ha hb
  refine ⟨fun hm hr hbad hl hadm hold s3 r ht => ?_, fun m s0 u hm hr hl hadm hu hbad => ?_⟩
  · have hmask : maskOf f.mask s.begun = .ok (s.maskWord f.mask, s.begun.masking f.mask) := maskOf_ready hq hm
    obtain ⟨hp, hmem⟩ := passes_transferJump hq hmask hr hl (MWord.good (merged (s.maskWord f.mask) (s2.contents l) w.bits))
    have hold' : ((s.maskWord f.mask).isSome && MWord.bad (s2.contents l)) = false := by
      simpa using fun h => hold (isSome_maskWord h)
    have hrun := transferJumpOp_copied (i := i) hq ha hb (undesignated_of_sequenceTarget ht) hmask hr hl hadm
    rw [show maskBad (s.maskWord f.mask) = false from maskBad_ready (s := s.begun) hm, hbad, hold', copied_good hbad, Bool.or_self,
      Bool.or_self, concludeJump_sequenced ht] at hrun
    have st3 := steps_sequenceTarget ht
    have hp3 := hp.trans (Passes.steps st3)
    rw [List.append_nil] at hp3
    have hcur : s3.cur = s.cur := hp3.cur
    have hix (q : SReg) (h : r = some q) := registers_sequenced (t := s3) (seq := f.seq) h
    rw [hcur, hp3.sel] at hix
    refine ⟨_, (sequence_run hrow).trans (perform_ok hrun), rfl, scan_sequenced _ _ _, ?_, fun q h => (hix q h).1, fun q h => (hix q h).2,
      hp3.sequenced f.seq r⟩
    rintro a rfl
    exact holds_sequenced (State.holds_stored (hmem ▸ hw) _ _) st3 _ _
  · subst hu
    obtain ⟨hp, hmem⟩ := passes_transferJump hq hm hr hl (copied m (s2.contents l) w)
    have hholds := State.holds_stored (hmem ▸ hw) l (copied m (s2.contents l) w)
    refine ⟨fun hc s3 r ht hct => ?_, fun hc hd hct => ?_⟩
    · have hrun := transferJumpOp_copied (i := i) hq ha hb (fun e => absurd e hc) hm hr hl hadm
      have hp3 := hp.trans (Passes.steps (steps_sequenceTarget ht))
      rw [List.append_nil] at hp3
      rw [hbad, concludeJump_parity hc ht hct (hp3.env.trans hq)] at hrun
      obtain ⟨hhist, hix, hpcr, hframe⟩ := passes_historied_transferred (seq := f.seq) (i := i) hp3 hp3.sel
      exact ⟨_, (sequence_run hrow).trans (perform_ok hrun), rfl, hholds, hhist, hix, hpcr, rfl, hframe⟩
    · have hrun := transferJumpOp_copied (i := i) hq ha hb (fun _ => hd) hm hr hl hadm
      rw [hbad, hc, hd, concludeJump_parityInactive (hp.env.trans hq) hct] at hrun
      have hends := hp.ends f.seq false
      have hframe := hends.frame.trans (frame_transferred _ utParity i)
      rw [List.append_nil, State.cur_ended, State.reg_ended, hp.cur,
        show ((s2.stored l (copied m (s2.contents l) w)).ended f.seq false).sel = s.sel from hp.sel] at hframe
      exact ⟨_, (sequence_run hrow).trans (perform_ok hrun), rfl, hholds, hends.pcr, rfl, hframe⟩

end Sys2Proof.Settled
end

section
/-! SUPPORT. The transfers that repeat (R312, R313, R320, R330, R333): one word moved, chains of moves, and the runs of MT, TN, RT and IT. -/
namespace Sys2Proof.Machine

/-! ### One word moved -/

theorem Frame.word {s t : State} {R : List (BitVec 3 × BitVec 5)} {W : List Nat} (h : Frame s t R W) {a : Nat} (ha : a ∉ W) :
    t.mem.word a = s.mem.word a := by
  have hbyte (j : Nat) (hj : j < 8) : t.mem.byte (8 * a + j) = s.mem.byte (8 * a + j) :=
    h.bytes _ (by rwa [show (8 * a + j) / 8 = a by omega])
  unfold Memory.word
  rw [hbyte 1 (by omega), hbyte 2 (by omega), hbyte 3 (by omega), hbyte 4 (by omega), hbyte 5 (by omega), hbyte 6 (by omega),
    show 8 * a = 8 * a + 0 from rfl, hbyte 0 (by omega)]

/-- A word of main memory goes on being held while nothing is stored there. -/
theorem Passes.holds {s t : State} {R : List (BitVec 3 × BitVec 5)} {W : List Nat} (h : Passes s t R W) {a : Nat} {v : MWord}
    (ha : a ∉ W) (hs : s.holds (.mem a) v) : t.holds (.mem a) v := by
  refine State.holds_mono hs (congrArg State.cfg h.outside :) (congrArg State.ctl h.outside :) (congrArg State.typing h.outside :) ?_ nofun
  rintro b ⟨⟩
  exact h.frame.word ha

theorem not_mem_words {l : Loc} {a : Nat} (h : l ≠ .mem a) : a ∉ l.words := by
  cases l with
  | mem b =>
    intro hb
    exact h (congrArg Loc.mem (List.mem_singleton.mp hb).symm)
  | _ => exact List.not_mem_nil

/-- From `s` to `t` the word `v` has been moved to `l`: a word of main memory holds it, and nothing else of memory has changed, no register but
those of `regs`, and nothing outside the arithmetic registers. -/
structure Moves (s t : State) (regs : List (BitVec 3 × BitVec 5)) (l : Loc) (v : MWord) : Prop where
  passes : Passes s t regs l.words
  wf : s.mem.wf = true → t.mem.wf = true
  holds : s.mem.wf = true → ∀ a, l = .mem a → t.holds (.mem a) v

namespace Moves

variable {s t u : State} {R R' : List (BitVec 3 × BitVec 5)} {l : Loc} {v : MWord}

/-- The store of a word once its location is known. -/
theorem stored (h : Steps s u R) (hl : ∀ p ∈ l.regs, p ∈ R) (v : MWord) : Moves s (u.stored l v) R l v := by
  refine ⟨((Passes.steps h).trans (Passes.stored u l v)).mono (List.append_subset.mpr ⟨fun _ hp => hp, fun p hp => hl p hp⟩) (fun _ hp => hp),
    fun hw => wf_stored (h.mem ▸ hw) l v, ?_⟩
  rintro hw a rfl
  exact State.holds_stored (h.mem ▸ hw) (.mem a) v

/-- Registers stepped after the store. -/
theorem steps (h : Moves s t R l v) (h' : Steps t u R') : Moves s u (R ++ R') l v := by
  refine ⟨(h.passes.trans (Passes.steps h')).mono (fun _ hp => hp) (by simp), fun hw => by rw [h'.mem]; exact h.wf hw, fun hw a ha => ?_⟩
  exact (Passes.steps h').holds List.not_mem_nil (h.holds hw a ha)

end Moves

/-! ### Chains of moves -/

section
variable {σ : Nat → State} {R : Nat → List (BitVec 3 × BitVec 5)} {l : Nat → Loc} {v : Nat → MWord} {n : Nat}

/-- The words of a group transfer: from each state to the next, one word moved. -/
def MovesWords (n : Nat) (σ : Nat → State) (R : Nat → List (BitVec 3 × BitVec 5)) (l : Nat → Loc) (v : Nat → MWord) : Prop :=
  ∀ k, k < n → Moves (σ k) (σ (k + 1)) (R k) (l k) (v k)

theorem MovesWords.passes (h : MovesWords n σ R l v) :
    Passes (σ 0) (σ n) ((List.range n).flatMap R) ((List.range n).flatMap fun k => (l k).words) := by
  obtain ⟨hpcr, houtside, hregs, hbytes⟩ := passes_chain (fun k hk => (h k hk).passes) n le_rfl
  refine ⟨hpcr, houtside, fun g i hn => hregs g i fun k hk hm => hn ?_, fun b hn => hbytes b fun k hk hm => hn ?_⟩
  · exact List.mem_flatMap.mpr ⟨k, List.mem_range.mpr hk, hm⟩
  · exact List.mem_flatMap.mpr ⟨k, List.mem_range.mpr hk, hm⟩

theorem MovesWords.take (h : MovesWords n σ R l v) {m : Nat} (hm : m ≤ n) : MovesWords m σ R l v :=
  fun k hk => h k (by omega)

/-- Each move may use that no event falls before it and that the group in control is still the same. -/
theorem movesWords_of (hq : (σ 0).env = [])
    (h : ∀ k, k < n → (σ k).env = [] → (σ k).cur = (σ 0).cur → Moves (σ k) (σ (k + 1)) (R k) (l k) (v k)) : MovesWords n σ R l v := by
  induction n with
  | zero => exact fun k hk => absurd hk (Nat.not_lt_zero k)
  | succ n ih =>
    have hinit := ih fun k hk => h k (Nat.lt_succ_of_lt hk)
    intro k hk
    rcases Nat.lt_or_eq_of_le (Nat.le_of_lt_succ hk) with hkn | rfl
    · exact hinit k hkn
    · exact h k hk (hinit.passes.env.trans hq) hinit.passes.cur

theorem MovesWords.env (h : MovesWords n σ R l v) (hq : (σ 0).env = []) {k : Nat} (hk : k ≤ n) : (σ k).env = [] :=
  (h.take hk).passes.env.trans hq

theorem MovesWords.wf (h : MovesWords n σ R l v) (hw : (σ 0).mem.wf = true) : (σ n).mem.wf = true := by
  induction n with
  | zero => exact hw
  | succ n ih => exact (h n (Nat.lt_succ_self n)).wf (ih (h.take (Nat.le_succ n)))

/-- A word moved stands at its place at the end, if none is moved there later. -/
theorem MovesWords.holds (h : MovesWords n σ R l v) (hw : (σ 0).mem.wf = true) {k a : Nat} (hk : k < n) (hl : l k = .mem a)
    (hlater : ∀ j, k < j → j < n → l j ≠ .mem a) : (σ n).holds (.mem a) (v k) := by
  induction n with
  | zero => omega
  | succ n ih =>
    have hlast := h n (Nat.lt_succ_self n)
    rcases Nat.lt_or_eq_of_le (Nat.le_of_lt_succ hk) with hkn | rfl
    · exact hlast.passes.holds (not_mem_words (hlater n hkn (Nat.lt_succ_self n)))
        (ih (h.take (Nat.le_succ n)) hkn fun j h1 h2 => hlater j h1 (by omega))
    · exact hlast.holds ((h.take (Nat.le_succ k)).wf hw) a hl

end

/-! ### MT -/

/-- The transfers of MT (R312): `ρ k` is the state after the reading of word `w k`, `τ k` once its destination `l k` is known. -/
def CopiesWords (f : Gen) (n : Nat) (σ ρ τ : Nat → State) (w : Nat → MWord) (l : Nat → Loc) : Prop :=
  ∀ k, k < n → readOperand f.a f.dA (σ k) = .ok (w k, ρ k) ∧ MWord.bad (w k) = false ∧
    locate f.c f.dC (ρ k) = .ok (l k, τ k) ∧ (τ k).admits (l k) ∧ σ (k + 1) = (τ k).stored (l k) (w k)

section
variable {f : Gen} {n : Nat} {σ ρ τ : Nat → State} {w : Nat → MWord} {l : Nat → Loc}

theorem CopiesWords.moves (h : CopiesWords f n σ ρ τ w l) (hq : (σ 0).env = []) :
    MovesWords n σ (fun k => (σ k).named f.a f.dA ++ (ρ k).named f.c f.dC) l w :=
  movesWords_of hq fun k hk hqk _ => by
    obtain ⟨hr, -, hl, -, hnext⟩ := h k hk
    obtain ⟨hloc, hregs⟩ := steps_locate hl
    rw [hnext]
    exact .stored ((steps_readOperand hqk hr).trans hloc) (fun p hp => List.mem_append_right _ (hregs p hp)) _

/-- The last `m` transfers of MT run. -/
theorem multipleTransfers_run (h : CopiesWords f n σ ρ τ w l) (hq : (σ 0).env = []) (m : Nat) {k : Nat} (hk : k + m = n) :
    multipleTransfers f m false (σ k) = .ok (false, σ n) := by
  induction m generalizing k with
  | zero => rw [← hk]; rfl
  | succ m ih =>
    obtain ⟨hr, hgood, hl, hadm, hnext⟩ := h k (by omega)
    have hqk : (σ k).env = [] := (h.moves hq).env hq (by omega)
    have hqt : (τ k).env = [] := (steps_locate hl).1.env.trans ((steps_readOperand hqk hr).env.trans hqk)
    have hwrite : writeResult f.c f.dC (w k) (ρ k) = .ok ((), σ (k + 1)) := by
      unfold writeResult
      rw [Op.bind_ok hl, store_admitted hqt hadm, hnext]
    unfold multipleTransfers
    rw [Op.bind_ok hr, Op.bind_ok hwrite, hgood]
    exact ih (by omega)

/-- MT up to its end (R312). -/
theorem multipleOp_run {i : Instr} {s : State} (hq : s.env = []) (ha : f.a ≠ inactiveGroup) (hc : f.c ≠ inactiveGroup)
    (hb : f.b = inactiveGroup → f.dB = false) (hn : (fld f.b 1 6).toNat = n) (h0 : σ 0 = s.begun.noAc)
    (h : CopiesWords f n σ ρ τ w l) : multipleOp i f s = .ok ((), (σ n).ended f.seq true) := by
  have hdg := designated_of (f := genForm f) (fun e => absurd e ha) hb fun e => absurd e hc
  have hrun := multipleTransfers_run h (h0 ▸ hq) n (Nat.zero_add n)
  rw [h0] at hrun
  unfold multipleOp noAc transferCount
  rw [Op.bind_ok (beginForm_run hdg s), Op.bind_ok (needActive_active ha _ _), Op.bind_ok (needActive_active hc _ _),
    Op.bind_ok (Op.update_run _ _), hn, Op.bind_ok hrun]
  exact conclude_ends i f.seq true _

end

/-! ### The arithmetic control counters (R320) -/

theorem steps_setReg (s : State) (g : BitVec 3) (i : BitVec 5) (r : SReg) : Steps s (s.setReg g i r) [(g, i)] :=
  ⟨fun _ _ hn => State.reg_setReg_other s (by simpa using hn) r, rfl⟩

/-- Both counters loaded, and what that changes. -/
theorem loadCounters_loaded {f : Gen} {g : BitVec 3} {s t u v : State} {ra rc : Bool} {a c : SReg} (hg : s.cur = g)
    (hA : auInit f.a f.dA s = .ok (some (ra, a), u)) (hC : auInit f.c f.dC (u.setReg g au1 a) = .ok (some (rc, c), v))
    (ht : t = v.setReg g au2 c) :
    loadCounters f s = .ok ((ra, rc), t) ∧
      Steps s t (s.named f.a f.dA ++ [(g, au1), (g, au2)] ++ (u.setReg g au1 a).named f.c f.dC) := by
  subst hg ht
  have hst := ((steps_auInit hA).trans (steps_setReg u s.cur au1 a)).trans ((steps_auInit hC).trans (steps_setReg v s.cur au2 c))
  refine ⟨loadCounters_run hA hC, hst.mono fun p hp => ?_⟩
  simp only [List.mem_append, List.mem_cons, List.not_mem_nil, or_false] at hp ⊢
  tauto

/-- An address group that loads a counter has no designator of an inactive one. -/
theorem undesignated_of_auInit {x : Group} {d : Bool} {s : State} {r : Option (Bool × SReg) × State} (h : auInit x d s = .ok r) :
    x = inactiveGroup → d = false :=
  undesignated_of_bind h

/-- Both counters stepped after a word. -/
theorem steps_nextAu_both {s t u : State} (h1 : nextAu au1 s = .ok ((), t)) (h2 : nextAu au2 t = .ok ((), u)) :
    Steps s u [(s.cur, au1), (s.cur, au2)] := by
  have st1 := steps_nextAu h1
  have st2 := steps_nextAu h2
  rw [st1.cur] at st2
  exact st1.trans st2

/-! ### TN -/

/-- The words of TN (R313, R320): `β k` is the state after the reading of word `w k`, `γ k` once its destination `l k` is known, `ε k` once the
word `x k` to be stored is, `δ k` when AU1 has been stepped. -/
def GroupWords (ra rc : Bool) (n : Nat) (σ β γ ε δ : Nat → State) (w x : Nat → MWord) (l : Nat → Loc) : Prop :=
  ∀ k, k < n → auRead ra au1 (σ k) = .ok (w k, β k) ∧ MWord.bad (w k) = false ∧ auLoc rc au2 (β k) = .ok (l k, γ k) ∧
    referred ((β k).overflowed rc au2) (w k) (γ k) = .ok (x k, ε k) ∧
    (ε k).admits (l k) ∧ nextAu au1 ((ε k).stored (l k) (x k)) = .ok ((), δ k) ∧ nextAu au2 (δ k) = .ok ((), σ (k + 1))

section
variable {ra rc : Bool} {n : Nat} {σ β γ ε δ : Nat → State} {w x : Nat → MWord} {l : Nat → Loc}

theorem GroupWords.moves (h : GroupWords ra rc n σ β γ ε δ w x l) (hq : (σ 0).env = []) :
    MovesWords n σ (fun k => (σ k).auNamed ra au1 ++ (β k).auNamed rc au2 ++ [((σ 0).cur, au1), ((σ 0).cur, au2)]) l x :=
  movesWords_of hq fun k hk hqk hcur => by
    obtain ⟨hr, -, hl, hx, -, hnext1, hnext2⟩ := h k hk
    obtain ⟨hloc, hregs⟩ := steps_auLoc hl
    have hsteps := ((steps_auRead hqk hr).trans hloc).trans (steps_referred hx)
    rw [List.append_nil] at hsteps
    have hmove := Moves.stored hsteps (fun p hp => List.mem_append_right _ (hregs p hp)) (x k)
    have hnext := steps_nextAu_both hnext1 hnext2
    rw [hmove.passes.cur, hcur] at hnext
    exact hmove.steps hnext

/-- The last `m` words of TN run. -/
theorem groupTransfers_run (h : GroupWords ra rc n σ β γ ε δ w x l) (hq : (σ 0).env = []) (m : Nat) {k : Nat} (hk : k + m = n) :
    groupTransfers ra rc m false (σ k) = .ok (false, σ n) := by
  induction m generalizing k with
  | zero => rw [← hk]; rfl
  | succ m ih =>
    obtain ⟨hr, hgood, hl, hx, hadm, hnext1, hnext2⟩ := h k (by omega)
    have hqk : (σ k).env = [] := (h.moves hq).env hq (by omega)
    have hqe : (ε k).env = [] :=
      (steps_referred hx).env.trans ((steps_auLoc hl).1.env.trans ((steps_auRead hqk hr).env.trans hqk))
    have hwrite : auWrite rc au2 (w k) (β k) = .ok ((), (ε k).stored (l k) (x k)) := by
      unfold auWrite
      rw [Op.bind_ok (Op.get_run _), Op.bind_ok hl, Op.bind_ok hx, store_admitted hqe hadm]
    have hword : transferWord ra rc (σ k) = .ok (w k, σ (k + 1)) := by
      unfold transferWord
      rw [Op.bind_ok hr, Op.bind_ok hwrite, Op.bind_ok hnext1, Op.bind_ok hnext2]; rfl
    unfold groupTransfers
    rw [Op.bind_ok hword, hgood]
    exact ih (by omega)

/-- TN up to its end (R313). -/
theorem groupOp_run {i : Instr} {f : Gen} {s u v : State} {a c : SReg} (hq : s.env = []) (hb : f.b = inactiveGroup → f.dB = false)
    (hn : (fld f.b 1 6).toNat = n) (hA : auInit f.a f.dA s.begun.noAc = .ok (some (ra, a), u))
    (hC : auInit f.c f.dC (u.setReg s.cur au1 a) = .ok (some (rc, c), v)) (h0 : σ 0 = v.setReg s.cur au2 c)
    (h : GroupWords ra rc n σ β γ ε δ w x l) : groupOp i f s = .ok ((), (σ n).ended f.seq true) := by
  have hdg := designated_of (f := genForm f) (undesignated_of_auInit hA) hb (undesignated_of_auInit hC)
  obtain ⟨hload, hst⟩ := loadCounters_loaded (s := s.begun.noAc) (g := s.cur) rfl hA hC h0
  have hrun := groupTransfers_run h (hst.env.trans hq) n (Nat.zero_add n)
  unfold groupOp noAc transferCount
  rw [Op.bind_ok (beginForm_run hdg s), Op.bind_ok (Op.update_run _ _), Op.bind_ok hload, hn, Op.bind_ok hrun]
  exact conclude_ends i f.seq true _

end

/-! ### RT and IT -/

/-- One word of a record transfer by the counters of group `g` (R333), from `s` to `t`: both counters can be used, the word `w` is good, and `d` is
the state when AU1 has been stepped. -/
structure RecordWord (g : BitVec 3) (s d t : State) (w : MWord) : Prop where
  goodA : (s.reg g au1).tag = .good
  existsA : s.exists? (s.reg g au1).full = true
  word : w = s.mem.word (s.reg g au1).full
  good : MWord.bad w = false
  goodC : (s.reg g au2).tag = .good
  admits : s.admits (.mem (s.reg g au2).full)
  next1 : nextAu au1 (s.putWord (s.reg g au2).full w) = .ok ((), d)
  next2 : nextAu au2 d = .ok ((), t)

theorem RecordWord.moves {g : BitVec 3} {s d t : State} {w : MWord} (h : RecordWord g s d t w) :
    Moves s t [(s.cur, au1), (s.cur, au2)] (.mem (s.reg g au2).full) w :=
  (Moves.stored (.refl s []) (fun _ hp => absurd hp List.not_mem_nil) w).steps (steps_nextAu_both h.next1 h.next2)

theorem runCounter_usable {s : State} {r : SReg} (ht : r.tag = .good) (he : s.exists? r.full = true) : runCounter r s = .ok (true, s) := by
  unfold runCounter
  rw [Op.bind_ok (checkImplicit_good ht s), Op.bind_ok (Op.get_run s), if_neg (by decide), if_pos he]; rfl

/-- One word of RT or IT run (R333): the end word ends the transfer, another word does not while neither counter is at a stopper. -/
theorem recordTransfers_word {stop : Word → Bool} {s d t : State} {w : MWord} (hq : s.env = []) (h : RecordWord s.cur s d t w)
    (hstop : stop w.bits = false → s.atStopper (s.reg s.cur au1) = false ∧ s.atStopper (s.reg s.cur au2) = false) (m : Nat) :
    recordTransfers stop (m + 1) s = if stop w.bits then .ok (.terminator, t) else recordTransfers stop m t := by
  obtain ⟨hgoodA, hexA, hword, hgood, hgoodC, hadm, hnext1, hnext2⟩ := h
  have hread : memRead (s.reg s.cur au1).full s = .ok (w, s) := by rw [hword, memRead_exists hq hexA]
  have hrun : recordWord (s.reg s.cur au2) w s = .ok ((), t) := by
    unfold recordWord
    rw [Op.bind_ok (memWrite_admitted hq hadm.1 hadm.2 w), Op.bind_ok hnext1, hnext2]
  rw [recordTransfers, Op.bind_ok (Op.get_run s), Op.bind_ok (runCounter_usable hgoodA hexA), if_neg (by decide),
    Op.bind_ok hread, hgood, if_neg (by decide), Op.bind_ok (runCounter_usable hgoodC hadm.1), if_neg (by decide), Op.bind_ok hrun]
  cases hs : stop w.bits with
  | true => rfl
  | false =>
    obtain ⟨h1, h2⟩ := hstop hs
    rw [if_neg (by decide), h1, h2, Bool.or_self, if_neg (by decide), if_neg (by decide)]

/-- The words of RT and IT (R333): word `n` is the first end word. -/
structure RecordWords (g : BitVec 3) (stop : Word → Bool) (n : Nat) (σ δ : Nat → State) (w : Nat → MWord) : Prop where
  word : ∀ k, k ≤ n → RecordWord g (σ k) (δ k) (σ (k + 1)) (w k)
  goesOn : ∀ k, k < n → stop (w k).bits = false ∧ (σ k).atStopper ((σ k).reg g au1) = false ∧ (σ k).atStopper ((σ k).reg g au2) = false
  ends : stop (w n).bits = true

section
variable {g : BitVec 3} {stop : Word → Bool} {n : Nat} {σ δ : Nat → State} {w : Nat → MWord}

theorem RecordWords.moves (h : RecordWords g stop n σ δ w) (hq : (σ 0).env = []) :
    MovesWords (n + 1) σ (fun _ => [((σ 0).cur, au1), ((σ 0).cur, au2)]) (fun k => .mem ((σ k).reg g au2).full) w :=
  movesWords_of hq fun k hk _ hcur => hcur ▸ (h.word k (Nat.le_of_lt_succ hk)).moves

/-- The words of RT and IT run from word `k` on, `m` before the end word. -/
theorem recordTransfers_run (h : RecordWords g stop n σ δ w) (hq : (σ 0).env = []) (hg : (σ 0).cur = g) (m : Nat) {k : Nat}
    (hk : k + m = n) {fuel : Nat} (hm : m < fuel) : recordTransfers stop fuel (σ k) = .ok (.terminator, σ (n + 1)) := by
  have hstate (j : Nat) (hj : j ≤ n) : (σ j).env = [] ∧ (σ j).cur = g :=
    ⟨(h.moves hq).env hq (by omega), ((h.moves hq).take (by omega)).passes.cur.trans hg⟩
  induction m generalizing k fuel with
  | zero =>
    obtain ⟨fuel, rfl⟩ : ∃ j, fuel = j + 1 := ⟨fuel - 1, by omega⟩
    obtain rfl : k = n := hk
    obtain ⟨hqk, rfl⟩ := hstate k le_rfl
    rw [recordTransfers_word hqk (h.word k le_rfl) (by simp [h.ends]), h.ends]; rfl
  | succ m ih =>
    obtain ⟨fuel, rfl⟩ : ∃ j, fuel = j + 1 := ⟨fuel - 1, by omega⟩
    obtain ⟨hqk, rfl⟩ := hstate k (by omega)
    obtain ⟨hstop, hcounters⟩ := h.goesOn k (by omega)
    rw [recordTransfers_word hqk (h.word k (by omega)) (fun _ => hcounters), hstop]
    exact ih (by omega) (by omega)

section
variable {f : Gen} {s s1 s2 u v : State} {lb : Loc} {last : Word} {a c : SReg}

/-- What the store at B leaves, with which RT and IT begin (R330). -/
theorem passes_recordMark (hl : locate f.b f.dB s.begun.noAc = .ok (lb, s1)) (hs2 : s2 = s1.stored lb (MWord.good last)) :
    Passes s s2 (s.named f.b f.dB) lb.words ∧ (s.mem.wf = true → s2.mem.wf = true) := by
  subst hs2
  have p0 := (passes_begun s).trans (passes_noAc s.begun)
  have hp := passes_located p0 hl (Passes.stored s1 lb (MWord.good last))
  rw [named_passes p0] at hp
  exact ⟨hp, fun hw => wf_stored (by rw [(steps_locate hl).1.mem]; exact hw) lb _⟩

/-- RT and IT up to their end (R330, R333). -/
theorem recordOp_run {i : Instr} (hq : s.env = []) (hb : f.b ≠ inactiveGroup) (hl : locate f.b f.dB s.begun.noAc = .ok (lb, s1))
    (hadm : s1.admits lb) (hs2 : s2 = s1.stored lb (MWord.good last)) (hA : auInit f.a f.dA s2 = .ok (some (false, a), u))
    (hC : auInit f.c f.dC (u.setReg s.cur au1 a) = .ok (some (false, c), v)) (h0 : σ 0 = v.setReg s.cur au2 c) (hn : n < recordFuel)
    (h : RecordWords s.cur stop n σ δ w) : recordOp i last stop f s = .ok ((), (σ (n + 1)).ended f.seq true) := by
  have hdg := designated_of (f := genForm f) (undesignated_of_auInit hA) (fun e => absurd e hb) (undesignated_of_auInit hC)
  have hp2 := (passes_recordMark hl hs2).1
  have hq1 : s1.env = [] := (steps_locate hl).1.env.trans hq
  have hmark : writeResult f.b f.dB (MWord.good last) s.begun.noAc = .ok ((), s2) := by
    unfold writeResult
    rw [Op.bind_ok hl, store_admitted hq1 hadm, hs2]
  obtain ⟨hload, hst⟩ := loadCounters_loaded hp2.cur hA hC h0
  have hrun := recordTransfers_run h (hst.env.trans (hp2.env.trans hq)) (hst.cur.trans hp2.cur) n (Nat.zero_add n) hn
  unfold recordOp noAc
  rw [Op.bind_ok (beginForm_run hdg s), Op.bind_ok (needActive_active hb _ _), Op.bind_ok (Op.update_run _ _), Op.bind_ok hmark,
    Op.bind_ok hload, if_neg (by decide), Op.bind_ok hrun]
  rfl

end

end

theorem exec_record (item : Bool) (f : Gen) (s : State) :
    exec (if item then .it f else .rt f) s = perform (recordOp (if item then .it f else .rt f) (if item then eoiWord else eorWord)
      (if item then isEoi else isEor) f) s := by
  cases item <;> rfl

end Sys2Proof.Machine
end

section
/-! PROOFS. The statements about the transfers that repeat. -/
namespace Sys2Proof.Settled
open Sys2Proof.Machine

/-- Settles O21: `multipleOp_run` runs it, a chain of moves. -/
theorem multipleTransfer : Obligations.MultipleTransfer := by
  intro f s n σ ρ τ w l hq hw ha hc hb hn h0 h
  have hcopies : CopiesWords f n σ ρ τ w l := h
  have p0 : Passes s (σ 0) [] [] := h0 ▸ (passes_begun s).trans (passes_noAc s.begun)
  have hw0 : (σ 0).mem.wf = true := h0 ▸ hw
  have hmoves := hcopies.moves (p0.env.trans hq)
  have hp := p0.trans hmoves.passes
  have hends := hp.ends f.seq true
  refine ⟨_, perform_ok (multipleOp_run hq ha hc hb hn h0 hcopies), rfl, fun hpos => ?_, fun k a hk hl hlater => ?_, hends.pcr,
    hends.outside, fun g j hno => hends.frame.regs g j ?_, fun b hno => hends.frame.bytes b ?_⟩
  · obtain ⟨m, rfl⟩ : ∃ m, n = m + 1 := ⟨n - 1, by omega⟩
    obtain ⟨hr, -, hl, -, hnext⟩ := h m (Nat.lt_succ_self m)
    have hst := (steps_readOperand (hmoves.env (p0.env.trans hq) (Nat.le_succ m)) hr).trans (steps_locate hl).1
    have hwf : (τ m).mem.wf = true := by
      rw [hst.mem]
      exact (hmoves.take (Nat.le_succ m)).wf hw0
    rw [hnext]
    exact holds_ended (State.holds_stored hwf _ _) _ _
  · exact holds_ended (hmoves.holds hw0 hk hl hlater) _ _
  · simpa using hno
  · simpa using hno

/-- Settles O22: `groupOp_run` runs it, the counters loaded and then a chain of moves. -/
theorem groupTransfer : Obligations.GroupTransfer := by
  intro f s u v n ra rc a c σ β γ ε δ w x lc hq hw hb hn hA hC h0 h
  have hwords : GroupWords ra rc n σ β γ ε δ w x lc := h
  have p0 : Passes s s.begun.noAc [] [] := (passes_begun s).trans (passes_noAc s.begun)
  have hload := (loadCounters_loaded (s := s.begun.noAc) (g := s.cur) rfl hA hC h0).2
  have hp0 := p0.trans (Passes.steps hload)
  rw [named_passes p0] at hp0
  have hmoves := hwords.moves (hp0.env.trans hq)
  have hw0 : (σ 0).mem.wf = true := by
    rw [hload.mem]
    exact hw
  have hends := (hp0.trans hmoves.passes).ends f.seq true
  rw [hp0.cur] at hends
  refine ⟨_, perform_ok (groupOp_run hq hb hn hA hC h0 hwords), rfl, fun k hk ho => ?_,
    fun k a hk hl hlater => holds_ended (hmoves.holds hw0 hk hl hlater) _ _, hends.pcr, hends.outside,
    fun g j hno hnamed => hends.frame.regs g j ?_, fun b hno => hends.frame.bytes b ?_⟩
  · obtain ⟨-, -, -, hx, -⟩ := h k hk
    rw [ho] at hx
    exact (congrArg Prod.fst (Except.ok.inj hx)).symm
  · simp only [List.mem_append, List.mem_flatMap, List.mem_range, not_or, not_exists, not_and] at hno hnamed ⊢
    obtain ⟨⟨ha, hcounters⟩, hc⟩ := hno
    exact ⟨⟨List.not_mem_nil, ⟨ha, hcounters⟩, hc⟩, fun k hk => ⟨hnamed k hk, hcounters⟩⟩
  · simpa using hno

/-- Settles O23: `recordOp_run` runs it, the counters loaded after the mark at B and then a chain of moves. -/
theorem recordTransfer : Obligations.RecordTransfer := by
  intro item f s s1 s2 u v lb n a c last stop σ δ w hq hw hb hlast hstop hl hadm hs2 hA hC h0 hn hword hgo hend
  have hwords : RecordWords s.cur stop n σ δ w := by
    refine ⟨fun k hk => ?_, hgo, hend⟩
    obtain ⟨hgoodA, hexA, hw, hgood, hgoodC, hadm, hnext1, hnext2⟩ := hword k hk
    exact ⟨hgoodA, hexA, hw, hgood, hgoodC, hadm, hnext1, hnext2⟩
  have hrun := recordOp_run (i := if item then .it f else .rt f) hq hb hl hadm hs2 hA hC h0 hn hwords
  obtain ⟨hp2, hw2⟩ := passes_recordMark hl hs2
  have hload := (loadCounters_loaded hp2.cur hA hC h0).2
  have hp0 := hp2.trans (Passes.steps hload)
  have hmoves := hwords.moves (hp0.env.trans hq)
  have hends := (hp0.trans hmoves.passes).ends f.seq true
  rw [hp0.cur] at hends
  have hw0 : (σ 0).mem.wf = true := by
    rw [hload.mem]
    exact hw2 hw
  rw [show last = if item then eoiWord else eorWord from hlast, hstop] at hrun
  refine ⟨_, (exec_record item f s).trans (perform_ok hrun), rfl,
    holds_ended (hmoves.holds hw0 (Nat.lt_succ_self n) rfl fun j h1 h2 => by omega) _ _, hends.pcr, hends.outside,
    fun g j hno => hends.frame.regs g j ?_, fun b hlb hno => hends.frame.bytes b ?_⟩
  · simp only [List.mem_append, List.mem_flatMap, List.mem_range, not_or, not_exists, not_and] at hno ⊢
    obtain ⟨⟨⟨hb, ha⟩, hcounters⟩, hc⟩ := hno
    exact ⟨⟨hb, ⟨ha, hcounters⟩, hc⟩, fun k _ => hcounters⟩
  · simp only [List.mem_append, List.mem_flatMap, List.mem_range, not_or, not_exists, not_and]
    exact ⟨⟨hlb, List.not_mem_nil⟩, fun k hk => List.mem_singleton.not.mpr (hno k (Nat.le_of_lt_succ hk))⟩

end Sys2Proof.Settled
end

section
/-! SUPPORT. A decision on operands of good parity (R350): what it runs up to its end, and that the accumulator stays undeliverable. -/
namespace Sys2Proof.Machine

section
variable {f : Form} {s s1 s2 : State} {a b : MWord}

/-- A decision up to its end, with good parity throughout: what is left to do depends on the condition alone. -/
theorem decisionOp_good (i : Instr) (cond : Word → Word → Bool) (hq : s.env = []) (ha : f.a ≠ inactiveGroup) (hb : f.b ≠ inactiveGroup)
    (hdc : f.c = inactiveGroup → f.dC = false) (hm : s.begun.decided.maskReady f.mask)
    (hra : readOperand f.a f.dA (s.begun.decided.masking f.mask) = .ok (a, s1)) (hpa : MWord.bad a = false)
    (hrb : readOperand f.b f.dB s1 = .ok (b, s2)) (hpb : MWord.bad b = false) :
    decisionOp i cond f s = concludeJump i f.seq f.c f.dC
      (cond (gate (s.maskWord f.mask) a.bits) (gate (s.maskWord f.mask) b.bits)) false true s2 := by
  have hdg := designated_of (fun e => absurd e ha) (fun e => absurd e hb) hdc
  rw [decision_start hq hdg ha hb hm hra hrb, hpa, hpb, Bool.or_self]

/-- Taking the operands leaves the accumulator as the decision made it: nothing can be delivered from it. -/
theorem acState_decision (hq : s.env = []) (hra : readOperand f.a f.dA (s.begun.decided.masking f.mask) = .ok (a, s1))
    (hrb : readOperand f.b f.dB s1 = .ok (b, s2)) : s2.acState = .spent := by
  have hq0 : (s.begun.decided.masking f.mask).env = [] := (Passes.masking s.begun.decided f.mask).env.trans hq
  have st1 := steps_readOperand hq0 hra
  have st2 := steps_readOperand (st1.env.trans hq0) hrb
  have hmasked : (s.begun.decided.masking f.mask).acState = .spent := by
    obtain ⟨m, e⟩ := State.masking_eq s.begun.decided f.mask
    rw [e]
    rfl
  exact (st2.acState.trans st1.acState).trans hmasked

end

/-- What has been spent stays spent, also over a hunt (R43, R350). -/
theorem acState_ended_spent {s : State} (h : s.acState = .spent) (seq hunt : Bool) : (s.ended seq hunt).acState = .spent :=
  (acState_ended_cases s seq hunt).elim (·.trans (congrArg AcState.dropped h)) (·.trans h)

end Sys2Proof.Machine
end

section
/-! SUPPORT. The conditions of the decision instructions (R351, R352, R580): words compared bit by bit, as signed numbers, and by exponent and
mantissa. -/
namespace Sys2Proof.Machine

/-! ### Alphabetic (R352) -/

/-- Two words are the same where all their 48 bits are. -/
theorem word_eq_iff_bitAt {a b : Word} : a = b ↔ ∀ n, 1 ≤ n → n ≤ 48 → bitAt a n = bitAt b n := by
  refine ⟨fun h _ _ _ => h ▸ rfl, fun h => BitVec.eq_of_getLsbD_eq fun k hk => ?_⟩
  have hbit := h (48 - k) (by omega) (by omega)
  unfold bitAt at hbit
  rwa [show 48 - (48 - k) = k by omega] at hbit

theorem alphaNe_iff (a b : Word) : alphaNe a b = true ↔ ∃ n, 1 ≤ n ∧ n ≤ 48 ∧ bitAt a n ≠ bitAt b n := by
  unfold alphaNe
  rw [bne_iff_ne, ne_eq, word_eq_iff_bitAt]
  push Not
  rfl

theorem alphaLe_iff (a b : Word) : alphaLe a b = true ↔ a.toNat ≤ b.toNat := decide_eq_true_iff

/-! ### Numeric (R351) -/

/-- Signed magnitudes are equal where magnitude and sign are, the signs of zero making no difference. -/
theorem withSign_eq_iff (p q : Bool) (x y : Nat) : withSign p x = withSign q y ↔ x = y ∧ (p = q ∨ x = 0) := by
  cases p <;> cases q <;> simp [withSign] <;> omega

/-- The order of signed magnitudes: that of the magnitudes between two positive numbers, the reverse between two negative ones. -/
theorem withSign_le_iff (p q : Bool) (x y : Nat) : withSign p x ≤ withSign q y ↔
    (p = true ∧ q = true ∧ x ≤ y) ∨ (p = false ∧ q = false ∧ y ≤ x) ∨ (p = false ∧ q = true) ∨ (x = 0 ∧ y = 0) := by
  cases p <;> cases q <;> simp [withSign] <;> omega

theorem numNe_eq_false_iff (a b : Word) : numNe a b = false ↔ mag a = mag b ∧ (posSign a = posSign b ∨ mag a = 0) := by
  unfold numNe
  rw [bne_eq_false_iff_eq, signedValue_eq, signedValue_eq, withSign_eq_iff]

theorem numLe_iff (a b : Word) : numLe a b = true ↔
    (posSign a = true ∧ posSign b = true ∧ mag a ≤ mag b) ∨ (posSign a = false ∧ posSign b = false ∧ mag b ≤ mag a) ∨
      (posSign a = false ∧ posSign b = true) ∨ (mag a = 0 ∧ mag b = 0) := by
  unfold numLe
  rw [decide_eq_true_iff, signedValue_eq, signedValue_eq, withSign_le_iff]

/-! ### Floating-point (R580) -/

/-- Exponent and mantissa side by side are one number (R580). -/
theorem exponent_mantissa (w : Word) : (fld w 2 48).toNat = exponent w * 2 ^ 40 + mantissa w := by
  unfold exponent mantissa
  simp only [toNat_fld]
  omega

theorem mantissa_lt (w : Word) : mantissa w < 2 ^ 40 := (fld w 9 48).isLt

/-- Exponent and mantissa are compared as one number: the exponent first, then the mantissa. -/
theorem exponentMantissa_le_iff (a b : Word) : (fld a 2 48).toNat ≤ (fld b 2 48).toNat ↔
    exponent a < exponent b ∨ exponent a = exponent b ∧ mantissa a ≤ mantissa b := by
  have ha := mantissa_lt a
  have hb := mantissa_lt b
  rw [exponent_mantissa, exponent_mantissa]
  omega

theorem floatLe_iff (a b : Word) : floatLe a b = true ↔ (bitAt a 1 = false ∧ bitAt b 1 = true) ∨
    (bitAt a 1 = true ∧ bitAt b 1 = true ∧ (exponent a < exponent b ∨ exponent a = exponent b ∧ mantissa a ≤ mantissa b)) ∨
    (bitAt a 1 = false ∧ bitAt b 1 = false ∧ (exponent b < exponent a ∨ exponent a = exponent b ∧ mantissa b ≤ mantissa a)) := by
  unfold floatLe
  cases bitAt a 1 <;> cases bitAt b 1 <;> simp [exponentMantissa_le_iff, eq_comm (a := exponent b) (b := exponent a)]

end Sys2Proof.Machine
end

section
/-! PROOFS. The statements about the decision instructions and their conditions. -/
namespace Sys2Proof.Settled
open Sys2Proof.Machine

/-- Settles O24: `decisionOp_good` takes the operands, and `concludeJump` ends with the sequence change or, the condition not met, with the
ordinary end. -/
theorem decisionInstructions : Obligations.DecisionInstructions := by
  intro i cond f s s1 s2 a b hrow hq ha hb hm hra hpa hrb hpb
  obtain ⟨hp, hsel⟩ := passes_decision hq (maskOf_ready (s := s.begun.decided) hq hm) hra hrb
  have hspent := acState_decision hq hra hrb
  refine ⟨fun hmet r s3 ht => ?_, fun hmet hdc => ?_⟩
  · have hrun : decisionOp i cond f s = .ok ((), s3.sequenced f.seq r) := by
      rw [decisionOp_good i cond hq ha hb (undesignated_of_sequenceTarget ht) hm hra hpa hrb hpb, hmet]
      exact concludeJump_sequenced ht
    have st3 := steps_sequenceTarget ht
    have hp3 := hp.trans (Passes.steps st3)
    have hregs (q : SReg) (h : r = some q) := registers_sequenced (t := s3) (seq := f.seq) h
    rw [hp3.cur, hp3.sel] at hregs
    obtain ⟨-, -, -, hac, -⟩ := sequenced_arithmetic s3 f.seq r
    exact ⟨_, (decision_run hrow).trans (perform_ok hrun), rfl, scan_sequenced _ _ _, hac.trans (st3.acState.trans hspent),
      fun q h => (hregs q h).1, fun q h => (hregs q h).2, hp3.sequenced f.seq r⟩
  · have hrun : decisionOp i cond f s = .ok ((), s2.ended f.seq (f.c != inactiveGroup)) := by
      rw [decisionOp_good i cond hq ha hb hdc hm hra hpa hrb hpb, hmet]
      exact concludeJump_notMet hdc
    exact ⟨_, (decision_run hrow).trans (perform_ok hrun), rfl, acState_ended_spent hspent _ _, hp.ends f.seq _⟩

/-- Settles O25: each condition as the lemma about its comparison says it. -/
theorem decisionConditions : Obligations.DecisionConditions := by
  intro f m a b
  exact ⟨rfl, rfl, rfl, rfl, rfl, rfl, rfl, rfl, rfl, rfl, alphaNe_iff a b, alphaLe_iff a b, rfl, fun _ => rfl, numNe_eq_false_iff a b,
    numLe_iff a b, floatLe_iff a b⟩

end Sys2Proof.Settled
end

section
/-! SUPPORT. The shifts (R370 to R379): the operand and the shift mask taken, the store of SWS, SPS, SWE and SPE, the sequence change
of SSL. -/
namespace Sys2Proof.Machine

/-! ### The shift mask (R371) -/

theorem loadMask_shiftReady {s : State} {b : Group} (hq : s.env = []) (h : s.shiftMaskReady b) :
    loadMask (fun x => shiftMaskAddress x b) s =
      .ok (s.mem.word (shiftMaskAddress (s.reg s.cur mxrIx) b), { s with mr := s.shiftMask b }) := by
  obtain ⟨htag, hexists, -⟩ := h
  exact loadMask_ready hq htag hexists

section
variable {f : Gen} {s s1 s2 s3 : State} {a m : MWord}

/-- What every shift does first, whatever the parity of operand and mask (R370). -/
theorem shiftOperands_loaded (ha : f.a ≠ inactiveGroup) (hb : f.b ≠ inactiveGroup) (hd : f.dB = false) (hc : f.c ≠ inactiveGroup)
    (hra : readOperand f.a f.dA s.begun = .ok (a, s1)) (hm : loadMask (fun x => shiftMaskAddress x f.b) s1 = .ok (m, s2)) :
    shiftOperands f s = .ok ((a, m), s2) := by
  unfold shiftOperands
  rw [Op.bind_ok (beginForm_run (designated_active (f := genForm f) ha hb hc) s), Op.bind_ok (needActive_active ha _ _), if_neg hb, hd,
    if_neg (by decide), Op.bind_ok (needActive_active hc _ _), Op.bind_ok hra, Op.bind_ok hm]
  rfl

/-- The operand of a shift taken leaves memory, and all registers but the one A names. -/
theorem passes_shiftOperand (hq : s.env = []) (hra : readOperand f.a f.dA s.begun = .ok (a, s1)) :
    Passes s s1 (s.named f.a f.dA) [] ∧ s1.mem = s.mem :=
  have st := steps_readOperand (s := s.begun) hq hra
  ⟨(passes_begun s).trans (Passes.steps st), st.mem⟩

/-! ### SWS, SPS, SWE and SPE -/

/-- A location is read first by the shifts that protect it (R375, R376), and taken as zero by the others. -/
theorem peek_kept {α : Type} {keep : Bool} {l : Loc} (hq : s.env = []) (h : s.admits l) (g : MWord → Op α) :
    (if keep then peek l >>= g else pure (MWord.good 0#48) >>= g) s = g (if keep then s.contents l else MWord.good 0#48) s := by
  cases keep with
  | false => rfl
  | true => exact Op.bind_ok (peek_admitted hq h)

/-- A shift up to its end (R375 to R378). -/
theorem shiftOp_stored {i : Instr} {rot : Word → Nat → Word} {keep : Bool} {l : Loc} {w : Word} (hq : s.env = [])
    (ha : f.a ≠ inactiveGroup) (hb : f.b ≠ inactiveGroup) (hd : f.dB = false) (hc : f.c ≠ inactiveGroup)
    (hra : readOperand f.a f.dA s.begun = .ok (a, s1)) (hpa : MWord.bad a = false) (hm : s1.shiftMaskReady f.b)
    (hl : locate f.c f.dC { s1 with mr := s1.shiftMask f.b } = .ok (l, s3)) (hadm : s3.admits l)
    (hold : keep = true → MWord.bad (s3.contents l) = false)
    (hw : w = protect (rot a.bits (shiftCount f.b)) (s1.shiftMask f.b) (if keep then (s3.contents l).bits else 0#48)) :
    shiftOp i rot keep f s =
      .ok ((), ((State.stored (s3.logical (rot a.bits (shiftCount f.b)) w true) l (MWord.good w)).zeroSpoiled l).ended f.seq true) := by
  have hq3 : s3.env = [] := (steps_locate hl).1.env.trans ((passes_shiftOperand hq hra).1.env.trans hq)
  have hql (x y : Word) : (s3.logical x y true).env = [] := hq3
  have hadml (x y : Word) : (s3.logical x y true).admits l := by cases l <;> exact hadm
  have hbits : (if keep then s3.contents l else MWord.good 0#48).bits = if keep then (s3.contents l).bits else 0#48 :=
    apply_ite MWord.bits _ _ _
  have hgood : MWord.bad (if keep then s3.contents l else MWord.good 0#48) = false := by
    cases keep with
    | false => rfl
    | true => exact hold rfl
  have ⟨_, _, hpm⟩ := hm
  subst hw
  unfold shiftOp leaveLogical
  rw [Op.bind_ok (shiftOperands_run hq ha hb hd hc hra hm), Op.bind_ok hl, peek_kept hq3 hadm]
  beta_reduce
  rw [Op.bind_ok (Op.update_run _ _), Op.bind_ok (store_admitted (hql _ _) (hadml _ _) _), Op.bind_ok (spoilZero_stored (hql _ _) l _),
    hpa, hpm, hgood, hbits]
  rfl

/-! ### SSL -/

theorem selectNamed_passes {t : State} {W : List Nat} (h : Passes s t [] W) (x : Group) (d : Bool) (k : Nat) :
    t.selectNamed x d k = s.selectNamed x d k := by
  unfold State.selectNamed
  rw [h.cur, h.frame.regs _ _ List.not_mem_nil]

/-- The count added to a direct address C (R379 case 1): within the bank of the selecting counter, the end carry discarded. -/
theorem selectTarget_direct {x : Group} {c : Ctr} (h1 : bitAt x 1 = false) (k : Nat) (s : State) :
    selectTarget x false k c s =
      .ok (SReg.mk' s.ctl.arr s.ctl.sign ((fld s.ctl.bits 2 5).toNat * 2048 + ((fld x 2 12).toNat + k) % 2048), s) := by
  have hlow : (fld x 2 12).toNat < 2048 := (fld x 2 12).isLt
  have hadd : add11 (fld x 2 12).toNat k = ((fld x 2 12).toNat + k) % 2048 := by
    unfold add11
    omega
  unfold selectTarget
  rw [Op.bind_ok (Op.get_run s), h1, hadd]
  rfl

/-- The state in which SSL evaluates its C: the rotated word in the accumulator, a free value in the low-order product register. -/
def State.selecting (s : State) (w : Word) : State := State.logical { s with free := s.free + 1 } w (Config.freeWord s.free) false

theorem passes_selecting (s : State) (w : Word) : Passes s (s.selecting w) [] [] := Passes.quiet rfl rfl rfl rfl

section
variable {r : SReg} {k : Nat} {w : Word}

/-- Up to the evaluation of its C, SSL changes the registers named only. -/
theorem passes_selectOp (hq : s.env = []) (hra : readOperand f.a f.dA s.begun = .ok (a, s1))
    (hm : loadMask (fun x => shiftMaskAddress x f.b) s1 = .ok (m, s2))
    (ht : selectTarget f.c f.dC k (ctrOf f.seq) (s2.selecting w) = .ok (r, s3)) :
    Passes s s3 (s.named f.a f.dA ++ s1.selectNamed f.c f.dC k) [] := by
  have p1 := (passes_shiftOperand hq hra).1
  have p2 := (passes_loadMask (p1.env.trans hq) hm).1.trans (passes_selecting s2 w)
  have hp := (p1.trans p2).trans (Passes.steps (steps_selectTarget ht))
  simpa only [selectNamed_passes p2, List.append_nil] using hp

/-- SSL up to its end (R379): what is left to do depends on the parity of operand and mask alone. -/
theorem selectOp_selected (i : Instr) (ha : f.a ≠ inactiveGroup) (hb : f.b ≠ inactiveGroup) (hd : f.dB = false)
    (hc : f.c ≠ inactiveGroup) (hra : readOperand f.a f.dA s.begun = .ok (a, s1))
    (hm : loadMask (fun x => shiftMaskAddress x f.b) s1 = .ok (m, s2)) (hw : w = rotr48 a.bits (shiftCount f.b))
    (hk : k = (fld (w &&& m.bits) 38 48).toNat) (ht : selectTarget f.c f.dC k (ctrOf f.seq) (s2.selecting w) = .ok (r, s3)) :
    selectOp i f s =
      (if MWord.bad a || MWord.bad m then do
        jumpSuppressed (ctrOf f.seq)
        unprogrammedTransfer utParity i
      else jump (ctrOf f.seq) r) s3 := by
  subst hk hw
  unfold selectOp leaveLogical
  rw [Op.bind_ok (shiftOperands_loaded ha hb hd hc hra hm), Op.bind_ok (Op.fresh_run _), Op.bind_ok (Op.update_run _ _)]
  exact Op.bind_ok ht

end

end

end Sys2Proof.Machine
end

section
/-! PROOFS. The statements about the shifts. -/
namespace Sys2Proof.Settled
open Sys2Proof.Machine

/-- Settles O16: `shiftOp_stored` runs it, and `stored_spoiled_leaves` says what its store leaves. -/
theorem shiftInstructions : Obligations.ShiftInstructions := by
  intro i rot keep f s s1 s3 a l w hrow hq hw ha hb hd hc hra hpa hm hl hadm hold hword
  obtain ⟨hp, hmem⟩ := passes_shiftOperand hq hra
  have hmasked := hp.trans (passes_mr s1 (s1.shiftMask f.b))
  rw [List.append_nil] at hmasked
  obtain ⟨hholds, hac, hlop, hmr, hends⟩ := stored_spoiled_leaves hmasked (hmem ▸ hw) hl
    (passes_logical s3 (rot a.bits (shiftCount f.b)) w true) rfl (MWord.good w) f.seq true
  rw [named_mr s1] at hends
  exact ⟨_, (shift_run hrow).trans (perform_ok (shiftOp_stored hq ha hb hd hc hra hpa hm hl hadm hold hword)), rfl, hholds, hac, hlop,
    hmr.trans (steps_locate hl).1.mr, hends⟩

/-- Settles O17: `selectOp_selected` runs it up to its end, which is the sequence change or, with a parity failure, the unprogrammed
transfer. -/
theorem shiftAndSelect : Obligations.ShiftAndSelect := by
  intro f s s1 s3 a r k hq ha hb hd hc hra
  have hq1 : s1.env = [] := (passes_shiftOperand hq hra).1.env.trans hq
  refine ⟨fun hpa hready hk ht => ?_, fun m s2 hm hbad hk ht hct => ?_⟩
  · have ⟨_, _, hpm⟩ := hready
    have hm := loadMask_shiftReady hq1 hready
    have hp := passes_selectOp hq hra hm ht
    have hrun := selectOp_selected (.ssl f) ha hb hd hc hra hm rfl hk ht
    rw [hpa, hpm, if_neg (by decide)] at hrun
    have st3 := steps_selectTarget ht
    have hix := jumped_ix s3 (ctrOf f.seq) r
    have hhist := jumped_hist s3 (ctrOf f.seq) r
    rw [hp.cur] at hix hhist
    rw [hp.sel] at hhist
    refine ⟨_, perform_ok hrun, rfl, rfl, st3.ac, st3.acState, hix, fun hno => ?_, fun hdc h1 => ?_, hp.sequenced f.seq (some r)⟩
    · rw [hhist, hp.frame.regs _ _ hno]
    · have hctl : s1.ctl = s.ctl := (steps_readOperand (s := s.begun) hq hra).ctl
      rw [hdc, selectTarget_direct h1] at ht
      cases ht
      rw [← hctl]
      rfl
  · have hp := passes_selectOp hq hra hm ht
    have hrun := selectOp_selected (.ssl f) ha hb hd hc hra hm rfl hk ht
    have hq3 : (s3.historied (ctrOf f.seq)).env = [] := hp.env.trans hq
    rw [hbad, if_pos rfl, jumpSuppressed, Op.bind_ok (Op.update_run _ _), unprogrammedTransfer_ready hq3 hct] at hrun
    obtain ⟨hhist, hix, hpcr, hframe⟩ := passes_historied_transferred (i := .ssl f) (seq := f.seq) hp hp.sel
    exact ⟨_, perform_ok hrun, rfl, rfl, hhist, hix, hpcr, hframe⟩

end Sys2Proof.Settled
end

section
/-! SUPPORT. Where an instruction waits (R404, R408, R440, R458, R460, R472): what runs up to the stall, and what the stall leaves. -/
namespace Sys2Proof.Machine

/-- A stall before an instruction has done anything but clear the fixed-start bits (R404). -/
theorem stall_cleared {s : State} (w : Stall) (hu : s.byUtr = false) (hl : s.limited = none) :
    ∃ t, stall w s.cleared = .ok ((), t) ∧ Stalls s t w ∧ fld t.pcr 1 3 = 0#3 := by
  obtain ⟨t, hrun, hst, hpcr⟩ := stall_run w s.cleared s (cleared_cur s) rfl hu hl rfl rfl rfl rfl rfl rfl rfl (cleared_bits s)
  exact ⟨t, hrun, hst, by rw [hpcr, cleared_low]⟩

/-! ### Print -/

section
variable {f : Prt} {s s1 : State} {w : MWord}
  (ha : f.a = inactiveGroup ∧ f.dA = false ∧ s1 = s.begun ∨
    f.a ≠ inactiveGroup ∧ printIncremented f = false ∧ readOperand f.a f.dA s.begun = .ok (w, s1))
include ha

/-- The word a print takes, the accumulator included where nothing defines it: but for the count of free values, the state is that in which
A has been read (R460). -/
theorem printSource_free : ∃ v n, printSource f (f.a == inactiveGroup) s.begun = .ok (v, { s1 with free := n }) := by
  unfold printSource
  rcases ha with ⟨ha, -, rfl⟩ | ⟨ha, -, hr⟩
  · rw [if_pos (by simp [ha]), Op.bind_ok (Op.get_run _)]
    split
    · exact ⟨_, s.free + 1, rfl⟩
    · exact ⟨_, s.free, rfl⟩
  · rw [if_neg (by simp [ha])]
    exact ⟨w, s1.free, hr⟩

/-- Reading A changes only the register it names. -/
theorem steps_printSource (hq : s.env = []) : Steps s.begun s1 (s.named f.a f.dA) := by
  rcases ha with ⟨-, -, rfl⟩ | ⟨-, -, hr⟩
  · exact .refl _ _
  · exact steps_readOperand (s := s.begun) hq hr

/-- A print whose typewriter is busy stalls once A has been read (R460). -/
theorem printOp_busy {i : Instr} {slave : Bool} (hq : s.env = []) (hb : f.b ≠ inactiveGroup) (h1 : bitAt f.b 1 = false)
    (hm : printMode f.b ≠ 0#2) (ht : typewriterOf f.b = if slave then 1 else 0) (hs : slave = true → s.cfg.slave = true)
    (hbusy : s.typewriterBusy slave = true) (hc : f.c = inactiveGroup → f.dC = false) :
    ∃ n, printOp i f s = stall .io { s1 with free := n } := by
  obtain ⟨v, n, hsrc⟩ := printSource_free ha
  have st := steps_printSource ha hq
  have hda : f.a = inactiveGroup → f.dA = false := fun h => (ha.resolve_right fun k => k.1 h).2.1
  have hi : isInactive f.a f.dA s.begun = .ok (f.a == inactiveGroup, s.begun) := by
    by_cases h : f.a = inactiveGroup
    · rw [hda h, h]; rfl
    · rw [isInactive_active h, beq_eq_false_iff_ne.mpr h]
  have hinc : ¬ ((f.a == inactiveGroup) = false ∧ printIncremented f = true) := by
    rcases ha with ⟨h, -⟩ | ⟨-, h, -⟩ <;> simp [h]
  have hbusy1 : State.typewriterBusy { s1 with free := n } slave = true := by
    have hkept : State.typewriterBusy { s1 with free := n } slave = s1.typewriterBusy slave := by cases slave <;> rfl
    have hbegun : s.begun.typewriterBusy slave = s.typewriterBusy slave := by cases slave <;> rfl
    rw [hkept, typewriterBusy_steps st slave, hbegun, hbusy]
  have hpart : printPart f (f.a == inactiveGroup) s.begun = .ok (none, { s1 with free := n }) := by
    have hq1 : State.env { s1 with free := n } = [] := st.env.trans hq
    rw [printPart_run (s := s.begun) h1 hm ht hs hsrc, typeWord_run hq1, hbusy1, if_pos rfl]
  refine ⟨n, ?_⟩
  unfold printOp
  rw [Op.bind_ok (beginForm_run (designated_of hda (fun _ => rfl) hc) s), Op.bind_ok hi, if_neg hinc, if_neg hb, Op.bind_ok hpart]

end

/-! ### Control program -/

/-- Function 1000 stalls while its target is in demand (R472). -/
theorem controlOp_busy {f : Mpc} {s : State} {g : BitVec 3} (ha : controlAddressOk f = true) (hc : f.c = inactiveGroup → f.dC = false)
    (hf : fld f.b 1 4 = 0b1000#4) (hg : controlTarget f.b = some g) (h0 : s.cur ≠ 0#3) (h2 : s.cur ≠ 2#3)
    (hn : s.inDemand g = true) : controlOp f s = stall (.demand g) s.begun := by
  have hi : ∃ b, isInactive f.c f.dC s.begun = .ok (b, s.begun) := by
    by_cases h : f.c = inactiveGroup
    · rw [hc h, h]; exact ⟨true, rfl⟩
    · exact ⟨false, isInactive_active h _ _⟩
  obtain ⟨b, hi⟩ := hi
  unfold controlOp begin
  rw [Op.bind_ok (Op.update_run _ s), Op.bind_ok hi, Op.bind_ok (Op.get_run _), if_neg (by simp [ha]), if_pos hf, hg]
  dsimp only
  rw [State.cur_begun, if_neg (not_or.mpr ⟨h0, h2⟩), show s.begun.inDemand g = true from hn, if_pos rfl]

/-! ### Peripheral -/

/-- A peripheral instruction clears the fixed-start bits before it looks at its device (R404, R440). -/
theorem clearing_run (k : State → Op Unit) (s : State) :
    (do begin; noAc; update (·.setFixedStart 0); let u ← get; k u : Op Unit) s = k s.cleared s.cleared := rfl

theorem dev_cleared (s : State) (d : Dir) (ch dev : BitVec 3) : s.cleared.dev d ch dev = s.dev d ch dev := rfl

theorem cfg_cleared (s : State) : s.cleared.cfg = s.cfg := rfl

theorem multipleBusy_cleared (s : State) (d : Dir) (ch dev : BitVec 3) : s.cleared.multipleBusy d ch dev = s.multipleBusy d ch dev := rfl

theorem interlock_cleared (s : State) (d : Dir) (ch : BitVec 3) :
    bitAt s.cleared.pcr (interlockBit d ch) = bitAt s.pcr (interlockBit d ch) := by
  obtain ⟨h9, h48, -⟩ := interlock_bounds d ch
  exact cleared_bits s _ (by omega) h48

/-- A peripheral instruction stalls where its device, the control it shares or its channel is in use (R404, R458). -/
theorem peripheralOp_busy {i : Instr} {m : Motion} {f : Per} {k : DevKind} {s : State}
    (hk : Config.kind s.cfg m.dir f.ch f.dev = some k) (hable : canMove k m = true)
    (hbusy : (s.dev m.dir f.ch f.dev).unavailable k m (f.a != inactiveGroup) = true ∨ s.multipleBusy m.dir f.ch f.dev = true ∨
      (f.a ≠ inactiveGroup ∧ bitAt s.pcr (interlockBit m.dir f.ch) = true)) :
    peripheralOp i m f s = stall .io s.cleared := by
  have htest : ((s.dev m.dir f.ch f.dev).unavailable k m (f.a != inactiveGroup) || s.multipleBusy m.dir f.ch f.dev ||
      (bitAt s.pcr (interlockBit m.dir f.ch) && f.a != inactiveGroup)) = true := by
    rcases hbusy with h | h | ⟨ha, h⟩
    · simp [h]
    · simp [h]
    · simp [ha, h]
  unfold peripheralOp
  rw [clearing_run]
  dsimp only
  rw [cfg_cleared, connected_of_kind hk, if_neg (by decide), hk]
  dsimp only
  rw [hable, if_neg (by decide), dev_cleared, multipleBusy_cleared, interlock_cleared, if_pos htest]

/-- A rewind of a tape stalls where the tape is in use, and else rewinds it (R440). -/
theorem rewindOp_tape {i : Instr} {f : Per} {s : State} {d : Dir} (hd : d = rewindDir s.cfg f.ch f.dev)
    (hk : Config.kind s.cfg d f.ch f.dev = some .tape) :
    rewindOp i f s =
      if ((s.dev d f.ch f.dev).busy || (s.dev d f.ch f.dev).locked || (s.dev d f.ch f.dev).out) = true then stall .io s.cleared
      else .ok ((), (s.cleared.setDev d f.ch f.dev ((s.dev d f.ch f.dev).rewind (f.a != inactiveGroup))).hunted true) := by
  unfold rewindOp
  rw [clearing_run]
  rw [cfg_cleared, ← hd, connected_of_kind hk, if_neg (by decide), hk]
  dsimp only
  rw [dev_cleared]
  split
  · rfl
  · rfl

end Sys2Proof.Machine
end

section
/-! PROOFS. The statements about waiting and rewinding. -/
namespace Sys2Proof.Settled
open Sys2Proof.Machine

/-- Settles O37: each instruction runs up to its stall, and `stall_run` says what that leaves. -/
theorem busyStalls : Obligations.BusyStalls := by
  refine ⟨fun i f s s1 slave w hrow hq hb h1 hm ht hs hbusy ha hc hu hl => ?_, fun f s g ha hc hf hg h0 h2 hn hu hl => ?_,
    fun i m f k s hrow hk hable hbusy hu hl => ?_, fun f d s hd hk hbusy hu hl => ?_⟩
  · have st := steps_printSource ha hq
    have hu1 : s1.byUtr = false := (congrArg State.byUtr st.bare :).trans hu
    obtain ⟨n, hrun⟩ := printOp_busy (i := i) ha hq hb h1 hm ht hs hbusy hc
    obtain ⟨t, hstall, hst, -⟩ :=
      stall_run .io { s1 with free := n } s1 rfl rfl hu1 hl rfl rfl rfl rfl rfl rfl rfl fun _ _ _ => rfl
    have hcounter := hst.counter
    have hframe := hst.frame
    rw [st.cur, st.sel] at hcounter hframe
    refine ⟨t, (print_run hrow).trans (perform_ok (hrun.trans hstall)), hst, hcounter.trans st.ctl, ?_⟩
    exact ((Frame.same (s := s) (t := s.begun) rfl rfl).trans (st.frame.trans hframe)).mono (by simp) (by simp)
  · obtain ⟨t, hstall, hst, -⟩ := stall_run (.demand g) s.begun s rfl rfl hu hl rfl rfl rfl rfl rfl rfl rfl fun _ _ _ => rfl
    exact ⟨t, perform_ok ((controlOp_busy ha hc hf hg h0 h2 hn).trans hstall), hst⟩
  · obtain ⟨t, hstall, hst, hlow⟩ := stall_cleared .io hu hl
    exact ⟨t, (motion_run hrow).trans (perform_ok ((peripheralOp_busy hk hable hbusy).trans hstall)), hst, hlow⟩
  · obtain ⟨t, hstall, hst, hlow⟩ := stall_cleared .io hu hl
    have hrun : rewindOp (.rw f) f s = stall .io s.cleared := (rewindOp_tape hd hk).trans (if_pos hbusy)
    exact ⟨t, perform_ok (hrun.trans hstall), hst, hlow⟩

/-- Settles O41: `rewindOp_tape` runs it; the device is the one replaced, and all else is as the fixed-start bits cleared leave it. -/
theorem rewind : Obligations.Rewind := by
  intro f d s v hd hk hv hb hl ho
  have hfree : ¬ ((s.dev d f.ch f.dev).busy || (s.dev d f.ch f.dev).locked || (s.dev d f.ch f.dev).out) = true := by
    simp [← hv, hb, hl, ho]
  have hrun : exec (.rw f) s = .next ((s.cleared.setDev d f.ch f.dev (v.rewind (f.a != inactiveGroup))).hunted true) := by
    rw [hv]
    exact perform_ok ((rewindOp_tape hd hk).trans (if_neg hfree))
  refine ⟨_, _, hrun, (dev_setDev_self s.cleared d f.ch f.dev (v.rewind (f.a != inactiveGroup))).symm, rfl, rfl, rfl, rfl, rfl, rfl, hl,
    rfl, rfl, rfl, rfl, cleared_low s, cleared_bits s, fun hn => ?_, Frame.same rfl rfl⟩
  unfold State.hunted
  rw [show (s.cleared.setDev d f.ch f.dev (v.rewind (f.a != inactiveGroup))).limited = none from hn,
    show (s.cleared.setDev d f.ch f.dev (v.rewind (f.a != inactiveGroup))).cur = s.cur from cleared_cur s]
  rfl

end Sys2Proof.Settled
end

section
/-! SUPPORT. A peripheral instruction once its device is available (R404): its counters set, the device started, the sequence changed or the
unprogrammed transfer of the end of tape made; and its tests. -/
namespace Sys2Proof.Machine

/-! ### What a peripheral instruction leaves of its program -/

/-- From `s` to `t` nothing has changed that the end of an instruction looks at: the group, the counter that selected the instruction and what
it held, the events to come, and the registers that are no read-write counters. -/
structure Aside (s t : State) : Prop where
  cur : t.cur = s.cur
  sel : t.sel = s.sel
  ctl : t.ctl = s.ctl
  env : t.env = s.env
  reg : ∀ g i, i.toNat < 28 → t.reg g i = s.reg g i

namespace Aside

variable {s t u : State}

theorem refl (s : State) : Aside s s := ⟨rfl, rfl, rfl, rfl, fun _ _ _ => rfl⟩

theorem trans (h : Aside s t) (h' : Aside t u) : Aside s u :=
  ⟨h'.cur.trans h.cur, h'.sel.trans h.sel, h'.ctl.trans h.ctl, h'.env.trans h.env,
    fun g i hi => (h'.reg g i hi).trans (h.reg g i hi)⟩

theorem of_kept (h : t.kept = s.kept) : Aside s t :=
  have hpcr : t.pcr = s.pcr := (congrArg State.pcr h :)
  ⟨by unfold State.cur; rw [hpcr], (congrArg State.sel h :), (congrArg State.ctl h :), (congrArg State.env h :),
    fun g i _ => State.reg_of_regs (congrArg State.regs h :) g i⟩

theorem setReg (s : State) (g : BitVec 3) {i : BitVec 5} (r : SReg) (hi : 28 ≤ i.toNat) : Aside s (s.setReg g i r) :=
  ⟨rfl, rfl, rfl, rfl, fun _ _ hj => State.reg_setReg_other s (fun e => by rw [e.2] at hj; omega) r⟩

theorem setErrorCode (s : State) (c : BitVec 5) : Aside s (s.setErrorCode c) :=
  ⟨State.cur_setErrorCode s c, rfl, rfl, rfl, fun _ _ _ => rfl⟩

theorem setFixedStart (s : State) (v : BitVec 3) : Aside s (s.setFixedStart v) :=
  ⟨State.cur_setFixedStart s v, rfl, rfl, rfl, fun _ _ _ => rfl⟩

theorem setInterlock (s : State) (d : Dir) (ch : BitVec 3) (b : Bool) : Aside s (s.setPcrBit (interlockBit d ch) b) := by
  obtain ⟨h9, h48, hn⟩ := interlock_bounds d ch
  exact ⟨State.cur_setPcrBit s b (by omega) (by omega), rfl, rfl, rfl, fun _ _ _ => rfl⟩

/-! ### An output cycle -/

theorem halt (s : State) (c : BitVec 5) : Aside s (s.halt c) :=
  (setErrorCode s c).trans (of_kept (kept_closeChannels _ _))

theorem stepBuffer (s : State) (g : BitVec 3) {i : BitVec 5} (hi : 28 ≤ i.toNat) : Aside s (s.stepBuffer g i) := by
  obtain ⟨q, n, e⟩ := stepBuffer_eq s g i
  rw [e]
  exact (of_kept (s := s) (t := { s with free := n }) rfl).trans (setReg _ g q hi)

theorem endTransfer (s : State) (d : Dir) (ch : BitVec 3) : Aside s (s.endTransfer d ch) :=
  ((of_kept (s := s) (t := (s.setXfer d ch none).setDemand d ch false) rfl).trans (setInterlock _ d ch false)).trans
    (of_kept (t := State.release (State.setPcrBit _ _ _)) rfl)

theorem endOutput (s : State) (ch : BitVec 3) (x : Xfer) (r : Record) : Aside s (s.endOutput ch x r) :=
  (of_kept (s := s) (t := { s with free := s.free + 122 }.modifyDev .output ch x.dev fun v => v.finish x r s.free) rfl).trans
    (endTransfer _ .output ch)

theorem counterFails {d : Dir} {ch : BitVec 3} {x : Xfer} {r : SReg} (h : s.counterFails d ch x r = some t) : Aside s t := by
  have stored (c : BitVec 5) : Aside s ((s.setErrorCode c).modifyDev d ch x.dev (Device.storeError x.kind d)) :=
    (setErrorCode s c).trans (of_kept rfl)
  unfold State.counterFails at h
  split at h
  · obtain rfl := Option.some.inj h
    exact halt s _
  · split at h
    · split at h
      · obtain rfl := Option.some.inj h
        split
        · exact (stored _).trans (endTransfer _ _ _)
        · exact (stored _).trans (endOutput _ _ _ _)
      · obtain rfl := Option.some.inj h
        exact halt s _
    · exact nomatch h

theorem tableCycle (s : State) (d : Dir) (ch : BitVec 3) (x : Xfer) : Aside s (s.tableCycle d ch x) := by
  have noted (p : Prop) [Decidable p] : Aside s (if p then
      (s.modifyDev d ch x.dev (Device.storeError x.kind d)).setXfer d ch (some { x with err := true }) else s) := by
    split
    · exact of_kept rfl
    · exact refl s
  unfold State.tableCycle
  dsimp only
  split
  · next h => exact counterFails h
  · split
    · exact noted _
    · exact ((noted _).trans (setReg _ ch _ (bufferIx_high d))).trans (stepBuffer _ ch (tableIx_high d))

theorem itemSent (s : State) (ch : BitVec 3) (x : Xfer) (w : Word) : Aside s (s.itemSent ch x w) := by
  unfold State.itemSent
  split
  · exact tableCycle _ _ _ _
  · exact refl s

theorem concludeOutput (s : State) (ch : BitVec 3) (w : Word) (e : Bool) : Aside s (s.concludeOutput ch w e) := by
  unfold State.concludeOutput
  split
  · exact refl s
  · split
    · exact endOutput _ _ _ _
    · exact refl s

theorem sendWord (s : State) (ch : BitVec 3) (x : Xfer) (w : MWord) : Aside s (s.sendWord ch x w) := by
  have stepped : Aside s { s.stepBuffer ch wacIx with free := s.free + 2 } :=
    (stepBuffer s ch (bufferIx_high .output)).trans (of_kept rfl)
  refine (stepped.trans ?_).trans ((itemSent _ _ _ _).trans (concludeOutput _ _ _ _))
  split
  · exact of_kept rfl
  · exact of_kept rfl

/-- A buffer cycle of an output channel leaves the program in control as it is (R411). -/
theorem outputCycle (s : State) (ch : BitVec 3) : Aside s (s.bufferCycle .output ch) := by
  have used : Aside s (s.setDemand .output ch false) := of_kept rfl
  unfold State.bufferCycle
  dsimp only
  split
  · exact used
  · refine used.trans ?_
    unfold State.outputCycle
    split
    · next h => exact counterFails h
    · exact sendWord _ _ _ _

end Aside

/-! ### The counters and the start -/

theorem aside_cleared (s : State) : Aside s s.cleared :=
  (Aside.of_kept (s := s) (t := s.begun.noAc) rfl).trans (Aside.setFixedStart _ 0#3)

theorem aside_started (s : State) (f : Per) (k : DevKind) (m : Motion) (v : Device) (w : List MWord) :
    Aside s (s.started f k m v w) :=
  (Aside.of_kept (s := s) (t := (s.setDev m.dir f.ch f.dev v).setXfer m.dir f.ch (some (Xfer.start f k m w))) rfl).trans
    (Aside.setInterlock _ m.dir f.ch true)

theorem aside_prepared (s : State) (f : Per) (m : Motion) : Aside s (s.prepared f m) := by
  have first := (aside_cleared s).trans (Aside.setReg _ f.ch (s.bufferAt f.a m) (bufferIx_high m.dir))
  unfold State.prepared
  dsimp only
  split
  · exact first
  · exact first.trans (Aside.setReg _ f.ch _ (tableIx_high m.dir))

/-- One free value taken. -/
def State.drawn (u : State) : State := { u with free := u.free + 1 }

theorem aside_drawn (u : State) : Aside u u.drawn := .of_kept rfl

theorem freshBool_drawn (u : State) : freshBool u = .ok (Config.freeBool u.free, u.drawn) := rfl

/-- The state once a device is in motion (R404 steps 6 and 7): the counters set, and the free truth value of R422 taken. -/
def State.starting (s : State) (f : Per) (k : DevKind) (m : Motion) (v : Device) (w : List MWord) : State :=
  (s.prepared f m).drawn.started f k m v w

section
variable (s : State) (f : Per) (k : DevKind) (m : Motion) (v : Device) (w : List MWord)

theorem aside_starting : Aside s (s.starting f k m v w) :=
  ((aside_prepared s f m).trans (aside_drawn _)).trans (aside_started _ f k m v w)

theorem mem_starting : (s.starting f k m v w).mem = s.mem := by
  obtain ⟨-, hmem, -⟩ := started_fields (s.prepared f m).drawn f k m v w
  obtain ⟨-, -, -, -, hmem', -⟩ := prepared_fields s f m
  exact hmem.trans hmem'

theorem reg_starting (g : BitVec 3) (i : BitVec 5) : (s.starting f k m v w).reg g i = (s.prepared f m).reg g i := by
  obtain ⟨hregs, -⟩ := started_fields (s.prepared f m).drawn f k m v w
  exact State.reg_of_regs (s := (s.prepared f m).drawn) hregs g i

theorem xfer_starting (d : Dir) (h : BitVec 3) :
    (s.starting f k m v w).xfer d h = if d = m.dir ∧ h = f.ch then some (Xfer.start f k m w) else s.xfer d h := by
  obtain ⟨-, -, hxfers, -⟩ := prepared_fields s f m
  have hprep : (s.prepared f m).drawn.xfer d h = s.xfer d h := (State.xfer_of (s := s.prepared f m) rfl d h).trans (State.xfer_of hxfers d h)
  rw [← hprep]
  exact started_xfer _ f k m v w d h

theorem dev_starting : (s.starting f k m v w).dev m.dir f.ch f.dev = v := started_dev _ f k m v w

theorem pcr_starting : (s.starting f k m v w).pcr = setBitAt (s.prepared f m).pcr (interlockBit m.dir f.ch) true :=
  pcr_started (s.prepared f m).drawn f k m v w

theorem interlock_starting : bitAt (s.starting f k m v w).pcr (interlockBit m.dir f.ch) = true := by
  obtain ⟨h9, h48, -⟩ := interlock_bounds m.dir f.ch
  rw [pcr_starting, bitAt_setBitAt _ _ (by omega) (by omega), if_pos rfl]

theorem bit_starting {n : Nat} (h4 : 4 ≤ n) (h48 : n ≤ 48) (hn : n ≠ interlockBit m.dir f.ch) :
    bitAt (s.starting f k m v w).pcr n = bitAt s.pcr n := by
  obtain ⟨h9, h48', -⟩ := interlock_bounds m.dir f.ch
  rw [pcr_starting, bitAt_setBitAt _ _ (by omega) (by omega), if_neg hn, bit_prep s f m n ⟨h4, h48⟩]

theorem fixedStart_starting : fld (s.starting f k m v w).pcr 1 3 = 0#3 := by
  obtain ⟨h9, h48, -⟩ := interlock_bounds m.dir f.ch
  rw [pcr_starting, fld_setBitAt _ _ (by omega) (by omega) (by omega), fld_prep]

end

/-! ### The end -/

/-- The end of a peripheral instruction, whatever the device and its channel have done meanwhile. -/
theorem concludePeripheral_aside {f : Per} {s u : State} (ht : s.targetOk f.c) (h : Aside s u) :
    concludePeripheral f u = .ok ((), u.continued s f.c) :=
  concludePeripheral_run ht h.cur (h.reg s.cur) h.sel h.ctl

/-- The read-write counters are not among the registers that end changes. -/
theorem not_mem_continuers (s : State) (x : Group) (g : BitVec 3) {i : BitVec 5} (hi : 28 ≤ i.toNat) : (g, i) ∉ s.continuers x := by
  have low : s.sel.ix.toNat < 28 ∧ s.sel.hist.toNat < 28 := by cases s.sel <;> decide
  unfold State.continuers
  split
  · exact List.not_mem_nil
  · simp only [List.mem_cons, Prod.mk.injEq, List.not_mem_nil, or_false, not_or]
    exact ⟨fun e => by rw [e.2] at hi; omega, fun e => by rw [e.2] at hi; omega⟩

theorem fixedStart_continued (u s : State) (x : Group) : fld (u.continued s x).pcr 1 3 = fld u.pcr 1 3 := by
  unfold State.continued
  split
  · rfl
  · exact fld_setBitAt u.pcr _ (by omega) (by omega) (by omega)

/-- What a peripheral instruction that has moved its device leaves, at the end of tape (R422) or not, of the state `u` it ends in. -/
structure Moved (s u t : State) (x : Group) (e : Bool) : Prop where
  scan : t.scan = none
  devs : t.devs = u.devs
  cfg : t.cfg = u.cfg
  xfers : t.xfers = u.xfers
  bits : ∀ n, 1 ≤ n → n ≤ 48 → n ≠ 21 + s.cur.toNat → bitAt t.pcr n = bitAt u.pcr n
  fixedStart : fld t.pcr 1 3 = fld u.pcr 1 3
  reg : ∀ h j, (h, j) ∉ s.continuers x → t.reg h j = u.reg h j
  mem : e = false → t.mem = u.mem

theorem moved_end {s u : State} (h : u.cur = s.cur) (i : Instr) (x : Group) (e : Bool) :
    Moved s u (if e then u.transferred utTapeEnd i else u.continued s x) x e := by
  cases e with
  | true => exact ⟨rfl, rfl, rfl, rfl, fun _ _ _ _ => rfl, rfl, fun _ _ _ => rfl, nofun⟩
  | false =>
    obtain ⟨hscan, hmem, hdevs, hcfg, hxfers, hbits, hreg⟩ := continued_frame u s x h
    exact ⟨hscan, hdevs, hcfg, hxfers, hbits, fixedStart_continued u s x, hreg, fun _ => hmem⟩

theorem dev_prepared (s : State) (f : Per) (m : Motion) (d : Dir) (ch dev : BitVec 3) :
    (s.prepared f m).dev d ch dev = s.dev d ch dev := by
  obtain ⟨hdevs, hcfg, -⟩ := prepared_fields s f m
  exact dev_of hdevs hcfg d ch dev

/-- The first cycle of a write falls to it at once where no event is to come. -/
theorem tick_first {p : Prop} [Decidable p] {s : State} (hq : s.env = []) (g : Unit → Op Unit) :
    (if p then tick >>= g else g ()) s = g () s := by
  split
  · exact Op.bind_ok (tick_quiet hq)
  · rfl

/-- A peripheral instruction with an available device reports a stored error, else the program switch, else moves its device (R404, D40). -/
theorem exec_available {i : Instr} {m : Motion} {f : Per} {k : DevKind} {s t : State} {v : Device} (hrow : motionRow i = some (m, f))
    (hav : s.Available f m k) (hv : v = s.dev m.dir f.ch f.dev)
    (hrun : (if v.stored m.dir then deviceTransfer i 1#3 fun u => u.setDev m.dir f.ch f.dev (v.clearError m.dir)
      else if v.switch ≠ 0#3 then deviceTransfer i v.switch fun u => u.setDev m.dir f.ch f.dev { v with switch := 0#3 }
      else moveOp i k m f) s.cleared = .ok ((), t)) : exec i s = .next t := by
  subst hv
  exact (motion_run hrow).trans (perform_ok ((peripheral_run hav).trans hrun))

/-- A peripheral instruction with active A and an available device, once it is known what starting the device leaves (R404 steps 6 to 8). -/
theorem exec_moved {i : Instr} {m : Motion} {f : Per} {k : DevKind} {s u : State} {v : Device} {e : Bool}
    (hrow : motionRow i = some (m, f)) (hq : s.env = []) (ha : f.a ≠ inactiveGroup) (hv : v = s.dev m.dir f.ch f.dev)
    (hav : s.Available f m k) (herr : v.stored m.dir = false) (hsw : v.switch = 0#3) (hb : s.buffersOk f m) (ht : s.targetOk f.c)
    (hstart : startDevice f k m (s.prepared f m).drawn = .ok ((), u)) (hu : Aside s u)
    (he : e = v.atEnd k m ((s.prepared f m).oddWrite f) (Config.freeBool (s.prepared f m).free)) (hct : e = true → u.canTransfer) :
    exec i s = .next (if e then u.transferred utTapeEnd i else u.continued s f.c) := by
  have hdev : (s.prepared f m).dev m.dir f.ch f.dev = v := (dev_prepared s f m _ _ _).trans hv.symm
  refine exec_available hrow hav hv ?_
  rw [herr, if_neg (by decide), if_neg (not_not.mpr hsw)]
  unfold moveOp
  rw [if_neg ha, Op.bind_ok (setCounters_ok hb), if_pos rfl, tick_first ((aside_prepared s f m).env.trans hq)]
  beta_reduce
  rw [Op.bind_ok (Op.get_run _), Op.bind_ok (freshBool_drawn _), Op.bind_ok hstart, hdev, ← he]
  cases e with
  | true => exact unprogrammedTransfer_ready (hu.env.trans hq) (hct rfl)
  | false => exact concludePeripheral_aside ht hu

/-! ### The first word of a write -/

/-- A write sends its first word at once (R411). -/
theorem startWrite_run {f : Per} {k : DevKind} {s : State} {d : Device} (hd : d = s.dev .output f.ch f.dev) {u v : State}
    (hu : u = s.started f k .write (d.moving false d.before d.after .write) []) (hv : v = u.bufferCycle .output f.ch)
    (hh : v.halted = false) : startDevice f k .write s = .ok ((), v) := by
  subst hv hu hd
  unfold startDevice
  rw [Op.bind_ok (Op.get_run s)]
  dsimp only [Motion.dir]
  rw [Op.bind_ok (Op.update_run _ _), Op.bind_ok (Op.update_run _ _), Op.bind_ok (Op.get_run _), if_neg (by simp [hh])]
  rfl

/-! ### The tests -/

/-- Whether an unprogrammed transfer can be made does not depend on the devices. -/
theorem Aside.canTransfer {s t : State} (h : Aside s t) (hcfg : t.cfg = s.cfg) (hbar : t.bar = s.bar) (hct : s.canTransfer) :
    t.canTransfer := by
  obtain ⟨htag, heven, hexists, hbars⟩ := hct
  have hexists' (a : Nat) : t.exists? a = s.exists? a := by
    unfold State.exists?
    rw [hcfg]
  unfold State.canTransfer
  rw [h.cur, h.reg s.cur utrIx (by decide), h.sel]
  exact ⟨htag, heven, (hexists' _).trans hexists, (State.barsMem_of hcfg hbar h.cur _).trans hbars⟩

/-- A report of a device (R420, R424): the device reset, the code in the fixed-start bits, and the unprogrammed transfer to U + 6. -/
theorem deviceTransfer_run {i : Instr} {c : BitVec 3} {s : State} {d : Dir} {ch dev : BitVec 3} {v : Device} (hq : s.env = [])
    (hct : s.canTransfer) : deviceTransfer i c (fun u => u.setDev d ch dev v) s =
      .ok ((), ((s.setDev d ch dev v).setFixedStart c).transferred utDeviceError i) := by
  have aside : Aside s ((s.setDev d ch dev v).setFixedStart c) :=
    (Aside.of_kept (s := s) (t := s.setDev d ch dev v) rfl).trans (Aside.setFixedStart _ c)
  unfold deviceTransfer
  rw [Op.bind_ok (Op.update_run _ s)]
  exact unprogrammedTransfer_ready (aside.env.trans hq) (aside.canTransfer rfl rfl hct)

/-- What a report leaves. -/
theorem reported_fields (s : State) (i : Instr) (c : BitVec 3) (d : Dir) (ch dev : BitVec 3) (v : Device) (n : Nat) :
    fld (((s.cleared.setDev d ch dev v).setFixedStart c).transferred n i).pcr 1 3 = c ∧
    (∀ k, 4 ≤ k → k ≤ 48 → bitAt (((s.cleared.setDev d ch dev v).setFixedStart c).transferred n i).pcr k = bitAt s.pcr k) ∧
    (((s.cleared.setDev d ch dev v).setFixedStart c).transferred n i).dev d ch dev = v :=
  ⟨fld_setFld_self (i := 1) (j := 3) s.cleared.pcr c (by omega) (by omega),
    fun k h4 h48 => (bitAt_setFld (i := 1) (j := 3) s.cleared.pcr c (by omega) (by omega) (by omega)).trans (cleared_bits s k h4 h48),
    dev_setDev_self s.cleared d ch dev v⟩

/-- An operation of the kind given last, or the first one, leaves the tape as it is (R402). -/
theorem spoilTape_run {f : Per} {k : DevKind} {m : Motion} {s : State} {v : Device} (hv : s.dev m.dir f.ch f.dev = v)
    (h : k = .tape → v.last = .none ∨ v.last = (if m = .write then .write else .read)) : spoilTape f k m s = .ok ((), s) := by
  unfold spoilTape
  rw [Op.bind_ok (Op.get_run s), hv]
  refine congrFun (if_neg ?_) s
  rintro ⟨hk, hw⟩
  rcases h hk with e | e <;> cases m <;> rw [e] at hw <;> exact absurd hw (by decide)

end Sys2Proof.Machine
end

section
/-! PROOFS. The statements about the peripheral instructions. -/
namespace Sys2Proof.Settled
open Sys2Proof.Machine

/-- Settles O38: `exec_moved` runs it, and the state it ends in is `State.starting`. -/
theorem readStart : Obligations.ReadStart := by
  intro i m f k s u v r rest e hrow hq hm ha hv hav herr hsw hafter hbefore hb ht hu he hct
  have hdir : m.dir = .input := by
    cases m with
    | write => exact absurd rfl hm
    | forward => rfl
    | backward => rfl
  have hdev : v = (s.prepared f m).drawn.dev .input f.ch f.dev := hv.trans (dev_prepared s f m _ _ _).symm
  have hstart : startDevice f k m (s.prepared f m).drawn = .ok ((), u) := hu ▸ startRead_run hm hdev hafter hbefore
  have hu' : u = s.starting f k m _ _ := hu
  obtain ⟨hrac, hdrac, hothers⟩ := prepared_reg s f m
  rw [hdir] at hrac hdrac hothers
  have hside : Aside s u := hu' ▸ aside_starting s f k m _ _
  have hend := moved_end hside.cur i f.c e
  have hlock := interlock_bounds .input f.ch
  have hreg (h j) (hn : (h, j) ∉ s.continuers f.c) := (hend.reg h j hn).trans ((hu' ▸ reg_starting s f k m _ _ h j :))
  refine ⟨_, exec_moved hrow hq ha (by rwa [hdir]) hav (by rwa [hdir]) hsw hb ht hstart hside he hct, rfl, ?_, fun hfb => ?_, ?_,
    fun d h hn => ?_, ?_, ?_, ?_, fun n h4 h48 hi hc => ?_, hend.scan, fun hef => ⟨?_, fun h j hn => ?_⟩⟩
  · exact (hreg _ _ (not_mem_continuers s f.c f.ch (by decide))).trans hrac
  · exact (hreg _ _ (not_mem_continuers s f.c f.ch (by decide))).trans (hdrac hfb)
  · rw [State.xfer_of hend.xfers, hu', xfer_starting, if_pos ⟨hdir.symm, rfl⟩]
    rfl
  · rw [State.xfer_of hend.xfers, hu', xfer_starting, if_neg (by rwa [hdir])]
  · rw [dev_of hend.devs hend.cfg, hu', ← hdir, dev_starting]
    split
    · rfl
    · rfl
  · rw [hend.bits _ (by omega) (by omega) (by omega), hu', ← hdir, interlock_starting]
  · rw [hend.fixedStart, hu', fixedStart_starting]
  · rw [hend.bits n (by omega) h48 hc, hu', bit_starting s f k m _ _ h4 h48 (by rwa [hdir])]
  · rw [hend.mem hef, hu', mem_starting]
  · rw [List.mem_append, not_or] at hn
    exact (hreg h j hn.2).trans (hothers h j hn.1)

/-- Settles O39: `exec_moved` runs it, the first word being sent from `State.starting`. -/
theorem writeStart : Obligations.WriteStart := by
  intro f k s u v d e hq ha hd hav herr hsw hb ht hu hv hh he hct
  have hu' : u = s.starting f k .write _ _ := hu
  obtain ⟨hwac, hdwac, hothers⟩ := prepared_reg s f .write
  have hside : Aside s v := (hu' ▸ aside_starting s f k .write _ _ : Aside s u).trans (hv ▸ Aside.outputCycle u f.ch)
  have hend := moved_end hside.cur (.wf f) f.c e
  have hreg (h j) : u.reg h j = (s.prepared f .write).reg h j := hu' ▸ reg_starting s f k .write _ _ h j
  have hstart := startWrite_run (s := (s.prepared f .write).drawn) (hd.trans (dev_prepared s f .write _ _ _).symm) hu hv hh
  refine ⟨_, exec_moved rfl hq ha hd hav herr hsw hb ht hstart hside he hct, rfl, (hreg _ _).trans hwac,
    fun hfb => (hreg _ _).trans (hdwac hfb), ?_, ?_, ?_, ?_, fun n h4 h48 hi => ?_, ?_, fun h j hn => (hreg h j).trans (hothers h j hn),
    hend.xfers, hend.devs, hend.scan, fun hef => ⟨hend.mem hef, hend.reg⟩⟩
  · rw [hu', xfer_starting, if_pos ⟨rfl, rfl⟩]
    rfl
  · rw [hu']
    exact congrArg Device.busy (dev_starting s f k .write _ _)
  · rw [hu']
    exact interlock_starting s f k .write _ _
  · rw [hu', fixedStart_starting]
  · rw [hu']
    exact bit_starting s f k .write _ _ h4 h48 hi
  · rw [hu', mem_starting]

/-- Settles O40: of the two tests `exec_available` makes, at most one reports, and `deviceTransfer_run` is what it then does. -/
theorem peripheralTest : Obligations.PeripheralTest := by
  intro i m f k s u v hrow hq hv hav hu
  have hu' : u = s.cleared := hu
  have hside : Aside s u := hu' ▸ aside_cleared s
  subst hu'
  refine ⟨fun ha herr hsw ht hlast => ?_, fun herr hct => ?_, fun herr hsw hct => ?_⟩
  · obtain ⟨hscan, hmem, hdevs, -, hxfers, -, hreg⟩ := continued_frame s.cleared s f.c (cleared_cur s)
    refine ⟨_, exec_available hrow hav hv ?_, rfl, hscan, ?_, hdevs, hxfers, ⟨hreg, fun n _ => ?_⟩⟩
    · rw [herr, if_neg (by decide), if_neg (not_not.mpr hsw)]
      unfold moveOp
      rw [if_pos ha, Op.bind_ok (spoilTape_run (s := s.cleared) hv.symm hlast)]
      exact concludePeripheral_aside ht hside
    · rw [fixedStart_continued, cleared_low]
    · rw [hmem]
      rfl
  · obtain ⟨hlow, hbits, hdev⟩ := reported_fields s i 1#3 m.dir f.ch f.dev (v.clearError m.dir) utDeviceError
    refine ⟨_, exec_available hrow hav hv ?_, rfl, hlow, hbits, ?_, rfl, rfl⟩
    · rw [herr, if_pos rfl]
      exact deviceTransfer_run hq hct
    · rw [hdev]
      cases m.dir <;> rfl
  · obtain ⟨hlow, hbits, hdev⟩ := reported_fields s i v.switch m.dir f.ch f.dev { v with switch := 0#3 } utDeviceError
    refine ⟨_, exec_available hrow hav hv ?_, rfl, hlow, hbits, ?_, rfl, rfl⟩
    · rw [herr, if_neg (by decide), if_pos hsw]
      exact deviceTransfer_run hq hct
    · rw [hdev]

end Sys2Proof.Settled
end

section
/-! SUPPORT. CP and S (R490, R500, R501): the word checked and stored whole, and the simulator instruction stored. -/
namespace Sys2Proof.Machine

/-! ### CP -/

/-- Whether CP finds bad parity: in a frame of the word or, for a mask of complete frames, in one that the mask covers (R500, R501). -/
def checkFails (m : Option MWord) (w : MWord) : Bool :=
  match m with
  | none => MWord.bad w
  | some m => badFrame m.bits w.perr

/-- What `checkFails` says is what CP finds, and it stores the whole word (R501). -/
theorem parityCheck_frames {m : Option MWord} (hm : ∀ v, m = some v → isFrameMask v.bits = true) (w : MWord) (s : State) :
    parityCheck m w s = .ok ((checkFails m w, w.bits), s) := by
  cases m with
  | none => rfl
  | some v =>
    unfold parityCheck
    dsimp only
    rw [if_pos (hm v rfl)]
    rfl

section
variable {i : Instr} {f : Form} {s s1 s2 : State} {w : MWord} {l : Loc}

/-- CP up to its end (R500). -/
theorem checkParityOp_stored (hq : s.env = []) (ha : f.a ≠ inactiveGroup) (hb : f.b ≠ inactiveGroup)
    (hc : f.c = inactiveGroup → f.dC = false) (hm : s.begun.noAc.maskReady f.mask)
    (hr : readOperand f.a f.dA (s.begun.noAc.masking f.mask) = .ok (w, s1))
    (hframes : ∀ m, s.maskWord f.mask = some m → isFrameMask m.bits = true) (hl : locate f.b f.dB s1 = .ok (l, s2))
    (hadm : s2.admits l) :
    checkParityOp i f s = concludeJump i f.seq f.c f.dC (checkFails (s.maskWord f.mask) w) false true
      (s2.stored l (MWord.good w.bits)) := by
  have hdg := designated_of (fun e => absurd e ha) (fun e => absurd e hb) hc
  have hq0 : (s.begun.noAc.masking f.mask).env = [] := (Passes.masking s.begun.noAc f.mask).env.trans hq
  have hq2 : s2.env = [] := (steps_locate hl).1.env.trans ((steps_readOperand hq0 hr).env.trans hq0)
  have hmask : maskOf f.mask s.begun.noAc = .ok (s.maskWord f.mask, s.begun.noAc.masking f.mask) := maskOf_ready hq hm
  have hmb : maskBad (s.maskWord f.mask) = false := maskBad_ready (s := s.begun.noAc) hm
  have hwrite : writeResult f.b f.dB (MWord.good w.bits) s1 = .ok ((), s2.stored l (MWord.good w.bits)) := by
    unfold writeResult
    rw [Op.bind_ok hl, store_admitted hq2 hadm]
  unfold checkParityOp noAc
  rw [Op.bind_ok (beginForm_run hdg s), Op.bind_ok (needActive_active ha _ _), Op.bind_ok (needActive_active hb _ _),
    Op.bind_ok (Op.update_run _ _), Op.bind_ok hmask, Op.bind_ok hr, Op.bind_ok (parityCheck_frames hframes w s1), Op.bind_ok hwrite,
    hmb, if_neg (by decide)]

/-- What CP leaves alone before its end. -/
theorem passes_checkParity (hq : s.env = []) (hr : readOperand f.a f.dA (s.begun.noAc.masking f.mask) = .ok (w, s1))
    (hl : locate f.b f.dB s1 = .ok (l, s2)) (v : MWord) :
    Passes s (s2.stored l v) (s.named f.a f.dA ++ s1.named f.b f.dB) l.words ∧ s2.mem = s.mem := by
  have p0 := ((passes_begun s).trans (passes_noAc s.begun)).trans (Passes.masking s.begun.noAc f.mask)
  have st1 := steps_readOperand (p0.env.trans hq) hr
  have hp := passes_located (p0.trans (Passes.steps st1)) hl (Passes.stored s2 l v)
  have hmasked : (s.begun.noAc.masking f.mask).mem = s.mem := by
    rw [masking_noAc]
    exact mem_masked s f.mask
  rw [named_passes p0] at hp
  exact ⟨hp, ((steps_locate hl).1.mem.trans st1.mem).trans hmasked⟩

end

/-! ### S -/

/-- The state after a simulator instruction `i` stored at `p`, with `a` and `c` the addresses of A and C (R490). -/
def State.simulated (s : State) (i : Instr) (p a c : SReg) : State :=
  (((s.setReg s.cur au1 a).setReg s.cur au2 c).putWord p.full (MWord.good (encode s.cfg.opmap i))).jumped .csc
    (SReg.mk' p.arr true (p.addr + 1))

/-- What a counter names where it is good. -/
theorem SReg.above_good {r : SReg} {k : Nat} (ht : r.tag = .good) (hk : r.addr + k < 32768) : r.above k = r.full + k := if_pos ⟨ht, hk⟩

section
variable {i : Instr} {f : Sim} {s s1 s2 s3 : State} {p a c : SReg} {indexed : Bool}

/-- S run (R490). -/
theorem simulateOp_run (hq : s.env = []) (hu : s.byUtr = false) (h1 : plainAddress (simGroup indexed f.addr) s.begun.noAc = .ok (p, s1))
    (h2 : plainAddress f.a s1 = .ok (a, s2)) (h3 : plainAddress f.c s2 = .ok (c, s3)) (ht : p.tag = .good) (hp : p.addr + 1 < 32768)
    (hadm : s3.admits (.mem p.full)) : simulateOp i indexed f s = .ok ((), s3.simulated i p a c) := by
  have hst := ((steps_plainAddress h1).1.trans (steps_plainAddress h2).1).trans (steps_plainAddress h3).1
  have hcfg : s3.cfg = s.cfg := hst.cfg
  have hwrite (v : MWord) : memWrite (p.above 0) v ((s3.setReg s3.cur au1 a).setReg s3.cur au2 c) =
      .ok ((), ((s3.setReg s3.cur au1 a).setReg s3.cur au2 c).putWord p.full v) :=
    (congrArg (memWrite · v _) (SReg.above_good ht (by omega))).trans
      (memWrite_admitted (s := (s3.setReg s3.cur au1 a).setReg s3.cur au2 c) (hst.env.trans hq) hadm.1 hadm.2 v)
  unfold simulateOp begin noAc loadAu jump
  rw [Op.bind_ok (Op.update_run _ _), Op.bind_ok (Op.get_run _), show s.begun.byUtr = false from hu, if_neg (by decide),
    Op.bind_ok (Op.update_run _ _), Op.bind_ok h1, Op.bind_ok h2, Op.bind_ok h3, Op.bind_ok (Op.update_run _ _),
    Op.bind_ok (Op.update_run _ _), State.cur_setReg, Op.bind_ok (hwrite _), Op.bind_ok (Op.update_run _ _), if_pos hp,
    show s.begun.cfg = s3.cfg from hcfg.symm]
  rfl

/-- A sequence change leaves every register but the counter and its history register (R36). -/
theorem reg_jumped_other (s : State) {n : Ctr} {j : BitVec 5} (hx : j ≠ n.ix) (hh : j ≠ n.hist) (g : BitVec 3) (q : SReg) :
    (s.jumped n q).reg g j = s.reg g j :=
  (State.reg_setReg_other (s.historied n) (fun h => hx h.2) q).trans (State.reg_setReg_other s (fun h => hh h.2) _)

/-- What S leaves in the registers (R490, R36). -/
theorem registers_simulated (s : State) (i : Instr) (p a c : SReg) :
    (s.simulated i p a c).reg s.cur au1 = a ∧ (s.simulated i p a c).reg s.cur au2 = c ∧
      (s.simulated i p a c).reg s.cur Ctr.csc.ix = SReg.mk' p.arr true (p.addr + 1) ∧
      (s.simulated i p a c).reg s.cur Ctr.csc.hist = { s.reg s.cur s.sel.ix with tag := .good } := by
  have hsel : s.sel.ix ≠ au1 ∧ s.sel.ix ≠ au2 := by cases s.sel <;> decide
  have hloaded (j : BitVec 5) : ((s.setReg s.cur au1 a).setReg s.cur au2 c).reg s.cur j =
      if j = au2 then c else if j = au1 then a else s.reg s.cur j := by
    simp [State.reg_setReg]
  refine ⟨?_, ?_, jumped_ix _ _ _, (jumped_hist _ _ _).trans ?_⟩
  · exact (reg_jumped_other _ (by decide) (by decide) _ _).trans (hloaded au1)
  · exact (reg_jumped_other _ (by decide) (by decide) _ _).trans (hloaded au2)
  · refine congrArg (fun r : SReg => { r with tag := .good }) ((hloaded s.sel.ix).trans ?_)
    rw [if_neg hsel.2, if_neg hsel.1]

/-- The instruction stands where its command code says. -/
theorem holds_simulated (hw : s.mem.wf = true) (i : Instr) (p a c : SReg) :
    (s.simulated i p a c).holds (.mem p.full) (MWord.good (encode s.cfg.opmap i)) :=
  fun hfree => State.word_putWord_self (s := (s.setReg s.cur au1 a).setReg s.cur au2 c) hw hfree _

/-- What S leaves alone. -/
theorem ends_simulated (h : Passes s s3 [] []) (i : Instr) (p a c : SReg) :
    Ends s (s3.simulated i p a c) true [(s.cur, au1), (s.cur, au2), (s.cur, Ctr.csc.hist), (s.cur, Ctr.csc.ix)] [p.full] := by
  have hp := ((h.trans (Passes.setReg s3 s3.cur au1 a)).trans (Passes.setReg _ s3.cur au2 c)).trans
    (Passes.putWord ((s3.setReg s3.cur au1 a).setReg s3.cur au2 c) p.full (MWord.good (encode s3.cfg.opmap i)))
  have hends := hp.sequenced true (some (SReg.mk' p.arr true (p.addr + 1)))
  exact ⟨hends.pcr, hends.outside, hends.frame.mono (by simp [State.sequencers, ctrOf, h.cur]) (by simp)⟩

end

theorem direct_of {s t : State} (h : t.ctl = s.ctl) (x : Group) : t.direct x = s.direct x := by
  unfold State.direct
  rw [h]

theorem exec_simulate (indexed : Bool) (f : Sim) (s : State) :
    exec (if indexed then .sIdx f else .sDir f) s = perform (simulateOp (if indexed then .sIdx f else .sDir f) indexed f) s := by
  cases indexed <;> rfl

theorem bitAt_simGroup_direct (addr : BitVec 8) : bitAt (simGroup false addr) 1 = false := by
  unfold simGroup
  rw [bitAt_toNat, BitVec.toNat_ofNat]
  have := addr.isLt
  rw [decide_eq_false_iff_not]
  simp only [Bool.toNat_false]
  omega

end Sys2Proof.Machine
end

section
/-! PROOFS. The statements about CP, PR and S. -/
namespace Sys2Proof.Settled
open Sys2Proof.Machine

/-- Settles O27: `checkParityOp_stored` runs it, and `concludeJump` ends it with the sequence change or, the parity good, with the ordinary end. -/
theorem checkParityInstruction : Obligations.CheckParityInstruction := by
  intro i f s s1 s2 w l bad hrow hq hw ha hb hm hr hbad hframes hl hadm
  have hfails : checkFails (s.maskWord f.mask) w = bad := hbad.symm
  obtain ⟨hp, hmem⟩ := passes_checkParity hq hr hl (MWord.good w.bits)
  have hholds := State.holds_stored (hmem ▸ hw) l (MWord.good w.bits)
  refine ⟨fun h r s3 ht => ?_, fun h hc => ?_⟩
  · have hrun := checkParityOp_stored (i := i) hq ha hb (undesignated_of_sequenceTarget ht) hm hr hframes hl hadm
    rw [hfails, h, concludeJump_sequenced ht] at hrun
    have st3 := steps_sequenceTarget ht
    have hp3 := (hp.mono (List.subset_append_left _ l.regs) (List.Subset.refl _)).trans (Passes.steps st3)
    rw [List.append_nil] at hp3
    refine ⟨_, (check_run hrow).trans (perform_ok hrun), rfl, scan_sequenced _ _ _, ?_, hp3.sequenced f.seq r⟩
    rintro a rfl
    exact holds_sequenced hholds st3 _ _
  · have hrun := checkParityOp_stored (i := i) hq ha hb hc hm hr hframes hl hadm
    rw [hfails, h, concludeJump_notMet hc] at hrun
    exact ⟨_, (check_run hrow).trans (perform_ok hrun), rfl, holds_ended hholds _ _, hp.ends f.seq _⟩

/-- Settles O28: PR runs as it stands, and the hunt that may follow changes nothing of what is named. -/
theorem proceedInstruction : Obligations.ProceedInstruction := by
  intro f s hbit
  have hrun : proceedOp f s = .ok ((), s.begun.intervened.hunted (f.c != inactiveGroup)) := by
    unfold proceedOp begin intervene endSame
    rw [Op.bind_ok (Op.update_run _ _), hbit, if_neg (by decide), Op.bind_ok (Op.update_run _ _)]
    rfl
  refine ⟨_, perform_ok hrun, rfl, rfl, rfl, rfl, rfl, rfl, rfl, rfl, fun hc => ?_, fun hc hl => ?_⟩
  · rw [hc]
    rfl
  · have hhunt : (f.c != inactiveGroup) = true := by simp [hc]
    unfold State.hunted
    rw [hhunt, show s.begun.intervened.limited = none from hl]
    rfl

/-- Settles O31: `simulateOp_run` runs it; the three addresses are evaluated before anything is stored. -/
theorem simulatorInstruction : Obligations.SimulatorInstruction := by
  intro indexed f s s1 s2 s3 p a c hq hw hu h1 h2 h3 ht hp hadm
  obtain ⟨st1, hp1⟩ := steps_plainAddress h1
  obtain ⟨st2, ha⟩ := steps_plainAddress h2
  obtain ⟨st3, hc⟩ := steps_plainAddress h3
  have hpass : Passes s s3 [] [] :=
    ((passes_begun s).trans (passes_noAc s.begun)).trans (Passes.steps ((st1.trans st2).trans st3))
  have hcfg : s3.cfg = s.cfg := (congrArg State.cfg hpass.outside :)
  have hmem : s3.mem = s.mem := ((st1.trans st2).trans st3).mem
  have hreg := registers_simulated s3 (if indexed then .sIdx f else .sDir f) p a c
  rw [hpass.cur, hpass.sel, hpass.frame.regs s.cur s.sel.ix List.not_mem_nil] at hreg
  obtain ⟨hau1, hau2, hix, hhist⟩ := hreg
  refine ⟨_, (exec_simulate indexed f s).trans (perform_ok (simulateOp_run hq hu h1 h2 h3 ht hp hadm)), ?_, hau1, hau2, hix, hhist, rfl,
    ?_, ?_, ?_, ends_simulated hpass _ p a c⟩
  · rw [← hcfg]
    exact holds_simulated (hmem ▸ hw) _ p a c
  · rintro rfl
    exact hp1 (bitAt_simGroup_direct f.addr)
  · exact fun hb => (ha hb).trans (direct_of st1.ctl f.a)
  · exact fun hb => (hc hb).trans (direct_of (st1.trans st2).ctl f.c)

end Sys2Proof.Settled
end

section
/-! SUPPORT. CC (R495): the words of a record half added alternately, and the two orthowords stored. -/
namespace Sys2Proof.Machine

/-! ### The words of the record -/

/-- What follows a word that does not end the record (R495), from `d`, its counter having been stepped, to `t`: where there is a table an end-of-item
word takes the next counter from it; any other word leaves the counter, which `s` had not at its stopper. -/
def OrthoGoesOn (table : Option Bool) (eoi : Bool) (g : BitVec 3) (s d t : State) : Prop :=
  match table, eoi with
  | some r, true => reloadCounter r d = .ok ((), t)
  | _, _ => t = d ∧ s.atStopper (s.reg g au1) = false

theorem orthoGoesOn_plain {table : Option Bool} {eoi : Bool} (h : table = none ∨ eoi = false) (g : BitVec 3) (s d t : State) :
    OrthoGoesOn table eoi g s d t ↔ t = d ∧ s.atStopper (s.reg g au1) = false := by
  rcases h with rfl | rfl
  · rfl
  · cases table <;> rfl

/-- The word `w` of a record, read by the counter of group `g` in `s`; `d` is the state when the counter has been stepped. -/
structure OrthoWord (g : BitVec 3) (s d : State) (w : MWord) : Prop where
  good : (s.reg g au1).tag = .good
  located : s.exists? (s.reg g au1).full = true
  word : w = s.mem.word (s.reg g au1).full
  next : nextAu au1 s = .ok ((), d)

/-- The words of a record (R495): word `n` is the first end-of-record word, and `o k` the orthowords before word `k`. -/
structure OrthoWords (g : BitVec 3) (table : Option Bool) (n : Nat) (σ δ : Nat → State) (w : Nat → MWord) (o : Nat → Word × Word) :
    Prop where
  word : ∀ k, k ≤ n → OrthoWord g (σ k) (δ k) (w k)
  goesOn : ∀ k, k < n → isEor (w k).bits = false ∧ OrthoGoesOn table (isEoi (w k).bits) g (σ k) (δ k) (σ (k + 1))
  ends : isEor (w n).bits = true
  sums : ∀ k, k < n → o (k + 1) = orthoStep (o k) (w k).bits

/-- Going on changes registers only, and nothing where there is no table. -/
theorem steps_orthoGoesOn {table : Option Bool} {eoi : Bool} {g : BitVec 3} {s d t : State} (hq : d.env = [])
    (h : OrthoGoesOn table eoi g s d t) : ∃ R, Steps d t R ∧ (table = none → R = []) := by
  cases table with
  | none =>
    obtain ⟨rfl, -⟩ := (orthoGoesOn_plain (.inl rfl) _ _ _ _).mp h
    exact ⟨[], .refl _ _, fun _ => rfl⟩
  | some r =>
    cases eoi with
    | false =>
      obtain ⟨rfl, -⟩ := (orthoGoesOn_plain (.inr rfl) _ _ _ _).mp h
      exact ⟨[], .refl _ _, nofun⟩
    | true => exact ⟨_, steps_reloadCounter hq h, nofun⟩

section
variable {g : BitVec 3} {table : Option Bool} {n : Nat} {σ δ : Nat → State} {w : Nat → MWord} {o : Nat → Word × Word}

/-- The words up to word `k` change registers only, and without a table no other than AU1. -/
theorem OrthoWords.steps (h : OrthoWords g table n σ δ w o) (hq : (σ 0).env = []) (hg : (σ 0).cur = g) {k : Nat} (hk : k ≤ n) :
    ∃ R, Steps (σ 0) (σ k) R ∧ (table = none → ∀ p ∈ R, p = (g, au1)) := by
  induction k with
  | zero => exact ⟨[], .refl _ _, fun _ _ hp => absurd hp List.not_mem_nil⟩
  | succ k ih =>
    obtain ⟨R, st, hR⟩ := ih (by omega)
    have st1 := steps_nextAu (h.word k (by omega)).next
    rw [st.cur, hg] at st1
    obtain ⟨R2, st2, hR2⟩ := steps_orthoGoesOn ((st.trans st1).env.trans hq) (h.goesOn k (by omega)).2
    refine ⟨_, (st.trans st1).trans st2, fun ht p hp => ?_⟩
    rw [hR2 ht, List.append_nil, List.mem_append, List.mem_singleton] at hp
    exact hp.elim (hR ht p) id

/-- The same with the counter stepped after the end-of-record word. -/
theorem OrthoWords.steps_end (h : OrthoWords g table n σ δ w o) (hq : (σ 0).env = []) (hg : (σ 0).cur = g) :
    ∃ R, Steps (σ 0) (δ n) R ∧ (table = none → ∀ p ∈ R, p = (g, au1)) := by
  obtain ⟨R, st, hR⟩ := h.steps hq hg le_rfl
  have st1 := steps_nextAu (h.word n le_rfl).next
  rw [st.cur, hg] at st1
  refine ⟨_, st.trans st1, fun ht p hp => ?_⟩
  rw [List.mem_append, List.mem_singleton] at hp
  exact hp.elim (hR ht p) id

/-- One word of an orthocount run: the end-of-record word ends it, another is taken into the orthowords. -/
theorem orthocount_word {s d t : State} {v : MWord} (hq : s.env = []) (h : OrthoWord s.cur s d v)
    (hgo : isEor v.bits = false → OrthoGoesOn table (isEoi v.bits) s.cur s d t) (m : Nat) (p : Word × Word) :
    orthocount table (m + 1) p s = if isEor v.bits then .ok (some p, d) else orthocount table m (orthoStep p v.bits) t := by
  obtain ⟨hgood, hex, hword, hnext⟩ := h
  have hread : memRead (s.reg s.cur au1).full s = .ok (v, s) := by rw [hword, memRead_exists hq hex]
  rw [orthocount, Op.bind_ok (Op.get_run s), Op.bind_ok (runCounter_usable hgood hex), if_neg (by decide), Op.bind_ok hread,
    Op.bind_ok hnext]
  cases hv : isEor v.bits with
  | true => rfl
  | false =>
    have hgo := hgo hv
    rw [if_neg (by decide)]
    by_cases hplain : table = none ∨ isEoi v.bits = false
    · obtain ⟨rfl, hstop⟩ := (orthoGoesOn_plain hplain _ _ _ _).mp hgo
      rw [hstop]
      rcases hplain with rfl | heoi
      · rfl
      · rw [heoi]
        cases table <;> rfl
    · obtain ⟨r, rfl⟩ := Option.ne_none_iff_exists'.mp fun e => hplain (.inl e)
      rw [Bool.eq_true_of_not_eq_false fun e => hplain (.inr e)] at hgo ⊢
      exact Op.bind_ok hgo

/-- The words of an orthocount run from word `k` on, `m` before the end-of-record word. -/
theorem orthocount_run (h : OrthoWords g table n σ δ w o) (hq : (σ 0).env = []) (hg : (σ 0).cur = g) (m : Nat) {k : Nat}
    (hk : k + m = n) {fuel : Nat} (hm : m < fuel) : orthocount table fuel (o k) (σ k) = .ok (some (o n), δ n) := by
  have hstate (j : Nat) (hj : j ≤ n) : (σ j).env = [] ∧ (σ j).cur = g := by
    obtain ⟨R, st, -⟩ := h.steps hq hg hj
    exact ⟨st.env.trans hq, st.cur.trans hg⟩
  induction m generalizing k fuel with
  | zero =>
    obtain ⟨fuel, rfl⟩ : ∃ j, fuel = j + 1 := ⟨fuel - 1, by omega⟩
    obtain rfl : k = n := hk
    obtain ⟨hqk, rfl⟩ := hstate k le_rfl
    rw [orthocount_word (t := δ k) hqk (h.word k le_rfl) (by simp [h.ends]), h.ends]
    rfl
  | succ m ih =>
    obtain ⟨fuel, rfl⟩ : ∃ j, fuel = j + 1 := ⟨fuel - 1, by omega⟩
    obtain ⟨hqk, rfl⟩ := hstate k (by omega)
    obtain ⟨hgoes, hnext⟩ := h.goesOn k (by omega)
    rw [orthocount_word hqk (h.word k (by omega)) (fun _ => hnext), hgoes, if_neg (by decide), ← h.sums k (by omega)]
    exact ih (by omega) (by omega)

end

/-! ### The addresses and the table -/

/-- An address of CC that names main memory, as a positive counter. -/
theorem orthoAddress_counter {x : Group} {d : Bool} {s t : State} {a : SReg} (h : auInit x d s = .ok (some (false, a), t)) :
    orthoAddress x d s = .ok ({ a with bits := setBitAt a.bits 1 true }, t) := by
  unfold orthoAddress
  rw [Op.bind_ok h]
  rfl

/-- The table changes AU2 and the register that B names, and AU2 only if there is one. -/
theorem steps_orthoTable {f : Gen} {s t : State} {table : Option Bool} (h : orthoTable f s = .ok (table, t)) :
    Steps s t (s.named f.b f.dB ++ [(s.cur, au2)]) := by
  unfold orthoTable at h
  rw [Op.bind_run] at h
  split at h
  · rename_i b u e
    have st := steps_auInit e
    cases b with
    | none =>
      cases h
      exact st.mono fun p hp => List.mem_append_left _ hp
    | some b =>
      cases h
      rw [← st.cur]
      exact st.trans (steps_setReg u u.cur au2 _)
  · cases h

theorem undesignated_of_orthoTable {f : Gen} {s : State} {r : Option Bool × State} (h : orthoTable f s = .ok r) :
    f.b = inactiveGroup → f.dB = false := by
  unfold orthoTable at h
  rw [Op.bind_run] at h
  split at h
  · rename_i e
    exact undesignated_of_auInit e
  · cases h

/-! ### The orthowords stored -/

/-- Whether a word of main memory may be stored into does not depend on registers and memory. -/
theorem Passes.admits_mem_iff {s t : State} {R : List (BitVec 3 × BitVec 5)} {W : List Nat} (h : Passes s t R W) (a : Nat) :
    t.admits (.mem a) ↔ s.admits (.mem a) := by
  have hcfg : t.cfg = s.cfg := (congrArg State.cfg h.outside :)
  have hbar : t.bar = s.bar := (congrArg State.bar h.outside :)
  change t.exists? a = true ∧ t.barsMem a = false ↔ s.exists? a = true ∧ s.barsMem a = false
  unfold State.exists?
  rw [hcfg, State.barsMem_of hcfg hbar h.cur]

/-- The orthowords `o` and an end-of-record word stored from `c` on, AU2 at the last of them (R495). -/
def State.orthoStored (s : State) (c : SReg) (o : Word × Word) : State :=
  (((((s.putWord c.full (MWord.good o.1)).putWord (c.full + 1) (MWord.good o.2)).putWord (c.full + 2) (MWord.good eorWord)).setReg
    s.cur au2 (SReg.mk' c.arr true (c.addr + 2))).counted o)

section
variable {f : Gen} {s : State} {c : SReg} {o : Word × Word}

theorem passes_counted (s : State) (o : Word × Word) : Passes s (s.counted o) [] [] := Passes.quiet rfl rfl rfl rfl

theorem passes_orthoStored (s : State) (c : SReg) (o : Word × Word) :
    Passes s (s.orthoStored c o) [(s.cur, au2)] [c.full, c.full + 1, c.full + 2] := by
  have hp := (((Passes.putWord s c.full (MWord.good o.1)).trans (Passes.putWord _ (c.full + 1) (MWord.good o.2))).trans
    (Passes.putWord _ (c.full + 2) (MWord.good eorWord))).trans (Passes.setReg _ s.cur au2 (SReg.mk' c.arr true (c.addr + 2)))
  exact hp.trans (passes_counted _ o)

theorem reg_counted (s : State) (o : Word × Word) (g : BitVec 3) (j : BitVec 5) : (s.counted o).reg g j = s.reg g j := rfl

theorem arithmetic_orthoStored (s : State) (c : SReg) (o : Word × Word) :
    (s.orthoStored c o).ac = o.1 ∧ (s.orthoStored c o).mr = o.2 := ⟨rfl, rfl⟩

theorem reg_orthoStored (s : State) (c : SReg) (o : Word × Word) (j : BitVec 5) :
    (s.orthoStored c o).reg s.cur j = if j = au2 then SReg.mk' c.arr true (c.addr + 2) else s.reg s.cur j := by
  unfold State.orthoStored
  simp only [reg_counted, State.reg_setReg, true_and, State.reg_putWord]

/-- The store of the orthowords run, up to the end of the instruction. -/
theorem orthoResult_run (hq : s.env = []) (ht : c.tag = .good) (hc : c.addr + 2 < 32768)
    (hadm : ∀ k, k ≤ 2 → s.admits (.mem (c.full + k))) :
    orthoResult f c o s = .ok ((), (s.orthoStored c o).ended f.seq true) := by
  have p1 := Passes.putWord s c.full (MWord.good o.1)
  have p2 := p1.trans (Passes.putWord _ (c.full + 1) (MWord.good o.2))
  have hwrite {u : State} {R W} (hp : Passes s u R W) {k b : Nat} (hk : k ≤ 2) (hb : c.full + k = b) (v : MWord) :
      memWrite (c.above k) v u = .ok ((), u.putWord b v) := by
    have ha := (hp.admits_mem_iff (c.full + k)).mpr (hadm k hk)
    rw [hb] at ha
    rw [SReg.above_good ht (by omega), hb]
    exact memWrite_admitted (hp.env.trans hq) ha.1 ha.2 v
  unfold orthoResult loadAu endInstr
  rw [Op.bind_ok (hwrite (b := c.full) (Passes.quiet rfl rfl rfl rfl) (Nat.zero_le 2) rfl _), Op.bind_ok (hwrite p1 (by omega) rfl _),
    Op.bind_ok (hwrite p2 (by omega) rfl _), Op.bind_ok (Op.update_run _ _), Op.bind_ok (Op.update_run _ _), Op.update_run]
  simp only [State.cur_putWord]
  rfl

/-- The three words stand from `c` on. -/
theorem holds_orthoStored (hw : s.mem.wf = true) (c : SReg) (o : Word × Word) :
    (s.orthoStored c o).holds (.mem c.full) (MWord.good o.1) ∧ (s.orthoStored c o).holds (.mem (c.full + 1)) (MWord.good o.2) ∧
      (s.orthoStored c o).holds (.mem (c.full + 2)) (MWord.good eorWord) := by
  have hput {u : State} (hu : u.mem.wf = true) (b : Nat) (v : MWord) :
      (u.putWord b v).holds (.mem b) v ∧ (u.putWord b v).mem.wf = true :=
    ⟨State.holds_stored hu (.mem b) v, wf_stored hu (.mem b) v⟩
  obtain ⟨h1, hw1⟩ := hput hw c.full (MWord.good o.1)
  obtain ⟨h2, hw2⟩ := hput hw1 (c.full + 1) (MWord.good o.2)
  obtain ⟨h3, -⟩ := hput hw2 (c.full + 2) (MWord.good eorWord)
  have p2 := Passes.putWord (s.putWord c.full (MWord.good o.1)) (c.full + 1) (MWord.good o.2)
  have p3 := Passes.putWord ((s.putWord c.full (MWord.good o.1)).putWord (c.full + 1) (MWord.good o.2)) (c.full + 2) (MWord.good eorWord)
  have p4 := (Passes.setReg (((s.putWord c.full (MWord.good o.1)).putWord (c.full + 1) (MWord.good o.2)).putWord (c.full + 2)
    (MWord.good eorWord)) s.cur au2 (SReg.mk' c.arr true (c.addr + 2))).trans (passes_counted _ o)
  exact ⟨p4.holds (by simp) (p3.holds (by simp) (p2.holds (by simp) h1)), p4.holds (by simp) (p3.holds (by simp) h2), p4.holds (by simp) h3⟩

end

/-! ### The instruction -/

section
variable {f : Gen} {s s1 s2 : State} {a0 c0 a c : SReg} {n : Nat} {table : Option Bool} {σ δ : Nat → State} {w : Nat → MWord}
  {o : Nat → Word × Word}

/-- What CC has changed when its addresses are known, and when it begins to count. -/
theorem passes_orthoStart (hA : auInit f.a f.dA s.begun = .ok (some (false, a0), s1)) (hC : auInit f.c f.dC s1 = .ok (some (false, c0), s2))
    (hB : orthoTable f ((s2.putWord c.full (MWord.good eorWord)).setReg s.cur au1 a) = .ok (table, σ 0)) :
    Passes s s2 (s.named f.a f.dA ++ s1.named f.c f.dC) [] ∧
      Passes s (σ 0) (s.named f.a f.dA ++ s1.named f.c f.dC ++
        ((s2.putWord c.full (MWord.good eorWord)).setReg s.cur au1 a).named f.b f.dB ++ [(s.cur, au1), (s.cur, au2)]) [c.full] ∧
      (s.mem.wf = true → (σ 0).mem.wf = true) := by
  have h2 := (passes_begun s).trans (Passes.steps ((steps_auInit hA).trans (steps_auInit hC)))
  have hloaded := (h2.trans (Passes.putWord s2 c.full (MWord.good eorWord))).trans (Passes.setReg _ s.cur au1 a)
  have h0 := hloaded.trans (Passes.steps (steps_orthoTable hB))
  rw [hloaded.cur] at h0
  refine ⟨h2, h0.mono (fun p hp => ?_) (by simp), fun hw => ?_⟩
  · simp only [List.mem_append, List.mem_cons, List.not_mem_nil, or_false, false_or] at hp ⊢
    tauto
  · have hw2 : s2.mem.wf = true := by
      rw [(steps_auInit hC).mem, (steps_auInit hA).mem]
      exact hw
    rw [(steps_orthoTable hB).mem, State.setReg_mem]
    exact wf_stored hw2 (.mem c.full) _

/-- CC up to its end (R495): `s2` is the state once its addresses are known. -/
theorem orthocountOp_run (hq : s.env = [])
    (hinc : ¬ (f.dC = true ∧ bitAt f.c 1 = false ∧ bitAt f.c 7 = true ∧ fld f.c 2 6 ≠ 0#5))
    (hA : auInit f.a f.dA s.begun = .ok (some (false, a0), s1)) (ha : a = { a0 with bits := setBitAt a0.bits 1 true })
    (hC : auInit f.c f.dC s1 = .ok (some (false, c0), s2)) (hc : c = { c0 with bits := setBitAt c0.bits 1 true })
    (ht : c.tag = .good) (hlast : c.addr + 2 < 32768) (hadm : ∀ k, k ≤ 2 → s2.admits (.mem (c.full + k)))
    (hB : orthoTable f ((s2.putWord c.full (MWord.good eorWord)).setReg s.cur au1 a) = .ok (table, σ 0)) (hn : n < orthoFuel)
    (h : OrthoWords s.cur table n σ δ w o) (h0 : o 0 = (BitVec.allOnes 48, BitVec.allOnes 48)) :
    orthocountOp f s = .ok ((), ((δ n).orthoStored c (o n)).ended f.seq true) := by
  have hdg := designated_of (f := genForm f) (undesignated_of_auInit hA) (undesignated_of_orthoTable hB) (undesignated_of_auInit hC)
  obtain ⟨p2, p0, -⟩ := passes_orthoStart hA hC hB
  have hq0 : (σ 0).env = [] := p0.env.trans hq
  obtain ⟨R, st, -⟩ := h.steps_end hq0 p0.cur
  have hmark : memWrite (c.above 0) (MWord.good eorWord) s2 = .ok ((), s2.putWord c.full (MWord.good eorWord)) := by
    rw [SReg.above_good ht (by omega)]
    exact memWrite_admitted (p2.env.trans hq) (hadm 0 (by omega)).1 (hadm 0 (by omega)).2 _
  have hcount := orthocount_run h hq0 p0.cur n (Nat.zero_add n) hn
  rw [h0] at hcount
  have hresult := orthoResult_run (f := f) (o := o n) (st.env.trans hq0) ht hlast fun k hk =>
    ((p0.trans (Passes.steps st)).admits_mem_iff _).mpr ((p2.admits_mem_iff _).mp (hadm k hk))
  unfold orthocountOp loadAu
  rw [Op.bind_ok (beginForm_run hdg s), if_neg (by simpa [and_assoc] using hinc), Op.bind_ok (orthoAddress_counter hA),
    Op.bind_ok (orthoAddress_counter hC), ← ha, ← hc, Op.bind_ok hmark, Op.bind_ok (Op.update_run _ _), State.cur_putWord, p2.cur,
    Op.bind_ok hB, Op.bind_ok hcount]
  exact hresult

end

end Sys2Proof.Machine
end

section
/-! PROOFS. The statement about CC. -/
namespace Sys2Proof.Settled
open Sys2Proof.Machine

/-- Settles O32: `orthocountOp_run` runs it; `OrthoWords.steps_end` says which registers the words change, and `orthoStored` what is stored. -/
theorem orthocountInstruction : Obligations.OrthocountInstruction := by
  intro f s s1 s2 a0 c0 a c n table σ δ w o hq hw hinc hA ha hC hc ht hlast hadm hB hn hword hgo hend h0 hsums
  have hwords : OrthoWords s.cur table n σ δ w o := by
    refine ⟨fun k hk => ?_, fun k hk => ?_, hend, hsums⟩
    · obtain ⟨hgood, hex, hw, hnext⟩ := hword k hk
      exact ⟨hgood, hex, hw, hnext⟩
    · exact hgo k hk
  have hrun := orthocountOp_run hq hinc hA ha hC hc ht hlast hadm hB hn hwords h0
  obtain ⟨-, p0, hwf⟩ := passes_orthoStart hA hC hB
  obtain ⟨R, st, hR⟩ := hwords.steps_end (p0.env.trans hq) p0.cur
  have pn := p0.trans (Passes.steps st)
  have hp := pn.trans (passes_orthoStored (δ n) c (o n))
  have hreg := reg_orthoStored (δ n) c (o n)
  rw [pn.cur] at hp hreg
  have hends := hp.ends f.seq true
  obtain ⟨h1, h2, h3⟩ := holds_orthoStored (st.mem ▸ hwf hw) c (o n)
  obtain ⟨hac, hmr⟩ := arithmetic_orthoStored (δ n) c (o n)
  refine ⟨_, perform_ok hrun, holds_ended h1 _ _, holds_ended h2 _ _, holds_ended h3 _ _,
    (State.reg_ended _ _ _ _ _).trans ((hreg au2).trans (if_pos rfl)),
    (State.reg_ended _ _ _ _ _).trans ((hreg au1).trans (if_neg (by decide))), (State.ended_ac _ _ _).trans hac,
    (State.ended_mr _ _ _).trans hmr, hends.pcr, hends.outside, fun b hb => hends.frame.bytes b ?_,
    fun ht g j hj => hends.frame.regs g j fun hm => hj ?_⟩
  · simpa using hb
  · have hau1 := hR ht (g, j)
    simp only [List.mem_append, List.mem_cons, List.not_mem_nil, or_false] at hm ⊢
    rcases hm with (h | h) | h
    · exact h
    · exact .inr (.inl (hau1 h))
    · exact .inr (.inr h)

end Sys2Proof.Settled
end

section
/-! SUPPORT. The print instructions (R460 to R468): the part before the sequence change, what a word put into the typewriter buffer and a load of the
barricade register leave, the symbols of a word, and a typewriter cycle. -/
namespace Sys2Proof.Machine

/-! ### The symbols of a word (R464) -/

theorem length_spaced (k : Nat) (sym : Nat → Sym) (n : Nat) : (spaced k sym n).length = n + n / k := by
  induction n with
  | zero => simp [spaced]
  | succ n ih =>
    rw [spaced, List.length_append, ih, Nat.succ_div]
    by_cases h : (n + 1) % k = 0
    · rw [if_pos h, if_pos (Nat.dvd_of_mod_eq_zero h)]
      simp only [List.length_cons, List.length_nil]
      omega
    · rw [if_neg h, if_neg fun d => h (Nat.mod_eq_zero_of_dvd d)]
      simp only [List.length_cons, List.length_nil]
      omega

/-- Symbol `i` stands after the spaces of the groups before it. -/
theorem getElem?_spaced_symbol {k n i : Nat} (sym : Nat → Sym) (hi : i < n) :
    (spaced k sym n)[i + i / k]? = some (sym i) := by
  induction n with
  | zero => omega
  | succ n ih =>
    rw [spaced]
    rcases Nat.lt_or_eq_of_le (Nat.le_of_lt_succ hi) with hlt | rfl
    · have hbound : i + i / k < (spaced k sym n).length := by
        have := Nat.div_le_div_right (c := k) hlt.le
        rw [length_spaced]
        omega
      rw [List.getElem?_append_left hbound, ih hlt]
    · rw [List.getElem?_append_right (length_spaced k sym i).le, length_spaced, Nat.sub_self]
      split <;> rfl

/-- After every `k` symbols comes a space. -/
theorem getElem?_spaced_space {k n q : Nat} (sym : Nat → Sym) (hk : 0 < k) (hq : k * (q + 1) ≤ n) :
    (spaced k sym n)[k * (q + 1) + q]? = some .space := by
  induction n with
  | zero => rw [Nat.mul_add] at hq; omega
  | succ n ih =>
    rw [spaced]
    rcases Nat.lt_or_eq_of_le hq with hlt | heq
    · have hbound : k * (q + 1) + q < (spaced k sym n).length := by
        have := (Nat.le_div_iff_mul_le hk).mpr (Nat.mul_comm k (q + 1) ▸ Nat.le_of_lt_succ hlt)
        rw [length_spaced]
        omega
      rw [List.getElem?_append_left hbound, ih (by omega)]
    · have hdiv : n / k = q := by
        rw [show n = k * q + (k - 1) by rw [Nat.mul_add] at heq; omega, Nat.mul_add_div hk, Nat.div_eq_of_lt (by omega), Nat.add_zero]
      rw [if_pos (by rw [← heq, Nat.mul_mod_right]), List.getElem?_append_right (by rw [length_spaced]; omega), length_spaced, hdiv, heq,
        show n + 1 + q - (n + q) = 1 by omega]
      rfl

/-- A character or digit in the manual's numbering (R9). -/
theorem setWidth_fld (w : Word) {i j n p : Nat} (hn : n = j + 1 - i) (hp : p = 48 - j) :
    (fld w i j).setWidth n = w.extractLsb' p n := by
  subst hn hp
  exact BitVec.setWidth_eq _

/-! ### A typewriter cycle (R466) -/

/-- The state after symbol `x` has been typed and the buffer word shifted. -/
def State.typedOne (s : State) (slave : Bool) (x : Sym) : State :=
  { (s.typeOut slave x).putWord typewriterBuffer s.freeMWord with typeSpoiled := false, free := s.free + 2 }

theorem typeNext_cons (s : State) (slave : Bool) (x : Sym) (rest : List Sym) :
    s.typeNext slave (x :: rest) =
      if rest = [] then { s.typedOne slave x with typing := none }.release
      else { s.typedOne slave x with typing := some ⟨slave, rest⟩ } := rfl

/-- Every program stalled for a device goes on (R408). -/
theorem stalls_release {s : State} {g : Fin 8} (h : s.stalls[g] = .io) : s.release.stalls[g] = .running := by
  unfold State.release
  simp only [Fin.getElem_fin, Vector.getElem_map] at h ⊢
  rw [h]

/-- The cycle while no program has stored into the buffer word. -/
theorem typeChar_unspoiled {s : State} {slave : Bool} {left : List Sym} (h : s.typing = some ⟨slave, left⟩)
    (hs : s.typeSpoiled = false) : s.typeChar = s.typeNext slave left := by
  unfold State.typeChar
  rw [h]
  dsimp only
  rw [if_pos hs]

theorem frame_typedOne (s : State) (slave : Bool) (x : Sym) : Frame s (s.typedOne slave x) [] [typewriterBuffer] := by
  obtain ⟨hmem, hregs, -⟩ := frame_typeOut s slave x
  have hput := (Passes.putWord (s.typeOut slave x) typewriterBuffer s.freeMWord).frame
  exact ((Frame.same hregs hmem).trans (hput.trans (Frame.same (t := s.typedOne slave x) rfl rfl))).mono (by simp) (by simp)

/-- What typing a symbol leaves besides (D43), and what has then been typed. -/
theorem typedOne_fields (s : State) (slave : Bool) (x : Sym) :
    (if slave then (s.typedOne slave x).typedSlave = s.typedSlave ++ [x] ∧ (s.typedOne slave x).typedConsole = s.typedConsole
      else (s.typedOne slave x).typedConsole = s.typedConsole ++ [x] ∧ (s.typedOne slave x).typedSlave = s.typedSlave) ∧
    (s.typedOne slave x).stalls = s.stalls ∧ (s.typedOne slave x).ac = s.ac ∧ (s.typedOne slave x).acState = s.acState ∧
    (s.typedOne slave x).lop = s.lop ∧ (s.typedOne slave x).mr = s.mr ∧ (s.typedOne slave x).pcr = s.pcr := by
  cases slave <;> exact ⟨⟨rfl, rfl⟩, rfl, rfl, rfl, rfl, rfl, rfl⟩

/-! ### The part before the sequence change -/

/-- What a print does before its sequence change, with B active or inactive (R460). -/
def printWord (f : Prt) (ia : Bool) : Op (Option Bool) := if f.b = inactiveGroup then readPart f ia else printPart f ia

theorem printWord_inactive {f : Prt} (hb : f.b = inactiveGroup) (ia : Bool) : printWord f ia = readPart f ia := if_pos hb

theorem printWord_active {f : Prt} (hb : f.b ≠ inactiveGroup) (ia : Bool) : printWord f ia = printPart f ia := if_neg hb

/-- Typewriters 04 and 10 octal are the barricade register access forms (R468). -/
theorem barricadeForm_of {s : State} {b : Group} (hbar : s.cfg.barricade = true) (ht : typewriterOf b = 4 ∨ typewriterOf b = 8) :
    barricadeForm s b = true := by
  unfold barricadeForm
  rw [hbar]
  rcases ht with h | h <;> rw [h] <;> rfl

section
variable {i : Instr} {f : Prt} {s u : State} {ia bad : Bool}

/-- A print whose word is dealt with: the unprogrammed transfer for a word read and not printed, of bad parity, else the sequence change (R460,
R610). -/
theorem printOp_done (hi : isInactive f.a f.dA s.begun = .ok (ia, s.begun)) (hinc : ¬ (ia = false ∧ printIncremented f = true))
    (hc : f.c = inactiveGroup → f.dC = false) (h : printWord f ia s.begun = .ok (some bad, u)) :
    printOp i f s =
      if bad then unprogrammedTransfer utParity i u.noAc else concludeJump i f.seq f.c f.dC true false false u.noAc := by
  have hdg := designated_of (f := ⟨f.seq, none, f.a, f.dA, f.b, false, f.c, f.dC⟩) (undesignated_of_isInactive hi) (fun _ => rfl) hc
  unfold printOp noAc
  rw [Op.bind_ok (beginForm_run hdg s), Op.bind_ok hi, if_neg hinc]
  by_cases hb : f.b = inactiveGroup
  · rw [printWord_inactive hb] at h
    rw [if_pos hb, Op.bind_ok h]
    cases bad <;> rfl
  · rw [printWord_active hb] at h
    rw [if_neg hb, Op.bind_ok h]
    cases bad <;> rfl

/-- A print run that ends with its sequence change. -/
theorem printOp_sequenced {t : State} {r : Option SReg} (hi : isInactive f.a f.dA s.begun = .ok (ia, s.begun))
    (hinc : ¬ (ia = false ∧ printIncremented f = true)) (h : printWord f ia s.begun = .ok (some false, u))
    (ht : sequenceTarget f.c f.dC (ctrOf f.seq) u.noAc = .ok (r, t)) : printOp i f s = .ok ((), t.sequenced f.seq r) :=
  (printOp_done hi hinc (undesignated_of_sequenceTarget ht) h).trans (concludeJump_sequenced ht)

/-- A print run that ends with the unprogrammed transfer (R610). -/
theorem printOp_transferred (hi : isInactive f.a f.dA s.begun = .ok (ia, s.begun)) (hinc : ¬ (ia = false ∧ printIncremented f = true))
    (hc : f.c = inactiveGroup → f.dC = false) (h : printWord f ia s.begun = .ok (some true, u)) (hq : u.env = [])
    (hct : u.noAc.canTransfer) : printOp i f s = .ok ((), u.noAc.transferred utParity i) :=
  (printOp_done hi hinc hc h).trans (unprogrammedTransfer_ready hq hct)

/-- A print with an active A, whose word is only read where B is inactive (R460). -/
theorem printWord_read {w : MWord} (hb : f.b = inactiveGroup) (hr : readOperand f.a f.dA s.begun = .ok (w, u)) :
    printWord f false s.begun = .ok (some (MWord.bad w), u) := by
  rw [printWord_inactive hb]
  unfold readPart
  rw [if_neg (by decide), Op.bind_ok hr]
  rfl

/-- A print on a free typewriter puts its word into the buffer (R460). -/
theorem printWord_started {slave : Bool} {w : MWord} (hq : u.env = []) (hb : f.b ≠ inactiveGroup) (h1 : bitAt f.b 1 = false)
    (hm : printMode f.b ≠ 0#2) (ht : typewriterOf f.b = if slave then 1 else 0) (hs : slave = true → s.cfg.slave = true)
    (hsrc : printSource f ia s.begun = .ok (w, u)) (hfree : u.typewriterBusy slave = false) :
    printWord f ia s.begun = .ok (some false, u.startedTyping slave f.b w) := by
  rw [printWord_active hb, printPart_run (s := s.begun) h1 hm ht hs hsrc, typeWord_run hq, hfree]
  rfl

/-- Typewriter 04 loads the barricade register (R468). -/
theorem printWord_loads {w : MWord} (hb : f.b ≠ inactiveGroup) (h1 : bitAt f.b 1 = false) (ht : typewriterOf f.b = 4)
    (hbar : s.cfg.barricade = true) (hsrc : printSource f ia s.begun = .ok (w, u)) (hw : fld w.bits 38 40 = 0#3) :
    printWord f ia s.begun = .ok (some (MWord.bad w), u.loadedBar w.bits) := by
  have hform : barricadeForm s.begun f.b = true := barricadeForm_of hbar (.inl ht)
  have hload : loadBarricade w.bits u = .ok ((), u.loadedBar w.bits) := by
    unfold loadBarricade
    rw [if_neg (not_not.mpr hw)]
    rfl
  rw [printWord_active hb]
  unfold printPart
  rw [Op.bind_ok (Op.get_run _), h1, if_neg (by decide), hform, if_pos rfl, if_pos ht, Op.bind_ok hsrc, Op.bind_ok hload]
  rfl

/-- Typewriter 10 octal stores the barricade register (R468). -/
theorem printWord_stores {l : Loc} (hq : s.env = []) (hb : f.b ≠ inactiveGroup) (h1 : bitAt f.b 1 = false)
    (ht : typewriterOf f.b = 8) (hbar : s.cfg.barricade = true) (hl : locate f.a f.dA s.begun = .ok (l, u)) (hadm : u.admits l) :
    printWord f ia s.begun = .ok (some false, u.stored l (MWord.good (barWord s.bar))) := by
  have hform : barricadeForm s.begun f.b = true := barricadeForm_of hbar (.inr ht)
  have hwrite : writeResult f.a f.dA (MWord.good (barWord s.bar)) s.begun = .ok ((), u.stored l (MWord.good (barWord s.bar))) := by
    unfold writeResult
    rw [Op.bind_ok hl, store_admitted ((steps_locate hl).1.env.trans hq) hadm]
  rw [printWord_active hb]
  unfold printPart
  rw [Op.bind_ok (Op.get_run _), h1, if_neg (by decide), hform, if_pos rfl, if_neg (by rw [ht]; decide),
    show s.begun.bar = s.bar from rfl, Op.bind_ok hwrite]
  rfl

end

/-! ### What a print leaves -/

theorem Steps.owner {s t : State} {R : List (BitVec 3 × BitVec 5)} (h : Steps s t R) (slave : Bool) : t.owner slave = s.owner slave := by
  rw [h.eq]
  cases slave <;> rfl

/-- The typewriter once a word has been put into its buffer (R460). -/
theorem startedTyping_typewriter (s : State) (slave : Bool) (b : Group) (w : MWord) :
    (s.startedTyping slave b w).typing = some ⟨slave, printSymbols s.cur (s.owner slave).isSome b w⟩ ∧
      (s.startedTyping slave b w).typeSpoiled = false ∧
      (s.startedTyping slave b w).owner slave = (if bitAt b 4 then some s.cur else none) ∧
      (s.startedTyping slave b w).owner (!slave) = s.owner (!slave) := by
  cases slave <;> exact ⟨rfl, rfl, rfl, rfl⟩

/-- A sequence change leaves the typewriters and the barricade register. -/
theorem sequenced_beside (s : State) (seq : Bool) (r : Option SReg) :
    (s.sequenced seq r).typing = s.typing ∧ (s.sequenced seq r).typeSpoiled = s.typeSpoiled ∧ (s.sequenced seq r).bar = s.bar ∧
      ∀ slave, (s.sequenced seq r).owner slave = s.owner slave := by
  cases r <;> exact ⟨rfl, rfl, rfl, fun slave => by cases slave <;> rfl⟩

/-- The fields of the barricade register that a word loads, and the bits it leaves (R468). -/
theorem loadedBar_fields (s : State) (w : Word) :
    fld (s.loadedBar w).bar 9 13 = fld w 33 37 ∧ fld (s.loadedBar w).bar 17 24 = fld w 41 48 ∧
      ∀ n, 1 ≤ n → n ≤ 16 → (n < 9 ∨ 13 < n) → bitAt (s.loadedBar w).bar n = bitAt s.bar n := by
  refine ⟨?_, fld_setFld_self (i := 17) (j := 24) _ _ (by omega) (by omega), fun n h1 h2 hn => ?_⟩
  · exact (fld_setFld_other (i := 17) (j := 24) _ _ (by omega) (by omega) (by omega)).trans
      (fld_setFld_self (i := 9) (j := 13) s.bar _ (by omega) (by omega))
  · exact (bitAt_setFld (i := 17) (j := 24) _ _ (by omega) (by omega) (by omega)).trans
      (bitAt_setFld (i := 9) (j := 13) s.bar _ (by omega) (by omega) hn)

theorem holds_noAc {s : State} {a : Nat} {v : MWord} (h : s.holds (.mem a) v) : s.noAc.holds (.mem a) v := h

section
variable {i : Instr} {f : Prt} {s s1 v t : State} {R : List (BitVec 3 × BitVec 5)} {W : List Nat} {r : Option SReg}

/-- The sequence change of a print, after A has been read and its word dealt with. -/
theorem frame_printed (hst : Steps s.begun s1 R) (hv : Frame s1 v [] W) (hp : v.pcr = s1.pcr)
    (ht : sequenceTarget f.c f.dC (ctrOf f.seq) v.noAc = .ok (r, t)) :
    Frame s (t.sequenced f.seq r) (R ++ s1.named f.c f.dC ++ s.sequencers f.seq r) W ∧
      (t.sequenced f.seq r).pcr = setBitAt s.pcr (21 + s.cur.toNat) f.seq := by
  have st := steps_sequenceTarget ht
  have hcur : v.noAc.cur = s1.cur := by
    unfold State.cur
    rw [show v.noAc.pcr = s1.pcr from hp]
  have hnamed : v.noAc.named f.c f.dC = s1.named f.c f.dC := named_of hcur fun j => hv.regs _ _ List.not_mem_nil
  have hframe : Frame s t (R ++ s1.named f.c f.dC) W := by
    refine (((Frame.same (s := s) (t := s.begun) rfl rfl).trans hst.frame).trans
      (hv.trans ((Frame.same (s := v) (t := v.noAc) rfl rfl).trans st.frame))).mono ?_ (by simp)
    rw [hnamed]
    simp
  exact frame_sequenced hframe (st.pcr.trans (hp.trans hst.pcr)) f.seq r

/-- The unprogrammed transfer of a print (R610), after A has been read and its word dealt with. -/
theorem frame_printTransferred (hst : Steps s.begun s1 R) (hv : Frame s1 v [] []) (hp : v.pcr = s1.pcr) (hsel : v.sel = s1.sel) :
    Frame s (v.noAc.transferred utParity i) R [(s1.reg s.cur utrIx).full + if s.sel = .csc then 1 else 0] := by
  have hcur : v.noAc.cur = s.cur := by
    unfold State.cur
    rw [show v.noAc.pcr = s.pcr from hp.trans hst.pcr]
  have htrans := frame_transferred v.noAc utParity i
  rw [hcur, show v.noAc.reg s.cur utrIx = s1.reg s.cur utrIx from hv.regs _ _ List.not_mem_nil,
    show v.noAc.sel = s.sel from hsel.trans hst.sel] at htrans
  exact (((Frame.same (s := s) (t := s.begun) rfl rfl).trans hst.frame).trans
    (hv.trans ((Frame.same (s := v) (t := v.noAc) rfl rfl).trans htrans))).mono (by simp) (by simp)

end

end Sys2Proof.Machine
end

section
/-! PROOFS. The statements about the print instructions and the typewriters. -/
namespace Sys2Proof.Settled
open Sys2Proof.Machine

/-- Settles O33: `printOp_sequenced` or `printOp_transferred` runs it once the word of A has been printed or only read. -/
theorem printInstructions : Obligations.PrintInstructions := by
  intro i f s s1 s2 w r hrow hq
  refine ⟨fun hb slave h1 hm ht hs hbusy ha hseq => ?_, fun hb ha hseq => ?_, fun hb ha hinc hc hr hbad hct => ?_⟩
  · obtain ⟨hi, hinc, hsrc, st⟩ := printSource_run hq ha
    have hfree : s1.typewriterBusy slave = false := by
      rw [typewriterBusy_steps st slave, ← hbusy]
      cases slave <;> rfl
    have hrun := printOp_sequenced (i := i) hi hinc (printWord_started (st.env.trans hq) hb h1 hm ht hs hsrc hfree) hseq
    have st2 := steps_sequenceTarget hseq
    obtain ⟨hframe, hpcr⟩ := frame_printed st (passes_frame_started s1 slave f.b w).1 (passes_frame_started s1 slave f.b w).2 hseq
    obtain ⟨hty, hsp, hown, hother⟩ := startedTyping_typewriter s1 slave f.b w
    obtain ⟨hty2, hsp2, -, hown2⟩ := sequenced_beside s2 f.seq r
    have hown0 (b : Bool) : s1.owner b = s.owner b := (st.owner b).trans (by cases b <;> rfl)
    rw [hown0, st.cur, State.cur_begun] at hty
    rw [st.cur, State.cur_begun] at hown
    rw [hown0] at hother
    have hnoAc (b : Bool) : (s1.startedTyping slave f.b w).noAc.owner b = (s1.startedTyping slave f.b w).owner b := by cases b <;> rfl
    have hkept (b : Bool) : (s2.sequenced f.seq r).owner b = (s1.startedTyping slave f.b w).owner b :=
      (hown2 b).trans ((st2.owner b).trans (hnoAc b))
    exact ⟨_, (print_run hrow).trans (perform_ok hrun), rfl, scan_sequenced _ _ _,
      hty2.trans ((congrArg State.typing st2.bare :).trans hty), hsp2.trans ((congrArg State.typeSpoiled st2.bare :).trans hsp),
      (hkept _).trans hown, (hkept _).trans hother, hpcr, hframe⟩
  · have ha' : f.a = inactiveGroup ∧ f.dA = false ∧ s1 = s.begun ∨
        f.a ≠ inactiveGroup ∧ printIncremented f = false ∧ readOperand f.a f.dA s.begun = .ok (w, s1) :=
      ha.imp_right fun h => ⟨h.1, h.2.1, h.2.2.1⟩
    have st := steps_printSource ha' hq
    have hrun : printOp i f s = .ok ((), s2.sequenced f.seq r) := by
      rcases ha with ⟨ha, hd, rfl⟩ | ⟨ha, hinc, hr, hgood⟩
      · exact printOp_sequenced (isInactive_of ha hd _) (by simp) (by rw [printWord_inactive hb]; rfl) hseq
      · have hpart := printWord_read hb hr
        rw [hgood] at hpart
        exact printOp_sequenced (isInactive_active ha _ _) (by simp [hinc]) hpart hseq
    have hp := ((passes_begun s).trans (Passes.steps st)).trans ((passes_noAc s1).trans (Passes.steps (steps_sequenceTarget hseq)))
    rw [named_passes (passes_noAc s1)] at hp
    exact ⟨_, (print_run hrow).trans (perform_ok hrun), rfl, scan_sequenced _ _ _, hp.sequenced f.seq r⟩
  · have st := steps_readOperand (s := s.begun) hq hr
    have hpart := printWord_read hb hr
    rw [hbad] at hpart
    have hrun := printOp_transferred (i := i) (isInactive_active ha _ _) (by simp [hinc]) hc hpart (st.env.trans hq) hct
    exact ⟨_, (print_run hrow).trans (perform_ok hrun), rfl, st.pcr, rfl, (congrArg State.typing st.bare :),
      frame_printTransferred st (Frame.same rfl rfl) rfl rfl⟩

/-- Settles O36: the register is loaded, or stored, before the sequence change or the unprogrammed transfer. -/
theorem barricadeAccess : Obligations.BarricadeAccess := by
  refine ⟨fun i f s s1 s2 w r hrow hq hb h1 ht hbar ha hw => ?_, fun i f s s1 s2 l r hrow hq hb h1 ht hbar hwf ha hinc hl hadm hseq => ?_⟩
  · obtain ⟨hi, hinc, hsrc, st⟩ := printSource_run hq ha
    have hpart := printWord_loads hb h1 ht hbar hsrc hw
    have hload : Frame s1 (s1.loadedBar w.bits) [] [] := Frame.same rfl rfl
    obtain ⟨hlow, hhigh, hbits⟩ := loadedBar_fields s1 w.bits
    have hbar1 : s1.bar = s.bar := st.bar
    have htyping : s1.typing = s.typing := (congrArg State.typing st.bare :)
    rw [hbar1] at hbits
    refine ⟨fun hgood hseq => ?_, fun hbad hc hct => ?_⟩
    · rw [hgood] at hpart
      have hrun := printOp_sequenced (i := i) hi hinc hpart hseq
      have st2 := steps_sequenceTarget hseq
      obtain ⟨hty2, -, hbar2, -⟩ := sequenced_beside s2 f.seq r
      have hbarT : (s2.sequenced f.seq r).bar = (s1.loadedBar w.bits).bar := hbar2.trans st2.bar
      refine ⟨_, (print_run hrow).trans (perform_ok hrun), rfl, scan_sequenced _ _ _, ?_, ?_, ?_,
        hty2.trans ((congrArg State.typing st2.bare :).trans htyping), (frame_printed st hload rfl hseq).1⟩
      · rw [hbarT, hlow]
      · rw [hbarT, hhigh]
      · rw [hbarT]
        exact hbits
    · rw [hbad] at hpart
      have hrun := printOp_transferred (i := i) hi hinc hc hpart (st.env.trans hq) hct
      exact ⟨_, (print_run hrow).trans (perform_ok hrun), rfl, rfl, st.pcr, hlow, hhigh, htyping, frame_printTransferred st hload rfl rfl⟩
  · have hrun := printOp_sequenced (i := i) (isInactive_active ha _ _) (by simp [hinc])
      (printWord_stores (ia := false) hq hb h1 ht hbar hl hadm) hseq
    have st := (steps_locate hl).1
    have st2 := steps_sequenceTarget hseq
    have hwf1 : s1.mem.wf = true := by
      rw [st.mem]
      exact hwf
    have hstore := ((passes_begun s).trans (Passes.steps st)).trans (Passes.stored s1 l (MWord.good (s.bar.setWidth 48)))
    have hp := hstore.trans ((passes_noAc _).trans (Passes.steps st2))
    rw [named_passes (passes_noAc _)] at hp
    have hends := hp.sequenced f.seq r
    refine ⟨_, (print_run hrow).trans (perform_ok hrun), rfl, scan_sequenced _ _ _, (congrArg State.bar hends.outside :),
      (congrArg State.typing hends.outside :), ?_, hends.frame.mono ?_ (by simp)⟩
    · rintro a rfl
      exact holds_sequenced (holds_noAc (State.holds_stored hwf1 _ _)) st2 _ _
    · simp only [List.append_assoc]
      exact List.Subset.refl _

/-- Settles O34: the characters by their places, the digits by `getElem?_spaced_symbol` and `getElem?_spaced_space`. -/
theorem printedSymbols : Obligations.PrintedSymbols := by
  intro g more b w
  refine ⟨printData (printMode b) w, ?_, fun h => ?_, fun h => ?_, fun h => ?_⟩
  · unfold printSymbols
    rw [show MWord.bad (MWord.good w) = false from rfl, Bool.and_comm (bitAt b 3)]
    simp only [Bool.false_eq_true, if_false, List.append_nil]
  · rw [h]
    refine ⟨rfl, fun k hk => ?_⟩
    rw [setWidth_fld w (p := 42 - 6 * k) (by omega) (by omega)]
    change ((List.range 8).map fun k => Sym.char (w.extractLsb' (42 - 6 * k) 6))[k]? = _
    rw [List.getElem?_map, List.getElem?_range hk]
    rfl
  · rw [h]
    refine ⟨length_spaced 3 _ 12, fun k hk => ⟨?_, fun hspace => ?_⟩⟩
    · rw [setWidth_fld w (p := 44 - 4 * k) (by omega) (by omega), show 4 * (k / 3) + k % 3 = k + k / 3 by omega]
      exact getElem?_spaced_symbol _ hk
    · rw [show 4 * k + 3 = 3 * (k + 1) + k by omega]
      exact getElem?_spaced_space _ (by omega) (by omega)
  · rw [h]
    refine ⟨length_spaced 4 _ 16, fun k hk => ⟨?_, fun hspace => ?_⟩⟩
    · rw [setWidth_fld w (p := 45 - 3 * k) (by omega) (by omega), show 5 * (k / 4) + k % 4 = k + k / 4 by omega]
      exact getElem?_spaced_symbol _ hk
    · rw [show 5 * k + 4 = 4 * (k + 1) + k by omega]
      exact getElem?_spaced_space _ (by omega) (by omega)

/-- Settles O35: one symbol is typed, and the last one frees the typewriter. -/
theorem typewriterCycle : Obligations.TypewriterCycle := by
  intro s slave x rest hty hsp
  obtain ⟨htyped, hstalls, hac, hst, hlop, hmr, hpcr⟩ := typedOne_fields s slave x
  have hframe := frame_typedOne s slave x
  rw [typeChar_unspoiled hty hsp, typeNext_cons]
  by_cases hrest : rest = []
  · rw [if_pos hrest, if_pos hrest]
    refine ⟨htyped, rfl, fun g _ hg => stalls_release ?_, hac, hst, hlop, hmr, hpcr, ⟨hframe.regs, hframe.bytes⟩⟩
    exact (congrArg (·[g]) hstalls).trans hg
  · rw [if_neg hrest, if_neg hrest]
    exact ⟨htyped, rfl, fun _ h => absurd h hrest, hac, hst, hlop, hmr, hpcr, ⟨hframe.regs, hframe.bytes⟩⟩

end Sys2Proof.Settled
end

section
/-! SUPPORT. The barricade over the elementary changes of an instruction (R660): what keeps the boundary and the restricted programs, and alters
nothing that the executing program may not alter. -/
namespace Sys2Proof.Machine

/-- From `s` to `t` the executing program stayed within the barricade (R660): the boundary and the restricted programs are as they were, and, where
the program is restricted, so are memory above the boundary and the protected registers. -/
structure Confined (s t : State) : Prop where
  cfg : t.cfg = s.cfg
  boundary : fld t.bar 9 13 = fld s.bar 9 13
  released : ∀ g : BitVec 3, bitAt t.bar (17 + g.toNat) = bitAt s.bar (17 + g.toNat)
  bytes : s.restricted s.cur = true → ∀ n, s.boundary < n / 8 → t.mem.byte n = s.mem.byte n
  regs : s.restricted s.cur = true → ∀ h j, s.restricted h = false → j.toNat < 28 → t.reg h j = s.reg h j

namespace Confined

variable {s t u : State}

theorem restricted_eq (h : Confined s t) (g : BitVec 3) : t.restricted g = s.restricted g := by
  unfold State.restricted
  rw [h.cfg, h.released]

theorem boundary_eq (h : Confined s t) : t.boundary = s.boundary := by
  unfold State.boundary
  rw [h.boundary]

theorem trans (hcur : t.cur = s.cur) (h : Confined s t) (h' : Confined t u) : Confined s u := by
  refine ⟨h'.cfg.trans h.cfg, h'.boundary.trans h.boundary, fun g => (h'.released g).trans (h.released g), fun hr n hn => ?_,
    fun hr g j hg hj => ?_⟩
  · exact (h'.bytes (by rw [hcur, h.restricted_eq, hr]) n (by rwa [h.boundary_eq])).trans (h.bytes hr n hn)
  · exact (h'.regs (by rw [hcur, h.restricted_eq, hr]) g j (by rwa [h.restricted_eq]) hj).trans (h.regs hr g j hg hj)

/-- A change of neither memory nor registers nor the barricade register. -/
theorem of_eq (hc : t.cfg = s.cfg) (hb : t.bar = s.bar) (hm : t.mem = s.mem) (hr : t.regs = s.regs) : Confined s t :=
  ⟨hc, by rw [hb], fun _ => by rw [hb], fun _ _ _ => by rw [hm], fun _ h j _ _ => State.reg_of_regs hr h j⟩

/-- A register of the executing group, a read-write counter, or one the barricade admits. -/
theorem setReg {h : BitVec 3} {i : BitVec 5} (hi : h = s.cur ∨ 28 ≤ i.toNat ∨ s.barsReg h i = false) (r : SReg) :
    Confined s (s.setReg h i r) := by
  refine ⟨rfl, rfl, fun _ => rfl, fun _ _ _ => rfl, fun hr g j hg hj => State.reg_setReg_other s ?_ r⟩
  rintro ⟨rfl, rfl⟩
  obtain rfl | hi | hi := hi
  · rw [hr] at hg; cases hg
  · omega
  · simp [State.barsReg, hr, hg, hj] at hi

/-- A word at or below the boundary, or one the barricade admits. -/
theorem putWord {a : Nat} (ha : a ≤ s.boundary ∨ s.barsMem a = false) (v : MWord) : Confined s (s.putWord a v) := by
  refine ⟨rfl, rfl, fun _ => rfl, fun hr n hn => State.byte_putWord_other s ?_ v, fun _ _ _ _ _ => rfl⟩
  rintro rfl
  obtain ha | ha := ha
  · omega
  · simp [State.barsMem, hr, hn] at ha

/-- Recording who violated the barricade moves neither the boundary nor releases a program. -/
theorem violator (s : State) (g : BitVec 3) : Confined s { s with bar := setFld s.bar 1 3 g } :=
  ⟨rfl, fld_setFld_other (i := 1) (j := 3) s.bar g (by omega) (by omega) (by omega),
    fun h => bitAt_setFld (i := 1) (j := 3) s.bar g (by omega) (by omega) (by omega), fun _ _ _ => rfl, fun _ _ _ _ _ => rfl⟩

theorem of_kept (h : t.kept = s.kept) : Confined s t :=
  of_eq (congrArg State.cfg h :) (congrArg State.bar h :) (congrArg State.mem h :) (congrArg State.regs h :)

theorem of_keptNoFloat (h : t.keptNoFloat = s.keptNoFloat) : Confined s t :=
  of_eq (congrArg State.cfg h :) (congrArg State.bar h :) (congrArg State.mem h :) (congrArg State.regs h :)

end Confined

/-- The boundary lies above the locations that instructions use as scratch memory (R90, R262). -/
theorem scratch_le_boundary {s : State} {a : Nat} (h : a ≤ typewriterBuffer) : a ≤ s.boundary := by
  unfold typewriterBuffer at h
  unfold State.boundary
  omega

/-- No elementary change of an instruction hands control to another group. -/
theorem Prim.cur {sci : Bool} {s t : State} (p : Prim sci false false s t) : t.cur = s.cur := by
  cases p with
  | quiet e => exact congrArg (fld · 18 20) (congrArg State.pcr e :)
  | float _ e => exact congrArg (fld · 18 20) (congrArg State.pcr e :)
  | pcrBit k b hk => exact State.cur_setPcrBit s b (by omega) (by omega)
  | errorCode c => exact State.cur_setErrorCode s c
  | fixedStart v => exact State.cur_setFixedStart s v
  | load hl _ _ => cases hl
  | between ho _ => cases ho
  | own | counter | reg | word | scratch | violator => rfl

/-- Each elementary change is confined, but for the loading of the barricade register and what happens outside the processor. -/
theorem Prim.confined {sci : Bool} {s t : State} (p : Prim sci false false s t) : Confined s t := by
  cases p with
  | quiet e => exact .of_kept e
  | float _ e => exact .of_keptNoFloat e
  | own i r => exact .setReg (.inl rfl) r
  | counter h i r hi => exact .setReg (.inr (.inl hi)) r
  | reg h i r hb => exact .setReg (.inr (.inr hb)) r
  | word a v _ hb => exact .putWord (.inr hb) v
  | scratch a v ha => exact .putWord (.inl (scratch_le_boundary ha)) v
  | violator g => exact .violator s g
  | load hl _ _ => cases hl
  | between ho _ => cases ho
  | pcrBit | errorCode | fixedStart => exact .of_eq rfl rfl rfl rfl

theorem Reach.confined {sci : Bool} {s t : State} (r : Reach sci false false s t) : Confined s t ∧ t.cur = s.cur := by
  induction r with
  | refl => exact ⟨.of_kept rfl, rfl⟩
  | tail _ p ih => exact ⟨ih.1.trans ih.2 p.confined, p.cur.trans ih.2⟩

/-- An instruction that does not load the barricade register is confined, whether or not it hands control on. -/
theorem exec_confined {i : Instr} {s t : State} (hq : s.env = []) (e : exec i s = .next t) (hl : loadsBarricade i = false) :
    Confined s t := by
  obtain ⟨u, hu, ht⟩ := exec_reach (out := false) (.inr hq) e
  rw [hl] at hu
  obtain ⟨hc, hcur⟩ := hu.confined
  obtain rfl | ⟨g, rfl⟩ := ht
  · exact hc
  · exact hc.trans hcur (.of_eq rfl rfl rfl rfl)

end Sys2Proof.Machine
end

section
/-! SUPPORT. References by a restricted program to a special register it may not alter (R664), and the machine as reset leaves it (R682). -/
namespace Sys2Proof.Machine

/-! ### Protected registers (R664) -/

section
variable {s : State} {h : BitVec 3} {i inc : BitVec 5}

theorem fetch_barred (hb : s.barsReg h i = true) : fetch (.reg h i inc) s = .ok (MWord.good (srToWord (s.reg h i)), s) := by
  unfold fetch
  dsimp only
  rw [Op.bind_ok (Op.get_run s), Op.bind_ok (stepRegister_barred hb inc)]; rfl

theorem registerLoc_barred (hb : s.barsReg h i = true) (ht : (s.reg h i).tag ≠ .bad) :
    registerLoc h i inc true s = .ok (.mem (s.reg h i).full, s) := by
  unfold registerLoc
  rw [if_pos rfl, Op.bind_ok (Op.get_run s), Op.bind_ok (checkExplicit_good ht s), Op.bind_ok (stepRegister_barred hb inc)]; rfl

theorem counterFrom_barred (hb : s.barsReg h i = true) (ht : (s.reg h i).tag ≠ .bad) (nxt : Ctr) :
    counterFrom h i inc nxt s = .ok ({ s.reg h i with tag := .good }, s) := by
  unfold counterFrom
  rw [Op.bind_ok (Op.get_run s), Op.bind_ok (checkExplicit_good ht s)]
  split
  · rfl
  · rw [Op.bind_ok (stepRegister_barred hb inc)]; rfl

end

/-- The register that an indexed special register address forms (R192, R193): its fields say which register is named, and how. -/
theorem locate_indexedFields {x : Group} {s : State} (hx : x ≠ inactiveGroup) (h1 : bitAt x 1 = true)
    (ht : (s.reg s.cur (indexReg x)).tag ≠ .bad) {v : SReg} (hv : v = (augment (s.reg s.cur (indexReg x)) (fld x 5 12).toNat).1) :
    locate x true s = registerLoc (fld v.bits 3 5) (fld v.bits 12 16) (fld v.bits 6 10) (bitAt v.bits 11) s := by
  subst hv
  unfold locate
  rw [Op.bind_ok (isInactive_active hx _ _), if_neg (by decide), Op.bind_ok (Op.get_run s), h1]
  dsimp only
  rw [Op.bind_ok (index_ok ht)]
  dsimp only
  rw [if_pos rfl]

/-- The first address of a group transfer, taken indirectly from a register (R320). -/
theorem auInit_indexedIndirect {x : Group} {s t : State} (hx : x ≠ inactiveGroup) (h1 : bitAt x 1 = true)
    (ht : (s.reg s.cur (indexReg x)).tag ≠ .bad) {v r : SReg} (hv : v = (augment (s.reg s.cur (indexReg x)) (fld x 5 12).toNat).1)
    (htab : bitAt v.bits 11 = true) (hr : r = s.reg (fld v.bits 3 5) (fld v.bits 12 16)) (hg : r.tag ≠ .bad)
    (hs : stepRegister (fld v.bits 3 5) (fld v.bits 12 16) (fld v.bits 6 10) s = .ok ((), t)) :
    auInit x true s = .ok (some (false, { r with tag := .good }), t) := by
  subst hv hr
  unfold auInit
  rw [Op.bind_ok (isInactive_active hx _ _), if_neg (by decide), Op.bind_ok (Op.get_run s), h1]
  dsimp only
  rw [Op.bind_ok (index_ok ht)]
  dsimp only
  rw [if_neg (by decide), if_pos htab, Op.bind_ok (checkExplicit_good hg s), Op.bind_ok hs]; rfl

/-! ### Reset (R682) -/

theorem reset_reg (g : BitVec 3) (i : BitVec 5) : State.reset.reg g i = SReg.zero := Vector.getElem_replicate _

theorem reset_dev (d : Dir) (ch dev : BitVec 3) : State.reset.dev d ch dev = Device.idle := Vector.getElem_replicate _

theorem reset_xfer (d : Dir) (ch : BitVec 3) : State.reset.xfer d ch = none := Vector.getElem_replicate _

/-- No group is in demand. -/
theorem reset_inDemand (g : BitVec 3) : State.reset.inDemand g = false := BitVec.getLsbD_zero

theorem reset_bis (g : BitVec 3) : State.reset.bis g = false := BitVec.getLsbD_zero

theorem reset_restricted : ∀ g, State.reset.restricted g = false := by decide

theorem reset_word (a : Nat) : State.reset.mem.word a = MWord.good 0#48 := by
  change MWord.mk (wordOfBytes [0, 0, 0, 0, 0, 0]) _ = _
  rfl

theorem reset_grant : State.reset.grant = none := rfl

/-- With nothing in demand a hunt finds no program (R630). -/
theorem reset_hunt (g : BitVec 3) : State.reset.hunt g = none := by
  have h : ∀ h, State.reset.runnable h = false := fun h => by
    unfold State.runnable
    rw [reset_inDemand]; rfl
  exact List.find?_eq_none.mpr fun h' _ => by simp [h h']

/-- The machine then does nothing (R633): the hunt made in vain leaves it as it was. -/
theorem step_reset : step State.reset = .next State.reset := by
  unfold step
  rw [if_neg (by decide), environment_quiet rfl, reset_grant]
  have hsel : State.reset.select = .next State.reset.resumed := by
    unfold State.select
    rw [show State.reset.utEntry = none from rfl, show State.reset.scan = some 0 from rfl]
    dsimp only
    rw [show State.reset.consoleQ = [] from rfl, reset_hunt]; rfl
  dsimp only
  unfold cpuStep
  rw [hsel]; rfl

end Sys2Proof.Machine
end

section
/-! PROOFS. The statements about the barricade and about reset. -/
namespace Sys2Proof.Settled
open Sys2Proof.Machine

/-- Settles O58: every instruction is a sequence of elementary changes, each of them confined. -/
theorem barricadeProtects : Obligations.BarricadeProtects := by
  intro i s t hq e hl
  have h := exec_confined hq e hl
  exact ⟨h.boundary_eq, h.restricted_eq, fun hr => ⟨h.bytes hr, h.regs hr⟩⟩

/-- Settles O52: a barred register is not stepped, by `stepRegister_barred`, whichever reference asks for it. -/
theorem protectedIncrements : Obligations.ProtectedIncrements := by
  intro s h i inc hb
  refine ⟨fetch_barred hb, fun ht => ⟨registerLoc_barred hb ht, counterFrom_barred hb ht⟩, ?_⟩
  rintro x r v hx h1 rfl hr hv rfl rfl rfl
  refine ⟨fun htab => ?_, fun htab ht => ⟨?_, ?_⟩⟩
  · unfold readOperand
    rw [Op.bind_ok ((locate_indexedFields hx h1 hr hv).trans (by rw [htab]; rfl)), fetch_barred hb]
  · rw [locate_indexedFields hx h1 hr hv, htab, registerLoc_barred hb ht]
  · exact auInit_indexedIndirect hx h1 hr hv htab rfl ht (stepRegister_barred hb _)

/-- Settles O56: reset writes constants; a step from it hunts in vain. -/
theorem resetState : Obligations.ResetState := by
  refine ⟨⟨rfl, by decide, by decide, by decide, by decide⟩, rfl, by decide, rfl,
    fun g => ⟨reset_inDemand g, reset_bis g, reset_restricted g⟩, fun g i => by rw [reset_reg]; rfl, fun a => by rw [reset_word]; rfl,
    reset_dev, reset_xfer, rfl, by decide, by decide, by decide, step_reset⟩

end Sys2Proof.Settled
end

section
/-! SUPPORT. The numbers of the floating-point unit (R521 to R534): the fields of a word made of its parts, digits of either radix, alignment,
mantissa overflow and normalization, each with the value it keeps. -/
namespace Sys2Proof.Machine

/-! ### Words (R521) -/

theorem fpWord_toNat (p : Bool) (e : Int) (m : Nat) :
    (fpWord p e m).toNat = p.toNat * 2 ^ 47 + (e % 128).toNat * 2 ^ 40 + m % 2 ^ 40 := by
  have hp := Bool.toNat_lt p
  rw [fpWord, BitVec.toNat_ofNat]
  omega

@[simp] theorem bitAt_fpWord (p : Bool) (e : Int) (m : Nat) : bitAt (fpWord p e m) 1 = p := by
  rw [bitAt_toNat, fpWord_toNat]
  cases p <;> simp only [Bool.toNat_true, Bool.toNat_false, decide_eq_true_eq, decide_eq_false_iff_not] <;> omega

@[simp] theorem exponent_fpWord (p : Bool) (e : Int) (m : Nat) : (exponent (fpWord p e m) : Int) = e % 128 := by
  have hp := Bool.toNat_lt p
  rw [exponent, toNat_fld, fpWord_toNat]
  omega

@[simp] theorem mantissa_fpWord (p : Bool) (e : Int) (m : Nat) : mantissa (fpWord p e m) = m % 2 ^ 40 := by
  rw [mantissa, toNat_fld, fpWord_toNat]
  omega

theorem hasSignExponent_fpWord (p : Bool) (e : Int) (m : Nat) : Word.HasSignExponent (fpWord p e m) p e :=
  ⟨bitAt_fpWord p e m, exponent_fpWord p e m⟩

/-! ### Digits (R521) -/

theorem two_le_radix (dec : Bool) : 2 ≤ radix dec := by cases dec <;> decide

theorem digitsOut_lt {dec : Bool} {n v : Nat} (h : v < radix dec ^ n) : digitsOut dec n v < 16 ^ n := by
  cases dec with
  | true => exact toDecimal_lt n v
  | false => exact h

theorem digitsIn_digitsOut {dec : Bool} {n v : Nat} (h : v < radix dec ^ n) : digitsIn dec n (digitsOut dec n v) = v := by
  cases dec with
  | true => exact (decimalValue_toDecimal n v).trans (Nat.mod_eq_of_lt h)
  | false => rfl

theorem digitsIn_lt {dec : Bool} {n m : Nat} (hm : m < 16 ^ n) (h : digitsOk dec n m = true) : digitsIn dec n m < radix dec ^ n := by
  cases dec with
  | true => exact decimalValue_lt h
  | false => exact hm

/-- A word taken apart that was made of ten digits. -/
theorem fpOf_fpWord {dec : Bool} {m : Nat} (h : m < radix dec ^ 10) (p : Bool) (e e' : Int) :
    fpOf dec (fpWord p e (digitsOut dec 10 m)) e' = ⟨p, e', m⟩ := by
  have hlt : digitsOut dec 10 m < 2 ^ 40 := (digitsOut_lt h).trans_eq (by norm_num)
  rw [fpOf, bitAt_fpWord, mantissa_fpWord, Nat.mod_eq_of_lt hlt, digitsIn_digitsOut h]

/-! ### Values (R521) -/

theorem Fp.value_mk (R n : Nat) (p : Bool) (e : Int) (m : Nat) :
    Fp.value R n ⟨p, e, m⟩ = (withSign p m : Rat) * (R : Rat) ^ (e - 64 - n) := rfl

/-- A digit moved between mantissa and exponent leaves the value. -/
theorem value_shift {R : Nat} (hR : R ≠ 0) (n : Nat) (p : Bool) (e : Int) (m j : Nat) :
    Fp.value R n ⟨p, e - j, m * R ^ j⟩ = Fp.value R n ⟨p, e, m⟩ := by
  have hR' : (R : Rat) ≠ 0 := Nat.cast_ne_zero.mpr hR
  have hsign : withSign p (m * R ^ j) = withSign p m * (R : Int) ^ j := by cases p <;> simp [withSign]
  rw [Fp.value_mk, Fp.value_mk, hsign, show e - 64 - (n : Int) = (j : Int) + (e - j - 64 - n) by ring, zpow_add₀ hR', zpow_natCast]
  push_cast
  ring

/-- A mantissa of twice ten digits in two words, the second ten digits lower. -/
theorem value_halves {R : Nat} (hR : R ≠ 0) (p : Bool) (e : Int) (m : Nat) :
    Fp.value R 10 ⟨p, e, m / R ^ 10⟩ + Fp.value R 10 ⟨p, e - 10, m % R ^ 10⟩ = Fp.value R 20 ⟨p, e, m⟩ := by
  have hR' : (R : Rat) ≠ 0 := Nat.cast_ne_zero.mpr hR
  have hsign : withSign p m = withSign p (m / R ^ 10) * (R : Int) ^ 10 + withSign p (m % R ^ 10) := by
    have h : (m : Int) = (m / R ^ 10 : Nat) * (R : Int) ^ 10 + (m % R ^ 10 : Nat) := by
      exact_mod_cast (Nat.div_add_mod' m (R ^ 10)).symm
    cases p <;> simp only [withSign, if_true, if_false, Bool.false_eq_true] <;> linarith
  rw [Fp.value_mk, Fp.value_mk, Fp.value_mk, hsign, show e - 64 - ((10 : Nat) : Int) = ((10 : Nat) : Int) + (e - 64 - (20 : Nat)) by push_cast; ring,
    show e - 10 - 64 - ((10 : Nat) : Int) = e - 64 - (20 : Nat) by push_cast; ring, zpow_add₀ hR', zpow_natCast]
  push_cast
  ring

/-- The product of two mantissas of ten digits is one of twenty. -/
theorem value_product {R : Nat} (hR : R ≠ 0) (a b : Fp) :
    Fp.value R 20 ⟨a.pos == b.pos, a.e + b.e - 64, a.m * b.m⟩ = a.value R 10 * b.value R 10 := by
  have hR' : (R : Rat) ≠ 0 := Nat.cast_ne_zero.mpr hR
  have hsign : withSign (a.pos == b.pos) (a.m * b.m) = withSign a.pos a.m * withSign b.pos b.m := by
    cases a.pos <;> cases b.pos <;> simp [withSign]
  change _ = (withSign a.pos a.m : Rat) * (R : Rat) ^ (a.e - 64 - 10) * ((withSign b.pos b.m : Rat) * (R : Rat) ^ (b.e - 64 - 10))
  rw [Fp.value_mk, hsign, show a.e + b.e - 64 - 64 - ((20 : Nat) : Int) = (a.e - 64 - 10) + (b.e - 64 - 10) by push_cast; ring, zpow_add₀ hR']
  push_cast
  ring

/-! ### Normalization (R530 stage 4, R532) -/

/-- A mantissa whose first digit is zero has room for one more digit. -/
theorem mul_lt_of_lt_top {R n m : Nat} (hR : R ≠ 0) (hn : 1 ≤ n) (h : m < R ^ (n - 1)) : m * R < R ^ n := by
  obtain ⟨n, rfl⟩ := Nat.exists_eq_add_of_le' hn
  rw [pow_succ]
  exact Nat.mul_lt_mul_of_pos_right h (Nat.pos_of_ne_zero hR)

/-- One digit and then `j` more. -/
theorem shifted_succ (R : Nat) (x : Fp) (j : Nat) :
    (⟨x.pos, x.e - (j + 1 : Nat), x.m * R ^ (j + 1)⟩ : Fp) = ⟨x.pos, x.e - 1 - j, x.m * R * R ^ j⟩ := by
  rw [Fp.mk.injEq]
  exact ⟨rfl, by push_cast; ring, by rw [mul_assoc, ← pow_succ']⟩

/-- A number that is not zero is shifted left until its first digit is not zero. -/
theorem normalize_shifts {R n : Nat} (hR : R ≠ 0) (hn : 1 ≤ n) (k : Nat) (x : Fp) (hlt : x.m < R ^ n)
    (hk : R ^ (n - 1) ≤ x.m * R ^ k) :
    ∃ j : Nat, normalize R n k x = ⟨x.pos, x.e - j, x.m * R ^ j⟩ ∧ R ^ (n - 1) ≤ x.m * R ^ j ∧ x.m * R ^ j < R ^ n := by
  induction k generalizing x with
  | zero => exact ⟨0, by simp [normalize], by simpa using hk, by simpa using hlt⟩
  | succ k ih =>
    unfold normalize
    split
    · next hm => exact ⟨0, by simp, by simpa using hm, by simpa using hlt⟩
    · next hm =>
      obtain ⟨j, hj, hlow, hhigh⟩ := ih ⟨x.pos, x.e - 1, x.m * R⟩ (mul_lt_of_lt_top hR hn (Nat.not_le.mp hm))
        (by rwa [mul_assoc, ← pow_succ'])
      have hmul : x.m * R * R ^ j = x.m * R ^ (j + 1) := by rw [mul_assoc, ← pow_succ']
      exact ⟨j + 1, hj.trans (shifted_succ R x j).symm, by rwa [← hmul], by rwa [← hmul]⟩

theorem normalize_normal {R n : Nat} (hR : 2 ≤ R) (hn : 1 ≤ n) {x : Fp} (h0 : x.m ≠ 0) (hlt : x.m < R ^ n) :
    ∃ j : Nat, normalize R n n x = ⟨x.pos, x.e - j, x.m * R ^ j⟩ ∧ R ^ (n - 1) ≤ x.m * R ^ j ∧ x.m * R ^ j < R ^ n := by
  refine normalize_shifts (by omega) hn n x hlt ?_
  calc R ^ (n - 1) ≤ R ^ n := Nat.pow_le_pow_right (by omega) (by omega)
    _ ≤ x.m * R ^ n := Nat.le_mul_of_pos_left _ (by omega)

/-! ### Alignment and addition (R530 stages 1 to 3) -/

theorem shiftUp_still {R top : Nat} {bound : Int} {x : Fp} (h : x.e ≤ bound) (k : Nat) : shiftUp R top bound k x = x := by
  cases k with
  | zero => rfl
  | succ k =>
    unfold shiftUp
    rw [if_pos (.inr (.inr h))]

/-- Shifting `x` left by `j` digits stops there (R530 stage 1): `x` is zero and not shifted, or its exponent is down to `bound`, or its first digit
is not zero. -/
structure LeftJustified (R n : Nat) (bound : Int) (x : Fp) (j : Nat) : Prop where
  le : (j : Int) ≤ x.e - bound
  lt : x.m * R ^ j < R ^ n
  stop : if x.m = 0 then j = 0 else (j : Int) = x.e - bound ∨ R ^ (n - 1) ≤ x.m * R ^ j

theorem leftJustified_zero {R n : Nat} {bound : Int} {x : Fp} (hb : bound ≤ x.e) (hlt : x.m < R ^ n)
    (hstop : x.m = 0 ∨ R ^ (n - 1) ≤ x.m ∨ x.e ≤ bound) : LeftJustified R n bound x 0 := by
  refine ⟨by push_cast; omega, by simpa using hlt, ?_⟩
  split
  · rfl
  · next h0 =>
    rcases hstop with h | h | h
    · exact absurd h h0
    · exact .inr (by simpa using h)
    · exact .inl (by push_cast; omega)

theorem LeftJustified.succ {R n j : Nat} {bound : Int} {x : Fp} (h0 : x.m ≠ 0) (hR : R ≠ 0)
    (h : LeftJustified R n bound ⟨x.pos, x.e - 1, x.m * R⟩ j) : LeftJustified R n bound x (j + 1) := by
  have hmul : x.m * R * R ^ j = x.m * R ^ (j + 1) := by rw [mul_assoc, ← pow_succ']
  obtain ⟨hle, hlt, hstop⟩ := h
  rw [if_neg (Nat.mul_ne_zero h0 hR)] at hstop
  dsimp only at hle hlt hstop
  rw [hmul] at hlt hstop
  refine ⟨by push_cast; omega, hlt, ?_⟩
  rw [if_neg h0]
  exact hstop.imp_left fun h => by push_cast; omega

/-- The number of larger exponent is shifted left until it is normalized or the exponents are equal; a zero is not. -/
theorem shiftUp_shifts {R n : Nat} (hR : R ≠ 0) (hn : 1 ≤ n) (k : Nat) {bound : Int} {x : Fp} (hb : bound ≤ x.e) (hlt : x.m < R ^ n)
    (hk : x.m ≠ 0 → R ^ (n - 1) ≤ x.m * R ^ k) :
    ∃ j : Nat, shiftUp R (R ^ (n - 1)) bound k x = ⟨x.pos, x.e - j, x.m * R ^ j⟩ ∧ LeftJustified R n bound x j := by
  induction k generalizing x with
  | zero =>
    refine ⟨0, by simp [shiftUp], leftJustified_zero hb hlt ?_⟩
    by_cases h0 : x.m = 0
    · exact .inl h0
    · exact .inr (.inl (by simpa using hk h0))
  | succ k ih =>
    unfold shiftUp
    split
    · next hstop => exact ⟨0, by simp, leftJustified_zero hb hlt hstop⟩
    · next hgo =>
      obtain ⟨h0, htop, hbound⟩ : x.m ≠ 0 ∧ x.m < R ^ (n - 1) ∧ bound < x.e := by
        rwa [not_or, not_or, Nat.not_le, Int.not_le] at hgo
      obtain ⟨j, hj, hjust⟩ := ih (x := ⟨x.pos, x.e - 1, x.m * R⟩) (by dsimp only; omega) (mul_lt_of_lt_top hR hn htop)
        fun _ => by rw [mul_assoc, ← pow_succ']; exact hk h0
      exact ⟨j + 1, hj.trans (shifted_succ R x j).symm, hjust.succ h0 hR⟩

/-- A sum `S` of two mantissas of `n` digits and exponent `E` as a number: the digit that mantissa overflow shifts out is lost (R530 stage 3). -/
def Fp.ofSum (R n : Nat) (E S : Int) : Fp :=
  if R ^ n ≤ S.natAbs then ⟨decide (0 ≤ S), E + 1, S.natAbs / R⟩ else ⟨decide (0 ≤ S), E, S.natAbs⟩

/-- Two mantissas aligned at the exponent `E` and added. -/
def Fp.alignedSum (R : Nat) (x y : Fp) (E : Int) : Int :=
  x.signed (x.m / R ^ (E - x.e).toNat) + y.signed (y.m / R ^ (E - y.e).toNat)

theorem addMantissas_eq (R n : Nat) (x y : Fp) :
    addMantissas R n x y = Fp.ofSum R n (max x.e y.e) (Fp.alignedSum R x y (max x.e y.e)) := rfl

theorem addMantissas_comm (R n : Nat) (x y : Fp) : addMantissas R n x y = addMantissas R n y x := by
  rw [addMantissas_eq, addMantissas_eq, max_comm, Fp.alignedSum, Fp.alignedSum, add_comm]

theorem natAbs_signed (x : Fp) (m : Nat) : (x.signed m).natAbs = m := natAbs_withSign x.pos m

/-- Two mantissas of `n` digits leave at most one digit more. -/
theorem natAbs_signed_add {R n : Nat} {x y : Fp} {p q : Nat} (hp : p < R ^ n) (hq : q < R ^ n) :
    (x.signed p + y.signed q).natAbs < 2 * R ^ n := by
  have h := Int.natAbs_add_le (x.signed p) (y.signed q)
  rw [natAbs_signed, natAbs_signed] at h
  omega

/-- The first three stages of an addition whose first number has the larger exponent. -/
theorem aligned_of_le {R n : Nat} (hR : 2 ≤ R) (hn : 1 ≤ n) {x y : Fp} (hle : y.e ≤ x.e) (hx : x.m < R ^ n) (hy : y.m < R ^ n) :
    ∃ (j : Nat) (E S : Int), LeftJustified R n y.e x j ∧ E = x.e - j ∧ S = x.signed (x.m * R ^ j) + y.signed (y.m / R ^ (E - y.e).toNat) ∧
      S.natAbs < 2 * R ^ n ∧
      addMantissas R n (shiftUp R (R ^ (n - 1)) y.e n x) (shiftUp R (R ^ (n - 1)) x.e n y) = Fp.ofSum R n E S := by
  have hfuel : x.m ≠ 0 → R ^ (n - 1) ≤ x.m * R ^ n := fun h0 =>
    (Nat.pow_le_pow_right (by omega) (by omega)).trans (Nat.le_mul_of_pos_left _ (by omega))
  obtain ⟨j, hj, hjust⟩ := shiftUp_shifts (by omega) hn n hle hx hfuel
  refine ⟨j, _, _, hjust, rfl, rfl, natAbs_signed_add hjust.lt (Nat.lt_of_le_of_lt (Nat.div_le_self _ _) hy), ?_⟩
  have hmax : max (x.e - j) y.e = x.e - j := max_eq_left (by have := hjust.le; omega)
  rw [hj, shiftUp_still hle, addMantissas_eq]
  dsimp only
  rw [hmax, Fp.alignedSum, sub_self, Int.toNat_zero, pow_zero, Nat.div_one]
  rfl

/-- The numbers that a normalized addition adds (R530). -/
theorem addNormalized_aligned {R n : Nat} (hR : 2 ≤ R) (hn : 1 ≤ n) {x y : Fp} (hx : x.zeroed.m < R ^ n) (hy : y.zeroed.m < R ^ n) :
    ∃ E S, Fp.Aligned R n x.zeroed y.zeroed E S ∧ S.natAbs < 2 * R ^ n ∧
      addNormalized R n x y =
        if (Fp.ofSum R n E S).m = 0 then ⟨true, 0, 0⟩ else normalize R n n (Fp.ofSum R n E S) := by
  unfold addNormalized
  dsimp only
  rcases le_total y.zeroed.e x.zeroed.e with hle | hle
  · obtain ⟨j, E, S, hj, hE, hS, hlt, hsum⟩ := aligned_of_le hR hn hle hx hy
    exact ⟨E, S, ⟨_, _, j, .inl ⟨rfl, rfl⟩, hle, hj.le, hj.lt, hj.stop, hE, hS⟩, hlt, by rw [hsum]⟩
  · obtain ⟨j, E, S, hj, hE, hS, hlt, hsum⟩ := aligned_of_le hR hn hle hy hx
    exact ⟨E, S, ⟨_, _, j, .inr ⟨rfl, rfl⟩, hle, hj.le, hj.lt, hj.stop, hE, hS⟩, hlt, by rw [addMantissas_comm, hsum]⟩

/-! ### What a sum leaves (R530 stage 3) -/

theorem zeroed_lt {R n : Nat} (hR : 2 ≤ R) {x : Fp} (h : x.m < R ^ n) : x.zeroed.m < R ^ n := by
  unfold Fp.zeroed
  split
  · exact Nat.pow_pos (by omega)
  · exact h

section
variable {R n : Nat} {S : Int}

theorem ofSum_m (E : Int) : (Fp.ofSum R n E S).m = if S.natAbs < R ^ n then S.natAbs else S.natAbs / R := by
  unfold Fp.ofSum
  by_cases h : R ^ n ≤ S.natAbs
  · rw [if_pos h, if_neg (by omega)]
  · rw [if_neg h, if_pos (by omega)]

theorem ofSum_e (E : Int) : (Fp.ofSum R n E S).e = if S.natAbs < R ^ n then E else E + 1 := by
  unfold Fp.ofSum
  by_cases h : R ^ n ≤ S.natAbs
  · rw [if_pos h, if_neg (by omega)]
  · rw [if_neg h, if_pos (by omega)]

theorem ofSum_m_eq_zero_iff (hR : 2 ≤ R) (hn : 1 ≤ n) (E : Int) : (Fp.ofSum R n E S).m = 0 ↔ S = 0 := by
  rw [ofSum_m]
  split
  · exact Int.natAbs_eq_zero
  · next h =>
    have hself : R ≤ R ^ n := Nat.le_self_pow (by omega) R
    have hle : R ≤ S.natAbs := by omega
    have hpos := Nat.div_pos hle (by omega)
    exact ⟨fun h0 => by omega, fun h0 => by rw [h0, Int.natAbs_zero] at hle; omega⟩

theorem ofSum_lt (hR : 2 ≤ R) (hlt : S.natAbs < 2 * R ^ n) (E : Int) : (Fp.ofSum R n E S).m < R ^ n := by
  rw [ofSum_m]
  split
  · assumption
  · rw [Nat.div_lt_iff_lt_mul (by omega)]
    calc S.natAbs < 2 * R ^ n := hlt
      _ ≤ R ^ n * R := by rw [mul_comm]; exact Nat.mul_le_mul_left _ hR

theorem ofSum_pos (E : Int) : (Fp.ofSum R n E S).pos = decide (0 ≤ S) := by
  unfold Fp.ofSum
  split <;> rfl

/-- The value of a sum: what is kept of it, in units of its exponent. -/
theorem value_ofSum (hR : 2 ≤ R) (h0 : S ≠ 0) (E : Int) :
    (Fp.ofSum R n E S).value R n = (S.sign : Rat) * (kept R n S : Rat) * (R : Rat) ^ (E - 64 - n) := by
  have hR' : R ≠ 0 := by omega
  have hsign (m : Nat) : withSign (decide (0 ≤ S)) m = S.sign * m := by
    rcases Int.lt_or_gt_of_ne h0 with h | h
    · rw [decide_eq_false (by omega), Int.sign_eq_neg_one_of_neg h]; simp [withSign]
    · rw [decide_eq_true (by omega), Int.sign_eq_one_of_pos h]; simp [withSign]
  unfold Fp.ofSum kept
  by_cases h : R ^ n ≤ S.natAbs
  · have hshift := value_shift hR' n (decide (0 ≤ S)) (E + 1) (S.natAbs / R) 1
    rw [pow_one, Nat.cast_one, add_sub_cancel_right] at hshift
    rw [if_pos h, if_neg (by omega), ← hshift, Fp.value_mk, hsign, Int.cast_mul, Int.cast_natCast]
  · rw [if_neg h, if_pos (by omega), Fp.value_mk, hsign, Int.cast_mul, Int.cast_natCast]

end

/-! ### The operations (R530 to R532) -/

/-- A normalized sum that is not zero, of `n` digits: its value is what is kept of the sum, its first digit is not zero. -/
theorem addNormalized_values {R n : Nat} (hR : 2 ≤ R) (hn : 1 ≤ n) {x y : Fp} (hx : x.m < R ^ n) (hy : y.m < R ^ n) :
    ∃ E S, Fp.Aligned R n x.zeroed y.zeroed E S ∧ (S = 0 → addNormalized R n x y = ⟨true, 0, 0⟩) ∧
      (S ≠ 0 → ∃ e m, addNormalized R n x y = ⟨decide (0 < S), e, m⟩ ∧ R ^ (n - 1) ≤ m ∧ m < R ^ n ∧
        Fp.value R n ⟨decide (0 < S), e, m⟩ = (S.sign : Rat) * (kept R n S : Rat) * (R : Rat) ^ (E - 64 - n)) := by
  obtain ⟨E, S, hal, hlt, hsum⟩ := addNormalized_aligned hR hn (zeroed_lt hR hx) (zeroed_lt hR hy)
  refine ⟨E, S, hal, fun h0 => ?_, fun h0 => ?_⟩
  · rw [hsum, if_pos ((ofSum_m_eq_zero_iff hR hn E).mpr h0)]
  · have hm : (Fp.ofSum R n E S).m ≠ 0 := fun h => h0 ((ofSum_m_eq_zero_iff hR hn E).mp h)
    obtain ⟨j, hj, hlow, hhigh⟩ := normalize_normal hR hn hm (ofSum_lt hR hlt E)
    have hpos : (Fp.ofSum R n E S).pos = decide (0 < S) := by
      rw [ofSum_pos, decide_eq_decide]; omega
    rw [hsum, if_neg hm, hj, ← hpos]
    refine ⟨_, _, rfl, hlow, hhigh, ?_⟩
    rw [value_shift (by omega)]
    exact value_ofSum hR h0 E

/-- FBA, FBS, FDA, FDS (R530). -/
theorem floatAdd_values {dec sub : Bool} {free : Word} {a b : Fp} (ha : a.m < radix dec ^ 10) (hb : b.m < radix dec ^ 10) :
    ∃ E S, Fp.Aligned (radix dec) 10 a.zeroed (b.negateIf sub).zeroed E S ∧
      (S = 0 → floatAdd dec sub free a b = ⟨normalZero, free, 0, 0⟩) ∧
      (S ≠ 0 → ∃ e m, floatAdd dec sub free a b = ⟨fpWord (decide (0 < S)) e (digitsOut dec 10 m), free, e, 0⟩ ∧
        radix dec ^ 9 ≤ m ∧ m < radix dec ^ 10 ∧
        Fp.value (radix dec) 10 ⟨decide (0 < S), e, m⟩ =
          (S.sign : Rat) * (kept (radix dec) 10 S : Rat) * (radix dec : Rat) ^ (E - 74)) := by
  obtain ⟨E, S, hal, hzero, hval⟩ := addNormalized_values (two_le_radix dec) (n := 10) (by decide) ha (y := b.negateIf sub) hb
  refine ⟨E, S, hal, fun h0 => ?_, fun h0 => ?_⟩
  · unfold floatAdd
    rw [hzero h0]; rfl
  · obtain ⟨e, m, hsum, hlow, hhigh, hv⟩ := hval h0
    have hm : m ≠ 0 := by
      have := Nat.pow_pos (n := 10 - 1) (Nat.lt_of_lt_of_le Nat.two_pos (two_le_radix dec)); omega
    refine ⟨e, m, ?_, hlow, hhigh, hv.trans ?_⟩
    · unfold floatAdd
      dsimp only
      rw [hsum, if_neg hm]
    · rw [show E - 64 - ((10 : Nat) : Int) = E - 74 by push_cast; ring]

/-- FBAE, FBSE (R530): twenty digits in two words. -/
theorem floatAddExtended_values {sub : Bool} {a b : Fp} (ha : a.m < 16 ^ 10) (hb : b.m < 16 ^ 10) :
    ∃ E S, Fp.Aligned 16 20 (Fp.zeroed ⟨a.pos, a.e, a.m * 16 ^ 10⟩) (Fp.zeroed (Fp.negateIf ⟨b.pos, b.e, b.m * 16 ^ 10⟩ sub)) E S ∧
      (S = 0 → floatAddExtended sub a b = .zero) ∧
      (S ≠ 0 → ∃ e m, floatAddExtended sub a b =
          ⟨fpWord (decide (0 < S)) e (m / 16 ^ 10), fpWord (decide (0 < S)) (e - 10) (m % 16 ^ 10), e, e - 10⟩ ∧
        16 ^ 19 ≤ m ∧ m < 16 ^ 20 ∧
        Fp.value 16 20 ⟨decide (0 < S), e, m⟩ = (S.sign : Rat) * (kept 16 20 S : Rat) * (16 : Rat) ^ (E - 84)) := by
  obtain ⟨E, S, hal, hzero, hval⟩ := addNormalized_values (R := 16) (n := 20) (by decide) (by decide) (x := ⟨a.pos, a.e, a.m * 16 ^ 10⟩)
    (by dsimp only; omega) (y := Fp.negateIf ⟨b.pos, b.e, b.m * 16 ^ 10⟩ sub) (by unfold Fp.negateIf; dsimp only; omega)
  refine ⟨E, S, hal, fun h0 => ?_, fun h0 => ?_⟩
  · unfold floatAddExtended
    rw [hzero h0]; rfl
  · obtain ⟨e, m, hsum, hlow, hhigh, hv⟩ := hval h0
    have hm : m ≠ 0 := by omega
    refine ⟨e, m, ?_, hlow, hhigh, hv.trans ?_⟩
    · unfold floatAddExtended
      dsimp only
      rw [hsum, if_neg hm]
    · rw [show E - 64 - ((20 : Nat) : Int) = E - 84 by push_cast; ring]; rfl

/-- FBM, FDM (R532): the exact product, normalized. -/
theorem floatMultiply_values {dec : Bool} {a b : Fp} (ha : a.m < radix dec ^ 10) (hb : b.m < radix dec ^ 10) (ha0 : a.m ≠ 0)
    (hb0 : b.m ≠ 0) :
    ∃ e m, floatMultiply dec a b = ⟨fpWord (a.pos == b.pos) e (digitsOut dec 10 (m / radix dec ^ 10)),
        fpWord (a.pos == b.pos) (e - 10) (digitsOut dec 10 (m % radix dec ^ 10)), e, e - 10⟩ ∧
      radix dec ^ 19 ≤ m ∧ m < radix dec ^ 20 ∧
      Fp.value (radix dec) 20 ⟨a.pos == b.pos, e, m⟩ = a.value (radix dec) 10 * b.value (radix dec) 10 := by
  have hR := two_le_radix dec
  have hlt : a.m * b.m < radix dec ^ 20 := (Nat.mul_lt_mul'' ha hb).trans_eq (by rw [← pow_add])
  obtain ⟨j, hj, hlow, hhigh⟩ := normalize_normal hR (n := 20) (by decide) (x := ⟨a.pos == b.pos, a.e + b.e - 64, a.m * b.m⟩)
    (Nat.mul_ne_zero ha0 hb0) hlt
  dsimp only at hj hlow hhigh
  refine ⟨a.e + b.e - 64 - j, a.m * b.m * radix dec ^ j, ?_, hlow, hhigh, ?_⟩
  · unfold floatMultiply
    dsimp only
    rw [if_neg (by rintro (h | h) <;> contradiction), hj]
  · rw [value_shift (by omega), value_product (by omega)]

/-- FBAU, FBSU, FDAU, FDSU (R531): the sum of the mantissas aligned at the larger exponent, not normalized. -/
theorem floatAddPlain_values {dec sub z : Bool} {free : Word} {a b : Fp} (ha : a.m < radix dec ^ 10) (hb : b.m < radix dec ^ 10) {E S : Int}
    (hE : E = max a.e b.e)
    (hS : S = a.signed (a.m / radix dec ^ (E - a.e).toNat) + (b.negateIf sub).signed (b.m / radix dec ^ (E - b.e).toNat)) :
    floatAddPlain dec sub free z a b =
        ⟨fpWord (if S = 0 then z else decide (0 < S)) (Fp.ofSum (radix dec) 10 E S).e (digitsOut dec 10 (Fp.ofSum (radix dec) 10 E S).m), free,
          (Fp.ofSum (radix dec) 10 E S).e, 0⟩ ∧
      S.natAbs < 2 * radix dec ^ 10 := by
  have hR := two_le_radix dec
  have hsum : addMantissas (radix dec) 10 a (b.negateIf sub) = Fp.ofSum (radix dec) 10 E S := by rw [hS, hE]; rfl
  refine ⟨?_, ?_⟩
  · unfold floatAddPlain
    dsimp only
    rw [hsum, ofSum_pos]
    congr 2
    by_cases h0 : S = 0
    · rw [if_pos h0, if_pos ((ofSum_m_eq_zero_iff hR (by decide) E).mpr h0)]
    · rw [if_neg h0, if_neg fun h => h0 ((ofSum_m_eq_zero_iff hR (by decide) E).mp h), decide_eq_decide]; omega
  · rw [hS]
    exact natAbs_signed_add (Nat.lt_of_le_of_lt (Nat.div_le_self _ _) ha) (Nat.lt_of_le_of_lt (Nat.div_le_self _ _) hb)

/-- The high half of twenty digits whose first is not zero. -/
theorem half_of_normalized {R m : Nat} (hR : 2 ≤ R) (hlow : R ^ 19 ≤ m) (hhigh : m < R ^ 20) :
    R ^ 9 ≤ m / R ^ 10 ∧ m / R ^ 10 < R ^ 10 ∧ m % R ^ 10 < R ^ 10 := by
  have hpos : 0 < R ^ 10 := Nat.pow_pos (by omega)
  exact ⟨(Nat.le_div_iff_mul_le hpos).mpr (by rwa [← pow_add]), (Nat.div_lt_iff_lt_mul hpos).mpr (by rwa [← pow_add]), Nat.mod_lt _ hpos⟩

end Sys2Proof.Machine
end

section
/-! PROOFS. What the floating-point additions, subtractions and multiplications compute. -/
namespace Sys2Proof.Settled
open Sys2Proof.Machine

/-- Settles O44: each operation is its own lemma above; what is left is to read the numbers back from the words. -/
theorem floatValues : Obligations.FloatValues := by
  rintro dec sub z free a b R rfl ha hb
  have hR := two_le_radix dec
  refine ⟨?_, ?_, ?_, ?_⟩
  · rintro r rfl
    obtain ⟨E, S, hal, hzero, hval⟩ := floatAdd_values (sub := sub) (free := free) ha hb
    by_cases h0 : S = 0
    · rw [hzero h0]
      exact ⟨E, S, hal, rfl, fun _ => ⟨rfl, rfl⟩, fun h => absurd h0 h⟩
    · obtain ⟨e, m, hr, hlow, hhigh, hv⟩ := hval h0
      rw [hr]
      dsimp only
      rw [fpOf_fpWord hhigh]
      exact ⟨E, S, hal, rfl, fun h => absurd h h0, fun _ => ⟨hv, hlow, hasSignExponent_fpWord _ _ _⟩⟩
  · rintro rfl r rfl
    obtain ⟨E, S, hal, hzero, hval⟩ := floatAddExtended_values (sub := sub) ha hb
    by_cases h0 : S = 0
    · exact ⟨E, S, hal, hzero, fun h => absurd h0 h⟩
    · obtain ⟨e, m, hr, hlow, hhigh, hv⟩ := hval h0
      obtain ⟨hfirst, hhi, hlo⟩ := half_of_normalized (by decide) hlow hhigh
      have hflac := fpOf_fpWord (dec := false) hhi (decide (0 < S)) e e
      have hflop := fpOf_fpWord (dec := false) hlo (decide (0 < S)) (e - 10) (e - 10)
      rw [hr]
      refine ⟨E, S, hal, fun h => absurd h h0, fun _ => ⟨?_, ?_, rfl, hasSignExponent_fpWord _ _ _, hasSignExponent_fpWord _ _ _⟩⟩
      · exact (congrArg₂ (fun x y => Fp.value 16 10 x + Fp.value 16 10 y) hflac hflop).trans
          ((value_halves (by decide) _ _ _).trans hv)
      · exact hfirst.trans_eq (congrArg Fp.m hflac).symm
  · intro r E S hr hE hS
    obtain ⟨hplain, hlt⟩ := floatAddPlain_values (z := z) (free := free) ha hb hE hS
    rw [hr, hplain]
    dsimp only
    rw [fpOf_fpWord (ofSum_lt hR hlt E)]
    exact ⟨rfl, ofSum_e E, ofSum_m E, hasSignExponent_fpWord _ _ _⟩
  · rintro r rfl
    refine ⟨fun h => if_pos h, fun ha0 hb0 => ?_⟩
    obtain ⟨e, m, hr, hlow, hhigh, hv⟩ := floatMultiply_values ha hb ha0 hb0
    obtain ⟨hfirst, hhi, hlo⟩ := half_of_normalized hR hlow hhigh
    rw [hr]
    dsimp only
    rw [fpOf_fpWord hhi, fpOf_fpWord hlo]
    exact ⟨(value_halves (by omega) _ _ _).trans hv, hfirst, rfl, hasSignExponent_fpWord _ _ _, hasSignExponent_fpWord _ _ _⟩

end Sys2Proof.Settled
end

section
/-! SUPPORT. A scientific instruction as a whole (R523, R524, R687): its operands, the result delivered and what that leaves, its ordinary end and
its unprogrammed transfer. -/
namespace Sys2Proof.Machine

/-! ### Claiming the unit (R687) -/

/-- What claiming the unit leaves but the floating registers and the count of free values. -/
theorem claimed_eq (s : State) : ∃ a b c d e f g h n, s.claimed =
    { s with flac := a, flop := b, flacOvf := c, flacUnf := d, flopOvf := e, flopUnf := f, flacFixed := g, fpuGroup := h, free := n } := by
  unfold State.claimed
  split
  · exact ⟨_, _, _, _, _, _, _, _, _, rfl⟩
  · exact ⟨s.flac, s.flop, s.flacOvf, s.flacUnf, s.flopOvf, s.flopUnf, s.flacFixed, s.fpuGroup, s.free, rfl⟩

@[simp] theorem cur_claimed (s : State) : s.claimed.cur = s.cur := by
  obtain ⟨_, _, _, _, _, _, _, _, _, e⟩ := claimed_eq s
  rw [e]; rfl

theorem reg_claimed (s : State) (g : BitVec 3) (i : BitVec 5) : s.claimed.reg g i = s.reg g i := by
  obtain ⟨_, _, _, _, _, _, _, _, _, e⟩ := claimed_eq s
  rw [e]; rfl

theorem named_claimed (s : State) (x : Group) (d : Bool) : s.claimed.named x d = s.named x d :=
  named_of (cur_claimed s) fun i => reg_claimed s s.cur i

theorem FloatPasses.cur {s t : State} {r : List (BitVec 3 × BitVec 5)} {w : List Nat} (h : FloatPasses s t r w) : t.cur = s.cur := by
  unfold State.cur
  rw [h.pcr]

/-! ### The operands (R523) -/

theorem undesignated_of_floatOperand {x : Group} {d : Bool} {a : FpOperand} {s t : State} (h : floatOperand x d s = .ok (a, t)) :
    x = inactiveGroup → d = false := by
  unfold floatOperand at h
  rw [Op.bind_run] at h
  split at h
  · next e => exact undesignated_of_isInactive e
  · cases h

/-- An operand is `FLAC` just where its address is inactive. -/
theorem floatOperand_flac {x : Group} {d : Bool} {a : FpOperand} {s t : State} (h : floatOperand x d s = .ok (a, t)) :
    a.flac = decide (x = inactiveGroup) := by
  unfold floatOperand at h
  rw [Op.bind_ok (isInactive_decided (undesignated_of_floatOperand h) s)] at h
  by_cases hx : x = inactiveGroup
  · rw [decide_eq_true hx, if_pos rfl] at h
    cases h
    exact (decide_eq_true hx).symm
  · rw [decide_eq_false hx, if_neg (by decide), Op.bind_run] at h
    split at h
    · cases h
      exact (decide_eq_false hx).symm
    · cases h

theorem undesignated_of_floatDelivered {x u : State} {c : Group} {d : Bool} {w : Word} {words : List Nat}
    (h : x.floatDelivered c d w u words) : c = inactiveGroup → d = false := by
  rcases h with ⟨-, hd, -⟩ | ⟨hc, -⟩
  · exact fun _ => hd
  · exact fun e => absurd e hc

section
variable {f : Gen} {s s1 s2 u : State} {a b : FpOperand} {words : List Nat}

/-- Both operands read leave memory, and what they do not name. -/
theorem floatOperands_pass (hq : s.env = []) (ha : floatOperand f.a f.dA s.begun = .ok (a, s1)) (hb : floatOperand f.b f.dB s1 = .ok (b, s2)) :
    FloatPasses s s2 (s.named f.a f.dA ++ s1.named f.b f.dB) [] ∧ s2.mem = s.mem := by
  obtain ⟨pa, ma⟩ := floatOperand_passes (s := s.begun) hq ha
  obtain ⟨pb, mb⟩ := floatOperand_passes (pa.env.trans hq) hb
  exact ⟨((FloatPasses.of_passes (passes_begun s)).trans pa).trans pb, mb.trans ma⟩

theorem optionGate_operands {m : Op Unit} (hf : s.cfg.fpu = true) (hc : f.c = inactiveGroup → f.dC = false)
    (ha : floatOperand f.a f.dA s.begun = .ok (a, s1)) (hb : floatOperand f.b f.dB s1 = .ok (b, s2)) : optionGate f m s = m s.begun :=
  optionGate_run hf (designated_of (undesignated_of_floatOperand ha) (undesignated_of_floatOperand hb) hc)

/-! ### The result (R524 to R528) -/

/-- A result in the floating registers and at C: `stores` says whether C is active, which leaves `FLOP` a free value. -/
structure FloatLeft (t : State) (fixed stores : Bool) (r : FpOut) (ovf unf : Bool) (words : List Nat) : Prop where
  flac : t.flac = r.flac
  flop : stores = false → t.flop = r.flop
  flacOvf : t.flacOvf = ovf
  flacUnf : t.flacUnf = unf
  flopOvf : t.flopOvf = decide (127 < r.low)
  flopUnf : t.flopUnf = decide (r.low < 0)
  flacFixed : t.flacFixed = fixed
  holds : ∀ n, n ∈ words → t.holds (.mem n) (MWord.good r.flac)

/-- The end of the instruction leaves the result. -/
theorem FloatLeft.ended {t : State} {fixed stores ovf unf : Bool} {r : FpOut} (h : FloatLeft t fixed stores r ovf unf words)
    (seq hunt : Bool) : FloatLeft (t.ended seq hunt) fixed stores r ovf unf words :=
  ⟨h.flac, h.flop, h.flacOvf, h.flacUnf, h.flopOvf, h.flopUnf, h.flacFixed, fun n hn => holds_ended (h.holds n hn) seq hunt⟩

/-- What the delivery of a result leaves, the unit being claimed in `x`. -/
theorem floatDelivered_left {x : State} {R : List (BitVec 3 × BitVec 5)} {fixed stores ovf unf : Bool} {r : FpOut}
    (hp : FloatPasses s x R []) (hw : x.mem.wf = true)
    (hd : (x.claimed.floated fixed stores r ovf unf).noAc.floatDelivered f.c f.dC r.flac u words) :
    FloatPasses s u (R ++ x.named f.c f.dC) words ∧ u.fpuGroup = some s.cur ∧ FloatLeft u fixed stores r ovf unf words := by
  have hmem := (floatPasses_claimed x).2
  obtain ⟨pu, h1, h2, h3, h4, h5, h6, h7, h8⟩ := floatDelivered_props hd (by rw [← hmem] at hw; exact hw)
  have pc := (hp.trans (floatPasses_claimed x).1).trans (floatPasses_floated x.claimed fixed stores r ovf unf)
  have hnamed : (x.claimed.floated fixed stores r ovf unf).noAc.named f.c f.dC = x.named f.c f.dC := named_claimed x f.c f.dC
  have pass := pc.trans (.of_passes pu)
  rw [hnamed] at pass
  simp only [List.append_nil, List.nil_append] at pass
  refine ⟨pass, ?_, ⟨h1, fun hs => h2.trans (by rw [hs]; rfl), h3, h4, h6, h7, h5, h8⟩⟩
  have hgroup : u.fpuGroup = some x.claimed.cur := (congrArg State.fpuGroup pu.outside :)
  rw [hgroup, cur_claimed, hp.cur]

/-! ### The ends (R524, R601) -/

variable {i : Instr} {m : Op Unit} {x : State} {R : List (BitVec 3 × BitVec 5)} {uf dv fixed ovf unf bad : Bool} {r : FpOut}
  {k : Option ExpEvent}

/-- The ordinary end: no parity failure, no exponent transfer due. -/
theorem scientific_ends (hrun : exec i s = perform m s) (hm : m s = deliverFloat i f uf dv fixed false r x) (hp : FloatPasses s x R [])
    (hq : s.env = []) (hw : x.mem.wf = true)
    (hk : settle x.claimed.pending uf (f.c != inactiveGroup) dv r.e = (ovf, unf, none))
    (hd : (x.claimed.floated fixed (f.c != inactiveGroup) r ovf unf).noAc.floatDelivered f.c f.dC r.flac u words) :
    exec i s = .next (u.ended f.seq (f.c != inactiveGroup)) ∧
      FloatLeft (u.ended f.seq (f.c != inactiveGroup)) fixed (f.c != inactiveGroup) r ovf unf words ∧
      FloatEnds s (u.ended f.seq (f.c != inactiveGroup)) f.seq (R ++ x.named f.c f.dC) words := by
  obtain ⟨pu, hg, hleft⟩ := floatDelivered_left hp hw hd
  have hdel := deliverFloat_run (i := i) (bad := false) (hp.env.trans hq) hk hd
  exact ⟨hrun.trans (perform_ok (hm.trans hdel)), hleft.ended _ _, pu.ends hg _ _⟩

/-- The table entry of an exponent event (R601). -/
theorem concludeFloat_transferred (hbad : (bad || k.isSome) = true) (hq : u.env = []) (hct : u.canTransfer) (seq stores : Bool) :
    concludeFloat i seq stores bad k u =
      .ok ((), u.transferred (if bad then utParity else if k = some .overflow then utExpOverflow else utUnderflow) i) := by
  cases bad with
  | true => exact unprogrammedTransfer_ready hq hct
  | false =>
    cases k with
    | none => cases hbad
    | some e => cases e <;> exact unprogrammedTransfer_ready hq hct

/-- The end by an unprogrammed transfer, after the store (R524). -/
theorem scientific_transfers (hrun : exec i s = perform m s) (hm : m s = deliverFloat i f uf dv fixed bad r x) (hp : FloatPasses s x R [])
    (hq : s.env = []) (hw : x.mem.wf = true)
    (hk : settle x.claimed.pending uf (f.c != inactiveGroup) dv r.e = (ovf, unf, k))
    (hd : (x.claimed.floated fixed (f.c != inactiveGroup) r ovf unf).noAc.floatDelivered f.c f.dC r.flac u words)
    (hbad : (bad || k.isSome) = true) (hct : u.canTransfer) :
    exec i s = .next (u.transferred (if bad then utParity else if k = some .overflow then utExpOverflow else utUnderflow) i) ∧
      FloatLeft u fixed (f.c != inactiveGroup) r ovf unf words ∧ u.pcr = s.pcr ∧
      Frame s (u.transferred (if bad then utParity else if k = some .overflow then utExpOverflow else utUnderflow) i)
        (R ++ x.named f.c f.dC) (words ++ [(u.reg s.cur utrIx).full + if s.sel = .csc then 1 else 0]) := by
  obtain ⟨pu, hg, hleft⟩ := floatDelivered_left hp hw hd
  have hdel := deliverFloat_run (i := i) (bad := bad) (hp.env.trans hq) hk hd
  rw [concludeFloat_transferred hbad (pu.env.trans hq) hct] at hdel
  have hframe := pu.frame.trans (frame_transferred u (if bad then utParity else if k = some .overflow then utExpOverflow else utUnderflow) i)
  have husel : u.sel = s.sel := (congrArg State.sel pu.outside :)
  rw [pu.cur, husel, List.append_nil] at hframe
  exact ⟨hrun.trans (perform_ok (hm.trans hdel)), hleft, pu.pcr, hframe⟩

end

/-! ### The instructions -/

section
variable {i : Instr} {f : Gen} {s s1 s2 : State} {a b : FpOperand}

/-- An addition, subtraction or multiplication once both operands have been read (R523). -/
theorem floatOp_operands {dec : Bool} {compute : Word → Bool → Fp → Fp → FpOut} (hf : s.cfg.fpu = true)
    (hc : f.c = inactiveGroup → f.dC = false) (ha : floatOperand f.a f.dA s.begun = .ok (a, s1)) (hb : floatOperand f.b f.dB s1 = .ok (b, s2))
    (hok : operandsOk dec a b = true) :
    floatOp i dec compute f s = deliverFloat i f (a.flac || b.flac) false false (a.bad || b.bad)
      (compute (Config.freeWord s2.free) (Config.freeBool (s2.free + 1)) (fpOf dec a.word a.e) (fpOf dec b.word b.e))
      { s2 with free := s2.free + 2 } := by
  unfold floatOp
  rw [optionGate_operands hf hc ha hb, Op.bind_ok ha, Op.bind_ok hb, if_pos hok]
  rfl

/-- More free values taken. -/
theorem FloatPasses.free {R : List (BitVec 3 × BitVec 5)} {w : List Nat} (h : FloatPasses s s2 R w) (n : Nat) :
    FloatPasses s { s2 with free := n } R w := ⟨h.pcr, h.outside, h.frame.regs, h.frame.bytes⟩

end

end Sys2Proof.Machine
end

section
/-! PROOFS. The statements about the floating-point additions, subtractions and multiplications. -/
namespace Sys2Proof.Settled
open Sys2Proof.Machine

/-- Settles O43: the operands are taken as `floatOp_operands` says, and `scientific_ends` delivers the result. -/
theorem floatInstructions : Obligations.FloatInstructions := by
  rintro i dec compute f s s1 s2 u a b r ovf unf words x hrow hq hw hf ha hpa hb hpb hok rfl rfl hk hd
  obtain ⟨hp, hmem⟩ := floatOperands_pass hq ha hb
  have hm := floatOp_operands (i := i) (compute := compute) hf (undesignated_of_floatDelivered hd) ha hb hok
  rw [hpa, hpb] at hm
  obtain ⟨hrun, left, hends⟩ := scientific_ends (float_run hrow) hm (hp.free _) hq (by rw [← hmem] at hw; exact hw) hk hd
  exact ⟨_, hrun, rfl, left.flac, fun hc => left.flop (by simp [hc]), left.flacOvf, left.flacUnf, left.flopOvf, left.flopUnf,
    left.flacFixed, left.holds, fun hc => by rw [hc]; rfl, hends⟩

/-- Settles O45: as O43, and `concludeFloat_transferred` follows the store. -/
theorem floatTransfers : Obligations.FloatTransfers := by
  rintro i dec compute f s s1 s2 u a b r ovf unf k words x hrow hq hw hf ha hb hok rfl rfl hk hbad hd hct
  obtain ⟨hp, hmem⟩ := floatOperands_pass hq ha hb
  have hm := floatOp_operands (i := i) (compute := compute) hf (undesignated_of_floatDelivered hd) ha hb hok
  obtain ⟨hrun, left, hpcr, hframe⟩ := scientific_transfers (float_run hrow) hm (hp.free _) hq (by rw [← hmem] at hw; exact hw) hk hd
    hbad hct
  exact ⟨_, hrun, rfl, left.flac, left.flacOvf, left.flacUnf, hpcr, rfl, hframe⟩

end Sys2Proof.Settled
end

section
/-! SUPPORT. The divisions (R533, R534): quotient and remainder of either kind, the division run within capacity and over it. -/
namespace Sys2Proof.Machine

/-! ### Quotients -/

/-- A number of `n + 1` digits whose first is not zero. -/
theorem digitsIn_top {dec : Bool} {n m : Nat} (hlow : 16 ^ n ≤ m) (hm : m < 16 ^ (n + 1)) (hok : digitsOk dec (n + 1) m = true) :
    radix dec ^ n ≤ digitsIn dec (n + 1) m := by
  cases dec with
  | false => exact hlow
  | true =>
    change 10 ^ n ≤ decimalValue (n + 1) m
    change isDecimal (n + 1) m = true at hok
    induction n generalizing m with
    | zero =>
      rw [decimalValue]
      omega
    | succ n ih =>
      rw [isDecimal, Bool.and_eq_true] at hok
      have hrest := ih (m := m / 16) (by omega) (by omega) hok.2
      rw [decimalValue]
      omega

/-- FBD, FDD (R533): the dividend's mantissa times a power of the radix is the quotient times the divisor's with the remainder, the quotient
normalized where the dividend is. -/
theorem floatDivide_values {dec : Bool} {a b : Fp} (hlow : radix dec ^ 9 ≤ a.m) (ha : a.m < radix dec ^ 10) (hb : b.m < radix dec ^ 10)
    (h0 : b.m ≠ 0) {k : Nat} (hk : k = if b.m < a.m then 10 else 9) :
    ∃ q rem : Nat, floatDivide dec a b = ⟨fpWord (a.pos == b.pos) (b.e - a.e + 74 - k) (digitsOut dec 10 q),
        fpWord b.pos (b.e - k) (digitsOut dec 10 rem), b.e - a.e + 74 - k, b.e - k⟩ ∧
      q * a.m + rem = b.m * radix dec ^ k ∧ rem < a.m ∧ q < radix dec ^ 10 ∧ (radix dec ^ 9 ≤ b.m → radix dec ^ 9 ≤ q) := by
  have hR := two_le_radix dec
  have hpos : 0 < a.m := Nat.lt_of_lt_of_le (Nat.pow_pos (by omega)) hlow
  refine ⟨b.m * radix dec ^ k / a.m, b.m * radix dec ^ k % a.m, ?_, Nat.div_add_mod' _ _, Nat.mod_lt _ hpos, ?_, fun hnorm => ?_⟩
  · unfold floatDivide
    dsimp only
    rw [if_neg h0, ← hk]
  · rw [Nat.div_lt_iff_lt_mul hpos]
    by_cases hlt : b.m < a.m
    · rw [hk, if_pos hlt, mul_comm]
      exact Nat.mul_lt_mul_of_pos_left hlt (Nat.pow_pos (by omega))
    · rw [hk, if_neg hlt]
      calc b.m * radix dec ^ 9 < radix dec ^ 10 * radix dec ^ 9 := Nat.mul_lt_mul_of_pos_right hb (Nat.pow_pos (by omega))
        _ ≤ radix dec ^ 10 * a.m := Nat.mul_le_mul_left _ hlow
  · rw [Nat.le_div_iff_mul_le hpos]
    by_cases hlt : b.m < a.m
    · rw [hk, if_pos hlt]
      exact Nat.mul_le_mul hnorm ha.le
    · rw [hk, if_neg hlt, mul_comm]
      exact Nat.mul_le_mul_right _ (Nat.not_lt.mp hlt)

theorem floatDivide_zero {dec : Bool} {a b : Fp} (h0 : b.m = 0) : floatDivide dec a b = .zero := by
  unfold floatDivide
  dsimp only
  rw [if_pos h0]

/-- The scale of a fixed-point division is one more than the greatest magnitude (R534). -/
theorem fixedScale_eq (dec : Bool) : fixedScale dec = radix dec ^ 11 := by cases dec <;> norm_num [fixedScale, radix]

theorem fixedIn_lt {dec : Bool} {w : Word} (h : digitsOk dec 11 (mag w) = true) : fixedIn dec w < fixedScale dec := by
  rw [fixedScale_eq]
  exact digitsIn_lt ((mag_lt w).trans_eq (by norm_num)) h

/-- A fixed-point word read back. -/
theorem fixedIn_signedWord {dec : Bool} {v : Nat} (h : v < fixedScale dec) (p : Bool) :
    fixedIn dec (signedWord p (digitsOut dec 11 v)) = v := by
  rw [fixedScale_eq] at h
  have hlt : digitsOut dec 11 v < 2 ^ 44 := (digitsOut_lt h).trans_eq (by norm_num)
  rw [fixedIn, mag_signedWord, Nat.mod_eq_of_lt hlt, digitsIn_digitsOut h]

/-- BD, DD (R534): the dividend times the scale is the quotient times the divisor with the remainder. -/
theorem fixedDivide_values {dec : Bool} {a b : Word} (ha : digitsOk dec 11 (mag a) = true) (hlt : fixedIn dec b < fixedIn dec a) :
    fixedIn dec (fixedDivide dec a b).flac * fixedIn dec a + fixedIn dec (fixedDivide dec a b).flop = fixedIn dec b * fixedScale dec ∧
      fixedIn dec (fixedDivide dec a b).flop < fixedIn dec a ∧ posSign (fixedDivide dec a b).flac = (posSign a == posSign b) ∧
      posSign (fixedDivide dec a b).flop = posSign b := by
  have hpos : 0 < fixedIn dec a := by omega
  have hscale : 0 < fixedScale dec := by cases dec <;> decide
  have hquot : fixedIn dec b * fixedScale dec / fixedIn dec a < fixedScale dec := by
    rw [Nat.div_lt_iff_lt_mul hpos, mul_comm]
    exact Nat.mul_lt_mul_of_pos_left hlt hscale
  have hrem := Nat.mod_lt (fixedIn dec b * fixedScale dec) hpos
  unfold fixedDivide
  dsimp only
  rw [fixedIn_signedWord hquot, fixedIn_signedWord (hrem.trans (fixedIn_lt ha)), posSign_signedWord, posSign_signedWord]
  exact ⟨Nat.div_add_mod' _ _, hrem, rfl, rfl⟩

/-! ### The division run -/

section
variable {i : Instr} {fixed dec : Bool} {f : Gen} {s s1 s2 : State} {a b : FpOperand}

theorem divisible_fixed (dec : Bool) (a b : FpOperand) :
    divisible true dec a b = (digitsOk dec 11 (mag a.word) && digitsOk dec 11 (mag b.word)) := rfl

theorem divisible_float (dec : Bool) (a b : FpOperand) : divisible false dec a b = operandsOk dec a b := rfl

theorem tooLarge_fixed_iff (dec : Bool) (a b : FpOperand) :
    tooLarge true dec a b = true ↔ fixedIn dec a.word ≤ fixedIn dec b.word := decide_eq_true_iff

theorem tooLarge_float (dec : Bool) (a b : FpOperand) : tooLarge false dec a b = badDivisor a.word := rfl

theorem quotient_fixed (dec : Bool) (a b : FpOperand) : quotient true dec a b = fixedDivide dec a.word b.word := by
  unfold quotient
  rw [if_pos rfl]

theorem quotient_float (dec : Bool) (a b : FpOperand) :
    quotient false dec a b = floatDivide dec (fpOf dec a.word a.e) (fpOf dec b.word b.e) := by
  unfold quotient
  rw [if_neg (by decide)]

/-- A division of either kind. -/
def divideOp (i : Instr) (fixed dec : Bool) (f : Gen) : Op Unit := if fixed then fixedDivideOp i dec f else floatDivideOp i dec f

theorem divide_run (h : divideRow i = some (fixed, dec, f)) : exec i s = perform (divideOp i fixed dec f) s := by
  cases i <;> simp only [divideRow, Option.some.injEq, Prod.mk.injEq, reduceCtorEq] at h <;> (obtain ⟨rfl, rfl, rfl⟩ := h; rfl)

/-- Within capacity the quotient is delivered. -/
theorem divideOp_within (hf : s.cfg.fpu = true) (hc : f.c = inactiveGroup → f.dC = false)
    (ha : floatOperand f.a f.dA s.begun = .ok (a, s1)) (hb : floatOperand f.b f.dB s1 = .ok (b, s2))
    (hdiv : divisible fixed dec a b = true) (hcap : tooLarge fixed dec a b = false) :
    divideOp i fixed dec f s = deliverFloat i f (a.flac || b.flac) true fixed (a.bad || b.bad) (quotient fixed dec a b) s2 := by
  rw [← Bool.not_eq_true] at hcap
  cases fixed with
  | true =>
    rw [tooLarge_fixed_iff] at hcap
    rw [divisible_fixed] at hdiv
    change fixedDivideOp i dec f s = _
    unfold fixedDivideOp
    rw [optionGate_operands hf hc ha hb, Op.bind_ok ha, Op.bind_ok hb, if_pos hdiv, if_neg hcap, quotient_fixed]
  | false =>
    rw [tooLarge_float] at hcap
    rw [divisible_float] at hdiv
    change floatDivideOp i dec f s = _
    unfold floatDivideOp
    rw [optionGate_operands hf hc ha hb, Op.bind_ok ha, Op.bind_ok hb, if_neg hcap, if_pos hdiv, quotient_float]

/-- Over it the instruction is not performed. -/
theorem divideOp_over (hf : s.cfg.fpu = true) (hc : f.c = inactiveGroup → f.dC = false)
    (ha : floatOperand f.a f.dA s.begun = .ok (a, s1)) (hb : floatOperand f.b f.dB s1 = .ok (b, s2))
    (hdiv : fixed = true → divisible fixed dec a b = true) (hcap : tooLarge fixed dec a b = true) :
    divideOp i fixed dec f s = overcapacity i (a.bad || b.bad) s2 := by
  cases fixed with
  | true =>
    rw [tooLarge_fixed_iff] at hcap
    have hdigits := (divisible_fixed dec a b).symm.trans (hdiv rfl)
    change fixedDivideOp i dec f s = _
    unfold fixedDivideOp
    rw [optionGate_operands hf hc ha hb, Op.bind_ok ha, Op.bind_ok hb, if_pos hdigits, if_pos hcap]
  | false =>
    rw [tooLarge_float] at hcap
    change floatDivideOp i dec f s = _
    unfold floatDivideOp
    rw [optionGate_operands hf hc ha hb, Op.bind_ok ha, Op.bind_ok hb, if_pos hcap]

end

/-! ### Overcapacity (R533, R534) -/

theorem floatPasses_overcapacity (s : State) : FloatPasses s s.claimed.unfloated.noAc [] [] :=
  (floatPasses_claimed s).1.trans (⟨rfl, rfl, Frame.same rfl rfl⟩ : FloatPasses s.claimed s.claimed.unfloated.noAc [] [])

theorem canTransfer_overcapacity {s : State} (h : s.canTransfer) : s.claimed.unfloated.noAc.canTransfer := by
  obtain ⟨_, _, _, _, _, _, _, _, _, e⟩ := claimed_eq s
  rw [e]
  exact h

theorem overcapacity_run {s : State} (hq : s.env = []) (hct : s.canTransfer) (i : Instr) (bad : Bool) :
    overcapacity i bad s = .ok ((), s.claimed.unfloated.noAc.transferred (if bad then utParity else utDivide) i) :=
  unprogrammedTransfer_ready ((floatPasses_overcapacity s).env.trans hq) (canTransfer_overcapacity hct)

end Sys2Proof.Machine
end

section
/-! PROOFS. The statements about the divisions. -/
namespace Sys2Proof.Settled
open Sys2Proof.Machine

/-- Settles O46: `divideOp_within` runs the division, and the two lemmas on quotients say what it computes. -/
theorem divideInstructions : Obligations.DivideInstructions := by
  rintro i fixed dec f s s1 s2 u a b r ovf unf words hrow hq hw hf ha hpa hb hpb hdiv hcap rfl hk hd
  obtain ⟨hp, hmem⟩ := floatOperands_pass hq ha hb
  have hm := divideOp_within (i := i) hf (undesignated_of_floatDelivered hd) ha hb hdiv hcap
  rw [hpa, hpb] at hm
  obtain ⟨hrun, left, hends⟩ := scientific_ends (divide_run hrow) hm hp hq (by rw [← hmem] at hw; exact hw) hk hd
  refine ⟨⟨_, hrun, rfl, left.flac, fun hc => left.flop (by simp [hc]), left.flacFixed, left.holds, fun hc => by rw [hc]; rfl, hends⟩, ?_, ?_⟩
  · rintro rfl A B k rfl rfl hkk
    obtain ⟨hoka, hokb⟩ : digitsOk dec 10 (mantissa a.word) = true ∧ digitsOk dec 10 (mantissa b.word) = true := Bool.and_eq_true_iff.mp hdiv
    have hlow : 16 ^ 9 ≤ mantissa a.word := Nat.not_lt.mp (of_decide_eq_false hcap)
    have hlt (w : Word) : mantissa w < 16 ^ 10 := (mantissa_lt w).trans_eq (by norm_num)
    rw [quotient_float]
    refine ⟨floatDivide_zero, fun h0 => ?_⟩
    obtain ⟨q, rem, hr, hval, hrem, hq10, hnorm⟩ := floatDivide_values (a := fpOf dec a.word a.e) (b := fpOf dec b.word b.e)
      (digitsIn_top hlow (hlt _) hoka) (digitsIn_lt (hlt _) hoka) (digitsIn_lt (hlt _) hokb) h0 hkk
    have hrem10 := hrem.trans (digitsIn_lt (hlt _) hoka)
    rw [hr]
    dsimp only
    rw [fpOf_fpWord hq10, fpOf_fpWord hrem10]
    exact ⟨hval, hrem, hnorm, rfl, rfl, hasSignExponent_fpWord _ _ _, hasSignExponent_fpWord _ _ _⟩
  · rintro rfl
    rw [quotient_fixed]
    exact fixedDivide_values (Bool.and_eq_true_iff.mp hdiv).1 (Nat.not_le.mp (of_decide_eq_false hcap))

/-- Settles O47: `overcapacity_run` makes the transfer, nothing being stored at C. -/
theorem divideOvercapacity : Obligations.DivideOvercapacity := by
  rintro i fixed dec f s s1 s2 a b hrow hq hf hc ha hb hdiv hcap hct
  obtain ⟨hp, -⟩ := floatOperands_pass hq ha hb
  have hm := divideOp_over (i := i) hf hc ha hb (fun h => by rwa [if_pos h] at hdiv) hcap
  have pass := hp.trans (floatPasses_overcapacity s2)
  have hrun := hm.trans (overcapacity_run (hp.env.trans hq) hct i (a.bad || b.bad))
  have hframe := pass.frame.trans (frame_transferred s2.claimed.unfloated.noAc (if a.bad || b.bad then utParity else utDivide) i)
  have hsel : s2.claimed.unfloated.noAc.sel = s.sel := (congrArg State.sel pass.outside :)
  have hreg : s2.claimed.unfloated.noAc.reg s.cur utrIx = s2.reg s.cur utrIx := reg_claimed s2 s.cur utrIx
  rw [pass.cur, hsel, hreg] at hframe
  simp only [List.append_nil, List.nil_append] at hframe
  exact ⟨_, (divide_run hrow).trans (perform_ok hrun), rfl, pass.pcr, rfl, hframe⟩

end Sys2Proof.Settled
end

section
/-! SUPPORT. FFN and FCON (R556, R558): what they compute, and the instructions run. -/
namespace Sys2Proof.Machine

/-! ### Normalization (R556) -/

/-- A number of at most `n` digits, shifted left over its leading zeros. -/
theorem leadingZeros_shifts {n v : Nat} (h0 : v ≠ 0) (hlt : v < 16 ^ n) :
    16 ^ (n - 1) ≤ v * 16 ^ leadingZeros n v ∧ v * 16 ^ leadingZeros n v < 16 ^ n := by
  induction n with
  | zero => omega
  | succ n ih =>
    rw [leadingZeros, Nat.add_sub_cancel]
    split
    · next h => simpa using ⟨h, hlt⟩
    · next h =>
      obtain ⟨hlow, hhigh⟩ := ih (by omega)
      obtain ⟨m, rfl⟩ : ∃ m, n = m + 1 := ⟨n - 1, by cases n <;> omega⟩
      rw [Nat.add_sub_cancel] at hlow
      have hmul : v * 16 ^ (1 + leadingZeros (m + 1) v) = v * 16 ^ leadingZeros (m + 1) v * 16 := by ring
      rw [hmul]
      exact ⟨by rw [pow_succ]; exact Nat.mul_le_mul_right _ hlow, by rw [pow_succ _ (m + 1)]; omega⟩

/-- FFN (R556): a number of eleven digits, shifted until the first of twenty is not zero. -/
theorem floatNormalize_values (p : Bool) (t : Int) {v : Nat} (h0 : v ≠ 0) (hlt : v < 16 ^ 11) :
    ∃ d hi lo : Nat, floatNormalize p t v = ⟨fpWord p (t - d) hi, fpWord p (t - d - 10) lo, t - d, t - d - 10⟩ ∧
      hi * 16 ^ 10 + lo = v * 16 ^ (9 + d) ∧ 16 ^ 9 ≤ hi ∧ hi < 16 ^ 10 ∧ lo < 16 ^ 10 := by
  unfold floatNormalize
  rw [if_neg h0]
  by_cases hbig : 16 ^ 10 ≤ v
  · rw [if_pos hbig]
    exact ⟨0, v / 16, v % 16 * 16 ^ 9, by simp, by omega, by omega, by omega, by omega⟩
  · rw [if_neg hbig]
    obtain ⟨hlow, hhigh⟩ := leadingZeros_shifts (n := 10) h0 (Nat.not_le.mp hbig)
    exact ⟨leadingZeros 10 v + 1, v * 16 ^ leadingZeros 10 v, 0, by push_cast; rfl, by ring, hlow, hhigh, by decide⟩

/-! ### Conversion (R558) -/

theorem mag_setFld (w : Word) (v : BitVec 44) : mag (setFld w 5 48 v) = v.toNat :=
  congrArg BitVec.toNat (fld_setFld_self (i := 5) (j := 48) w v (by decide) (by decide))

theorem mantissa_setFld (w : Word) (v : BitVec 40) : mantissa (setFld w 9 48 v) = v.toNat :=
  congrArg BitVec.toNat (fld_setFld_self (i := 9) (j := 48) w v (by decide) (by decide))

/-- A number below `10 ^ 11` fits a magnitude as decimal digits. -/
theorem decimalValue_ofNat {v : Nat} (h : v < 10 ^ 11) :
    toDecimal 11 v < 2 ^ 44 ∧ decimalValue 11 (toDecimal 11 v) = v :=
  ⟨(toDecimal_lt 11 v).trans_eq (by norm_num), (decimalValue_toDecimal 11 v).trans (Nat.mod_eq_of_lt h)⟩

/-- FCON type 1 (R558): the decimal number times `2 ^ 40` divided by `10 ^ 11`, with the remainder. -/
theorem convertToBinary_values (free : Word) {b : Word} (h : isDecimal 11 (mag b) = true) :
    Word.HasSignExponent (convertToBinary free b).flac (posSign b) 64 ∧
      mantissa (convertToBinary free b).flac * 10 ^ 11 + decimalValue 11 (mag (convertToBinary free b).flop) =
        decimalValue 11 (mag b) * 2 ^ 40 := by
  have hd := decimalValue_lt h
  unfold convertToBinary
  dsimp only
  generalize decimalValue 11 (mag b) = d at *
  obtain ⟨hlt, hval⟩ := decimalValue_ofNat (v := d * 2 ^ 40 % 10 ^ 11) (Nat.mod_lt _ (by decide))
  refine ⟨hasSignExponent_fpWord _ _ _, ?_⟩
  rw [mantissa_fpWord, mag_setFld, BitVec.toNat_ofNat, Nat.mod_eq_of_lt hlt, hval]
  omega

/-- FCON type 4 (R558): the binary fraction times `10 ^ 11` divided by `2 ^ 40`, with the remainder. -/
theorem convertToDecimal_values (free b : Word) :
    fld (convertToDecimal free b).flac 1 4 = (if mantissa b = 0 then 0b1000#4 else if bitAt b 1 then 0b1111#4 else 0#4) ∧
      decimalValue 11 (mag (convertToDecimal free b).flac) * 2 ^ 40 + mantissa (convertToDecimal free b).flop = mantissa b * 10 ^ 11 := by
  have hm := mantissa_lt b
  unfold convertToDecimal
  dsimp only
  generalize mantissa b = m at *
  obtain ⟨hlt, hval⟩ := decimalValue_ofNat (v := m * 10 ^ 11 / 2 ^ 40) (by omega)
  generalize toDecimal 11 (m * 10 ^ 11 / 2 ^ 40) = q at *
  have hsign : (if m = 0 then 8 else if bitAt b 1 then 15 else 0) < 16 := by split <;> [decide; split <;> decide]
  constructor
  · apply BitVec.eq_of_toNat_eq
    rw [toNat_fld, BitVec.toNat_ofNat]
    generalize hk : (if m = 0 then 8 else if bitAt b 1 then 15 else 0) = k at *
    rw [show (k * 2 ^ 44 + q) % 2 ^ 48 / 2 ^ (48 - 4) % 2 ^ (4 + 1 - 1) = k by omega, ← hk]
    split
    · rfl
    · split <;> rfl
  · generalize (if m = 0 then 8 else if bitAt b 1 then 15 else 0) = k at *
    rw [mag_eq, mantissa_setFld, BitVec.toNat_ofNat, BitVec.toNat_ofNat, show (k * 2 ^ 44 + q) % 2 ^ 48 % 2 ^ 44 = q by omega, hval]
    omega

/-! ### The instructions run -/

section
variable {i : Instr} {f : Gen} {s s1 s2 : State} {a b : FpOperand}

theorem normalizeOp_operands (hf : s.cfg.fpu = true) (hc : f.c = inactiveGroup → f.dC = false)
    (hab : ¬ (f.a = inactiveGroup ∧ f.b = inactiveGroup))
    (ha : floatOperand f.a f.dA s.begun = .ok (a, s1)) (hb : floatOperand f.b f.dB s1 = .ok (b, s2)) :
    normalizeOp i f s = deliverFloat i f (a.flac || b.flac) false false (a.bad || b.bad)
      (floatNormalize (if b.flac && !s2.flacFixed then bitAt b.word 1 else posSign b.word) a.e
        (if b.flac && !s2.flacFixed then mantissa b.word else mag b.word)) s2 := by
  have hflac : ¬ (a.flac && b.flac) = true := by
    rw [floatOperand_flac ha, floatOperand_flac hb]
    simpa using hab
  unfold normalizeOp
  rw [optionGate_operands hf hc ha hb, Op.bind_ok ha, Op.bind_ok hb, Op.bind_ok (Op.get_run s2), if_neg hflac]

/-- The number FFN normalizes has at most eleven digits. -/
theorem normalized_lt (float : Bool) (w : Word) : (if float then mantissa w else mag w) < 16 ^ 11 := by
  have hm := mantissa_lt w
  have hg := mag_lt w
  split <;> omega

/-- A conversion of type 1 or 4 whose operands pass their checks. -/
theorem convertOp_operands {toDec : Bool} (hf : s.cfg.fpu = true) (hc : f.c = inactiveGroup → f.dC = false) (hA : f.a ≠ inactiveGroup)
    (ha : floatOperand f.a f.dA s.begun = .ok (a, s1)) (hb : floatOperand f.b f.dB s1 = .ok (b, s2))
    (hcheck : a.word.toNat % 3 = 1) (htype : conversionType a.word = if toDec then 4 else 1)
    (hdec : toDec = false → isDecimal 11 (mag b.word) = true) :
    convertOp i f s = deliverFloat i f b.flac false toDec (a.bad || b.bad)
      (if toDec then convertToDecimal (Config.freeWord s2.free) b.word else convertToBinary (Config.freeWord s2.free) b.word)
      { s2 with free := s2.free + 1 } := by
  unfold convertOp
  rw [optionGate_operands hf hc ha hb, Op.bind_ok (isInactive_active hA _ _), if_neg (by decide), Op.bind_ok ha, Op.bind_ok hb,
    Op.bind_ok (Op.get_run s2), if_neg (not_not.mpr hcheck)]
  cases toDec with
  | false =>
    rw [show conversionType a.word = 1 from htype, if_pos rfl, if_pos (hdec rfl), Op.bind_ok (Op.fresh_run s2),
      if_neg Bool.false_ne_true]
  | true =>
    rw [show conversionType a.word = 4 from htype, if_neg (by decide), if_pos rfl, Op.bind_ok (Op.fresh_run s2), if_pos rfl]

end

end Sys2Proof.Machine
end

section
/-! PROOFS. The statements about FFN and FCON. -/
namespace Sys2Proof.Settled
open Sys2Proof.Machine

/-- Settles O48: `floatNormalize_values` says what the result is. -/
theorem normalizeInstruction : Obligations.NormalizeInstruction := by
  rintro f s s1 s2 u a b float sign V r ovf unf words hq hw hf hab ha hpa hb hpb hfloat hsign hV hr hk hd
  obtain ⟨hp, hmem⟩ := floatOperands_pass hq ha hb
  have hm := normalizeOp_operands (i := .ffn f) hf (undesignated_of_floatDelivered hd) hab ha hb
  rw [← hfloat, ← hsign, ← hV, ← hr, hpa, hpb] at hm
  obtain ⟨hrun, left, hends⟩ := scientific_ends rfl hm hp hq (by rw [← hmem] at hw; exact hw) hk hd
  refine ⟨⟨_, hrun, rfl, left.flac, fun hc => left.flop (by simp [hc]), left.flacOvf, left.flacUnf, left.flacFixed, left.holds, hends⟩,
    fun h0 => by rw [hr]; exact if_pos h0, fun h0 => ?_⟩
  obtain ⟨d, hi, lo, hout, hval, hfirst, hhi, hlo⟩ := floatNormalize_values sign a.e h0 (by rw [hV]; exact normalized_lt _ _)
  rw [hr, hout]
  dsimp only
  rw [mantissa_fpWord, mantissa_fpWord, Nat.mod_eq_of_lt (by omega), Nat.mod_eq_of_lt (by omega)]
  exact ⟨d, rfl, hval, hfirst, rfl, hasSignExponent_fpWord _ _ _, hasSignExponent_fpWord _ _ _⟩

/-- Settles O49: each type is a division of integers. -/
theorem convertInstruction : Obligations.ConvertInstruction := by
  rintro f s s1 s2 u a b r ovf unf toDec words x hq hw hf hA ha hpa hb hpb hcheck htype hdec hr rfl hk hd
  obtain ⟨hp, hmem⟩ := floatOperands_pass hq ha hb
  have hm := convertOp_operands (i := .fcon f) hf (undesignated_of_floatDelivered hd) hA ha hb hcheck htype hdec
  have he : r.e = 64 := by rw [hr]; split <;> rfl
  rw [← hr, hpa, hpb] at hm
  rw [← he] at hk
  obtain ⟨hrun, left, hends⟩ := scientific_ends rfl hm (hp.free _) hq (by rw [← hmem] at hw; exact hw) hk hd
  refine ⟨_, hrun, rfl, left.flac, left.flacFixed, ?_, ?_, left.holds, hends⟩
  · rintro rfl
    obtain ⟨hword, hval⟩ := convertToBinary_values (Config.freeWord s2.free) (hdec rfl)
    rw [if_neg (by decide)] at hr
    rw [left.flac, hr]
    exact ⟨hword, fun hc => by rw [left.flop (by simp [hc]), hr]; exact hval⟩
  · rintro rfl
    obtain ⟨hword, hval⟩ := convertToDecimal_values (Config.freeWord s2.free) b.word
    rw [if_pos rfl] at hr
    rw [left.flac, hr]
    exact ⟨hword, fun hc => by rw [left.flop (by simp [hc]), hr]; exact hval⟩

end Sys2Proof.Settled
end

section
/-! SUPPORT. ULD (R557): the two deliveries, what the registers of the unit hold after them, and that a delivery raises no control error. -/
namespace Sys2Proof.Machine

/-! ### A delivery raises no control error -/

/-- A programmed increment raises none (R215). -/
theorem stepRegister_limited {g : BitVec 3} {i inc : BitVec 5} {s t : State} (h : stepRegister g i inc s = .ok ((), t)) :
    t.limited = s.limited := by
  unfold stepRegister at h
  rw [Op.bind_ok (Op.get_run s)] at h
  split at h
  · cases h; rfl
  · rw [Op.bind_run] at h
    split at h
    · next r u e =>
      obtain ⟨n, rfl⟩ := stepProgrammed_free e
      cases h; rfl
    · cases h

theorem registerLoc_limited {g : BitVec 3} {i inc : BitVec 5} {tab : Bool} {l : Loc} {s t : State}
    (h : registerLoc g i inc tab s = .ok (l, t)) (hl : l ≠ .mem nowhere) : t.limited = s.limited := by
  unfold registerLoc at h
  cases tab with
  | false => cases h; rfl
  | true =>
    rw [if_pos rfl, Op.bind_ok (Op.get_run s), Op.bind_run] at h
    split at h
    · next good u hcheck =>
      rw [Op.bind_run] at h
      split at h
      · next hstep =>
        cases h
        cases good with
        | false => exact absurd rfl hl
        | true => rw [stepRegister_limited hstep, checkExplicit_still hcheck]
      · cases h
    · cases h

/-- An address group that names a location is evaluated without a control error: a register of bad parity names none (R205, log 65). -/
theorem locate_limited {x : Group} {d : Bool} {l : Loc} {s t : State} (hx : x ≠ inactiveGroup) (h : locate x d s = .ok (l, t))
    (hl : l ≠ .mem nowhere) : t.limited = s.limited := by
  unfold locate at h
  rw [Op.bind_ok (isInactive_active hx _ _), if_neg (by decide), Op.bind_ok (Op.get_run s)] at h
  have indexed {v : SReg × Bool × Bool} {u : State} (hv : index x s = .ok (v, u)) (hgood : v.2.1 = true) : u.limited = s.limited := by
    rw [index_still hv hgood]
  cases d <;> cases hb : bitAt x 1 <;> simp only [hb] at h
  case false.false => cases h; rfl
  case false.true =>
    rw [Op.bind_run] at h
    split at h
    · next v u hv =>
      cases h
      refine indexed hv ?_
      cases hgood : v.2.1 with
      | true => rfl
      | false => exact absurd (by rw [hgood]; rfl) hl
    · cases h
  case true.false => exact registerLoc_limited h hl
  case true.true =>
    rw [Op.bind_run] at h
    split at h
    · next v u hv =>
      split at h
      · next hgood => exact (registerLoc_limited h hl).trans (indexed hv hgood)
      · cases h; exact absurd rfl hl
    · cases h

/-- No system has the location that stands for none (R7, R92). -/
theorem not_admits_nowhere (s : State) : ¬ s.admits (.mem nowhere) := by
  rintro ⟨h, -⟩
  unfold State.exists? nowhere at h
  cases hm : s.cfg.mem <;> rw [hm] at h <;> exact absurd h (by decide)

theorem limited_claimed (s : State) : s.claimed.limited = s.limited := by
  obtain ⟨_, _, _, _, _, _, _, _, _, e⟩ := claimed_eq s
  rw [e]

/-- The hunt asked for at the end of an instruction starts from the next group (R630), where no limited error turns the group off first. -/
theorem scan_ended_hunt {s : State} (hl : s.limited = none) (seq : Bool) : (s.ended seq true).scan = some (s.cur + 1) := by
  have hcur : (s.setPcrBit (21 + s.cur.toNat) seq).cur = s.cur := State.cur_setPcrBit s seq (by omega) (by omega)
  unfold State.ended State.hunted
  dsimp only
  rw [State.setPcrBit_limited, hl, hcur]
  rfl

theorem stored_limited (s : State) (l : Loc) (v : MWord) : (s.stored l v).limited = s.limited := by cases l <;> rfl

section
variable {x u : State} {c : Group} {d : Bool} {w : Word} {words : List Nat}

theorem floatDelivered_passes (h : x.floatDelivered c d w u words) : Passes x u (x.named c d) words := by
  rcases h with ⟨-, -, rfl, rfl⟩ | ⟨-, l, v, hl, -, rfl, rfl⟩
  · exact (Passes.quiet rfl rfl rfl rfl).mono (List.nil_subset _) (List.Subset.refl _)
  · obtain ⟨hsteps, hregs⟩ := steps_locate hl
    exact ((Passes.steps hsteps).trans (Passes.stored v l _)).mono (List.append_subset.mpr ⟨List.Subset.refl _, hregs⟩) (List.Subset.refl _)

theorem floatDelivered_limited (h : x.floatDelivered c d w u words) : u.limited = x.limited := by
  rcases h with ⟨-, -, rfl, -⟩ | ⟨hc, l, v, hl, hadm, rfl, -⟩
  · rfl
  · rw [stored_limited]
    exact locate_limited hc hl fun e => not_admits_nowhere v (e ▸ hadm)

theorem floatDelivered_wf (h : x.floatDelivered c d w u words) (hw : x.mem.wf = true) : u.mem.wf = true := by
  rcases h with ⟨-, -, rfl, -⟩ | ⟨-, l, v, hl, -, rfl, -⟩
  · exact hw
  · exact wf_stored (by rw [(steps_locate hl).1.mem]; exact hw) l _

theorem floatDelivered_inactive (h : x.floatDelivered c d w u words) (hc : c = inactiveGroup) : u = x := by
  rcases h with ⟨-, -, rfl, -⟩ | ⟨hne, -⟩
  · rfl
  · exact absurd hc hne

theorem writeResult_active (hq : x.env = []) (h : x.floatDelivered c d w u words) (hc : c ≠ inactiveGroup) :
    writeResult c d (MWord.good w) x = .ok ((), u) := by
  rcases h with ⟨hinactive, -⟩ | ⟨-, l, v, hl, hadm, rfl, -⟩
  · exact absurd hinactive hc
  · unfold writeResult
    rw [Op.bind_ok hl, store_admitted ((steps_locate hl).1.env.trans hq) hadm]

/-- A delivery run, and what comes after it. -/
theorem writeResult_delivered (hq : x.env = []) (h : x.floatDelivered c d w u words) (g : Unit → Op Unit) :
    (if decide (c = inactiveGroup) = true then g () else writeResult c d (MWord.good w) >>= g) x = g () u := by
  by_cases hc : c = inactiveGroup
  · rw [decide_eq_true hc, if_pos rfl, floatDelivered_inactive h hc]
  · rw [decide_eq_false hc, if_neg (by decide), Op.bind_ok (writeResult_active hq h hc)]

end

/-! ### The registers of the unit after ULD -/

/-- The state in which ULD delivers: `FLOP` a free value where a hunt may have come between (U60). -/
def State.unloading (v : State) : State := State.noAc { v with free := if v.flopHeld then v.free else v.free + 1 }

/-- The low-order word taken, and what comes after it. -/
theorem lowOrder_taken (v : State) (g : Word → Op Unit) :
    (if v.flopHeld = true then pure v.flop >>= g else fresh >>= g) v =
      g (if v.flopHeld then v.flop else Config.freeWord v.free) { v with free := if v.flopHeld then v.free else v.free + 1 } := by
  by_cases h : v.flopHeld = true
  · rw [if_pos h, if_pos h, if_pos h]; rfl
  · rw [if_neg h, if_neg h, if_neg h]; rfl

/-- What ULD leaves in the unit, A being inactive (`ia`) or C (`ic`): with an inactive C the low-order word in `FLAC`; with an active one and an
inactive A free values. -/
def State.unloadLeft (u : State) (ia ic : Bool) (low : Word) : State :=
  State.unloaded (if ic then { u with flac := low }
    else if ia then { u with flac := Config.freeWord u.free, flacFixed := Config.freeBool (u.free + 1), free := u.free + 2 }
    else u)

theorem unloadLeft_eq (u : State) (ia ic : Bool) (low : Word) :
    ∃ a b n, u.unloadLeft ia ic low =
      { u with flac := a, flacOvf := false, flacUnf := false, flacFixed := b, fpuGroup := some u.cur, free := n } := by
  unfold State.unloadLeft
  split
  · exact ⟨_, _, _, rfl⟩
  · split <;> exact ⟨_, _, _, rfl⟩

theorem unloadLeft_same (u : State) (ia ic : Bool) (low : Word) :
    (u.unloadLeft ia ic low).flop = u.flop ∧ (u.unloadLeft ia ic low).limited = u.limited ∧
      ∀ n v, u.holds (.mem n) v → (u.unloadLeft ia ic low).holds (.mem n) v := by
  obtain ⟨a, b, n, e⟩ := unloadLeft_eq u ia ic low
  rw [e]
  exact ⟨rfl, rfl, fun _ _ h => h⟩

theorem unloadLeft_flac (u : State) (ia ic : Bool) (low : Word) :
    (ic = true → (u.unloadLeft ia ic low).flac = low) ∧ (ic = false → ia = false → (u.unloadLeft ia ic low).flac = u.flac) ∧
      (ic = true ∨ ia = false → (u.unloadLeft ia ic low).flacFixed = u.flacFixed) := by
  unfold State.unloadLeft State.unloaded
  cases ic with
  | true => exact ⟨fun _ => rfl, nofun, fun _ => rfl⟩
  | false => exact ⟨nofun, fun _ h => by rw [h]; rfl, fun h => by rw [h.resolve_left nofun]; rfl⟩

theorem floatPasses_unloadLeft (u : State) (ia ic : Bool) (low : Word) :
    FloatPasses u (u.unloadLeft ia ic low) [] [] ∧ (u.unloadLeft ia ic low).fpuGroup = some u.cur := by
  obtain ⟨a, b, n, e⟩ := unloadLeft_eq u ia ic low
  rw [e]
  exact ⟨⟨rfl, rfl, Frame.same rfl rfl⟩, rfl⟩

theorem floatPasses_unloading (s : State) : FloatPasses s s.claimed.unloading [] [] ∧ s.claimed.unloading.mem = s.mem :=
  ⟨(floatPasses_claimed s).1.trans (.of_passes (.quiet rfl rfl rfl rfl)), (floatPasses_claimed s).2⟩

/-! ### ULD -/

/-- ULD with no exponent indicator set. -/
theorem unloadOp_run {i : Instr} {f : Gen} {s s2 u : State} {low : Word} {wordsA wordsC : List Nat} (hq : s.env = [])
    (hf : s.cfg.fpu = true) (hb : f.b = inactiveGroup) (hdb : f.dB = false) (hev : unloadEvent s.claimed = none)
    (hlow : low = if s.claimed.flopHeld then s.claimed.flop else Config.freeWord s.claimed.free)
    (hA : s.claimed.unloading.floatDelivered f.a f.dA s.claimed.flac s2 wordsA) (hC : s2.floatDelivered f.c f.dC low u wordsC) :
    unloadOp i f s = .ok ((), (u.unloadLeft (decide (f.a = inactiveGroup)) (decide (f.c = inactiveGroup)) low).ended f.seq
      (f.c != inactiveGroup)) := by
  have q1 := (floatPasses_unloading s).1.env.trans hq
  have qA : s2.env = [] := (floatDelivered_passes hA).env.trans q1
  unfold unloadOp claim noAc
  rw [Op.bind_ok (Op.get_run s), if_neg (by rw [hf]; decide),
    Op.bind_ok (isInactive_decided (undesignated_of_floatDelivered hA) s), Op.bind_ok (isInactive_of hb hdb s),
    Op.bind_ok (isInactive_decided (undesignated_of_floatDelivered hC) s), if_neg (by decide), Op.bind_ok (Op.update_run _ s),
    Op.bind_ok (Op.get_run _)]
  dsimp only
  rw [lowOrder_taken, ← hlow, Op.bind_ok (Op.update_run _ _)]
  refine (writeResult_delivered q1 hA _).trans ?_
  by_cases hc : f.c = inactiveGroup
  · obtain rfl : u = s2 := floatDelivered_inactive hC hc
    rw [decide_eq_true hc, if_pos rfl, Op.bind_ok (Op.update_run _ _), Op.bind_ok (Op.update_run _ _), hev, bne_eq_false_iff_eq.mpr hc]
    rfl
  · rw [decide_eq_false hc, if_neg (by decide), Op.bind_ok (writeResult_active qA hC hc), hev, bne_iff_ne.mpr hc]
    by_cases ha : f.a = inactiveGroup
    · rw [decide_eq_true ha, if_pos rfl]
      rfl
    · rw [decide_eq_false ha, if_neg (by decide)]
      rfl

end Sys2Proof.Machine
end

section
/-! PROOFS. The statement about ULD. -/
namespace Sys2Proof.Settled
open Sys2Proof.Machine

/-- Settles O50: `unloadOp_run` makes the two deliveries; what is left is to read the state it ends in. -/
theorem unloadInstruction : Obligations.UnloadInstruction := by
  rintro f s v s2 u low wordsA wordsC hq hw hf hb hdb rfl hev hlow hA hC
  change s.claimed.unloading.floatDelivered f.a f.dA s.claimed.flac s2 wordsA at hA
  have hrun := unloadOp_run (i := .uld f) hq hf hb hdb hev hlow hA hC
  obtain ⟨p0, m0⟩ := floatPasses_unloading s
  have hw1 : s.claimed.unloading.mem.wf = true := by rw [m0]; exact hw
  obtain ⟨pA, flacA, flopA, -, -, fixedA, -, -, holdsA⟩ := floatDelivered_props hA hw1
  obtain ⟨pC, flacC, flopC, -, -, fixedC, -, -, holdsC⟩ := floatDelivered_props hC (floatDelivered_wf hA hw1)
  obtain ⟨pU, hgroup⟩ := floatPasses_unloadLeft u (decide (f.a = inactiveGroup)) (decide (f.c = inactiveGroup)) low
  obtain ⟨hflop, hlimited, hholds⟩ := unloadLeft_same u (decide (f.a = inactiveGroup)) (decide (f.c = inactiveGroup)) low
  obtain ⟨hlowFlac, hkeptFlac, hkeptFixed⟩ := unloadLeft_flac u (decide (f.a = inactiveGroup)) (decide (f.c = inactiveGroup)) low
  generalize u.unloadLeft (decide (f.a = inactiveGroup)) (decide (f.c = inactiveGroup)) low = t at *
  have pu := (p0.trans (.of_passes pA)).trans (.of_passes pC)
  have pass := pu.trans pU
  have hnamed : s.claimed.unloading.named f.a f.dA = s.named f.a f.dA := named_claimed s f.a f.dA
  have hfree : u.limited = s.limited := by
    rw [floatDelivered_limited hC, floatDelivered_limited hA]
    exact limited_claimed s
  rw [hnamed, List.append_nil, List.nil_append, List.append_nil, List.nil_append] at pass
  rw [pu.cur] at hgroup
  refine ⟨_, perform_ok hrun, hflop.trans (flopC.trans flopA), fun hc => hlowFlac (decide_eq_true hc), fun hc ha => ?_, fun h => ?_,
    fun n hn => holds_ended (hholds n _ (holdsC n hn)) _ _,
    fun n hn hnC => holds_ended (hholds n _ (pC.holds hnC (holdsA n hn))) _ _, fun hc => by rw [hc]; rfl, fun hc hl => ?_,
    pass.ends hgroup _ _⟩
  · exact (hkeptFlac (decide_eq_false hc) (decide_eq_false ha)).trans (flacC.trans flacA)
  · exact (hkeptFixed (h.imp (fun h => decide_eq_true h) fun h => decide_eq_false h)).trans (fixedC.trans fixedA)
  · rw [bne_iff_ne.mpr hc, scan_ended_hunt (hlimited.trans (hfree.trans hl)), pass.cur]

end Sys2Proof.Settled
end
